-- ==== Sys2Proof/Word.lean ====
section
/-! DEFINITION. The machine's words and the fixed-size tables of them. Nothing here has a meaning of
its own: meanings stand in Decode.lean and Machine/. -/

namespace Sys2Proof

/-- A scalar or address register's content (R15, R124). -/
abbrev Word := BitVec 64
/-- A tile or accumulator container (R162). -/
abbrev Cont := BitVec 32
/-- A virtual address of 48 bits (R25, R124). -/
abbrev VAddr := BitVec 48
/-- A byte of memory. -/
abbrev Byte := BitVec 8

/-- A table of `n` entries, entry `i` being `f i`. -/
def tabulate {α : Type} (n : Nat) (f : Fin n → α) : Vector α n :=
  ⟨⟨List.ofFn f⟩, by simp⟩

/-- 16 rows of 64 entries: a tile's containers. -/
abbrev Grid := Vector (Vector Cont 64) 16
/-- 16 rows of 64 bits: a mask (R168). -/
abbrev Mask := Vector (BitVec 64) 16

/-- Container (i, j) of a grid. -/
def Grid.at (g : Grid) (i : Fin 16) (j : Fin 64) : Cont := (g.get i).get j

/-- The grid whose container (i, j) is `f i j`. -/
def Grid.ofFn (f : Fin 16 → Fin 64 → Cont) : Grid := tabulate 16 fun i => tabulate 64 fun j => f i j

/-- The grid of zeros. -/
def Grid.zero : Grid := Vector.replicate 16 (Vector.replicate 64 0)

/-- Bit (i, j) of a mask. -/
def Mask.at (m : Mask) (i : Fin 16) (j : Fin 64) : Bool := (m.get i).getLsb j

/-- The mask whose bit (i, j) is `f i j`. -/
def Mask.ofFn (f : Fin 16 → Fin 64 → Bool) : Mask :=
  tabulate 16 fun i => BitVec.ofBoolListLE ((List.ofFn (f i))) |>.setWidth 64

/-- All ones and all zeros. -/
def Mask.ones : Mask := Vector.replicate 16 (BitVec.allOnes 64)
def Mask.zero : Mask := Vector.replicate 16 0

end Sys2Proof
end

