-- ==== Sys2Proof/Config.lean ====
section
/-! DEFINITION. What no rule of the spec fixes: the free values. They have no body, so nothing can be proved of
their values, and a claim that holds for a run holds whatever they are. Each is applied to the counter `fresh` of the
state, which the step that takes it advances. -/

namespace Sys2Proof

/-- A choice that the spec leaves to the hardware: which of two values a read returns (R141, R280), how soon a barrier
releases (R430) (log entry 5). -/
opaque Config.freeBit : Nat → Bool

/-- A number that the spec leaves open (log entry 5). -/
opaque Config.freeWord : Nat → BitVec 64

/-- The events of caches, TLBs and HBM that a counter counts, applied to the time, the counter's number and its count (log
entry 38). -/
opaque Config.cacheEvents : Nat → Nat → Nat → Nat

/-- Which of the older values of a code word a fetch reads, or the present one (R28; log entry 22): applied to the time, the
context and the word's address. -/
opaque Config.oldCode : Nat → Nat → Nat → Nat

/-- The chip at which a route ends that leaves a chip by some ports, one a hop: the pod's links fix it, and the spec does not
give them (log entry 55). -/
opaque Config.routeEnd : BitVec 12 → List (BitVec 4) → BitVec 12

/-- Whether a special function's exact value lies above the rounding boundary, where the model's bounds do not separate
the two (log entry 7): applied to the function's opcode and the argument's numerator and denominator. -/
opaque Config.sfuAbove : Nat → Int → Nat → Bool

end Sys2Proof
end

