-- ==== Sys2Proof/Syntax.lean ====
section
/-! DEFINITION. The instructions: one constructor per row of spec/opcode_table.json. The syllables of a bundle come
first, each with exactly the operands that its encoding carries (04_opcode_map R48-R68). After them stand the steps of
the machine's agents (95_what_each_step_holds): their rows carry no field, so which agent moves, and with what, is plain
data of the state (State.move in Machine/State.lean). -/

namespace Sys2Proof

/-- s0-s63 (R15). -/
abbrev SReg := Fin 64
/-- a0-a15, each with its descriptor (R124). -/
abbrev AReg := Fin 16
/-- p0-p15 (R93). -/
abbrev PReg := Fin 16
/-- t0-t31 (R162). -/
abbrev TReg := Fin 32
/-- c0-c7 (R204). -/
abbrev CReg := Fin 8
/-- k0-k7 (R168). -/
abbrev KReg := Fin 8
/-- lv0-lv15 (R227). -/
abbrev LvReg := Fin 16
/-- A 3-bit port field; 6 and 7 are refused (R39). -/
abbrev Port := BitVec 3

/-- A predicate p with its negation n: the slot executes when P[p] XOR n is 1 (R47). -/
structure Guard where
  p : PReg
  n : Bool
deriving DecidableEq, Repr

/-- A tile source with the port it uses (R39). -/
structure TSrc where
  t : TReg
  port : Port
deriving DecidableEq, Repr

/-- The combined target of MS and VL: t0-t31 or c0-c7 (R46). -/
inductive XReg where
  | t (r : TReg)
  | c (r : CReg)
deriving DecidableEq, Repr

/-- The rounding modes of R73. -/
inductive Rm where
  | rne | rz | rdn | rup
deriving DecidableEq, Repr

/-- The relations of FCMP (R59). -/
inductive FRel where
  | eq | lt | le | un
deriving DecidableEq, Repr

/-- The latent slots RS, RB, CS, CB (R225). -/
inductive LSlot where
  | rs | rb | cs | cb
deriving DecidableEq, Repr

/-- The memory operand of an A-slot access (R50). -/
structure AMem where
  a : AReg
  g : Guard
  /-- 0 to 3 for 8, 16, 32 and 64 bits -/
  width : BitVec 2
  loc : Bool
  post : Bool
  /-- signed, scaled by the width in bytes -/
  off : BitVec 6
deriving DecidableEq, Repr

/-- The memory operand of a tile access (R51). -/
structure TMem where
  a : AReg
  sel : BitVec 5
  post : Bool
  g : Guard
deriving DecidableEq, Repr

/-- The registers of a copy or fabric command (R253). -/
structure CopyOps where
  tok : SReg
  dst : AReg
  src : AReg
  len : SReg
deriving DecidableEq, Repr

/-- The record selector, mask and guard of a vector syllable (R52). -/
structure VCtl where
  sel : BitVec 5
  k : KReg
  p : PReg
deriving DecidableEq, Repr

/-- The repeat fields of a product (R53). -/
structure Rep where
  rep : BitVec 10
  a : AReg
  inc : BitVec 2
deriving DecidableEq, Repr

/-- One instruction or step: the rows of spec/opcode_table.json. -/
inductive Instr where
  /-- BR (R106): Branches to PC + 2 x offset when the guard holds. -/
  | br (g : Guard) (off : BitVec 21)
  /-- CALL (R106): Branches to PC + 2 x offset and writes the return address to s62. -/
  | call (off : BitVec 21)
  /-- BRI (R106): Branches to the address held in a scalar register. -/
  | bri (s : SReg)
  /-- RET (R106): Branches to the address in s62. -/
  | ret
  /-- LOOP_IMM (R107): Pushes a loop level with an immediate count over the following body. -/
  | loopImm (count : BitVec 12) (len : BitVec 13)
  /-- LOOP_REG (R107): Pushes a loop level whose count comes from a scalar register. -/
  | loopReg (s : SReg) (len : BitVec 13)
  /-- LOOPX (R107): Removes the innermost loop level. -/
  | loopx
  /-- LBUF (R111): Tags the next n issued bundles to be stored in and issued from the loop buffer. -/
  | lbuf (n : BitVec 7)
  /-- MARKER (R112): Computes drift against an expected sc and logs it when it exceeds DRIFT_THRESH. -/
  | marker (e : BitVec 26)
  /-- YIELD (R113): Hands the issue width to the next ready context after the bundle commits. -/
  | yield
  /-- EXIT (R114): Ends the task with an exit code, stopping issue and waiting for its operations to drain. -/
  | exit (code : BitVec 26)
  /-- TRAP (R380): Raises a software trap with cause 0x0F after the C slot commits. -/
  | trap (code : BitVec 26)
  /-- ERET (R381): Returns from supervisor mode to the task, resuming the bundle at TEPC or its remaining slots. -/
  | eret
  /-- SYSRD (R119): Reads a system register into a scalar register. -/
  | sysrd (s : SReg) (num : BitVec 12)
  /-- SYSWR (R119): Writes a scalar register to a system register. -/
  | syswr (s : SReg) (num : BitVec 12)
  /-- RFMODE (R115): Keeps, wakes or puts to sleep each register-file cluster by a 4-bit mask. -/
  | rfmode (mask : BitVec 4)
  /-- FMTBASE (R116): Sets FBASE for loop-indexed format selection. -/
  | fmtbase (b : BitVec 4)
  /-- BKPT (R117): Faults with cause 0x10 after the C slot commits. -/
  | bkpt (code : BitVec 26)
  /-- TRACE (R118): Sends a scalar payload, kind and timestamp to the die's trace FIFO. -/
  | trace (s : SReg) (kind : BitVec 8)
  /-- ADD (R95): Adds two scalars modulo 2^64. -/
  | add (d a b : SReg) (g : Guard)
  /-- SUB (R95): Subtracts two scalars modulo 2^64. -/
  | sub (d a b : SReg) (g : Guard)
  /-- MUL (R95): Multiplies two scalars modulo 2^64. -/
  | mul (d a b : SReg) (g : Guard)
  /-- MULH (R95): Returns the high 64 bits of the signed 128-bit product. -/
  | mulh (d a b : SReg) (g : Guard)
  /-- MULHN (R95): Returns the high 64 bits of the unsigned 128-bit product. -/
  | mulhn (d a b : SReg) (g : Guard)
  /-- DIV (R95): Divides signed, truncating towards zero, with defined results for zero and overflow. -/
  | div (d a b : SReg) (g : Guard)
  /-- DIVN (R95): Divides unsigned, truncating. -/
  | divn (d a b : SReg) (g : Guard)
  /-- REM (R95): Returns the signed remainder, taking the dividend's sign. -/
  | rem (d a b : SReg) (g : Guard)
  /-- REMN (R95): Returns the unsigned remainder. -/
  | remn (d a b : SReg) (g : Guard)
  /-- AND (R95): Bitwise AND of two scalars. -/
  | and (d a b : SReg) (g : Guard)
  /-- OR (R95): Bitwise OR of two scalars. -/
  | or (d a b : SReg) (g : Guard)
  /-- XOR (R95): Bitwise XOR of two scalars. -/
  | xor (d a b : SReg) (g : Guard)
  /-- SHL (R95): Shifts left by the low six bits of b. -/
  | shl (d a b : SReg) (g : Guard)
  /-- SHR (R95): Shifts right logically by the low six bits of b. -/
  | shr (d a b : SReg) (g : Guard)
  /-- SRA (R95): Shifts right arithmetically by the low six bits of b. -/
  | sra (d a b : SReg) (g : Guard)
  /-- MIN (R95): Returns the lesser of two signed scalars. -/
  | min (d a b : SReg) (g : Guard)
  /-- MAX (R95): Returns the greater of two signed scalars. -/
  | max (d a b : SReg) (g : Guard)
  /-- MINN (R95): Returns the lesser of two unsigned scalars. -/
  | minn (d a b : SReg) (g : Guard)
  /-- MAXN (R95): Returns the greater of two unsigned scalars. -/
  | maxn (d a b : SReg) (g : Guard)
  /-- CLZ (R95): Counts the leading zero bits of a scalar. -/
  | clz (d a : SReg) (g : Guard)
  /-- POPC (R95): Counts the one bits of a scalar. -/
  | popc (d a : SReg) (g : Guard)
  /-- SEL (R96): Selects one of two scalars by a predicate. -/
  | sel (d a b : SReg) (g : Guard)
  /-- ADDI (R97): Adds a sign-extended 13-bit immediate. -/
  | addi (d a : SReg) (imm : BitVec 13)
  /-- ANDI (R97): ANDs with a sign-extended immediate. -/
  | andi (d a : SReg) (imm : BitVec 13)
  /-- ORI (R97): ORs with a sign-extended immediate. -/
  | ori (d a : SReg) (imm : BitVec 13)
  /-- XORI (R97): XORs with a sign-extended immediate. -/
  | xori (d a : SReg) (imm : BitVec 13)
  /-- SHLI (R97): Shifts left by an immediate amount. -/
  | shli (d a : SReg) (amt : BitVec 6)
  /-- SHRI (R97): Shifts right logically by an immediate amount. -/
  | shri (d a : SReg) (amt : BitVec 6)
  /-- SRAI (R97): Shifts right arithmetically by an immediate amount. -/
  | srai (d a : SReg) (amt : BitVec 6)
  /-- MULI (R97): Multiplies by a sign-extended immediate modulo 2^64. -/
  | muli (d a : SReg) (imm : BitVec 13)
  /-- MOVI (R98): Writes a sign-extended 19-bit immediate. -/
  | movi (d : SReg) (imm : BitVec 19)
  /-- MOVK (R98): Writes 16 bits into one quarter of a scalar, keeping the rest. -/
  | movk (d : SReg) (q : BitVec 2) (v : BitVec 16)
  /-- CMPEQ (R99): Sets a predicate to equality or inequality of two scalars. -/
  | cmpeq (pd : PReg) (a b : SReg) (g : Guard) (alt : Bool)
  /-- CMPLT (R99): Sets a predicate to a signed less-than or less-or-equal comparison. -/
  | cmplt (pd : PReg) (a b : SReg) (g : Guard) (alt : Bool)
  /-- CMPLTN (R99): Sets a predicate to an unsigned less-than or less-or-equal comparison. -/
  | cmpltn (pd : PReg) (a b : SReg) (g : Guard) (alt : Bool)
  /-- PAND (R99): ANDs two predicates, each optionally negated. -/
  | pand (pd pa pb : PReg) (g : Guard) (na nb : Bool)
  /-- POR (R99): ORs two predicates, each optionally negated. -/
  | por (pd pa pb : PReg) (g : Guard) (na nb : Bool)
  /-- PXOR (R99): XORs two predicates, each optionally negated. -/
  | pxor (pd pa pb : PReg) (g : Guard) (na nb : Bool)
  /-- PMOV (R99): Copies a predicate, optionally negated. -/
  | pmov (pd pa : PReg) (g : Guard) (na : Bool)
  /-- FADD (R101): Adds two FP32 values with one rounding. -/
  | fadd (d a b : SReg) (g : Guard) (rm : Rm)
  /-- FSUB (R101): Subtracts two FP32 values with one rounding. -/
  | fsub (d a b : SReg) (g : Guard) (rm : Rm)
  /-- FMUL (R101): Multiplies two FP32 values with one rounding. -/
  | fmul (d a b : SReg) (g : Guard) (rm : Rm)
  /-- FFMA (R101): Computes a x b + d exactly with one FP32 rounding. -/
  | ffma (d a b : SReg) (g : Guard) (rm : Rm)
  /-- FMIN (R101): Returns the IEEE minimumNumber of two FP32 values. -/
  | fmin (d a b : SReg) (g : Guard)
  /-- FMAX (R101): Returns the IEEE maximumNumber of two FP32 values. -/
  | fmax (d a b : SReg) (g : Guard)
  /-- FCVTI (R103): Converts FP32 to a signed 64-bit integer by the mode. -/
  | fcvti (d a : SReg) (g : Guard) (rm : Rm)
  /-- FCVTF (R103): Converts a signed 64-bit integer to FP32. -/
  | fcvtf (d a : SReg) (g : Guard) (rm : Rm)
  /-- FCMP (R102): Writes 1 or 0 for an FP32 relation eq, lt, le or unordered. -/
  | fcmp (d a b : SReg) (g : Guard) (rel : FRel)
  /-- FCVTB (R103): Converts FP32 to BF16 by the mode. -/
  | fcvtb (d a : SReg) (g : Guard) (rm : Rm)
  /-- MOVLI (R104): Writes the iteration index of a loop level to a scalar. -/
  | movli (d : SReg) (lvl : BitVec 6) (g : Guard)
  /-- DCHK (R105): Faults 0x09 when two duplicated scalar results differ. -/
  | dchk (a b : SReg) (g : Guard)
  /-- AMOV (R133): Copies one address register to another. -/
  | amov (ad aa : AReg) (g : Guard)
  /-- AADD (R133): Adds a scalar to an address register. -/
  | aadd (ad aa : AReg) (s : SReg) (g : Guard)
  /-- AADDI (R133): Adds a signed 22-bit immediate to an address register. -/
  | aaddi (ad : AReg) (imm : BitVec 22)
  /-- AINC (R133): Advances a generator and writes the advanced address. -/
  | ainc (ad aa : AReg) (g : Guard)
  /-- AGSET (R133): Writes a field of a generator descriptor from a scalar. -/
  | agset (ad : AReg) (s : SReg) (fld : BitVec 7) (g : Guard)
  /-- AGRD (R133): Reads a field of a generator descriptor into a scalar. -/
  | agrd (s : SReg) (aa : AReg) (fld : BitVec 7) (g : Guard)
  /-- AIDX (R133): Adds a scaled indirect-table entry to an address register. -/
  | aidx (ad aa : AReg) (s : SReg) (g : Guard)
  /-- ARD (R133): Copies an address register to a scalar. -/
  | ard (s : SReg) (aa : AReg) (g : Guard)
  /-- LD (R134): Loads 1 to 8 bytes from global memory or scratchpad into a scalar. -/
  | ld (s : SReg) (m : AMem) (sign : Bool)
  /-- ST (R134): Stores 1 to 8 bytes of a scalar to global memory or scratchpad. -/
  | st (m : AMem) (s : SReg)
  /-- PREF (R134): Prefetches a line into the L1, never faulting on the address. -/
  | pref (m : AMem)
  /-- TLD (R150): Loads a tile from global memory with hidden latency. -/
  | tld (t : TReg) (m : TMem)
  /-- TST (R150): Stores a tile's active elements to global memory. -/
  | tst (t : TReg) (m : TMem) (port : Port)
  /-- TLDL (R150): Loads a tile from scratchpad through a view with exposed latency. -/
  | tldl (t : TReg) (m : TMem) (swz : Bool)
  /-- TSTL (R150): Stores a tile to scratchpad through a view. -/
  | tstl (t : TReg) (m : TMem) (swz : Bool) (port : Port)
  /-- SPILL (R160): Copies a tile or accumulator with its state into a silo slot. -/
  | spill (x : XReg) (slot : BitVec 6) (g : Guard) (port : Port)
  /-- FILL (R160): Restores a tile or accumulator from a silo slot with hidden latency. -/
  | fill (x : XReg) (slot : BitVec 6) (g : Guard)
  /-- COPY (R256): Queues an asynchronous byte copy on the copy engine with a token. -/
  | copy (o : CopyOps) (flags : BitVec 6)
  /-- COPYG (R257): Queues a row gather through the source descriptor's indirect table. -/
  | copyg (o : CopyOps) (flags : BitVec 6)
  /-- COPYA (R258): Queues an elementwise add of the source stream into the destination. -/
  | copya (o : CopyOps) (flags : BitVec 6)
  /-- ENGQ (R267): Reads the issuing context's copy-queue status into a scalar. -/
  | engq (s : SReg)
  /-- ENGRS (R268): Resumes a context's halted copy queue from byte DONE. -/
  | engrs (ctx : BitVec 2)
  /-- ENGRS_CANCEL (R268): Cancels a context's halted copy queue, completing its commands with error tokens. -/
  | engrsCancel (ctx : BitVec 2)
  /-- PHASE (R284): Sets an order wait, publishes at its scope and refreshes. -/
  | phase (scope : BitVec 2)
  /-- VJOIN (R285): Orders scratchpad accesses until earlier writes are visible in both views. -/
  | vjoin
  /-- AMO (R286): Performs an atomic read-modify-write, load or store with an order and scope. -/
  | amo (d : SReg) (a : AReg) (s : SReg) (op : BitVec 4) (size order scope : BitVec 2)
  /-- WAITM (R289): Waits until a memory location satisfies a condition, then issues as an acquire. -/
  | waitm (d : SReg) (a : AReg) (s : SReg) (cond : BitVec 4) (size scope : BitVec 2)
  /-- QPOST (R354): Posts a 64-byte packet from scratchpad into a device-side queue as a release. -/
  | qpost (s : SReg) (queue : BitVec 18)
  /-- EVSIG (R291): Releases at its scope and increments an event's COUNT. -/
  | evsig (a : AReg) (scope : BitVec 2)
  /-- EVWAIT (R292): Waits until an event is signalled, then issues as an acquire. -/
  | evwait (a : AReg) (scope : BitVec 2)
  /-- SEND (R415): Queues a transmission of a stream to a remote chip's address. -/
  | send (o : CopyOps) (flags : BitVec 6)
  /-- SENDT (R415): Queues the arming of a send triggered by a receive counter. -/
  | sendt (o : CopyOps) (flags : BitVec 6)
  /-- RXSET (R420): Queues setting a receive counter to a scalar value. -/
  | rxset (s : SReg) (rx : BitVec 6)
  /-- FBAR (R429): Publishes at sys scope, arrives at a pod barrier and waits for its release. -/
  | fbar (b : BitVec 8)
  /-- RPOST (R420): Queues a counter increment to a chip's receive counter. -/
  | rpost (s : SReg) (chip : BitVec 12) (rx : BitVec 6)
  /-- TADD (R173): Adds two tiles elementwise with one rounding. -/
  | tadd (td : TReg) (ta tb : TSrc) (v : VCtl)
  /-- TSUB (R173): Subtracts two tiles elementwise. -/
  | tsub (td : TReg) (ta tb : TSrc) (v : VCtl)
  /-- TMUL (R173): Multiplies two tiles elementwise. -/
  | tmul (td : TReg) (ta tb : TSrc) (v : VCtl)
  /-- TFMA (R173): Computes a x b + c elementwise with one rounding. -/
  | tfma (td : TReg) (ta tb tc : TSrc) (v : VCtl)
  /-- TMAX (R173): Elementwise maximumNumber of two tiles. -/
  | tmax (td : TReg) (ta tb : TSrc) (v : VCtl)
  /-- TMIN (R173): Elementwise minimumNumber of two tiles. -/
  | tmin (td : TReg) (ta tb : TSrc) (v : VCtl)
  /-- TABS (R178): Clears the sign or takes the integer absolute value elementwise. -/
  | tabs (td : TReg) (ta : TSrc) (v : VCtl)
  /-- TNEG (R178): Inverts the sign or negates integers elementwise. -/
  | tneg (td : TReg) (ta : TSrc) (v : VCtl)
  /-- TADDS (R174): Adds a scalar FP32 to every element. -/
  | tadds (td : TReg) (ta : TSrc) (s : SReg) (v : VCtl)
  /-- TMULS (R174): Multiplies every element by a scalar FP32. -/
  | tmuls (td : TReg) (ta : TSrc) (s : SReg) (v : VCtl)
  /-- TFMAS (R174): Computes a x scalar + td elementwise. -/
  | tfmas (td : TReg) (ta : TSrc) (s : SReg) (v : VCtl)
  /-- TCMP (R176): Writes a mask from an elementwise comparison of two tiles. -/
  | tcmp (kd : KReg) (ta tb : TSrc) (rel : BitVec 8) (v : VCtl)
  /-- TSEL (R177): Selects elements of two tiles by a mask. -/
  | tsel (td : TReg) (ta tb : TSrc) (v : VCtl)
  /-- TCVT (R175): Converts a tile's elements through the destination record. -/
  | tcvt (td : TReg) (ta : TSrc) (v : VCtl)
  /-- TIADD (R178): Integer elementwise add. -/
  | tiadd (td : TReg) (ta tb : TSrc) (v : VCtl)
  /-- TISUB (R178): Integer elementwise subtract. -/
  | tisub (td : TReg) (ta tb : TSrc) (v : VCtl)
  /-- TIMUL (R178): Integer elementwise multiply. -/
  | timul (td : TReg) (ta tb : TSrc) (v : VCtl)
  /-- TAND (R178): Bitwise AND of element patterns. -/
  | tand (td : TReg) (ta tb : TSrc) (v : VCtl)
  /-- TOR (R178): Bitwise OR of element patterns. -/
  | tor (td : TReg) (ta tb : TSrc) (v : VCtl)
  /-- TXOR (R178): Bitwise XOR of element patterns. -/
  | txor (td : TReg) (ta tb : TSrc) (v : VCtl)
  /-- TSHL (R178): Integer elementwise shift left. -/
  | tshl (td : TReg) (ta tb : TSrc) (v : VCtl)
  /-- TSHR (R178): Integer elementwise shift right. -/
  | tshr (td : TReg) (ta tb : TSrc) (v : VCtl)
  /-- TIMAX (R178): Integer elementwise maximum. -/
  | timax (td : TReg) (ta tb : TSrc) (v : VCtl)
  /-- TIMIN (R178): Integer elementwise minimum. -/
  | timin (td : TReg) (ta tb : TSrc) (v : VCtl)
  /-- TMOV (R179): Copies element bits from one tile to another. -/
  | tmov (td : TReg) (ta : TSrc) (v : VCtl)
  /-- TFILL (R180): Fills active elements with a scalar value. -/
  | tfill (td : TReg) (s : SReg) (v : VCtl)
  /-- TFILLI (R180): Fills active elements with an immediate. -/
  | tfilli (td : TReg) (imm : BitVec 16) (v : VCtl)
  /-- TIOTA (R180): Fills elements with a base plus column, row or linear index. -/
  | tiota (td : TReg) (axis : BitVec 2) (base : BitVec 14) (v : VCtl)
  /-- TSHAPE (R166): Sets a tile's active shape and type, keeping its containers. -/
  | tshape (td : TReg) (rows : BitVec 4) (cols : BitVec 6) (ty : BitVec 4) (p : PReg)
  /-- ROWMOV (R179): Copies one row of a tile to a row of another. -/
  | rowmov (td : TReg) (drow : Fin 16) (ta : TSrc) (srow : Fin 16) (sel : BitVec 5) (p : PReg)
  /-- TGET (R181): Reads one tile element into a scalar. -/
  | tget (s : SReg) (ta : TSrc) (row : Fin 16) (col : Fin 64) (sel : BitVec 5) (p : PReg)
  /-- TSET (R181): Writes one tile element from a scalar. -/
  | tset (td : TReg) (row : Fin 16) (col : Fin 64) (s : SReg) (sel : BitVec 5) (p : PReg)
  /-- RROT (R182): Rotates elements along each row. -/
  | rrot (td : TReg) (ta : TSrc) (s : SReg) (imm : BitVec 8) (v : VCtl)
  /-- CROT (R182): Rotates elements along each column. -/
  | crot (td : TReg) (ta : TSrc) (s : SReg) (imm : BitVec 8) (v : VCtl)
  /-- RBC (R182): Broadcasts one column across each row. -/
  | rbc (td : TReg) (ta : TSrc) (s : SReg) (imm : BitVec 8) (v : VCtl)
  /-- CBC (R182): Broadcasts one row down each column. -/
  | cbc (td : TReg) (ta : TSrc) (s : SReg) (imm : BitVec 8) (v : VCtl)
  /-- RRED (R183): Reduces each row to one element. -/
  | rred (td : TReg) (ta : TSrc) (sub : BitVec 8) (v : VCtl)
  /-- CRED (R183): Reduces each column to one element. -/
  | cred (td : TReg) (ta : TSrc) (sub : BitVec 8) (v : VCtl)
  /-- RSCAN (R184): Computes a prefix sum or running maximum along each row. -/
  | rscan (td : TReg) (ta : TSrc) (sub : BitVec 8) (v : VCtl)
  /-- TCHK (R186): Faults 0x09 when two duplicated tiles differ. -/
  | tchk (ta tb : TSrc) (sel : BitVec 5) (p : PReg)
  /-- TLAT (R232): Attaches latent-vector references to one latent slot. -/
  | tlat (x : XReg) (slot : LSlot) (a b : LvReg) (useB recipA recipB neg : Bool)
  /-- TLATC (R233): Clears named latent slots to identity without applying them. -/
  | tlatc (x : XReg) (slots : BitVec 4)
  /-- TDEV (R238): Applies all latent factors once with one rounding, waiting for referenced vectors to close. -/
  | tdev (x : XReg) (port : Port) (sel : BitVec 5)
  /-- LVACC (R235): Opens or extends a latent vector with row or column reductions. -/
  | lvacc (x : XReg) (port : Port) (lv : LvReg) (op : Fin 8) (extend : Bool)
  /-- LVCLOSE (R235): Closes a latent vector, optionally scaling it, or defers the close while commands are pending. -/
  | lvclose (lv : LvReg) (s : SReg) (scale : Bool)
  /-- LVMOV_TO_VECTOR (R237): Moves one row of a tile or accumulator into a latent vector. -/
  | lvmovToVector (lv : LvReg) (x : XReg) (port : Port) (row : Fin 16)
  /-- LVMOV_TO_ROW (R237): Writes a closed latent vector into one row of a tile or accumulator. -/
  | lvmovToRow (x : XReg) (row : Fin 16) (lv : LvReg)
  /-- LVSET (R236): Sets every entry of a latent vector and its open state. -/
  | lvset (lv : LvReg) (s : SReg) (leaveOpen : Bool)
  /-- TLATQ (R234): Reads a latent slot descriptor into a scalar. -/
  | tlatq (s : SReg) (x : XReg) (slot : LSlot)
  /-- TREECLR (R323): Resets the token tree to the root alone. -/
  | treeclr (p : PReg)
  /-- TREESET (R323): Sets the tree's parent pointers from a tile row. -/
  | treeset (ta : TSrc) (row : Fin 16) (p : PReg)
  /-- TREEADD (R324): Appends a node at the lowest invalid index. -/
  | treeadd (s : SReg) (parent : Fin 64) (p : PReg)
  /-- TREEMASK (R325): Writes the ancestor-or-self mask of one block of nodes. -/
  | treemask (kd : KReg) (blk : Fin 4) (p : PReg)
  /-- TREEBIAS (R325): Writes the additive ancestor bias of one block. -/
  | treebias (td : TReg) (blk : Fin 4) (p : PReg)
  /-- TREEPOS (R326): Writes base plus depth positions into a tile row. -/
  | treepos (td : TReg) (s : SReg) (row : Fin 16) (p : PReg)
  /-- TREEPRUNE (R327): Keeps the path to a leaf and writes compaction map and gather list. -/
  | treeprune (td : TReg) (s : SReg) (row : Fin 16) (p : PReg)
  /-- TREERD (R328): Reads a node's parent, depth, token or flags into a scalar. -/
  | treerd (s : SReg) (node : Fin 64) (fld : Fin 4) (p : PReg)
  /-- FEXP2 (R197): Computes 2^a correctly rounded elementwise. -/
  | fexp2 (td : TReg) (ta : TSrc) (v : VCtl)
  /-- FLOG2 (R197): Computes log2 a correctly rounded elementwise. -/
  | flog2 (td : TReg) (ta : TSrc) (v : VCtl)
  /-- FRCP (R197): Computes 1/a correctly rounded elementwise. -/
  | frcp (td : TReg) (ta : TSrc) (v : VCtl)
  /-- FRSQRT (R197): Computes 1/sqrt a correctly rounded elementwise. -/
  | frsqrt (td : TReg) (ta : TSrc) (v : VCtl)
  /-- FSQRT (R197): Computes sqrt a correctly rounded elementwise. -/
  | fsqrt (td : TReg) (ta : TSrc) (v : VCtl)
  /-- FTANH (R197): Computes tanh a correctly rounded elementwise. -/
  | ftanh (td : TReg) (ta : TSrc) (v : VCtl)
  /-- FSIGM (R197): Computes the logistic sigmoid correctly rounded elementwise. -/
  | fsigm (td : TReg) (ta : TSrc) (v : VCtl)
  /-- FEXP (R197): Computes e^a correctly rounded elementwise. -/
  | fexp (td : TReg) (ta : TSrc) (v : VCtl)
  /-- FSIN (R197): Computes sin a correctly rounded elementwise. -/
  | fsin (td : TReg) (ta : TSrc) (v : VCtl)
  /-- FCOS (R197): Computes cos a correctly rounded elementwise. -/
  | fcos (td : TReg) (ta : TSrc) (v : VCtl)
  /-- XPERM (R193): Permutes columns within each row through a crossbar pattern. -/
  | xperm (td : TReg) (ta : TSrc) (xp : Fin 4)
  /-- XPLD (R193): Loads a crossbar pattern from a tile row. -/
  | xpld (xp : Fin 4) (ta : TSrc) (row : Fin 16)
  /-- XSHUF (R194): Applies a fixed reverse, interleave, deinterleave or butterfly column map. -/
  | xshuf (td : TReg) (ta : TSrc) (kind k : BitVec 3)
  /-- XBREV (R193): Reverses the bits of each column index. -/
  | xbrev (td : TReg) (ta : TSrc)
  /-- XTRN (R193): Transposes within 16x16 blocks. -/
  | xtrn (td : TReg) (ta : TSrc)
  /-- MLDS (R212): Loads the shadow weight plane from four tiles. -/
  | mlds (ta : TSrc) (p : PReg)
  /-- MLDSL (R212): Loads the shadow weight plane packed from scratchpad. -/
  | mldsl (a : AReg) (p : PReg)
  /-- MSWAP (R213): Exchanges the active and shadow planes. -/
  | mswap (p : PReg)
  /-- MMUL (R214): Writes the product of an activation tile and the active plane to an accumulator. -/
  | mmul (cd : CReg) (ta : TSrc) (asel wsel : BitVec 5) (r : Rep) (p : PReg)
  /-- MMAC (R214): Accumulates the product of an activation tile and the active plane. -/
  | mmac (cd : CReg) (ta : TSrc) (asel wsel : BitVec 5) (r : Rep) (p : PReg)
  /-- MMULL (R214): Writes products of streamed activation tiles and the active plane. -/
  | mmull (cd : CReg) (asel wsel : BitVec 5) (r : Rep) (p : PReg)
  /-- MMACL (R214): Accumulates products of streamed activation tiles. -/
  | mmacl (cd : CReg) (asel wsel : BitVec 5) (r : Rep) (p : PReg)
  /-- MMACT (R214): Accumulates the product with the transposed active plane. -/
  | mmact (cd : CReg) (ta : TSrc) (asel wsel : BitVec 5) (r : Rep) (p : PReg)
  /-- MZERO (R215): Zeros an accumulator. -/
  | mzero (cd : CReg) (p : PReg)
  /-- MRD (R215): Encodes an accumulator into a tile. -/
  | mrd (td : TReg) (cd : CReg) (sel : BitVec 5) (p : PReg)
  /-- MWR (R215): Writes a tile into an accumulator. -/
  | mwr (cd : CReg) (ta : TSrc) (sel : BitVec 5) (p : PReg)
  /-- MSTAT (R216): Writes matrix unit status into a tile row. -/
  | mstat (td : TReg) (p : PReg)
  /-- ISSUE_BUNDLE (R34): A context fetches the next bundle through its index word or escape and issues it at the next schedule cycle, making the whole-bundle checks first. -/
  | issueBundle
  /-- EXPOSED_RESULT_LANDING (R36): An exposed result, directly or from the snapshot, lands in its register with its flags when the context's schedule time reaches n + L. -/
  | exposedResultLanding
  /-- TAKE_INTERRUPT (R377): At a task-mode bundle boundary, the pending interrupt of highest priority is taken, its IPEND bit is cleared and the handler is entered. -/
  | takeInterrupt
  /-- CONTEXT_SWITCH (R360): A context that meets a switching wait gives the issue width to the next ready context of its core, at a cost of 4 clock cycles. -/
  | contextSwitch
  /-- QUANTUM_EXPIRY (R361): At a boundary where the context's held-clock count has reached QUANTUM and another context is ready, the core switches. -/
  | quantumExpiry
  /-- CLUSTER_WAKE (R115): A waking register-file cluster becomes awake 32 sc after its RFMODE, with its tiles set to 16x64 f32 and marked invalid. -/
  | clusterWake
  /-- DEBUG_REQUEST (R387): A Watia debug request stops a context at a boundary, lets its exposed results land and makes its state accessible to Watia. -/
  | debugRequest
  /-- DEBUG_RELEASE (R387): Release of a debug stop lets the context issue its next bundle D sc later than it would have. -/
  | debugRelease
  /-- GLOBAL_LOAD_COMPLETE (R136): A hidden-latency global scalar load delivers its value, or poison, to its register and clears the register's busy state. -/
  | globalLoadComplete
  /-- TILE_LOAD_COMPLETE (R151): A TLD finishes arriving its elements, clears the tile's BUSY and, for a full 16x64 shape, its invalid mark. -/
  | tileLoadComplete
  /-- FILL_COMPLETE (R160): A FILL completes, giving its target the silo slot's containers and state and clearing BUSY. -/
  | fillComplete
  /-- ATOMIC_PERFORMED (R286): An atomic, EVSIG increment or COPYA add is performed at its home at one instant, returning the old value and ending any acquire's order wait. -/
  | atomicPerformed
  /-- PHASE_COMPLETE (R282): A PHASE completes at one instant, publishing at its scope, then refreshing, and ending its order wait. -/
  | phaseComplete
  /-- VJOIN_COMPLETE (R285): The order wait of a VJOIN ends when every earlier scratchpad write of the context can be read through both views. -/
  | vjoinComplete
  /-- CORE_WINDOW_WRITE (R158): An external write into a core window lands at a bundle boundary of the target context, piece by aligned piece. -/
  | coreWindowWrite
  /-- MATRIX_OP_EXECUTE (R219): A Q operation reaches execution in the matrix unit and checks its records and type combination before computing its repeats. -/
  | matrixOpExecute
  /-- MATRIX_OP_COMPLETE (R217): A Q operation's last write to a destination completes, clearing that destination's BUSY and ORing its flags. -/
  | matrixOpComplete
  /-- COPY_COMMAND_EXECUTE (R265): A COPY, COPYG or COPYA at the head of its queue is checked and streams its bytes to the destination. -/
  | copyCommandExecute
  /-- COPY_ENGINE_FAULT (R266): A command that stops on a fault halts its queue, writes the copy error record and raises interrupt 0x82. -/
  | copyEngineFault
  /-- COPY_COMMAND_COMPLETE (R260): A command completes: its writes are published and its flag written as asked, then the status word is written to the token. -/
  | copyCommandComplete
  /-- SEND_TRANSMIT (R416): A SEND at the head of its queue cuts its stream into packets and transmits them along the route table's route. -/
  | sendTransmit
  /-- SENDT_ARM (R418): A SENDT at the head of its queue publishes at pkg scope, checks its values and places the send in the region's armed-send table. -/
  | sendtArm
  /-- RXSET_PERFORM (R420): An RXSET reaches its turn in the copy queue and sets the receive counter. -/
  | rxsetPerform
  /-- RPOST_PERFORM (R420): An RPOST reaches its turn in the copy queue, publishes at sys scope and sends a counter packet or increments locally. -/
  | rpostPerform
  /-- TASK_EXIT_RELEASE (R114): After an EXIT's operations drain and results land, the context publishes at sys scope and releases context, silo and sheaf window. -/
  | taskExitRelease
  /-- PREEMPT_REQUEST (R357): The scheduler pre-empts the lowest-priority, most recently bound task when a higher-priority ready task lacks a context. -/
  | preemptRequest
  /-- PREEMPTION (R384): A pre-emption request is taken at a boundary: the context stops issuing and drains its loads, matrix operations and copy queue. -/
  | preemption
  /-- CONTEXT_SAVE (R385): Once drained, the context publishes at pkg scope, writes its save area and releases the context and silo. -/
  | contextSave
  /-- RESUME (R386): A pre-empted task is restored on a core of its core set with a fresh sheaf placement, re-pinned silo and a pkg refresh. -/
  | resume
  /-- TASK_BIND (R358): The scheduler binds the ready task of highest effective priority to an eligible free context and starts it at sc 0. -/
  | taskBind
  /-- LAUNCH (R348): A LAUNCH queue entry is validated, takes a launch slot and starts, making its tasks ready under their waits. -/
  | launch
  /-- TILETASKS (R348): A TILETASKS entry starts once its ids are free, occupying tile-task table entries with their dependency counts. -/
  | tiletasks
  /-- COLLECTIVE (R427): A COLLECTIVE entry starts and sends its source as chunked KIND 0 packets along its route. -/
  | collective
  /-- EVSIGNAL (R348): An EVSIGNAL entry signals its event as a release at sys scope and completes at once. -/
  | evsignal
  /-- EVWAIT_PACKET (R348): An EVWAIT entry starts and completes when its event is signalled, read as an acquire at sys scope. -/
  | evwaitPacket
  /-- BARRIER_PACKET (R348): A BARRIER entry starts and completes when every earlier entry of its queue has completed. -/
  | barrierPacket
  /-- NOP_PACKET (R348): A NOP entry starts and completes at once. -/
  | nopPacket
  /-- LAUNCH_COMPLETE (R353): When all tasks and child launches have ended, the command processor writes the status word, publishes, signals SIGNAL and frees the slot. -/
  | launchComplete
  /-- QCTL_RETRY (R346): Writing RETRY to a halted queue's QCTL starts the halted entry again. -/
  | qctlRetry
  /-- QCTL_SKIP (R346): Writing SKIP to a halted queue's QCTL discards the halted entry and resumes the queue. -/
  | qctlSkip
  /-- TLBI_GO (R147): Writing GO in TLBI_CMD starts invalidating the named pages or whole region from every TLB and sets BUSY. -/
  | tlbiGo
  /-- TLB_INVALIDATION_DONE (R147): The invalidation completes and TLBI_STATUS BUSY reads 0. -/
  | tlbInvalidationDone
  /-- TT_ARRIVE (R355): A store to TT_ARRIVE subtracts N from a live tile task's DEPCOUNT, dropping an arrival that would go below 0. -/
  | ttArrive
  /-- BUDGET_PERIOD (R363): A new 10 us budget period begins, reading budgets again and lifting throttles with the excess carried over. -/
  | budgetPeriod
  /-- TIMECMP_MATCH (R378): When TIME reaches a non-zero TIMECMP, interrupt 0x81 is raised to the bound task and TIMECMP returns to 0. -/
  | timecmpMatch
  /-- NOTIFY (R378): A write to a context's NOTIFY register raises interrupt 0x84 with the written value. -/
  | notify
  /-- REGISTER_WRITE (R5): A write to a package-control or system register with no behaviour of its own sets its RW fields and ignores the rest. -/
  | registerWrite
  /-- TRANSIENT_READ_REQUEST (R302): An agent receiving a transient read request sends one token, or the owner token, with data as it holds them. -/
  | transientReadRequest
  /-- TRANSIENT_WRITE_REQUEST (R302): An agent receiving a transient write request sends all the line's tokens it holds, with data if the owner is among them. -/
  | transientWriteRequest
  /-- TOKEN_ARRIVAL (R306): Tokens, data or a write-back arriving at an agent are kept, forwarded to an active persistent requester or sent to the home. -/
  | tokenArrival
  /-- TRANSIENT_ATTEMPT_TIMEOUT (R303): A transient attempt fails after 2 us; the requester retries once and then sends a persistent request. -/
  | transientAttemptTimeout
  /-- PERSISTENT_REQUEST (R304): A persistent request arriving at a home is entered in its table and activated in arrival order per line. -/
  | persistentRequest
  /-- PERSISTENT_ACTIVATION (R305): On an activation, every agent sends all its tokens of the line to the persistent requester. -/
  | persistentActivation
  /-- PERSISTENT_DEACTIVATION (R304): A deactivation ends an agent's forwarding for that entry and epoch and is acknowledged to the home. -/
  | persistentDeactivation
  /-- DEACTIVATION_ACK (R304): When every agent has acknowledged a deactivation, the home activates the next persistent request for the line. -/
  | deactivationAck
  /-- LINE_EVICTION (R306): An agent evicting a line sends all its tokens to the home, as a write-back with data when it holds the owner token. -/
  | lineEviction
  /-- TAG_RECALL (R309): A home frees a tag by recalling the line with a persistent request from its own entries until all 16 tokens return. -/
  | tagRecall
  /-- HOST_READ (R310): A host CXL.mem read of HDM is served by the host proxy, which gathers one token and the data. -/
  | hostRead
  /-- HOST_WRITE (R310): A host CXL.mem write of HDM is performed by the host proxy with all 16 tokens and published at sys scope on completion. -/
  | hostWrite
  /-- HOST_BISNP_RESPONSE (R310): The host's answer to a back-invalidation snoop lets the proxy release its tokens with any dirty data. -/
  | hostBisnpResponse
  /-- HOST_SNOOP (R310): A host snoop of host memory cached by device agents makes the proxy gather all 16 tokens before answering. -/
  | hostSnoop
  /-- TOKEN_ECC_ERROR (R311): An ECC error in a token count or owner bit is corrected and counted, or, if uncorrectable, the line is regenerated as poison. -/
  | tokenEccError
  /-- GRACEFUL_DIE_RESET (R313): A Watia-ordered compute-die reset pre-empts, drains, returns all tokens to the homes, then resets the die. -/
  | gracefulDieReset
  /-- DIE_LOST (R314): A compute die that stops answering is marked lost, homes set RECOVERING and surviving agents return all their tokens. -/
  | dieLost
  /-- TOKEN_RECOVERY_REGENERATE (R314): After all acknowledgements, each home regenerates short lines as poison with 16 tokens, frees tags and clears RECOVERING. -/
  | tokenRecoveryRegenerate
  /-- PACKAGE_FAULT (R447): A fault in a memory-side or port die stops issue on every core, halts every queue, records the fault and raises vector 66. -/
  | packageFault
  /-- ROUTE_DELIVER (R412): A packet whose popped entry is op 0 is delivered into the matching region, publishes, writes its flag and is acknowledged. -/
  | routeDeliver
  /-- ROUTE_FORWARD (R411): A packet whose popped entry is op 1 is forwarded out of the named port. -/
  | routeForward
  /-- ROUTE_REDUCE (R423): A contribution at an op 2 hop is staged and, once N distinct sources have contributed, combined and forwarded. -/
  | routeReduce
  /-- ROUTE_DELIVER_COUNTER (R412): A packet whose popped entry is op 3 is delivered and then increments a receive counter. -/
  | routeDeliverCounter
  /-- ROUTE_DELIVER_FORWARD (R412): A packet whose popped entry is op 4 is delivered locally and then forwarded out of the port. -/
  | routeDeliverForward
  /-- ROUTE_TILE_ARRIVAL (R410): A packet whose popped entry is op 5 decrements the DEPCOUNT of tile task DST[13:0]. -/
  | routeTileArrival
  /-- ACKNOWLEDGEMENT (R416): An acknowledgement completes a send's packet or a collective chunk, or lets a reduce hop acknowledge its contributors. -/
  | acknowledgement
  /-- REFUSAL (R417): A refusal halts the sending queue at the refused packet, or makes a collective source retransmit for reason 0x2C. -/
  | refusal
  /-- LAPSE_NOTICE (R424): A lapse notice makes its contributor retransmit the chunk. -/
  | lapseNotice
  /-- BARRIER_ARRIVAL (R429): The root counts a chip's arrival packet and, with NCHIP + 1 arrivals, sends releases carrying T and STAGGER. -/
  | barrierArrival
  /-- BARRIER_RELEASE (R430): A chip receiving a release of its generation applies it, increments GEN and schedules its contexts' release. -/
  | barrierRelease
  /-- BARRIER_RELEASE_INSTANT (R430): At T plus the rank stagger, the chip releases its waiting FBAR contexts and starts the matrix issue ramp. -/
  | barrierReleaseInstant
  /-- SEND_ACK_TIMEOUT (R417): A send packet unacknowledged for 1 ms stops the send with reason 0x2D. -/
  | sendAckTimeout
  /-- CHUNK_RETRANSMIT_TIMEOUT (R424): A collective source retransmits a chunk 200 us after its last transmission without an acknowledgement. -/
  | chunkRetransmitTimeout
  /-- STAGING_LEASE_EXPIRY (R425): A reduce hop whose chunk lease lapses short of N discards the staging, clears window bits and sends lapse notices. -/
  | stagingLeaseExpiry
  /-- COLLECTIVE_TIMEOUT (R427): When COLL_TIMEOUT passes first, a COLLECTIVE signals its event with ERR and abandons its chunks and staging. -/
  | collectiveTimeout
  /-- PORT_FAILURE (R408): A port whose flit is unacknowledged for 10 us or that loses training is taken down, losing its partial packets. -/
  | portFailure
  /-- PACKAGE_RESET (R445): After package reset Watia verifies firmware and starts safelight with CD0 cores 0-7 at 600 MHz. -/
  | packageReset
  /-- STARTCTL_GO (R449): Writing GO in stage 1 ends safelight: no new entry starts, and Watia moves the safelight range to HBM once launches end. -/
  | startctlGo
  /-- STAGE_ADVANCE (R445): A start-up stage completes and the next begins, with units recomputed and the descriptor table rewritten. -/
  | stageAdvance
  /-- POD_TIME_REALIGN (R450): When the lowest-id chip leaves the pod, the remaining chips slew TIME to the next lowest. -/
  | podTimeRealign
  /-- WORLD_SWITCH (R442): Every 1 ms between entries Watia changes the active function, saving and loading the OKIND 2 die counters. -/
  | worldSwitch
  /-- SLEW_INTERVAL (R452): Every 100 ns the power controller updates its current estimate and limits its rise to RATE. -/
  | slewInterval
  /-- SHAPING_WINDOW (R453): A new 1 us issue-rate window opens with its count reset and its cap set by CAP or the ramp. -/
  | shapingWindow
  /-- TRACE_FIFO_DRAIN (R458): The die drains a trace record from its FIFO into ring 0, publishing it and then HEAD at sys scope. -/
  | traceFifoDrain
  /-- RING_RECONFIGURE (R458): A write to RBASE or RSIZE sets the ring and resets HEAD and TAIL to 0. -/
  | ringReconfigure
  /-- COUNTER_WRAP (R463): A core counter passing 2^48 - 1 wraps to 0, sets OVF and with OVIE raises 0x83 to its owner. -/
  | counterWrap
  /-- DIE_COUNTER_WRAP (R466): A die or fabric counter wraps, sets OVF and with OVIE raises 0x83 to the configured context. -/
  | dieCounterWrap
  /-- PORT_RETRAINED (R408): Watia retrains a downed Tresis port and sets its PORTS bit again, so routes through it are no longer dropped. -/
  | portRetrained
  /-- HOST_CXL_CACHE_RESPONSE (R310): The host's CXL.cache answer to a line or atomic request from the host proxy arrives, letting the proxy answer the device agent that asked. -/
  | hostCxlCacheResponse
  /-- DIE_REJOIN (R313): Once every home has acknowledged a gracefully reset die's returned tokens, the die resets and rejoins holding no tokens. -/
  | dieRejoin
  /-- STORE_BECOMES_VISIBLE (R278): A store held in a context's phase buffer becomes visible to some agent before any publication, which can also release a watching WAITM or EVWAIT. -/
  | storeBecomesVisible
deriving DecidableEq, Repr

end Sys2Proof
end

