-- ==== Sys2Proof/WellFormed.lean ====
section
/-! DEFINITION. Which operands an encoding may carry: the reserved values of R45-R68 (`unreserved`), the ports of
R39 and the record selectors of R54 that are ill-formed in every state. -/

namespace Sys2Proof

/-- The system register numbers of R120. -/
def sysNumbers : List Nat :=
  (List.range 0x00B) ++ ((List.range 9).map (0x010 + ·)) ++ [0x020, 0x021] ++ ((List.range 0x30).map (0x040 + ·))
    ++ ((List.range 0x10).map (0x080 + ·)) ++ [0x090, 0x091] ++ ((List.range 8).map (0x0A0 + ·))

/-- A copy command's flags: ETYPE only for COPYA and never 3, LATENT only for COPY and COPYA (R56, R61). -/
def copyFlagsOk (etype latent publish : Bool) (f : BitVec 6) : Bool :=
  (if etype then f.extractLsb' 4 2 != 3 else f.extractLsb' 4 2 == 0)
    && (latent || !f.getLsbD 3) && (publish || !f.getLsbD 0)

/-- No port of a combined target that is an accumulator (R61, R230). -/
def XReg.portOk (x : XReg) (p : Port) : Bool :=
  match x with
  | .t _ => true
  | .c _ => p == 0

/-- No operand holds a reserved value (R45, R57-R68). -/
def Instr.unreserved (i : Instr) : Bool :=
  match i with
  | .loopImm _ len => len != 0
  | .loopReg _ len => len != 0
  | .lbuf n => 1 ≤ n.toNat && n.toNat ≤ 64
  | .sysrd _ num => sysNumbers.contains num.toNat
  | .syswr _ num => sysNumbers.contains num.toNat
  | .movli _ lvl _ => lvl.toNat < 6
  | .agset _ _ fld _ => fld.toNat ≤ 0x15
  | .agrd _ _ fld _ => fld.toNat ≤ 0x15
  | .ld _ m sign => !(sign && m.width == 3)
  | .spill x _ _ port => x.portOk port
  | .copy _ f => copyFlagsOk false true true f
  | .copyg _ f => copyFlagsOk false false true f
  | .copya _ f => copyFlagsOk true true true f
  | .send _ f => copyFlagsOk false false false f
  | .sendt _ f => copyFlagsOk false false false f
  | .phase scope => scope != 3
  | .amo d _ s op size order scope =>
    op.toNat ≤ 0xB && size.toNat ≤ 1 && scope != 3
      && (op != 0xA || (order.toNat ≤ 1 && s == 0)) && (op != 0xB || ((order == 0 || order == 2) && d == 0))
  | .waitm _ _ _ cond size scope => cond.toNat ≤ 2 && size.toNat ≤ 1 && scope != 3
  | .qpost _ queue => queue.toNat < 64
  | .evsig _ scope => scope != 3
  | .evwait _ scope => scope != 3
  | .tcmp _ _ _ rel _ => rel.toNat ≤ 4
  | .tiota _ axis _ _ => axis != 3
  | .tshape _ _ _ ty _ => ty.toNat ≤ 0xA
  | .rred _ _ sb _ => sb.toNat ≤ 4
  | .cred _ _ sb _ => sb.toNat ≤ 4
  | .rscan _ _ sb _ => sb.toNat ≤ 2
  | .tlat _ slot _ b useB _ recipB neg =>
    (slot == .rb || slot == .cb || !neg) && (useB || (b == 0 && !recipB))
  | .tlatc _ slots => slots != 0
  | .tdev x port _ => x.portOk port
  | .lvacc x port _ _ _ => x.portOk port
  | .lvclose _ s scale => scale || s == 0
  | .lvmovToVector _ x port _ => x.portOk port
  | .xshuf _ _ kind k => (kind.toNat < 3 && k == 0) || (kind == 3 && k.toNat ≤ 5)
  | .mlds ta _ => ta.t.val % 4 == 0
  | .mmul _ _ _ _ r _ => r.rep != 0 || (r.a == 0 && r.inc == 0)
  | .mmac _ _ _ _ r _ => r.rep != 0 || (r.a == 0 && r.inc == 0)
  | .mmact _ _ _ _ r _ => r.rep != 0 || (r.a == 0 && r.inc == 0)
  | _ => true

/-- The tile sources that use a port, in the order ta, tb, tc, td (R39, R61-R68). -/
def Instr.ports (i : Instr) : List Port :=
  match i with
  | .tst _ _ port | .tstl _ _ _ port => [port]
  | .spill (.t _) _ _ port => [port]
  | .tadd _ ta tb _ | .tsub _ ta tb _ | .tmul _ ta tb _ | .tmax _ ta tb _ | .tmin _ ta tb _
  | .tiadd _ ta tb _ | .tisub _ ta tb _ | .timul _ ta tb _ | .tand _ ta tb _ | .tor _ ta tb _ | .txor _ ta tb _
  | .tshl _ ta tb _ | .tshr _ ta tb _ | .timax _ ta tb _ | .timin _ ta tb _ | .tsel _ ta tb _ | .tcmp _ ta tb _ _
  | .tchk ta tb _ _ => [ta.port, tb.port]
  | .tfma _ ta tb tc _ => [ta.port, tb.port, tc.port]
  | .tabs _ ta _ | .tneg _ ta _ | .tcvt _ ta _ | .tmov _ ta _ | .tadds _ ta _ _ | .tmuls _ ta _ _ | .tfmas _ ta _ _
  | .rowmov _ _ ta _ _ _ | .tget _ ta _ _ _ _ | .rrot _ ta _ _ _ | .crot _ ta _ _ _ | .rbc _ ta _ _ _
  | .cbc _ ta _ _ _ | .rred _ ta _ _ | .cred _ ta _ _ | .rscan _ ta _ _ | .treeset ta _ _
  | .fexp2 _ ta _ | .flog2 _ ta _ | .frcp _ ta _ | .frsqrt _ ta _ | .fsqrt _ ta _ | .ftanh _ ta _ | .fsigm _ ta _
  | .fexp _ ta _ | .fsin _ ta _ | .fcos _ ta _
  | .xperm _ ta _ | .xpld _ ta _ | .xshuf _ ta _ _ | .xbrev _ ta | .xtrn _ ta
  | .mlds ta _ | .mmul _ ta _ _ _ _ | .mmac _ ta _ _ _ _ | .mmact _ ta _ _ _ _ | .mwr _ ta _ _ => [ta.port]
  | .tdev (.t _) port _ | .lvacc (.t _) port _ _ _ | .lvmovToVector _ (.t _) port _ => [port]
  | _ => []

/-- The record selectors an instruction uses, each with whether it stands in the Q slot (R54). -/
def Instr.sels (i : Instr) : List (BitVec 5 × Bool) :=
  match i with
  | .tld _ m | .tst _ m _ | .tldl _ m _ | .tstl _ m _ _ => [(m.sel, false)]
  | .tadd _ _ _ v | .tsub _ _ _ v | .tmul _ _ _ v | .tmax _ _ _ v | .tmin _ _ _ v
  | .tiadd _ _ _ v | .tisub _ _ _ v | .timul _ _ _ v | .tand _ _ _ v | .tor _ _ _ v | .txor _ _ _ v
  | .tshl _ _ _ v | .tshr _ _ _ v | .timax _ _ _ v | .timin _ _ _ v | .tsel _ _ _ v | .tcmp _ _ _ _ v
  | .tfma _ _ _ _ v | .tabs _ _ v | .tneg _ _ v | .tcvt _ _ v | .tmov _ _ v
  | .tadds _ _ _ v | .tmuls _ _ _ v | .tfmas _ _ _ v | .tfill _ _ v | .tfilli _ _ v | .tiota _ _ _ v
  | .rrot _ _ _ _ v | .crot _ _ _ _ v | .rbc _ _ _ _ v | .cbc _ _ _ _ v | .rred _ _ _ v | .cred _ _ _ v
  | .rscan _ _ _ v
  | .fexp2 _ _ v | .flog2 _ _ v | .frcp _ _ v | .frsqrt _ _ v | .fsqrt _ _ v | .ftanh _ _ v | .fsigm _ _ v
  | .fexp _ _ v | .fsin _ _ v | .fcos _ _ v => [(v.sel, false)]
  | .rowmov _ _ _ _ z _ | .tget _ _ _ _ z _ | .tset _ _ _ _ z _ | .tchk _ _ z _ | .tdev _ _ z => [(z, false)]
  | .mmul _ _ a w _ _ | .mmac _ _ a w _ _ | .mmact _ _ a w _ _ | .mmull _ a w _ _ | .mmacl _ a w _ _ =>
    [(a, true), (w, true)]
  | .mrd _ _ z _ | .mwr _ _ z _ => [(z, true)]
  | _ => []

/-- A selector that R54 calls ill-formed in every state: 0x16 to 0x1E. -/
def selNever (s : BitVec 5) : Bool := 0x16 ≤ s.toNat && s.toNat ≤ 0x1E

/-- No port occurs twice. -/
def portsDistinct : List Port → Bool
  | [] => true
  | p :: ps => !ps.contains p && portsDistinct ps

/-- A well-formed instruction: nothing of R39, R45 or R54 refuses it in every state. -/
def Instr.wf (i : Instr) : Bool :=
  i.unreserved && i.ports.all (fun p => p.toNat ≤ 5) && portsDistinct i.ports && i.sels.all fun s => !selNever s.1

end Sys2Proof
end

