-- ==== Sys2Proof/Decode.lean ====
section
/-! DEFINITION. How the words of a bundle are read (03_bundles R33, 04_opcode_map R45-R68), and the
encoder written from the same formats. Decoding is total: it answers the instruction or the reason for which its
bundle is illegal. -/

namespace Sys2Proof

/-- Why a syllable is no instruction: the reasons 0x02, 0x03 and 0x04 of R40. -/
inductive DecErr where
  /-- opcode 0 -/
  | opcodeZero
  /-- an opcode that the slot's map does not assign -/
  | unassigned
  /-- a reserved or constant field with another value -/
  | reserved
deriving DecidableEq, Repr

/-- The eight kinds of slot; S0 and S1, and V0 and V1, decode alike but for the groups of V0 (R33). -/
inductive SlotKind where
  | c | s | a | m | v | f | x | q
deriving DecidableEq, Repr

/-- The fields of a word, by their widths from bit 0 upwards. -/
def unpack : List Nat → Nat → List Nat
  | [], _ => []
  | k :: ks, w => w % 2 ^ k :: unpack ks (w / 2 ^ k)

/-- The word whose fields, from bit 0 upwards, are given. -/
def pack : List Nat → List Nat → Nat
  | k :: ks, v :: vs => v + 2 ^ k * pack ks vs
  | _, _ => 0

/-- sub of the floating-point instructions (R59). -/
def Rm.ofCode : Nat → Rm
  | 0 => .rne | 1 => .rz | 2 => .rdn | _ => .rup
def Rm.code : Rm → Nat
  | .rne => 0 | .rz => 1 | .rdn => 2 | .rup => 3

/-- sub of FCMP (R59). -/
def FRel.ofCode : Nat → FRel
  | 0 => .eq | 1 => .lt | 2 => .le | _ => .un
def FRel.code : FRel → Nat
  | .eq => 0 | .lt => 1 | .le => 2 | .un => 3

/-- The latent slot codes (R52). -/
def LSlot.ofCode : Nat → LSlot
  | 0 => .rs | 1 => .rb | 2 => .cs | _ => .cb
def LSlot.code : LSlot → Nat
  | .rs => 0 | .rb => 1 | .cs => 2 | .cb => 3

/-- The combined target (R46). -/
def XReg.ofNat (n : Nat) : XReg := if n < 32 then .t (Fin.ofNat 32 n) else .c (Fin.ofNat 8 (n - 32))
def XReg.toNat : XReg → Nat
  | .t r => r.val
  | .c r => r.val + 32

/-- An instruction whose operands hold no reserved value, or reason 0x04. -/
def keep (i : Instr) : Except DecErr Instr := if i.unreserved then .ok i else .error .reserved

/-- Format CB, from bit 0 upwards; the last field is the opcode. -/
def fmtCB : List Nat := [21, 1, 4, 6]

/-- Format CL, src = 0, from bit 0 upwards; the last field is the opcode. -/
def fmtCL0 : List Nat := [13, 12, 1, 6]

/-- Format CL, src = 1, from bit 0 upwards; the last field is the opcode. -/
def fmtCL1 : List Nat := [13, 6, 6, 1, 6]

/-- Format CN, from bit 0 upwards; the last field is the opcode. -/
def fmtCN : List Nat := [26, 6]

/-- Format CS, from bit 0 upwards; the last field is the opcode. -/
def fmtCS : List Nat := [8, 12, 6, 6]

/-- Format SR, from bit 0 upwards; the last field is the opcode. -/
def fmtSR : List Nat := [2, 1, 4, 6, 6, 6, 7]

/-- Format SI, from bit 0 upwards; the last field is the opcode. -/
def fmtSI : List Nat := [13, 6, 6, 7]

/-- Format SW, MOVI, from bit 0 upwards; the last field is the opcode. -/
def fmtSW : List Nat := [19, 6, 7]

/-- Format SW, MOVK, from bit 0 upwards; the last field is the opcode. -/
def fmtSK : List Nat := [16, 1, 2, 6, 7]

/-- Format SP, from bit 0 upwards; the last field is the opcode. -/
def fmtSP : List Nat := [2, 1, 4, 6, 6, 2, 4, 7]

/-- Format AA, from bit 0 upwards; the last field is the opcode. -/
def fmtAA : List Nat := [7, 1, 4, 6, 4, 4, 6]

/-- Format AI, from bit 0 upwards; the last field is the opcode. -/
def fmtAI : List Nat := [22, 4, 6]

/-- Format AL, from bit 0 upwards; the last field is the opcode. -/
def fmtAL : List Nat := [6, 1, 1, 1, 2, 1, 4, 4, 6, 6]

/-- Format MT, from bit 0 upwards; the last field is the opcode. -/
def fmtMT : List Nat := [2, 3, 1, 4, 1, 1, 5, 4, 5, 6]

/-- Format MS, from bit 0 upwards; the last field is the opcode. -/
def fmtMS : List Nat := [6, 3, 1, 4, 6, 6, 6]

/-- Format MC, from bit 0 upwards; the last field is the opcode. -/
def fmtMC : List Nat := [6, 6, 4, 4, 6, 6]

/-- Format MA, from bit 0 upwards; the last field is the opcode. -/
def fmtMA : List Nat := [2, 2, 2, 4, 6, 4, 6, 6]

/-- Format MP, from bit 0 upwards; the last field is the opcode. -/
def fmtMP : List Nat := [18, 6, 2, 6]

/-- Format VT, from bit 0 upwards; the last field is the opcode. -/
def fmtVT : List Nat := [4, 3, 5, 3, 5, 3, 5, 3, 5, 5, 7]

/-- Format VT with [19:12] read as sub, from bit 0 upwards; the last field is the opcode. -/
def fmtVU : List Nat := [4, 3, 5, 8, 3, 5, 3, 5, 5, 7]

/-- Format VS, from bit 0 upwards; the last field is the opcode. -/
def fmtVS : List Nat := [4, 3, 5, 2, 8, 6, 3, 5, 5, 7]

/-- Format VI, from bit 0 upwards; the last field is the opcode. -/
def fmtVI : List Nat := [4, 3, 5, 16, 3, 5, 5, 7]

/-- Format VL, from bit 0 upwards; the last field is the opcode. -/
def fmtVL : List Nat := [12, 3, 6, 1, 1, 1, 1, 4, 4, 2, 6, 7]

/-- Format F, from bit 0 upwards; the last field is the opcode. -/
def fmtF : List Nat := [1, 4, 3, 5, 3, 5, 5, 6]

/-- Format X, from bit 0 upwards; the last field is the opcode. -/
def fmtX : List Nat := [11, 2, 3, 5, 5, 6]

/-- Format Q, from bit 0 upwards; the last field is the opcode. -/
def fmtQ : List Nat := [1, 4, 2, 4, 10, 5, 5, 3, 5, 3, 6]

/-- A syllable of the C slot (R57): its instruction, or why its bundle is illegal. -/
def decodeC (w : Nat) : Except DecErr Instr :=
  match w / 2 ^ 26 % 64 with
  | 0 => .error .opcodeZero
  | 1 =>
    match unpack fmtCB w with
      | [off, n, p, _] => keep (Instr.br ⟨Fin.ofNat 16 p, n == 1⟩ (BitVec.ofNat 21 off))
      | _ => .error .reserved
  | 2 =>
    match unpack fmtCB w with
      | [off, n, p, _] => if n = 0 ∧ p = 0 then keep (Instr.call (BitVec.ofNat 21 off)) else .error .reserved
      | _ => .error .reserved
  | 3 =>
    match unpack fmtCS w with
      | [imm8, num, s, _] => if imm8 = 0 ∧ num = 0 then keep (Instr.bri (Fin.ofNat 64 s)) else .error .reserved
      | _ => .error .reserved
  | 4 =>
    match unpack fmtCN w with
      | [imm, _] => if imm = 0 then keep (Instr.ret) else .error .reserved
      | _ => .error .reserved
  | 5 =>
    if w / 2 ^ 25 % 2 = 0 then
      match unpack fmtCL0 w with
        | [len, count, src, _] => if src = 0 then keep (Instr.loopImm (BitVec.ofNat 12 count) (BitVec.ofNat 13 len)) else .error .reserved
        | _ => .error .reserved
    else
      match unpack fmtCL1 w with
        | [len, z, s, src, _] => if z = 0 ∧ src = 1 then keep (Instr.loopReg (Fin.ofNat 64 s) (BitVec.ofNat 13 len)) else .error .reserved
        | _ => .error .reserved
  | 6 =>
    match unpack fmtCN w with
      | [imm, _] => if imm = 0 then keep (Instr.loopx) else .error .reserved
      | _ => .error .reserved
  | 7 =>
    match unpack fmtCN w with
      | [imm, _] => if imm < 128 then keep (Instr.lbuf (BitVec.ofNat 7 imm)) else .error .reserved
      | _ => .error .reserved
  | 8 =>
    match unpack fmtCN w with
      | [imm, _] => keep (Instr.marker (BitVec.ofNat 26 imm))
      | _ => .error .reserved
  | 9 =>
    match unpack fmtCN w with
      | [imm, _] => if imm = 0 then keep (Instr.yield) else .error .reserved
      | _ => .error .reserved
  | 10 =>
    match unpack fmtCN w with
      | [imm, _] => keep (Instr.exit (BitVec.ofNat 26 imm))
      | _ => .error .reserved
  | 11 =>
    match unpack fmtCN w with
      | [imm, _] => keep (Instr.trap (BitVec.ofNat 26 imm))
      | _ => .error .reserved
  | 12 =>
    match unpack fmtCN w with
      | [imm, _] => if imm = 0 then keep (Instr.eret) else .error .reserved
      | _ => .error .reserved
  | 13 =>
    match unpack fmtCS w with
      | [imm8, num, s, _] => if imm8 = 0 then keep (Instr.sysrd (Fin.ofNat 64 s) (BitVec.ofNat 12 num)) else .error .reserved
      | _ => .error .reserved
  | 14 =>
    match unpack fmtCS w with
      | [imm8, num, s, _] => if imm8 = 0 then keep (Instr.syswr (Fin.ofNat 64 s) (BitVec.ofNat 12 num)) else .error .reserved
      | _ => .error .reserved
  | 15 =>
    match unpack fmtCN w with
      | [imm, _] => if imm < 16 then keep (Instr.rfmode (BitVec.ofNat 4 imm)) else .error .reserved
      | _ => .error .reserved
  | 16 =>
    match unpack fmtCN w with
      | [imm, _] => if imm < 16 then keep (Instr.fmtbase (BitVec.ofNat 4 imm)) else .error .reserved
      | _ => .error .reserved
  | 17 =>
    match unpack fmtCN w with
      | [imm, _] => keep (Instr.bkpt (BitVec.ofNat 26 imm))
      | _ => .error .reserved
  | 18 =>
    match unpack fmtCS w with
      | [imm8, num, s, _] => if num = 0 then keep (Instr.trace (Fin.ofNat 64 s) (BitVec.ofNat 8 imm8)) else .error .reserved
      | _ => .error .reserved
  | _ => .error .unassigned

/-- A syllable of the S slots (R58, R59): its instruction, or why its bundle is illegal. -/
def decodeS (w : Nat) : Except DecErr Instr :=
  match w / 2 ^ 25 % 128 with
  | 0 => .error .opcodeZero
  | 1 =>
    match unpack fmtSR w with
      | [sub, n, p, b, a, d, _] => if sub = 0 then keep (Instr.add (Fin.ofNat 64 d) (Fin.ofNat 64 a) (Fin.ofNat 64 b) ⟨Fin.ofNat 16 p, n == 1⟩) else .error .reserved
      | _ => .error .reserved
  | 2 =>
    match unpack fmtSR w with
      | [sub, n, p, b, a, d, _] => if sub = 0 then keep (Instr.sub (Fin.ofNat 64 d) (Fin.ofNat 64 a) (Fin.ofNat 64 b) ⟨Fin.ofNat 16 p, n == 1⟩) else .error .reserved
      | _ => .error .reserved
  | 3 =>
    match unpack fmtSR w with
      | [sub, n, p, b, a, d, _] => if sub = 0 then keep (Instr.mul (Fin.ofNat 64 d) (Fin.ofNat 64 a) (Fin.ofNat 64 b) ⟨Fin.ofNat 16 p, n == 1⟩) else .error .reserved
      | _ => .error .reserved
  | 4 =>
    match unpack fmtSR w with
      | [sub, n, p, b, a, d, _] => if sub = 0 then keep (Instr.mulh (Fin.ofNat 64 d) (Fin.ofNat 64 a) (Fin.ofNat 64 b) ⟨Fin.ofNat 16 p, n == 1⟩) else .error .reserved
      | _ => .error .reserved
  | 5 =>
    match unpack fmtSR w with
      | [sub, n, p, b, a, d, _] => if sub = 0 then keep (Instr.mulhn (Fin.ofNat 64 d) (Fin.ofNat 64 a) (Fin.ofNat 64 b) ⟨Fin.ofNat 16 p, n == 1⟩) else .error .reserved
      | _ => .error .reserved
  | 6 =>
    match unpack fmtSR w with
      | [sub, n, p, b, a, d, _] => if sub = 0 then keep (Instr.div (Fin.ofNat 64 d) (Fin.ofNat 64 a) (Fin.ofNat 64 b) ⟨Fin.ofNat 16 p, n == 1⟩) else .error .reserved
      | _ => .error .reserved
  | 7 =>
    match unpack fmtSR w with
      | [sub, n, p, b, a, d, _] => if sub = 0 then keep (Instr.divn (Fin.ofNat 64 d) (Fin.ofNat 64 a) (Fin.ofNat 64 b) ⟨Fin.ofNat 16 p, n == 1⟩) else .error .reserved
      | _ => .error .reserved
  | 8 =>
    match unpack fmtSR w with
      | [sub, n, p, b, a, d, _] => if sub = 0 then keep (Instr.rem (Fin.ofNat 64 d) (Fin.ofNat 64 a) (Fin.ofNat 64 b) ⟨Fin.ofNat 16 p, n == 1⟩) else .error .reserved
      | _ => .error .reserved
  | 9 =>
    match unpack fmtSR w with
      | [sub, n, p, b, a, d, _] => if sub = 0 then keep (Instr.remn (Fin.ofNat 64 d) (Fin.ofNat 64 a) (Fin.ofNat 64 b) ⟨Fin.ofNat 16 p, n == 1⟩) else .error .reserved
      | _ => .error .reserved
  | 10 =>
    match unpack fmtSR w with
      | [sub, n, p, b, a, d, _] => if sub = 0 then keep (Instr.and (Fin.ofNat 64 d) (Fin.ofNat 64 a) (Fin.ofNat 64 b) ⟨Fin.ofNat 16 p, n == 1⟩) else .error .reserved
      | _ => .error .reserved
  | 11 =>
    match unpack fmtSR w with
      | [sub, n, p, b, a, d, _] => if sub = 0 then keep (Instr.or (Fin.ofNat 64 d) (Fin.ofNat 64 a) (Fin.ofNat 64 b) ⟨Fin.ofNat 16 p, n == 1⟩) else .error .reserved
      | _ => .error .reserved
  | 12 =>
    match unpack fmtSR w with
      | [sub, n, p, b, a, d, _] => if sub = 0 then keep (Instr.xor (Fin.ofNat 64 d) (Fin.ofNat 64 a) (Fin.ofNat 64 b) ⟨Fin.ofNat 16 p, n == 1⟩) else .error .reserved
      | _ => .error .reserved
  | 13 =>
    match unpack fmtSR w with
      | [sub, n, p, b, a, d, _] => if sub = 0 then keep (Instr.shl (Fin.ofNat 64 d) (Fin.ofNat 64 a) (Fin.ofNat 64 b) ⟨Fin.ofNat 16 p, n == 1⟩) else .error .reserved
      | _ => .error .reserved
  | 14 =>
    match unpack fmtSR w with
      | [sub, n, p, b, a, d, _] => if sub = 0 then keep (Instr.shr (Fin.ofNat 64 d) (Fin.ofNat 64 a) (Fin.ofNat 64 b) ⟨Fin.ofNat 16 p, n == 1⟩) else .error .reserved
      | _ => .error .reserved
  | 15 =>
    match unpack fmtSR w with
      | [sub, n, p, b, a, d, _] => if sub = 0 then keep (Instr.sra (Fin.ofNat 64 d) (Fin.ofNat 64 a) (Fin.ofNat 64 b) ⟨Fin.ofNat 16 p, n == 1⟩) else .error .reserved
      | _ => .error .reserved
  | 16 =>
    match unpack fmtSR w with
      | [sub, n, p, b, a, d, _] => if sub = 0 then keep (Instr.min (Fin.ofNat 64 d) (Fin.ofNat 64 a) (Fin.ofNat 64 b) ⟨Fin.ofNat 16 p, n == 1⟩) else .error .reserved
      | _ => .error .reserved
  | 17 =>
    match unpack fmtSR w with
      | [sub, n, p, b, a, d, _] => if sub = 0 then keep (Instr.max (Fin.ofNat 64 d) (Fin.ofNat 64 a) (Fin.ofNat 64 b) ⟨Fin.ofNat 16 p, n == 1⟩) else .error .reserved
      | _ => .error .reserved
  | 18 =>
    match unpack fmtSR w with
      | [sub, n, p, b, a, d, _] => if sub = 0 then keep (Instr.minn (Fin.ofNat 64 d) (Fin.ofNat 64 a) (Fin.ofNat 64 b) ⟨Fin.ofNat 16 p, n == 1⟩) else .error .reserved
      | _ => .error .reserved
  | 19 =>
    match unpack fmtSR w with
      | [sub, n, p, b, a, d, _] => if sub = 0 then keep (Instr.maxn (Fin.ofNat 64 d) (Fin.ofNat 64 a) (Fin.ofNat 64 b) ⟨Fin.ofNat 16 p, n == 1⟩) else .error .reserved
      | _ => .error .reserved
  | 20 =>
    match unpack fmtSR w with
      | [sub, n, p, b, a, d, _] => if sub = 0 ∧ b = 0 then keep (Instr.clz (Fin.ofNat 64 d) (Fin.ofNat 64 a) ⟨Fin.ofNat 16 p, n == 1⟩) else .error .reserved
      | _ => .error .reserved
  | 21 =>
    match unpack fmtSR w with
      | [sub, n, p, b, a, d, _] => if sub = 0 ∧ b = 0 then keep (Instr.popc (Fin.ofNat 64 d) (Fin.ofNat 64 a) ⟨Fin.ofNat 16 p, n == 1⟩) else .error .reserved
      | _ => .error .reserved
  | 22 =>
    match unpack fmtSR w with
      | [sub, n, p, b, a, d, _] => if sub = 0 then keep (Instr.sel (Fin.ofNat 64 d) (Fin.ofNat 64 a) (Fin.ofNat 64 b) ⟨Fin.ofNat 16 p, n == 1⟩) else .error .reserved
      | _ => .error .reserved
  | 32 =>
    match unpack fmtSI w with
      | [imm, a, d, _] => keep (Instr.addi (Fin.ofNat 64 d) (Fin.ofNat 64 a) (BitVec.ofNat 13 imm))
      | _ => .error .reserved
  | 33 =>
    match unpack fmtSI w with
      | [imm, a, d, _] => keep (Instr.andi (Fin.ofNat 64 d) (Fin.ofNat 64 a) (BitVec.ofNat 13 imm))
      | _ => .error .reserved
  | 34 =>
    match unpack fmtSI w with
      | [imm, a, d, _] => keep (Instr.ori (Fin.ofNat 64 d) (Fin.ofNat 64 a) (BitVec.ofNat 13 imm))
      | _ => .error .reserved
  | 35 =>
    match unpack fmtSI w with
      | [imm, a, d, _] => keep (Instr.xori (Fin.ofNat 64 d) (Fin.ofNat 64 a) (BitVec.ofNat 13 imm))
      | _ => .error .reserved
  | 36 =>
    match unpack fmtSI w with
      | [imm, a, d, _] => if imm < 64 then keep (Instr.shli (Fin.ofNat 64 d) (Fin.ofNat 64 a) (BitVec.ofNat 6 imm)) else .error .reserved
      | _ => .error .reserved
  | 37 =>
    match unpack fmtSI w with
      | [imm, a, d, _] => if imm < 64 then keep (Instr.shri (Fin.ofNat 64 d) (Fin.ofNat 64 a) (BitVec.ofNat 6 imm)) else .error .reserved
      | _ => .error .reserved
  | 38 =>
    match unpack fmtSI w with
      | [imm, a, d, _] => if imm < 64 then keep (Instr.srai (Fin.ofNat 64 d) (Fin.ofNat 64 a) (BitVec.ofNat 6 imm)) else .error .reserved
      | _ => .error .reserved
  | 39 =>
    match unpack fmtSI w with
      | [imm, a, d, _] => keep (Instr.muli (Fin.ofNat 64 d) (Fin.ofNat 64 a) (BitVec.ofNat 13 imm))
      | _ => .error .reserved
  | 40 =>
    match unpack fmtSW w with
      | [imm, d, _] => keep (Instr.movi (Fin.ofNat 64 d) (BitVec.ofNat 19 imm))
      | _ => .error .reserved
  | 41 =>
    match unpack fmtSK w with
      | [v, z, q, d, _] => if z = 0 then keep (Instr.movk (Fin.ofNat 64 d) (BitVec.ofNat 2 q) (BitVec.ofNat 16 v)) else .error .reserved
      | _ => .error .reserved
  | 48 =>
    match unpack fmtSP w with
      | [sub, n, p, b, a, z, pd, _] => if z = 0 ∧ sub < 2 then keep (Instr.cmpeq (Fin.ofNat 16 pd) (Fin.ofNat 64 a) (Fin.ofNat 64 b) ⟨Fin.ofNat 16 p, n == 1⟩ (sub == 1)) else .error .reserved
      | _ => .error .reserved
  | 49 =>
    match unpack fmtSP w with
      | [sub, n, p, b, a, z, pd, _] => if z = 0 ∧ sub < 2 then keep (Instr.cmplt (Fin.ofNat 16 pd) (Fin.ofNat 64 a) (Fin.ofNat 64 b) ⟨Fin.ofNat 16 p, n == 1⟩ (sub == 1)) else .error .reserved
      | _ => .error .reserved
  | 50 =>
    match unpack fmtSP w with
      | [sub, n, p, b, a, z, pd, _] => if z = 0 ∧ sub < 2 then keep (Instr.cmpltn (Fin.ofNat 16 pd) (Fin.ofNat 64 a) (Fin.ofNat 64 b) ⟨Fin.ofNat 16 p, n == 1⟩ (sub == 1)) else .error .reserved
      | _ => .error .reserved
  | 52 =>
    match unpack fmtSP w with
      | [sub, n, p, b, a, z, pd, _] => if z = 0 ∧ a < 16 ∧ b < 16 then keep (Instr.pand (Fin.ofNat 16 pd) (Fin.ofNat 16 a) (Fin.ofNat 16 b) ⟨Fin.ofNat 16 p, n == 1⟩ (sub % 2 == 1) (sub / 2 == 1)) else .error .reserved
      | _ => .error .reserved
  | 53 =>
    match unpack fmtSP w with
      | [sub, n, p, b, a, z, pd, _] => if z = 0 ∧ a < 16 ∧ b < 16 then keep (Instr.por (Fin.ofNat 16 pd) (Fin.ofNat 16 a) (Fin.ofNat 16 b) ⟨Fin.ofNat 16 p, n == 1⟩ (sub % 2 == 1) (sub / 2 == 1)) else .error .reserved
      | _ => .error .reserved
  | 54 =>
    match unpack fmtSP w with
      | [sub, n, p, b, a, z, pd, _] => if z = 0 ∧ a < 16 ∧ b < 16 then keep (Instr.pxor (Fin.ofNat 16 pd) (Fin.ofNat 16 a) (Fin.ofNat 16 b) ⟨Fin.ofNat 16 p, n == 1⟩ (sub % 2 == 1) (sub / 2 == 1)) else .error .reserved
      | _ => .error .reserved
  | 55 =>
    match unpack fmtSP w with
      | [sub, n, p, b, a, z, pd, _] => if b = 0 ∧ z = 0 ∧ a < 16 ∧ sub < 2 then keep (Instr.pmov (Fin.ofNat 16 pd) (Fin.ofNat 16 a) ⟨Fin.ofNat 16 p, n == 1⟩ (sub == 1)) else .error .reserved
      | _ => .error .reserved
  | 64 =>
    match unpack fmtSR w with
      | [sub, n, p, b, a, d, _] => keep (Instr.fadd (Fin.ofNat 64 d) (Fin.ofNat 64 a) (Fin.ofNat 64 b) ⟨Fin.ofNat 16 p, n == 1⟩ (Rm.ofCode sub))
      | _ => .error .reserved
  | 65 =>
    match unpack fmtSR w with
      | [sub, n, p, b, a, d, _] => keep (Instr.fsub (Fin.ofNat 64 d) (Fin.ofNat 64 a) (Fin.ofNat 64 b) ⟨Fin.ofNat 16 p, n == 1⟩ (Rm.ofCode sub))
      | _ => .error .reserved
  | 66 =>
    match unpack fmtSR w with
      | [sub, n, p, b, a, d, _] => keep (Instr.fmul (Fin.ofNat 64 d) (Fin.ofNat 64 a) (Fin.ofNat 64 b) ⟨Fin.ofNat 16 p, n == 1⟩ (Rm.ofCode sub))
      | _ => .error .reserved
  | 67 =>
    match unpack fmtSR w with
      | [sub, n, p, b, a, d, _] => keep (Instr.ffma (Fin.ofNat 64 d) (Fin.ofNat 64 a) (Fin.ofNat 64 b) ⟨Fin.ofNat 16 p, n == 1⟩ (Rm.ofCode sub))
      | _ => .error .reserved
  | 68 =>
    match unpack fmtSR w with
      | [sub, n, p, b, a, d, _] => if sub = 0 then keep (Instr.fmin (Fin.ofNat 64 d) (Fin.ofNat 64 a) (Fin.ofNat 64 b) ⟨Fin.ofNat 16 p, n == 1⟩) else .error .reserved
      | _ => .error .reserved
  | 69 =>
    match unpack fmtSR w with
      | [sub, n, p, b, a, d, _] => if sub = 0 then keep (Instr.fmax (Fin.ofNat 64 d) (Fin.ofNat 64 a) (Fin.ofNat 64 b) ⟨Fin.ofNat 16 p, n == 1⟩) else .error .reserved
      | _ => .error .reserved
  | 70 =>
    match unpack fmtSR w with
      | [sub, n, p, b, a, d, _] => if b = 0 then keep (Instr.fcvti (Fin.ofNat 64 d) (Fin.ofNat 64 a) ⟨Fin.ofNat 16 p, n == 1⟩ (Rm.ofCode sub)) else .error .reserved
      | _ => .error .reserved
  | 71 =>
    match unpack fmtSR w with
      | [sub, n, p, b, a, d, _] => if b = 0 then keep (Instr.fcvtf (Fin.ofNat 64 d) (Fin.ofNat 64 a) ⟨Fin.ofNat 16 p, n == 1⟩ (Rm.ofCode sub)) else .error .reserved
      | _ => .error .reserved
  | 72 =>
    match unpack fmtSR w with
      | [sub, n, p, b, a, d, _] => keep (Instr.fcmp (Fin.ofNat 64 d) (Fin.ofNat 64 a) (Fin.ofNat 64 b) ⟨Fin.ofNat 16 p, n == 1⟩ (FRel.ofCode sub))
      | _ => .error .reserved
  | 73 =>
    match unpack fmtSR w with
      | [sub, n, p, b, a, d, _] => if b = 0 then keep (Instr.fcvtb (Fin.ofNat 64 d) (Fin.ofNat 64 a) ⟨Fin.ofNat 16 p, n == 1⟩ (Rm.ofCode sub)) else .error .reserved
      | _ => .error .reserved
  | 80 =>
    match unpack fmtSR w with
      | [sub, n, p, b, a, d, _] => if sub = 0 ∧ b = 0 then keep (Instr.movli (Fin.ofNat 64 d) (BitVec.ofNat 6 a) ⟨Fin.ofNat 16 p, n == 1⟩) else .error .reserved
      | _ => .error .reserved
  | 81 =>
    match unpack fmtSR w with
      | [sub, n, p, b, a, d, _] => if sub = 0 ∧ d = 0 then keep (Instr.dchk (Fin.ofNat 64 a) (Fin.ofNat 64 b) ⟨Fin.ofNat 16 p, n == 1⟩) else .error .reserved
      | _ => .error .reserved
  | _ => .error .unassigned

/-- A syllable of the A slot (R60): its instruction, or why its bundle is illegal. -/
def decodeA (w : Nat) : Except DecErr Instr :=
  match w / 2 ^ 26 % 64 with
  | 0 => .error .opcodeZero
  | 1 =>
    match unpack fmtAA w with
      | [mod, n, p, s, aa, ad, _] => if mod = 0 ∧ s = 0 then keep (Instr.amov (Fin.ofNat 16 ad) (Fin.ofNat 16 aa) ⟨Fin.ofNat 16 p, n == 1⟩) else .error .reserved
      | _ => .error .reserved
  | 2 =>
    match unpack fmtAA w with
      | [mod, n, p, s, aa, ad, _] => if mod = 0 then keep (Instr.aadd (Fin.ofNat 16 ad) (Fin.ofNat 16 aa) (Fin.ofNat 64 s) ⟨Fin.ofNat 16 p, n == 1⟩) else .error .reserved
      | _ => .error .reserved
  | 3 =>
    match unpack fmtAI w with
      | [imm, ad, _] => keep (Instr.aaddi (Fin.ofNat 16 ad) (BitVec.ofNat 22 imm))
      | _ => .error .reserved
  | 4 =>
    match unpack fmtAA w with
      | [mod, n, p, s, aa, ad, _] => if mod = 0 ∧ s = 0 then keep (Instr.ainc (Fin.ofNat 16 ad) (Fin.ofNat 16 aa) ⟨Fin.ofNat 16 p, n == 1⟩) else .error .reserved
      | _ => .error .reserved
  | 5 =>
    match unpack fmtAA w with
      | [mod, n, p, s, aa, ad, _] => if aa = 0 then keep (Instr.agset (Fin.ofNat 16 ad) (Fin.ofNat 64 s) (BitVec.ofNat 7 mod) ⟨Fin.ofNat 16 p, n == 1⟩) else .error .reserved
      | _ => .error .reserved
  | 6 =>
    match unpack fmtAA w with
      | [mod, n, p, s, aa, ad, _] => if ad = 0 then keep (Instr.agrd (Fin.ofNat 64 s) (Fin.ofNat 16 aa) (BitVec.ofNat 7 mod) ⟨Fin.ofNat 16 p, n == 1⟩) else .error .reserved
      | _ => .error .reserved
  | 7 =>
    match unpack fmtAA w with
      | [mod, n, p, s, aa, ad, _] => if mod = 0 then keep (Instr.aidx (Fin.ofNat 16 ad) (Fin.ofNat 16 aa) (Fin.ofNat 64 s) ⟨Fin.ofNat 16 p, n == 1⟩) else .error .reserved
      | _ => .error .reserved
  | 8 =>
    match unpack fmtAA w with
      | [mod, n, p, s, aa, ad, _] => if mod = 0 ∧ ad = 0 then keep (Instr.ard (Fin.ofNat 64 s) (Fin.ofNat 16 aa) ⟨Fin.ofNat 16 p, n == 1⟩) else .error .reserved
      | _ => .error .reserved
  | 16 =>
    match unpack fmtAL w with
      | [off, post, loc, sign, width, n, p, a, s, _] => keep (Instr.ld (Fin.ofNat 64 s) ⟨Fin.ofNat 16 a, ⟨Fin.ofNat 16 p, n == 1⟩, BitVec.ofNat 2 width, loc == 1, post == 1, BitVec.ofNat 6 off⟩ (sign == 1))
      | _ => .error .reserved
  | 17 =>
    match unpack fmtAL w with
      | [off, post, loc, sign, width, n, p, a, s, _] => if sign = 0 then keep (Instr.st ⟨Fin.ofNat 16 a, ⟨Fin.ofNat 16 p, n == 1⟩, BitVec.ofNat 2 width, loc == 1, post == 1, BitVec.ofNat 6 off⟩ (Fin.ofNat 64 s)) else .error .reserved
      | _ => .error .reserved
  | 18 =>
    match unpack fmtAL w with
      | [off, post, loc, sign, width, n, p, a, s, _] => if sign = 0 ∧ s = 0 then keep (Instr.pref ⟨Fin.ofNat 16 a, ⟨Fin.ofNat 16 p, n == 1⟩, BitVec.ofNat 2 width, loc == 1, post == 1, BitVec.ofNat 6 off⟩) else .error .reserved
      | _ => .error .reserved
  | _ => .error .unassigned

/-- A syllable of the M slot (R61): its instruction, or why its bundle is illegal. -/
def decodeM (w : Nat) : Except DecErr Instr :=
  match w / 2 ^ 26 % 64 with
  | 0 => .error .opcodeZero
  | 1 =>
    match unpack fmtMT w with
      | [z, port, n, p, post, view, sel, a, t, _] => if z = 0 ∧ port = 0 ∧ view = 0 then keep (Instr.tld (Fin.ofNat 32 t) ⟨Fin.ofNat 16 a, BitVec.ofNat 5 sel, post == 1, ⟨Fin.ofNat 16 p, n == 1⟩⟩) else .error .reserved
      | _ => .error .reserved
  | 2 =>
    match unpack fmtMT w with
      | [z, port, n, p, post, view, sel, a, t, _] => if z = 0 ∧ view = 0 then keep (Instr.tst (Fin.ofNat 32 t) ⟨Fin.ofNat 16 a, BitVec.ofNat 5 sel, post == 1, ⟨Fin.ofNat 16 p, n == 1⟩⟩ (BitVec.ofNat 3 port)) else .error .reserved
      | _ => .error .reserved
  | 3 =>
    match unpack fmtMT w with
      | [z, port, n, p, post, view, sel, a, t, _] => if z = 0 ∧ port = 0 then keep (Instr.tldl (Fin.ofNat 32 t) ⟨Fin.ofNat 16 a, BitVec.ofNat 5 sel, post == 1, ⟨Fin.ofNat 16 p, n == 1⟩⟩ (view == 1)) else .error .reserved
      | _ => .error .reserved
  | 4 =>
    match unpack fmtMT w with
      | [z, port, n, p, post, view, sel, a, t, _] => if z = 0 then keep (Instr.tstl (Fin.ofNat 32 t) ⟨Fin.ofNat 16 a, BitVec.ofNat 5 sel, post == 1, ⟨Fin.ofNat 16 p, n == 1⟩⟩ (view == 1) (BitVec.ofNat 3 port)) else .error .reserved
      | _ => .error .reserved
  | 5 =>
    match unpack fmtMS w with
      | [z, port, n, p, slot, x, _] => if z = 0 ∧ x < 40 then keep (Instr.spill (XReg.ofNat x) (BitVec.ofNat 6 slot) ⟨Fin.ofNat 16 p, n == 1⟩ (BitVec.ofNat 3 port)) else .error .reserved
      | _ => .error .reserved
  | 6 =>
    match unpack fmtMS w with
      | [z, port, n, p, slot, x, _] => if z = 0 ∧ port = 0 ∧ x < 40 then keep (Instr.fill (XReg.ofNat x) (BitVec.ofNat 6 slot) ⟨Fin.ofNat 16 p, n == 1⟩) else .error .reserved
      | _ => .error .reserved
  | 16 =>
    match unpack fmtMC w with
      | [flags, len, src, dst, tok, _] => keep (Instr.copy ⟨Fin.ofNat 64 tok, Fin.ofNat 16 dst, Fin.ofNat 16 src, Fin.ofNat 64 len⟩ (BitVec.ofNat 6 flags))
      | _ => .error .reserved
  | 17 =>
    match unpack fmtMC w with
      | [flags, len, src, dst, tok, _] => keep (Instr.copyg ⟨Fin.ofNat 64 tok, Fin.ofNat 16 dst, Fin.ofNat 16 src, Fin.ofNat 64 len⟩ (BitVec.ofNat 6 flags))
      | _ => .error .reserved
  | 18 =>
    match unpack fmtMC w with
      | [flags, len, src, dst, tok, _] => keep (Instr.copya ⟨Fin.ofNat 64 tok, Fin.ofNat 16 dst, Fin.ofNat 16 src, Fin.ofNat 64 len⟩ (BitVec.ofNat 6 flags))
      | _ => .error .reserved
  | 19 =>
    match unpack fmtMP w with
      | [imm, s, scope, _] => if imm = 0 ∧ scope = 0 then keep (Instr.engq (Fin.ofNat 64 s)) else .error .reserved
      | _ => .error .reserved
  | 20 =>
    if w / 4 % 2 = 0 then
      match unpack fmtMP w with
        | [imm, s, scope, _] => if s = 0 ∧ scope = 0 ∧ imm < 4 then keep (Instr.engrs (BitVec.ofNat 2 imm)) else .error .reserved
        | _ => .error .reserved
    else
      match unpack fmtMP w with
        | [imm, s, scope, _] => if s = 0 ∧ scope = 0 ∧ 4 ≤ imm ∧ imm < 8 then keep (Instr.engrsCancel (BitVec.ofNat 2 imm)) else .error .reserved
        | _ => .error .reserved
  | 32 =>
    match unpack fmtMP w with
      | [imm, s, scope, _] => if imm = 0 ∧ s = 0 then keep (Instr.phase (BitVec.ofNat 2 scope)) else .error .reserved
      | _ => .error .reserved
  | 33 =>
    match unpack fmtMP w with
      | [imm, s, scope, _] => if imm = 0 ∧ s = 0 ∧ scope = 0 then keep (Instr.vjoin) else .error .reserved
      | _ => .error .reserved
  | 40 =>
    match unpack fmtMA w with
      | [scope, order, size, code, s, a, d, _] => keep (Instr.amo (Fin.ofNat 64 d) (Fin.ofNat 16 a) (Fin.ofNat 64 s) (BitVec.ofNat 4 code) (BitVec.ofNat 2 size) (BitVec.ofNat 2 order) (BitVec.ofNat 2 scope))
      | _ => .error .reserved
  | 41 =>
    match unpack fmtMA w with
      | [scope, order, size, code, s, a, d, _] => if order = 1 then keep (Instr.waitm (Fin.ofNat 64 d) (Fin.ofNat 16 a) (Fin.ofNat 64 s) (BitVec.ofNat 4 code) (BitVec.ofNat 2 size) (BitVec.ofNat 2 scope)) else .error .reserved
      | _ => .error .reserved
  | 48 =>
    match unpack fmtMP w with
      | [imm, s, scope, _] => if scope = 0 then keep (Instr.qpost (Fin.ofNat 64 s) (BitVec.ofNat 18 imm)) else .error .reserved
      | _ => .error .reserved
  | 49 =>
    match unpack fmtMA w with
      | [scope, order, size, code, s, a, d, _] => if order = 2 ∧ size = 0 ∧ code = 0 ∧ s = 0 ∧ d = 0 then keep (Instr.evsig (Fin.ofNat 16 a) (BitVec.ofNat 2 scope)) else .error .reserved
      | _ => .error .reserved
  | 50 =>
    match unpack fmtMA w with
      | [scope, order, size, code, s, a, d, _] => if order = 1 ∧ size = 0 ∧ code = 0 ∧ s = 0 ∧ d = 0 then keep (Instr.evwait (Fin.ofNat 16 a) (BitVec.ofNat 2 scope)) else .error .reserved
      | _ => .error .reserved
  | 56 =>
    match unpack fmtMC w with
      | [flags, len, src, dst, tok, _] => keep (Instr.send ⟨Fin.ofNat 64 tok, Fin.ofNat 16 dst, Fin.ofNat 16 src, Fin.ofNat 64 len⟩ (BitVec.ofNat 6 flags))
      | _ => .error .reserved
  | 57 =>
    match unpack fmtMC w with
      | [flags, len, src, dst, tok, _] => keep (Instr.sendt ⟨Fin.ofNat 64 tok, Fin.ofNat 16 dst, Fin.ofNat 16 src, Fin.ofNat 64 len⟩ (BitVec.ofNat 6 flags))
      | _ => .error .reserved
  | 58 =>
    match unpack fmtMP w with
      | [imm, s, scope, _] => if scope = 0 ∧ imm < 64 then keep (Instr.rxset (Fin.ofNat 64 s) (BitVec.ofNat 6 imm)) else .error .reserved
      | _ => .error .reserved
  | 59 =>
    match unpack fmtMP w with
      | [imm, s, scope, _] => if s = 0 ∧ scope = 0 ∧ imm < 256 then keep (Instr.fbar (BitVec.ofNat 8 imm)) else .error .reserved
      | _ => .error .reserved
  | 60 =>
    match unpack fmtMP w with
      | [imm, s, scope, _] => if scope = 0 then keep (Instr.rpost (Fin.ofNat 64 s) (BitVec.ofNat 12 (imm / 64)) (BitVec.ofNat 6 (imm % 64))) else .error .reserved
      | _ => .error .reserved
  | _ => .error .unassigned

/-- A syllable of the V0 (R62-R65): its instruction, or why its bundle is illegal. -/
def decodeV (w : Nat) : Except DecErr Instr :=
  match w / 2 ^ 41 % 128 with
  | 0 => .error .opcodeZero
  | 1 =>
    match unpack fmtVU w with
      | [p, k, sel, sub, pb, tb, pa, ta, td, _] => if sub = 0 then keep (Instr.tadd (Fin.ofNat 32 td) ⟨Fin.ofNat 32 ta, BitVec.ofNat 3 pa⟩ ⟨Fin.ofNat 32 tb, BitVec.ofNat 3 pb⟩ ⟨BitVec.ofNat 5 sel, Fin.ofNat 8 k, Fin.ofNat 16 p⟩) else .error .reserved
      | _ => .error .reserved
  | 2 =>
    match unpack fmtVU w with
      | [p, k, sel, sub, pb, tb, pa, ta, td, _] => if sub = 0 then keep (Instr.tsub (Fin.ofNat 32 td) ⟨Fin.ofNat 32 ta, BitVec.ofNat 3 pa⟩ ⟨Fin.ofNat 32 tb, BitVec.ofNat 3 pb⟩ ⟨BitVec.ofNat 5 sel, Fin.ofNat 8 k, Fin.ofNat 16 p⟩) else .error .reserved
      | _ => .error .reserved
  | 3 =>
    match unpack fmtVU w with
      | [p, k, sel, sub, pb, tb, pa, ta, td, _] => if sub = 0 then keep (Instr.tmul (Fin.ofNat 32 td) ⟨Fin.ofNat 32 ta, BitVec.ofNat 3 pa⟩ ⟨Fin.ofNat 32 tb, BitVec.ofNat 3 pb⟩ ⟨BitVec.ofNat 5 sel, Fin.ofNat 8 k, Fin.ofNat 16 p⟩) else .error .reserved
      | _ => .error .reserved
  | 4 =>
    match unpack fmtVT w with
      | [p, k, sel, pc, tc, pb, tb, pa, ta, td, _] => keep (Instr.tfma (Fin.ofNat 32 td) ⟨Fin.ofNat 32 ta, BitVec.ofNat 3 pa⟩ ⟨Fin.ofNat 32 tb, BitVec.ofNat 3 pb⟩ ⟨Fin.ofNat 32 tc, BitVec.ofNat 3 pc⟩ ⟨BitVec.ofNat 5 sel, Fin.ofNat 8 k, Fin.ofNat 16 p⟩)
      | _ => .error .reserved
  | 5 =>
    match unpack fmtVU w with
      | [p, k, sel, sub, pb, tb, pa, ta, td, _] => if sub = 0 then keep (Instr.tmax (Fin.ofNat 32 td) ⟨Fin.ofNat 32 ta, BitVec.ofNat 3 pa⟩ ⟨Fin.ofNat 32 tb, BitVec.ofNat 3 pb⟩ ⟨BitVec.ofNat 5 sel, Fin.ofNat 8 k, Fin.ofNat 16 p⟩) else .error .reserved
      | _ => .error .reserved
  | 6 =>
    match unpack fmtVU w with
      | [p, k, sel, sub, pb, tb, pa, ta, td, _] => if sub = 0 then keep (Instr.tmin (Fin.ofNat 32 td) ⟨Fin.ofNat 32 ta, BitVec.ofNat 3 pa⟩ ⟨Fin.ofNat 32 tb, BitVec.ofNat 3 pb⟩ ⟨BitVec.ofNat 5 sel, Fin.ofNat 8 k, Fin.ofNat 16 p⟩) else .error .reserved
      | _ => .error .reserved
  | 7 =>
    match unpack fmtVU w with
      | [p, k, sel, sub, pb, tb, pa, ta, td, _] => if sub = 0 ∧ pb = 0 ∧ tb = 0 then keep (Instr.tabs (Fin.ofNat 32 td) ⟨Fin.ofNat 32 ta, BitVec.ofNat 3 pa⟩ ⟨BitVec.ofNat 5 sel, Fin.ofNat 8 k, Fin.ofNat 16 p⟩) else .error .reserved
      | _ => .error .reserved
  | 8 =>
    match unpack fmtVU w with
      | [p, k, sel, sub, pb, tb, pa, ta, td, _] => if sub = 0 ∧ pb = 0 ∧ tb = 0 then keep (Instr.tneg (Fin.ofNat 32 td) ⟨Fin.ofNat 32 ta, BitVec.ofNat 3 pa⟩ ⟨BitVec.ofNat 5 sel, Fin.ofNat 8 k, Fin.ofNat 16 p⟩) else .error .reserved
      | _ => .error .reserved
  | 9 =>
    match unpack fmtVS w with
      | [p, k, sel, z, sub, s, pa, ta, td, _] => if z = 0 ∧ sub = 0 then keep (Instr.tadds (Fin.ofNat 32 td) ⟨Fin.ofNat 32 ta, BitVec.ofNat 3 pa⟩ (Fin.ofNat 64 s) ⟨BitVec.ofNat 5 sel, Fin.ofNat 8 k, Fin.ofNat 16 p⟩) else .error .reserved
      | _ => .error .reserved
  | 10 =>
    match unpack fmtVS w with
      | [p, k, sel, z, sub, s, pa, ta, td, _] => if z = 0 ∧ sub = 0 then keep (Instr.tmuls (Fin.ofNat 32 td) ⟨Fin.ofNat 32 ta, BitVec.ofNat 3 pa⟩ (Fin.ofNat 64 s) ⟨BitVec.ofNat 5 sel, Fin.ofNat 8 k, Fin.ofNat 16 p⟩) else .error .reserved
      | _ => .error .reserved
  | 11 =>
    match unpack fmtVS w with
      | [p, k, sel, z, sub, s, pa, ta, td, _] => if z = 0 ∧ sub = 0 then keep (Instr.tfmas (Fin.ofNat 32 td) ⟨Fin.ofNat 32 ta, BitVec.ofNat 3 pa⟩ (Fin.ofNat 64 s) ⟨BitVec.ofNat 5 sel, Fin.ofNat 8 k, Fin.ofNat 16 p⟩) else .error .reserved
      | _ => .error .reserved
  | 12 =>
    match unpack fmtVU w with
      | [p, k, sel, sub, pb, tb, pa, ta, td, _] => if td < 8 then keep (Instr.tcmp (Fin.ofNat 8 td) ⟨Fin.ofNat 32 ta, BitVec.ofNat 3 pa⟩ ⟨Fin.ofNat 32 tb, BitVec.ofNat 3 pb⟩ (BitVec.ofNat 8 sub) ⟨BitVec.ofNat 5 sel, Fin.ofNat 8 k, Fin.ofNat 16 p⟩) else .error .reserved
      | _ => .error .reserved
  | 13 =>
    match unpack fmtVU w with
      | [p, k, sel, sub, pb, tb, pa, ta, td, _] => if sub = 0 then keep (Instr.tsel (Fin.ofNat 32 td) ⟨Fin.ofNat 32 ta, BitVec.ofNat 3 pa⟩ ⟨Fin.ofNat 32 tb, BitVec.ofNat 3 pb⟩ ⟨BitVec.ofNat 5 sel, Fin.ofNat 8 k, Fin.ofNat 16 p⟩) else .error .reserved
      | _ => .error .reserved
  | 14 =>
    match unpack fmtVU w with
      | [p, k, sel, sub, pb, tb, pa, ta, td, _] => if sub = 0 ∧ pb = 0 ∧ tb = 0 then keep (Instr.tcvt (Fin.ofNat 32 td) ⟨Fin.ofNat 32 ta, BitVec.ofNat 3 pa⟩ ⟨BitVec.ofNat 5 sel, Fin.ofNat 8 k, Fin.ofNat 16 p⟩) else .error .reserved
      | _ => .error .reserved
  | 16 =>
    match unpack fmtVU w with
      | [p, k, sel, sub, pb, tb, pa, ta, td, _] => if sub = 0 then keep (Instr.tiadd (Fin.ofNat 32 td) ⟨Fin.ofNat 32 ta, BitVec.ofNat 3 pa⟩ ⟨Fin.ofNat 32 tb, BitVec.ofNat 3 pb⟩ ⟨BitVec.ofNat 5 sel, Fin.ofNat 8 k, Fin.ofNat 16 p⟩) else .error .reserved
      | _ => .error .reserved
  | 17 =>
    match unpack fmtVU w with
      | [p, k, sel, sub, pb, tb, pa, ta, td, _] => if sub = 0 then keep (Instr.tisub (Fin.ofNat 32 td) ⟨Fin.ofNat 32 ta, BitVec.ofNat 3 pa⟩ ⟨Fin.ofNat 32 tb, BitVec.ofNat 3 pb⟩ ⟨BitVec.ofNat 5 sel, Fin.ofNat 8 k, Fin.ofNat 16 p⟩) else .error .reserved
      | _ => .error .reserved
  | 18 =>
    match unpack fmtVU w with
      | [p, k, sel, sub, pb, tb, pa, ta, td, _] => if sub = 0 then keep (Instr.timul (Fin.ofNat 32 td) ⟨Fin.ofNat 32 ta, BitVec.ofNat 3 pa⟩ ⟨Fin.ofNat 32 tb, BitVec.ofNat 3 pb⟩ ⟨BitVec.ofNat 5 sel, Fin.ofNat 8 k, Fin.ofNat 16 p⟩) else .error .reserved
      | _ => .error .reserved
  | 19 =>
    match unpack fmtVU w with
      | [p, k, sel, sub, pb, tb, pa, ta, td, _] => if sub = 0 then keep (Instr.tand (Fin.ofNat 32 td) ⟨Fin.ofNat 32 ta, BitVec.ofNat 3 pa⟩ ⟨Fin.ofNat 32 tb, BitVec.ofNat 3 pb⟩ ⟨BitVec.ofNat 5 sel, Fin.ofNat 8 k, Fin.ofNat 16 p⟩) else .error .reserved
      | _ => .error .reserved
  | 20 =>
    match unpack fmtVU w with
      | [p, k, sel, sub, pb, tb, pa, ta, td, _] => if sub = 0 then keep (Instr.tor (Fin.ofNat 32 td) ⟨Fin.ofNat 32 ta, BitVec.ofNat 3 pa⟩ ⟨Fin.ofNat 32 tb, BitVec.ofNat 3 pb⟩ ⟨BitVec.ofNat 5 sel, Fin.ofNat 8 k, Fin.ofNat 16 p⟩) else .error .reserved
      | _ => .error .reserved
  | 21 =>
    match unpack fmtVU w with
      | [p, k, sel, sub, pb, tb, pa, ta, td, _] => if sub = 0 then keep (Instr.txor (Fin.ofNat 32 td) ⟨Fin.ofNat 32 ta, BitVec.ofNat 3 pa⟩ ⟨Fin.ofNat 32 tb, BitVec.ofNat 3 pb⟩ ⟨BitVec.ofNat 5 sel, Fin.ofNat 8 k, Fin.ofNat 16 p⟩) else .error .reserved
      | _ => .error .reserved
  | 22 =>
    match unpack fmtVU w with
      | [p, k, sel, sub, pb, tb, pa, ta, td, _] => if sub = 0 then keep (Instr.tshl (Fin.ofNat 32 td) ⟨Fin.ofNat 32 ta, BitVec.ofNat 3 pa⟩ ⟨Fin.ofNat 32 tb, BitVec.ofNat 3 pb⟩ ⟨BitVec.ofNat 5 sel, Fin.ofNat 8 k, Fin.ofNat 16 p⟩) else .error .reserved
      | _ => .error .reserved
  | 23 =>
    match unpack fmtVU w with
      | [p, k, sel, sub, pb, tb, pa, ta, td, _] => if sub = 0 then keep (Instr.tshr (Fin.ofNat 32 td) ⟨Fin.ofNat 32 ta, BitVec.ofNat 3 pa⟩ ⟨Fin.ofNat 32 tb, BitVec.ofNat 3 pb⟩ ⟨BitVec.ofNat 5 sel, Fin.ofNat 8 k, Fin.ofNat 16 p⟩) else .error .reserved
      | _ => .error .reserved
  | 24 =>
    match unpack fmtVU w with
      | [p, k, sel, sub, pb, tb, pa, ta, td, _] => if sub = 0 then keep (Instr.timax (Fin.ofNat 32 td) ⟨Fin.ofNat 32 ta, BitVec.ofNat 3 pa⟩ ⟨Fin.ofNat 32 tb, BitVec.ofNat 3 pb⟩ ⟨BitVec.ofNat 5 sel, Fin.ofNat 8 k, Fin.ofNat 16 p⟩) else .error .reserved
      | _ => .error .reserved
  | 25 =>
    match unpack fmtVU w with
      | [p, k, sel, sub, pb, tb, pa, ta, td, _] => if sub = 0 then keep (Instr.timin (Fin.ofNat 32 td) ⟨Fin.ofNat 32 ta, BitVec.ofNat 3 pa⟩ ⟨Fin.ofNat 32 tb, BitVec.ofNat 3 pb⟩ ⟨BitVec.ofNat 5 sel, Fin.ofNat 8 k, Fin.ofNat 16 p⟩) else .error .reserved
      | _ => .error .reserved
  | 32 =>
    match unpack fmtVU w with
      | [p, k, sel, sub, pb, tb, pa, ta, td, _] => if sub = 0 ∧ pb = 0 ∧ tb = 0 then keep (Instr.tmov (Fin.ofNat 32 td) ⟨Fin.ofNat 32 ta, BitVec.ofNat 3 pa⟩ ⟨BitVec.ofNat 5 sel, Fin.ofNat 8 k, Fin.ofNat 16 p⟩) else .error .reserved
      | _ => .error .reserved
  | 33 =>
    match unpack fmtVS w with
      | [p, k, sel, z, sub, s, pa, ta, td, _] => if z = 0 ∧ sub = 0 ∧ pa = 0 ∧ ta = 0 then keep (Instr.tfill (Fin.ofNat 32 td) (Fin.ofNat 64 s) ⟨BitVec.ofNat 5 sel, Fin.ofNat 8 k, Fin.ofNat 16 p⟩) else .error .reserved
      | _ => .error .reserved
  | 34 =>
    match unpack fmtVI w with
      | [p, k, sel, imm, pa, ta, td, _] => if pa = 0 ∧ ta = 0 then keep (Instr.tfilli (Fin.ofNat 32 td) (BitVec.ofNat 16 imm) ⟨BitVec.ofNat 5 sel, Fin.ofNat 8 k, Fin.ofNat 16 p⟩) else .error .reserved
      | _ => .error .reserved
  | 35 =>
    match unpack fmtVI w with
      | [p, k, sel, imm, pa, ta, td, _] => if pa = 0 ∧ ta = 0 then keep (Instr.tiota (Fin.ofNat 32 td) (BitVec.ofNat 2 (imm / 16384)) (BitVec.ofNat 14 (imm % 16384)) ⟨BitVec.ofNat 5 sel, Fin.ofNat 8 k, Fin.ofNat 16 p⟩) else .error .reserved
      | _ => .error .reserved
  | 36 =>
    match unpack fmtVI w with
      | [p, k, sel, imm, pa, ta, td, _] => if k = 0 ∧ sel = 31 ∧ pa = 0 ∧ ta = 0 ∧ imm % 4 = 0 then keep (Instr.tshape (Fin.ofNat 32 td) (BitVec.ofNat 4 (imm / 4096)) (BitVec.ofNat 6 (imm / 64 % 64)) (BitVec.ofNat 4 (imm / 4 % 16)) (Fin.ofNat 16 p)) else .error .reserved
      | _ => .error .reserved
  | 37 =>
    match unpack fmtVI w with
      | [p, k, sel, imm, pa, ta, td, _] => if k = 0 ∧ imm < 256 then keep (Instr.rowmov (Fin.ofNat 32 td) (Fin.ofNat 16 (imm / 16)) ⟨Fin.ofNat 32 ta, BitVec.ofNat 3 pa⟩ (Fin.ofNat 16 (imm % 16)) (BitVec.ofNat 5 sel) (Fin.ofNat 16 p)) else .error .reserved
      | _ => .error .reserved
  | 38 =>
    match unpack fmtVS w with
      | [p, k, sel, z, sub, s, pa, ta, td, _] => if k = 0 ∧ z = 0 ∧ td < 16 ∧ sub < 64 then keep (Instr.tget (Fin.ofNat 64 s) ⟨Fin.ofNat 32 ta, BitVec.ofNat 3 pa⟩ (Fin.ofNat 16 td) (Fin.ofNat 64 sub) (BitVec.ofNat 5 sel) (Fin.ofNat 16 p)) else .error .reserved
      | _ => .error .reserved
  | 39 =>
    match unpack fmtVS w with
      | [p, k, sel, z, sub, s, pa, ta, td, _] => if k = 0 ∧ z = 0 ∧ pa = 0 ∧ ta < 16 ∧ sub < 64 then keep (Instr.tset (Fin.ofNat 32 td) (Fin.ofNat 16 ta) (Fin.ofNat 64 sub) (Fin.ofNat 64 s) (BitVec.ofNat 5 sel) (Fin.ofNat 16 p)) else .error .reserved
      | _ => .error .reserved
  | 48 =>
    match unpack fmtVS w with
      | [p, k, sel, z, sub, s, pa, ta, td, _] => if z = 0 then keep (Instr.rrot (Fin.ofNat 32 td) ⟨Fin.ofNat 32 ta, BitVec.ofNat 3 pa⟩ (Fin.ofNat 64 s) (BitVec.ofNat 8 sub) ⟨BitVec.ofNat 5 sel, Fin.ofNat 8 k, Fin.ofNat 16 p⟩) else .error .reserved
      | _ => .error .reserved
  | 49 =>
    match unpack fmtVS w with
      | [p, k, sel, z, sub, s, pa, ta, td, _] => if z = 0 then keep (Instr.crot (Fin.ofNat 32 td) ⟨Fin.ofNat 32 ta, BitVec.ofNat 3 pa⟩ (Fin.ofNat 64 s) (BitVec.ofNat 8 sub) ⟨BitVec.ofNat 5 sel, Fin.ofNat 8 k, Fin.ofNat 16 p⟩) else .error .reserved
      | _ => .error .reserved
  | 50 =>
    match unpack fmtVS w with
      | [p, k, sel, z, sub, s, pa, ta, td, _] => if z = 0 then keep (Instr.rbc (Fin.ofNat 32 td) ⟨Fin.ofNat 32 ta, BitVec.ofNat 3 pa⟩ (Fin.ofNat 64 s) (BitVec.ofNat 8 sub) ⟨BitVec.ofNat 5 sel, Fin.ofNat 8 k, Fin.ofNat 16 p⟩) else .error .reserved
      | _ => .error .reserved
  | 51 =>
    match unpack fmtVS w with
      | [p, k, sel, z, sub, s, pa, ta, td, _] => if z = 0 then keep (Instr.cbc (Fin.ofNat 32 td) ⟨Fin.ofNat 32 ta, BitVec.ofNat 3 pa⟩ (Fin.ofNat 64 s) (BitVec.ofNat 8 sub) ⟨BitVec.ofNat 5 sel, Fin.ofNat 8 k, Fin.ofNat 16 p⟩) else .error .reserved
      | _ => .error .reserved
  | 52 =>
    match unpack fmtVU w with
      | [p, k, sel, sub, pb, tb, pa, ta, td, _] => if pb = 0 ∧ tb = 0 then keep (Instr.rred (Fin.ofNat 32 td) ⟨Fin.ofNat 32 ta, BitVec.ofNat 3 pa⟩ (BitVec.ofNat 8 sub) ⟨BitVec.ofNat 5 sel, Fin.ofNat 8 k, Fin.ofNat 16 p⟩) else .error .reserved
      | _ => .error .reserved
  | 53 =>
    match unpack fmtVU w with
      | [p, k, sel, sub, pb, tb, pa, ta, td, _] => if pb = 0 ∧ tb = 0 then keep (Instr.cred (Fin.ofNat 32 td) ⟨Fin.ofNat 32 ta, BitVec.ofNat 3 pa⟩ (BitVec.ofNat 8 sub) ⟨BitVec.ofNat 5 sel, Fin.ofNat 8 k, Fin.ofNat 16 p⟩) else .error .reserved
      | _ => .error .reserved
  | 54 =>
    match unpack fmtVU w with
      | [p, k, sel, sub, pb, tb, pa, ta, td, _] => if pb = 0 ∧ tb = 0 then keep (Instr.rscan (Fin.ofNat 32 td) ⟨Fin.ofNat 32 ta, BitVec.ofNat 3 pa⟩ (BitVec.ofNat 8 sub) ⟨BitVec.ofNat 5 sel, Fin.ofNat 8 k, Fin.ofNat 16 p⟩) else .error .reserved
      | _ => .error .reserved
  | 64 =>
    match unpack fmtVL w with
      | [sub, port, s, neg, rb, ra, useb, lvb, lva, slot, x, _] => if sub = 0 ∧ port = 0 ∧ s = 0 ∧ x < 40 then keep (Instr.tlat (XReg.ofNat x) (LSlot.ofCode slot) (Fin.ofNat 16 lva) (Fin.ofNat 16 lvb) (useb == 1) (ra == 1) (rb == 1) (neg == 1)) else .error .reserved
      | _ => .error .reserved
  | 65 =>
    match unpack fmtVL w with
      | [sub, port, s, neg, rb, ra, useb, lvb, lva, slot, x, _] => if port = 0 ∧ s = 0 ∧ neg = 0 ∧ rb = 0 ∧ ra = 0 ∧ useb = 0 ∧ lvb = 0 ∧ lva = 0 ∧ slot = 0 ∧ x < 40 ∧ sub < 16 then keep (Instr.tlatc (XReg.ofNat x) (BitVec.ofNat 4 sub)) else .error .reserved
      | _ => .error .reserved
  | 66 =>
    match unpack fmtVL w with
      | [sub, port, s, neg, rb, ra, useb, lvb, lva, slot, x, _] => if s = 0 ∧ neg = 0 ∧ rb = 0 ∧ ra = 0 ∧ useb = 0 ∧ lvb = 0 ∧ lva = 0 ∧ slot = 0 ∧ x < 40 ∧ sub < 32 then keep (Instr.tdev (XReg.ofNat x) (BitVec.ofNat 3 port) (BitVec.ofNat 5 sub)) else .error .reserved
      | _ => .error .reserved
  | 67 =>
    match unpack fmtVL w with
      | [sub, port, s, neg, rb, ra, useb, lvb, lva, slot, x, _] => if s = 0 ∧ neg = 0 ∧ rb = 0 ∧ ra = 0 ∧ useb = 0 ∧ lvb = 0 ∧ slot = 0 ∧ x < 40 ∧ sub < 16 then keep (Instr.lvacc (XReg.ofNat x) (BitVec.ofNat 3 port) (Fin.ofNat 16 lva) (Fin.ofNat 8 (sub % 8)) (sub / 8 == 1)) else .error .reserved
      | _ => .error .reserved
  | 68 =>
    match unpack fmtVL w with
      | [sub, port, s, neg, rb, ra, useb, lvb, lva, slot, x, _] => if port = 0 ∧ neg = 0 ∧ rb = 0 ∧ ra = 0 ∧ useb = 0 ∧ lvb = 0 ∧ slot = 0 ∧ x = 0 ∧ sub < 2 then keep (Instr.lvclose (Fin.ofNat 16 lva) (Fin.ofNat 64 s) (sub == 1)) else .error .reserved
      | _ => .error .reserved
  | 69 =>
    if w % 2 = 0 then
      match unpack fmtVL w with
        | [sub, port, s, neg, rb, ra, useb, lvb, lva, slot, x, _] => if s = 0 ∧ neg = 0 ∧ rb = 0 ∧ ra = 0 ∧ useb = 0 ∧ lvb = 0 ∧ slot = 0 ∧ x < 40 ∧ sub % 16 = 0 ∧ sub < 256 then keep (Instr.lvmovToVector (Fin.ofNat 16 lva) (XReg.ofNat x) (BitVec.ofNat 3 port) (Fin.ofNat 16 (sub / 16))) else .error .reserved
        | _ => .error .reserved
    else
      match unpack fmtVL w with
        | [sub, port, s, neg, rb, ra, useb, lvb, lva, slot, x, _] => if port = 0 ∧ s = 0 ∧ neg = 0 ∧ rb = 0 ∧ ra = 0 ∧ useb = 0 ∧ lvb = 0 ∧ slot = 0 ∧ x < 40 ∧ sub % 16 = 1 ∧ sub < 256 then keep (Instr.lvmovToRow (XReg.ofNat x) (Fin.ofNat 16 (sub / 16)) (Fin.ofNat 16 lva)) else .error .reserved
        | _ => .error .reserved
  | 70 =>
    match unpack fmtVL w with
      | [sub, port, s, neg, rb, ra, useb, lvb, lva, slot, x, _] => if port = 0 ∧ neg = 0 ∧ rb = 0 ∧ ra = 0 ∧ useb = 0 ∧ lvb = 0 ∧ slot = 0 ∧ x = 0 ∧ sub < 2 then keep (Instr.lvset (Fin.ofNat 16 lva) (Fin.ofNat 64 s) (sub == 1)) else .error .reserved
      | _ => .error .reserved
  | 71 =>
    match unpack fmtVL w with
      | [sub, port, s, neg, rb, ra, useb, lvb, lva, slot, x, _] => if sub = 0 ∧ port = 0 ∧ neg = 0 ∧ rb = 0 ∧ ra = 0 ∧ useb = 0 ∧ lvb = 0 ∧ lva = 0 ∧ x < 40 then keep (Instr.tlatq (Fin.ofNat 64 s) (XReg.ofNat x) (LSlot.ofCode slot)) else .error .reserved
      | _ => .error .reserved
  | 80 =>
    match unpack fmtVU w with
      | [p, k, sel, sub, pb, tb, pa, ta, td, _] => if k = 0 ∧ sub = 0 ∧ td = 0 then keep (Instr.tchk ⟨Fin.ofNat 32 ta, BitVec.ofNat 3 pa⟩ ⟨Fin.ofNat 32 tb, BitVec.ofNat 3 pb⟩ (BitVec.ofNat 5 sel) (Fin.ofNat 16 p)) else .error .reserved
      | _ => .error .reserved
  | 96 =>
    match unpack fmtVU w with
      | [p, k, sel, sub, pb, tb, pa, ta, td, _] => if k = 0 ∧ sel = 31 ∧ sub = 0 ∧ pb = 0 ∧ tb = 0 ∧ pa = 0 ∧ ta = 0 ∧ td = 0 then keep (Instr.treeclr (Fin.ofNat 16 p)) else .error .reserved
      | _ => .error .reserved
  | 97 =>
    match unpack fmtVU w with
      | [p, k, sel, sub, pb, tb, pa, ta, td, _] => if k = 0 ∧ sel = 31 ∧ pb = 0 ∧ tb = 0 ∧ td = 0 ∧ sub < 16 then keep (Instr.treeset ⟨Fin.ofNat 32 ta, BitVec.ofNat 3 pa⟩ (Fin.ofNat 16 sub) (Fin.ofNat 16 p)) else .error .reserved
      | _ => .error .reserved
  | 98 =>
    match unpack fmtVS w with
      | [p, k, sel, z, sub, s, pa, ta, td, _] => if k = 0 ∧ sel = 31 ∧ z = 0 ∧ pa = 0 ∧ ta = 0 ∧ td = 0 ∧ sub < 64 then keep (Instr.treeadd (Fin.ofNat 64 s) (Fin.ofNat 64 sub) (Fin.ofNat 16 p)) else .error .reserved
      | _ => .error .reserved
  | 99 =>
    match unpack fmtVU w with
      | [p, k, sel, sub, pb, tb, pa, ta, td, _] => if k = 0 ∧ sel = 31 ∧ pb = 0 ∧ tb = 0 ∧ pa = 0 ∧ ta = 0 ∧ td < 8 ∧ sub < 4 then keep (Instr.treemask (Fin.ofNat 8 td) (Fin.ofNat 4 sub) (Fin.ofNat 16 p)) else .error .reserved
      | _ => .error .reserved
  | 100 =>
    match unpack fmtVU w with
      | [p, k, sel, sub, pb, tb, pa, ta, td, _] => if k = 0 ∧ sel = 31 ∧ pb = 0 ∧ tb = 0 ∧ pa = 0 ∧ ta = 0 ∧ sub < 4 then keep (Instr.treebias (Fin.ofNat 32 td) (Fin.ofNat 4 sub) (Fin.ofNat 16 p)) else .error .reserved
      | _ => .error .reserved
  | 101 =>
    match unpack fmtVS w with
      | [p, k, sel, z, sub, s, pa, ta, td, _] => if k = 0 ∧ sel = 31 ∧ z = 0 ∧ pa = 0 ∧ ta = 0 ∧ sub < 16 then keep (Instr.treepos (Fin.ofNat 32 td) (Fin.ofNat 64 s) (Fin.ofNat 16 sub) (Fin.ofNat 16 p)) else .error .reserved
      | _ => .error .reserved
  | 102 =>
    match unpack fmtVS w with
      | [p, k, sel, z, sub, s, pa, ta, td, _] => if k = 0 ∧ sel = 31 ∧ z = 0 ∧ pa = 0 ∧ ta = 0 ∧ sub < 16 then keep (Instr.treeprune (Fin.ofNat 32 td) (Fin.ofNat 64 s) (Fin.ofNat 16 sub) (Fin.ofNat 16 p)) else .error .reserved
      | _ => .error .reserved
  | 103 =>
    match unpack fmtVS w with
      | [p, k, sel, z, sub, s, pa, ta, td, _] => if k = 0 ∧ sel = 31 ∧ z = 0 ∧ pa = 0 ∧ ta = 0 ∧ td = 0 then keep (Instr.treerd (Fin.ofNat 64 s) (Fin.ofNat 64 (sub % 64)) (Fin.ofNat 4 (sub / 64)) (Fin.ofNat 16 p)) else .error .reserved
      | _ => .error .reserved
  | _ => .error .unassigned

/-- A syllable of the F slot (R66): its instruction, or why its bundle is illegal. -/
def decodeF (w : Nat) : Except DecErr Instr :=
  match w / 2 ^ 26 % 64 with
  | 0 => .error .opcodeZero
  | 1 =>
    match unpack fmtF w with
      | [z, p, k, sel, port, ta, td, _] => if z = 0 then keep (Instr.fexp2 (Fin.ofNat 32 td) ⟨Fin.ofNat 32 ta, BitVec.ofNat 3 port⟩ ⟨BitVec.ofNat 5 sel, Fin.ofNat 8 k, Fin.ofNat 16 p⟩) else .error .reserved
      | _ => .error .reserved
  | 2 =>
    match unpack fmtF w with
      | [z, p, k, sel, port, ta, td, _] => if z = 0 then keep (Instr.flog2 (Fin.ofNat 32 td) ⟨Fin.ofNat 32 ta, BitVec.ofNat 3 port⟩ ⟨BitVec.ofNat 5 sel, Fin.ofNat 8 k, Fin.ofNat 16 p⟩) else .error .reserved
      | _ => .error .reserved
  | 3 =>
    match unpack fmtF w with
      | [z, p, k, sel, port, ta, td, _] => if z = 0 then keep (Instr.frcp (Fin.ofNat 32 td) ⟨Fin.ofNat 32 ta, BitVec.ofNat 3 port⟩ ⟨BitVec.ofNat 5 sel, Fin.ofNat 8 k, Fin.ofNat 16 p⟩) else .error .reserved
      | _ => .error .reserved
  | 4 =>
    match unpack fmtF w with
      | [z, p, k, sel, port, ta, td, _] => if z = 0 then keep (Instr.frsqrt (Fin.ofNat 32 td) ⟨Fin.ofNat 32 ta, BitVec.ofNat 3 port⟩ ⟨BitVec.ofNat 5 sel, Fin.ofNat 8 k, Fin.ofNat 16 p⟩) else .error .reserved
      | _ => .error .reserved
  | 5 =>
    match unpack fmtF w with
      | [z, p, k, sel, port, ta, td, _] => if z = 0 then keep (Instr.fsqrt (Fin.ofNat 32 td) ⟨Fin.ofNat 32 ta, BitVec.ofNat 3 port⟩ ⟨BitVec.ofNat 5 sel, Fin.ofNat 8 k, Fin.ofNat 16 p⟩) else .error .reserved
      | _ => .error .reserved
  | 6 =>
    match unpack fmtF w with
      | [z, p, k, sel, port, ta, td, _] => if z = 0 then keep (Instr.ftanh (Fin.ofNat 32 td) ⟨Fin.ofNat 32 ta, BitVec.ofNat 3 port⟩ ⟨BitVec.ofNat 5 sel, Fin.ofNat 8 k, Fin.ofNat 16 p⟩) else .error .reserved
      | _ => .error .reserved
  | 7 =>
    match unpack fmtF w with
      | [z, p, k, sel, port, ta, td, _] => if z = 0 then keep (Instr.fsigm (Fin.ofNat 32 td) ⟨Fin.ofNat 32 ta, BitVec.ofNat 3 port⟩ ⟨BitVec.ofNat 5 sel, Fin.ofNat 8 k, Fin.ofNat 16 p⟩) else .error .reserved
      | _ => .error .reserved
  | 8 =>
    match unpack fmtF w with
      | [z, p, k, sel, port, ta, td, _] => if z = 0 then keep (Instr.fexp (Fin.ofNat 32 td) ⟨Fin.ofNat 32 ta, BitVec.ofNat 3 port⟩ ⟨BitVec.ofNat 5 sel, Fin.ofNat 8 k, Fin.ofNat 16 p⟩) else .error .reserved
      | _ => .error .reserved
  | 9 =>
    match unpack fmtF w with
      | [z, p, k, sel, port, ta, td, _] => if z = 0 then keep (Instr.fsin (Fin.ofNat 32 td) ⟨Fin.ofNat 32 ta, BitVec.ofNat 3 port⟩ ⟨BitVec.ofNat 5 sel, Fin.ofNat 8 k, Fin.ofNat 16 p⟩) else .error .reserved
      | _ => .error .reserved
  | 10 =>
    match unpack fmtF w with
      | [z, p, k, sel, port, ta, td, _] => if z = 0 then keep (Instr.fcos (Fin.ofNat 32 td) ⟨Fin.ofNat 32 ta, BitVec.ofNat 3 port⟩ ⟨BitVec.ofNat 5 sel, Fin.ofNat 8 k, Fin.ofNat 16 p⟩) else .error .reserved
      | _ => .error .reserved
  | _ => .error .unassigned

/-- A syllable of the X slot (R67): its instruction, or why its bundle is illegal. -/
def decodeX (w : Nat) : Except DecErr Instr :=
  match w / 2 ^ 26 % 64 with
  | 0 => .error .opcodeZero
  | 1 =>
    match unpack fmtX w with
      | [imm, xp, port, ta, td, _] => if imm = 0 then keep (Instr.xperm (Fin.ofNat 32 td) ⟨Fin.ofNat 32 ta, BitVec.ofNat 3 port⟩ (Fin.ofNat 4 xp)) else .error .reserved
      | _ => .error .reserved
  | 2 =>
    match unpack fmtX w with
      | [imm, xp, port, ta, td, _] => if td = 0 ∧ imm < 16 then keep (Instr.xpld (Fin.ofNat 4 xp) ⟨Fin.ofNat 32 ta, BitVec.ofNat 3 port⟩ (Fin.ofNat 16 imm)) else .error .reserved
      | _ => .error .reserved
  | 3 =>
    match unpack fmtX w with
      | [imm, xp, port, ta, td, _] => if xp = 0 ∧ imm / 8 % 32 = 0 then keep (Instr.xshuf (Fin.ofNat 32 td) ⟨Fin.ofNat 32 ta, BitVec.ofNat 3 port⟩ (BitVec.ofNat 3 (imm / 256)) (BitVec.ofNat 3 (imm % 8))) else .error .reserved
      | _ => .error .reserved
  | 4 =>
    match unpack fmtX w with
      | [imm, xp, port, ta, td, _] => if imm = 0 ∧ xp = 0 then keep (Instr.xbrev (Fin.ofNat 32 td) ⟨Fin.ofNat 32 ta, BitVec.ofNat 3 port⟩) else .error .reserved
      | _ => .error .reserved
  | 5 =>
    match unpack fmtX w with
      | [imm, xp, port, ta, td, _] => if imm = 0 ∧ xp = 0 then keep (Instr.xtrn (Fin.ofNat 32 td) ⟨Fin.ofNat 32 ta, BitVec.ofNat 3 port⟩) else .error .reserved
      | _ => .error .reserved
  | _ => .error .unassigned

/-- A syllable of the Q slot (R68): its instruction, or why its bundle is illegal. -/
def decodeQ (w : Nat) : Except DecErr Instr :=
  match w / 2 ^ 42 % 64 with
  | 0 => .error .opcodeZero
  | 1 =>
    match unpack fmtQ w with
      | [z, p, inc, a, rep, wsel, asel, port, ta, cd, _] => if z = 0 ∧ inc = 0 ∧ a = 0 ∧ rep = 0 ∧ wsel = 0 ∧ asel = 0 ∧ cd = 0 then keep (Instr.mlds ⟨Fin.ofNat 32 ta, BitVec.ofNat 3 port⟩ (Fin.ofNat 16 p)) else .error .reserved
      | _ => .error .reserved
  | 2 =>
    match unpack fmtQ w with
      | [z, p, inc, a, rep, wsel, asel, port, ta, cd, _] => if z = 0 ∧ inc = 0 ∧ rep = 0 ∧ wsel = 0 ∧ asel = 0 ∧ port = 0 ∧ ta = 0 ∧ cd = 0 then keep (Instr.mldsl (Fin.ofNat 16 a) (Fin.ofNat 16 p)) else .error .reserved
      | _ => .error .reserved
  | 3 =>
    match unpack fmtQ w with
      | [z, p, inc, a, rep, wsel, asel, port, ta, cd, _] => if z = 0 ∧ inc = 0 ∧ a = 0 ∧ rep = 0 ∧ wsel = 0 ∧ asel = 0 ∧ port = 0 ∧ ta = 0 ∧ cd = 0 then keep (Instr.mswap (Fin.ofNat 16 p)) else .error .reserved
      | _ => .error .reserved
  | 4 =>
    match unpack fmtQ w with
      | [z, p, inc, a, rep, wsel, asel, port, ta, cd, _] => if z = 0 then keep (Instr.mmul (Fin.ofNat 8 cd) ⟨Fin.ofNat 32 ta, BitVec.ofNat 3 port⟩ (BitVec.ofNat 5 asel) (BitVec.ofNat 5 wsel) ⟨BitVec.ofNat 10 rep, Fin.ofNat 16 a, BitVec.ofNat 2 inc⟩ (Fin.ofNat 16 p)) else .error .reserved
      | _ => .error .reserved
  | 5 =>
    match unpack fmtQ w with
      | [z, p, inc, a, rep, wsel, asel, port, ta, cd, _] => if z = 0 then keep (Instr.mmac (Fin.ofNat 8 cd) ⟨Fin.ofNat 32 ta, BitVec.ofNat 3 port⟩ (BitVec.ofNat 5 asel) (BitVec.ofNat 5 wsel) ⟨BitVec.ofNat 10 rep, Fin.ofNat 16 a, BitVec.ofNat 2 inc⟩ (Fin.ofNat 16 p)) else .error .reserved
      | _ => .error .reserved
  | 6 =>
    match unpack fmtQ w with
      | [z, p, inc, a, rep, wsel, asel, port, ta, cd, _] => if z = 0 ∧ port = 0 ∧ ta = 0 then keep (Instr.mmull (Fin.ofNat 8 cd) (BitVec.ofNat 5 asel) (BitVec.ofNat 5 wsel) ⟨BitVec.ofNat 10 rep, Fin.ofNat 16 a, BitVec.ofNat 2 inc⟩ (Fin.ofNat 16 p)) else .error .reserved
      | _ => .error .reserved
  | 7 =>
    match unpack fmtQ w with
      | [z, p, inc, a, rep, wsel, asel, port, ta, cd, _] => if z = 0 ∧ port = 0 ∧ ta = 0 then keep (Instr.mmacl (Fin.ofNat 8 cd) (BitVec.ofNat 5 asel) (BitVec.ofNat 5 wsel) ⟨BitVec.ofNat 10 rep, Fin.ofNat 16 a, BitVec.ofNat 2 inc⟩ (Fin.ofNat 16 p)) else .error .reserved
      | _ => .error .reserved
  | 8 =>
    match unpack fmtQ w with
      | [z, p, inc, a, rep, wsel, asel, port, ta, cd, _] => if z = 0 then keep (Instr.mmact (Fin.ofNat 8 cd) ⟨Fin.ofNat 32 ta, BitVec.ofNat 3 port⟩ (BitVec.ofNat 5 asel) (BitVec.ofNat 5 wsel) ⟨BitVec.ofNat 10 rep, Fin.ofNat 16 a, BitVec.ofNat 2 inc⟩ (Fin.ofNat 16 p)) else .error .reserved
      | _ => .error .reserved
  | 9 =>
    match unpack fmtQ w with
      | [z, p, inc, a, rep, wsel, asel, port, ta, cd, _] => if z = 0 ∧ inc = 0 ∧ a = 0 ∧ rep = 0 ∧ wsel = 0 ∧ asel = 0 ∧ port = 0 ∧ ta = 0 then keep (Instr.mzero (Fin.ofNat 8 cd) (Fin.ofNat 16 p)) else .error .reserved
      | _ => .error .reserved
  | 10 =>
    match unpack fmtQ w with
      | [z, p, inc, a, rep, wsel, asel, port, ta, cd, _] => if z = 0 ∧ inc = 0 ∧ a = 0 ∧ rep = 0 ∧ wsel = 0 ∧ port = 0 then keep (Instr.mrd (Fin.ofNat 32 ta) (Fin.ofNat 8 cd) (BitVec.ofNat 5 asel) (Fin.ofNat 16 p)) else .error .reserved
      | _ => .error .reserved
  | 11 =>
    match unpack fmtQ w with
      | [z, p, inc, a, rep, wsel, asel, port, ta, cd, _] => if z = 0 ∧ inc = 0 ∧ a = 0 ∧ rep = 0 ∧ wsel = 0 then keep (Instr.mwr (Fin.ofNat 8 cd) ⟨Fin.ofNat 32 ta, BitVec.ofNat 3 port⟩ (BitVec.ofNat 5 asel) (Fin.ofNat 16 p)) else .error .reserved
      | _ => .error .reserved
  | 12 =>
    match unpack fmtQ w with
      | [z, p, inc, a, rep, wsel, asel, port, ta, cd, _] => if z = 0 ∧ inc = 0 ∧ a = 0 ∧ rep = 0 ∧ wsel = 0 ∧ asel = 0 ∧ port = 0 ∧ cd = 0 then keep (Instr.mstat (Fin.ofNat 32 ta) (Fin.ofNat 16 p)) else .error .reserved
      | _ => .error .reserved
  | _ => .error .unassigned

/-- The syllable of a slot kind. -/
def decodeSlot (k : SlotKind) (w : Nat) : Except DecErr Instr :=
  match k with
  | .c => decodeC w
  | .s => decodeS w
  | .a => decodeA w
  | .m => decodeM w
  | .v => decodeV w
  | .f => decodeF w
  | .x => decodeX w
  | .q => decodeQ w

/-- The slot kind and the syllable of an instruction, from the same formats; none for the steps of other agents. -/
def encode (i : Instr) : Option (SlotKind × Nat) :=
  match i with
  | .br g off => some (.c, pack fmtCB [off.toNat, g.n.toNat, g.p.val, 1])
  | .call off => some (.c, pack fmtCB [off.toNat, 0, 0, 2])
  | .bri s => some (.c, pack fmtCS [0, 0, s.val, 3])
  | .ret => some (.c, pack fmtCN [0, 4])
  | .loopImm count len => some (.c, pack fmtCL0 [len.toNat, count.toNat, 0, 5])
  | .loopReg s len => some (.c, pack fmtCL1 [len.toNat, 0, s.val, 1, 5])
  | .loopx => some (.c, pack fmtCN [0, 6])
  | .lbuf n => some (.c, pack fmtCN [n.toNat, 7])
  | .marker e => some (.c, pack fmtCN [e.toNat, 8])
  | .yield => some (.c, pack fmtCN [0, 9])
  | .exit code => some (.c, pack fmtCN [code.toNat, 10])
  | .trap code => some (.c, pack fmtCN [code.toNat, 11])
  | .eret => some (.c, pack fmtCN [0, 12])
  | .sysrd s num => some (.c, pack fmtCS [0, num.toNat, s.val, 13])
  | .syswr s num => some (.c, pack fmtCS [0, num.toNat, s.val, 14])
  | .rfmode mask => some (.c, pack fmtCN [mask.toNat, 15])
  | .fmtbase b => some (.c, pack fmtCN [b.toNat, 16])
  | .bkpt code => some (.c, pack fmtCN [code.toNat, 17])
  | .trace s kind => some (.c, pack fmtCS [kind.toNat, 0, s.val, 18])
  | .add d a b g => some (.s, pack fmtSR [0, g.n.toNat, g.p.val, b.val, a.val, d.val, 1])
  | .sub d a b g => some (.s, pack fmtSR [0, g.n.toNat, g.p.val, b.val, a.val, d.val, 2])
  | .mul d a b g => some (.s, pack fmtSR [0, g.n.toNat, g.p.val, b.val, a.val, d.val, 3])
  | .mulh d a b g => some (.s, pack fmtSR [0, g.n.toNat, g.p.val, b.val, a.val, d.val, 4])
  | .mulhn d a b g => some (.s, pack fmtSR [0, g.n.toNat, g.p.val, b.val, a.val, d.val, 5])
  | .div d a b g => some (.s, pack fmtSR [0, g.n.toNat, g.p.val, b.val, a.val, d.val, 6])
  | .divn d a b g => some (.s, pack fmtSR [0, g.n.toNat, g.p.val, b.val, a.val, d.val, 7])
  | .rem d a b g => some (.s, pack fmtSR [0, g.n.toNat, g.p.val, b.val, a.val, d.val, 8])
  | .remn d a b g => some (.s, pack fmtSR [0, g.n.toNat, g.p.val, b.val, a.val, d.val, 9])
  | .and d a b g => some (.s, pack fmtSR [0, g.n.toNat, g.p.val, b.val, a.val, d.val, 10])
  | .or d a b g => some (.s, pack fmtSR [0, g.n.toNat, g.p.val, b.val, a.val, d.val, 11])
  | .xor d a b g => some (.s, pack fmtSR [0, g.n.toNat, g.p.val, b.val, a.val, d.val, 12])
  | .shl d a b g => some (.s, pack fmtSR [0, g.n.toNat, g.p.val, b.val, a.val, d.val, 13])
  | .shr d a b g => some (.s, pack fmtSR [0, g.n.toNat, g.p.val, b.val, a.val, d.val, 14])
  | .sra d a b g => some (.s, pack fmtSR [0, g.n.toNat, g.p.val, b.val, a.val, d.val, 15])
  | .min d a b g => some (.s, pack fmtSR [0, g.n.toNat, g.p.val, b.val, a.val, d.val, 16])
  | .max d a b g => some (.s, pack fmtSR [0, g.n.toNat, g.p.val, b.val, a.val, d.val, 17])
  | .minn d a b g => some (.s, pack fmtSR [0, g.n.toNat, g.p.val, b.val, a.val, d.val, 18])
  | .maxn d a b g => some (.s, pack fmtSR [0, g.n.toNat, g.p.val, b.val, a.val, d.val, 19])
  | .clz d a g => some (.s, pack fmtSR [0, g.n.toNat, g.p.val, 0, a.val, d.val, 20])
  | .popc d a g => some (.s, pack fmtSR [0, g.n.toNat, g.p.val, 0, a.val, d.val, 21])
  | .sel d a b g => some (.s, pack fmtSR [0, g.n.toNat, g.p.val, b.val, a.val, d.val, 22])
  | .addi d a imm => some (.s, pack fmtSI [imm.toNat, a.val, d.val, 32])
  | .andi d a imm => some (.s, pack fmtSI [imm.toNat, a.val, d.val, 33])
  | .ori d a imm => some (.s, pack fmtSI [imm.toNat, a.val, d.val, 34])
  | .xori d a imm => some (.s, pack fmtSI [imm.toNat, a.val, d.val, 35])
  | .shli d a amt => some (.s, pack fmtSI [amt.toNat, a.val, d.val, 36])
  | .shri d a amt => some (.s, pack fmtSI [amt.toNat, a.val, d.val, 37])
  | .srai d a amt => some (.s, pack fmtSI [amt.toNat, a.val, d.val, 38])
  | .muli d a imm => some (.s, pack fmtSI [imm.toNat, a.val, d.val, 39])
  | .movi d imm => some (.s, pack fmtSW [imm.toNat, d.val, 40])
  | .movk d q v => some (.s, pack fmtSK [v.toNat, 0, q.toNat, d.val, 41])
  | .cmpeq pd a b g alt => some (.s, pack fmtSP [alt.toNat, g.n.toNat, g.p.val, b.val, a.val, 0, pd.val, 48])
  | .cmplt pd a b g alt => some (.s, pack fmtSP [alt.toNat, g.n.toNat, g.p.val, b.val, a.val, 0, pd.val, 49])
  | .cmpltn pd a b g alt => some (.s, pack fmtSP [alt.toNat, g.n.toNat, g.p.val, b.val, a.val, 0, pd.val, 50])
  | .pand pd pa pb g na nb => some (.s, pack fmtSP [(na.toNat + 2 * nb.toNat), g.n.toNat, g.p.val, pb.val, pa.val, 0, pd.val, 52])
  | .por pd pa pb g na nb => some (.s, pack fmtSP [(na.toNat + 2 * nb.toNat), g.n.toNat, g.p.val, pb.val, pa.val, 0, pd.val, 53])
  | .pxor pd pa pb g na nb => some (.s, pack fmtSP [(na.toNat + 2 * nb.toNat), g.n.toNat, g.p.val, pb.val, pa.val, 0, pd.val, 54])
  | .pmov pd pa g na => some (.s, pack fmtSP [na.toNat, g.n.toNat, g.p.val, 0, pa.val, 0, pd.val, 55])
  | .fadd d a b g rm => some (.s, pack fmtSR [rm.code, g.n.toNat, g.p.val, b.val, a.val, d.val, 64])
  | .fsub d a b g rm => some (.s, pack fmtSR [rm.code, g.n.toNat, g.p.val, b.val, a.val, d.val, 65])
  | .fmul d a b g rm => some (.s, pack fmtSR [rm.code, g.n.toNat, g.p.val, b.val, a.val, d.val, 66])
  | .ffma d a b g rm => some (.s, pack fmtSR [rm.code, g.n.toNat, g.p.val, b.val, a.val, d.val, 67])
  | .fmin d a b g => some (.s, pack fmtSR [0, g.n.toNat, g.p.val, b.val, a.val, d.val, 68])
  | .fmax d a b g => some (.s, pack fmtSR [0, g.n.toNat, g.p.val, b.val, a.val, d.val, 69])
  | .fcvti d a g rm => some (.s, pack fmtSR [rm.code, g.n.toNat, g.p.val, 0, a.val, d.val, 70])
  | .fcvtf d a g rm => some (.s, pack fmtSR [rm.code, g.n.toNat, g.p.val, 0, a.val, d.val, 71])
  | .fcmp d a b g rel => some (.s, pack fmtSR [rel.code, g.n.toNat, g.p.val, b.val, a.val, d.val, 72])
  | .fcvtb d a g rm => some (.s, pack fmtSR [rm.code, g.n.toNat, g.p.val, 0, a.val, d.val, 73])
  | .movli d lvl g => some (.s, pack fmtSR [0, g.n.toNat, g.p.val, 0, lvl.toNat, d.val, 80])
  | .dchk a b g => some (.s, pack fmtSR [0, g.n.toNat, g.p.val, b.val, a.val, 0, 81])
  | .amov ad aa g => some (.a, pack fmtAA [0, g.n.toNat, g.p.val, 0, aa.val, ad.val, 1])
  | .aadd ad aa s g => some (.a, pack fmtAA [0, g.n.toNat, g.p.val, s.val, aa.val, ad.val, 2])
  | .aaddi ad imm => some (.a, pack fmtAI [imm.toNat, ad.val, 3])
  | .ainc ad aa g => some (.a, pack fmtAA [0, g.n.toNat, g.p.val, 0, aa.val, ad.val, 4])
  | .agset ad s fld g => some (.a, pack fmtAA [fld.toNat, g.n.toNat, g.p.val, s.val, 0, ad.val, 5])
  | .agrd s aa fld g => some (.a, pack fmtAA [fld.toNat, g.n.toNat, g.p.val, s.val, aa.val, 0, 6])
  | .aidx ad aa s g => some (.a, pack fmtAA [0, g.n.toNat, g.p.val, s.val, aa.val, ad.val, 7])
  | .ard s aa g => some (.a, pack fmtAA [0, g.n.toNat, g.p.val, s.val, aa.val, 0, 8])
  | .ld s m sign => some (.a, pack fmtAL [m.off.toNat, m.post.toNat, m.loc.toNat, sign.toNat, m.width.toNat, m.g.n.toNat, m.g.p.val, m.a.val, s.val, 16])
  | .st m s => some (.a, pack fmtAL [m.off.toNat, m.post.toNat, m.loc.toNat, 0, m.width.toNat, m.g.n.toNat, m.g.p.val, m.a.val, s.val, 17])
  | .pref m => some (.a, pack fmtAL [m.off.toNat, m.post.toNat, m.loc.toNat, 0, m.width.toNat, m.g.n.toNat, m.g.p.val, m.a.val, 0, 18])
  | .tld t m => some (.m, pack fmtMT [0, 0, m.g.n.toNat, m.g.p.val, m.post.toNat, 0, m.sel.toNat, m.a.val, t.val, 1])
  | .tst t m port => some (.m, pack fmtMT [0, port.toNat, m.g.n.toNat, m.g.p.val, m.post.toNat, 0, m.sel.toNat, m.a.val, t.val, 2])
  | .tldl t m swz => some (.m, pack fmtMT [0, 0, m.g.n.toNat, m.g.p.val, m.post.toNat, swz.toNat, m.sel.toNat, m.a.val, t.val, 3])
  | .tstl t m swz port => some (.m, pack fmtMT [0, port.toNat, m.g.n.toNat, m.g.p.val, m.post.toNat, swz.toNat, m.sel.toNat, m.a.val, t.val, 4])
  | .spill x slot g port => some (.m, pack fmtMS [0, port.toNat, g.n.toNat, g.p.val, slot.toNat, x.toNat, 5])
  | .fill x slot g => some (.m, pack fmtMS [0, 0, g.n.toNat, g.p.val, slot.toNat, x.toNat, 6])
  | .copy o flags => some (.m, pack fmtMC [flags.toNat, o.len.val, o.src.val, o.dst.val, o.tok.val, 16])
  | .copyg o flags => some (.m, pack fmtMC [flags.toNat, o.len.val, o.src.val, o.dst.val, o.tok.val, 17])
  | .copya o flags => some (.m, pack fmtMC [flags.toNat, o.len.val, o.src.val, o.dst.val, o.tok.val, 18])
  | .engq s => some (.m, pack fmtMP [0, s.val, 0, 19])
  | .engrs ctx => some (.m, pack fmtMP [ctx.toNat, 0, 0, 20])
  | .engrsCancel ctx => some (.m, pack fmtMP [(ctx.toNat + 4), 0, 0, 20])
  | .phase scope => some (.m, pack fmtMP [0, 0, scope.toNat, 32])
  | .vjoin => some (.m, pack fmtMP [0, 0, 0, 33])
  | .amo d a s op size order scope => some (.m, pack fmtMA [scope.toNat, order.toNat, size.toNat, op.toNat, s.val, a.val, d.val, 40])
  | .waitm d a s cond size scope => some (.m, pack fmtMA [scope.toNat, 1, size.toNat, cond.toNat, s.val, a.val, d.val, 41])
  | .qpost s queue => some (.m, pack fmtMP [queue.toNat, s.val, 0, 48])
  | .evsig a scope => some (.m, pack fmtMA [scope.toNat, 2, 0, 0, 0, a.val, 0, 49])
  | .evwait a scope => some (.m, pack fmtMA [scope.toNat, 1, 0, 0, 0, a.val, 0, 50])
  | .send o flags => some (.m, pack fmtMC [flags.toNat, o.len.val, o.src.val, o.dst.val, o.tok.val, 56])
  | .sendt o flags => some (.m, pack fmtMC [flags.toNat, o.len.val, o.src.val, o.dst.val, o.tok.val, 57])
  | .rxset s rx => some (.m, pack fmtMP [rx.toNat, s.val, 0, 58])
  | .fbar b => some (.m, pack fmtMP [b.toNat, 0, 0, 59])
  | .rpost s chip rx => some (.m, pack fmtMP [(rx.toNat + 64 * chip.toNat), s.val, 0, 60])
  | .tadd td ta tb v => some (.v, pack fmtVU [v.p.val, v.k.val, v.sel.toNat, 0, tb.port.toNat, tb.t.val, ta.port.toNat, ta.t.val, td.val, 1])
  | .tsub td ta tb v => some (.v, pack fmtVU [v.p.val, v.k.val, v.sel.toNat, 0, tb.port.toNat, tb.t.val, ta.port.toNat, ta.t.val, td.val, 2])
  | .tmul td ta tb v => some (.v, pack fmtVU [v.p.val, v.k.val, v.sel.toNat, 0, tb.port.toNat, tb.t.val, ta.port.toNat, ta.t.val, td.val, 3])
  | .tfma td ta tb tc v => some (.v, pack fmtVT [v.p.val, v.k.val, v.sel.toNat, tc.port.toNat, tc.t.val, tb.port.toNat, tb.t.val, ta.port.toNat, ta.t.val, td.val, 4])
  | .tmax td ta tb v => some (.v, pack fmtVU [v.p.val, v.k.val, v.sel.toNat, 0, tb.port.toNat, tb.t.val, ta.port.toNat, ta.t.val, td.val, 5])
  | .tmin td ta tb v => some (.v, pack fmtVU [v.p.val, v.k.val, v.sel.toNat, 0, tb.port.toNat, tb.t.val, ta.port.toNat, ta.t.val, td.val, 6])
  | .tabs td ta v => some (.v, pack fmtVU [v.p.val, v.k.val, v.sel.toNat, 0, 0, 0, ta.port.toNat, ta.t.val, td.val, 7])
  | .tneg td ta v => some (.v, pack fmtVU [v.p.val, v.k.val, v.sel.toNat, 0, 0, 0, ta.port.toNat, ta.t.val, td.val, 8])
  | .tadds td ta s v => some (.v, pack fmtVS [v.p.val, v.k.val, v.sel.toNat, 0, 0, s.val, ta.port.toNat, ta.t.val, td.val, 9])
  | .tmuls td ta s v => some (.v, pack fmtVS [v.p.val, v.k.val, v.sel.toNat, 0, 0, s.val, ta.port.toNat, ta.t.val, td.val, 10])
  | .tfmas td ta s v => some (.v, pack fmtVS [v.p.val, v.k.val, v.sel.toNat, 0, 0, s.val, ta.port.toNat, ta.t.val, td.val, 11])
  | .tcmp kd ta tb rel v => some (.v, pack fmtVU [v.p.val, v.k.val, v.sel.toNat, rel.toNat, tb.port.toNat, tb.t.val, ta.port.toNat, ta.t.val, kd.val, 12])
  | .tsel td ta tb v => some (.v, pack fmtVU [v.p.val, v.k.val, v.sel.toNat, 0, tb.port.toNat, tb.t.val, ta.port.toNat, ta.t.val, td.val, 13])
  | .tcvt td ta v => some (.v, pack fmtVU [v.p.val, v.k.val, v.sel.toNat, 0, 0, 0, ta.port.toNat, ta.t.val, td.val, 14])
  | .tiadd td ta tb v => some (.v, pack fmtVU [v.p.val, v.k.val, v.sel.toNat, 0, tb.port.toNat, tb.t.val, ta.port.toNat, ta.t.val, td.val, 16])
  | .tisub td ta tb v => some (.v, pack fmtVU [v.p.val, v.k.val, v.sel.toNat, 0, tb.port.toNat, tb.t.val, ta.port.toNat, ta.t.val, td.val, 17])
  | .timul td ta tb v => some (.v, pack fmtVU [v.p.val, v.k.val, v.sel.toNat, 0, tb.port.toNat, tb.t.val, ta.port.toNat, ta.t.val, td.val, 18])
  | .tand td ta tb v => some (.v, pack fmtVU [v.p.val, v.k.val, v.sel.toNat, 0, tb.port.toNat, tb.t.val, ta.port.toNat, ta.t.val, td.val, 19])
  | .tor td ta tb v => some (.v, pack fmtVU [v.p.val, v.k.val, v.sel.toNat, 0, tb.port.toNat, tb.t.val, ta.port.toNat, ta.t.val, td.val, 20])
  | .txor td ta tb v => some (.v, pack fmtVU [v.p.val, v.k.val, v.sel.toNat, 0, tb.port.toNat, tb.t.val, ta.port.toNat, ta.t.val, td.val, 21])
  | .tshl td ta tb v => some (.v, pack fmtVU [v.p.val, v.k.val, v.sel.toNat, 0, tb.port.toNat, tb.t.val, ta.port.toNat, ta.t.val, td.val, 22])
  | .tshr td ta tb v => some (.v, pack fmtVU [v.p.val, v.k.val, v.sel.toNat, 0, tb.port.toNat, tb.t.val, ta.port.toNat, ta.t.val, td.val, 23])
  | .timax td ta tb v => some (.v, pack fmtVU [v.p.val, v.k.val, v.sel.toNat, 0, tb.port.toNat, tb.t.val, ta.port.toNat, ta.t.val, td.val, 24])
  | .timin td ta tb v => some (.v, pack fmtVU [v.p.val, v.k.val, v.sel.toNat, 0, tb.port.toNat, tb.t.val, ta.port.toNat, ta.t.val, td.val, 25])
  | .tmov td ta v => some (.v, pack fmtVU [v.p.val, v.k.val, v.sel.toNat, 0, 0, 0, ta.port.toNat, ta.t.val, td.val, 32])
  | .tfill td s v => some (.v, pack fmtVS [v.p.val, v.k.val, v.sel.toNat, 0, 0, s.val, 0, 0, td.val, 33])
  | .tfilli td imm v => some (.v, pack fmtVI [v.p.val, v.k.val, v.sel.toNat, imm.toNat, 0, 0, td.val, 34])
  | .tiota td axis base v => some (.v, pack fmtVI [v.p.val, v.k.val, v.sel.toNat, (base.toNat + 16384 * axis.toNat), 0, 0, td.val, 35])
  | .tshape td rows cols ty p => some (.v, pack fmtVI [p.val, 0, 31, (4 * ty.toNat + 64 * cols.toNat + 4096 * rows.toNat), 0, 0, td.val, 36])
  | .rowmov td drow ta srow sel p => some (.v, pack fmtVI [p.val, 0, sel.toNat, (srow.val + 16 * drow.val), ta.port.toNat, ta.t.val, td.val, 37])
  | .tget s ta row col sel p => some (.v, pack fmtVS [p.val, 0, sel.toNat, 0, col.val, s.val, ta.port.toNat, ta.t.val, row.val, 38])
  | .tset td row col s sel p => some (.v, pack fmtVS [p.val, 0, sel.toNat, 0, col.val, s.val, 0, row.val, td.val, 39])
  | .rrot td ta s imm v => some (.v, pack fmtVS [v.p.val, v.k.val, v.sel.toNat, 0, imm.toNat, s.val, ta.port.toNat, ta.t.val, td.val, 48])
  | .crot td ta s imm v => some (.v, pack fmtVS [v.p.val, v.k.val, v.sel.toNat, 0, imm.toNat, s.val, ta.port.toNat, ta.t.val, td.val, 49])
  | .rbc td ta s imm v => some (.v, pack fmtVS [v.p.val, v.k.val, v.sel.toNat, 0, imm.toNat, s.val, ta.port.toNat, ta.t.val, td.val, 50])
  | .cbc td ta s imm v => some (.v, pack fmtVS [v.p.val, v.k.val, v.sel.toNat, 0, imm.toNat, s.val, ta.port.toNat, ta.t.val, td.val, 51])
  | .rred td ta sub v => some (.v, pack fmtVU [v.p.val, v.k.val, v.sel.toNat, sub.toNat, 0, 0, ta.port.toNat, ta.t.val, td.val, 52])
  | .cred td ta sub v => some (.v, pack fmtVU [v.p.val, v.k.val, v.sel.toNat, sub.toNat, 0, 0, ta.port.toNat, ta.t.val, td.val, 53])
  | .rscan td ta sub v => some (.v, pack fmtVU [v.p.val, v.k.val, v.sel.toNat, sub.toNat, 0, 0, ta.port.toNat, ta.t.val, td.val, 54])
  | .tchk ta tb sel p => some (.v, pack fmtVU [p.val, 0, sel.toNat, 0, tb.port.toNat, tb.t.val, ta.port.toNat, ta.t.val, 0, 80])
  | .tlat x slot a b useB recipA recipB neg => some (.v, pack fmtVL [0, 0, 0, neg.toNat, recipB.toNat, recipA.toNat, useB.toNat, b.val, a.val, slot.code, x.toNat, 64])
  | .tlatc x slots => some (.v, pack fmtVL [slots.toNat, 0, 0, 0, 0, 0, 0, 0, 0, 0, x.toNat, 65])
  | .tdev x port sel => some (.v, pack fmtVL [sel.toNat, port.toNat, 0, 0, 0, 0, 0, 0, 0, 0, x.toNat, 66])
  | .lvacc x port lv op extend => some (.v, pack fmtVL [(op.val + 8 * extend.toNat), port.toNat, 0, 0, 0, 0, 0, 0, lv.val, 0, x.toNat, 67])
  | .lvclose lv s scale => some (.v, pack fmtVL [scale.toNat, 0, s.val, 0, 0, 0, 0, 0, lv.val, 0, 0, 68])
  | .lvmovToVector lv x port row => some (.v, pack fmtVL [(16 * row.val), port.toNat, 0, 0, 0, 0, 0, 0, lv.val, 0, x.toNat, 69])
  | .lvmovToRow x row lv => some (.v, pack fmtVL [(1 + 16 * row.val), 0, 0, 0, 0, 0, 0, 0, lv.val, 0, x.toNat, 69])
  | .lvset lv s leaveOpen => some (.v, pack fmtVL [leaveOpen.toNat, 0, s.val, 0, 0, 0, 0, 0, lv.val, 0, 0, 70])
  | .tlatq s x slot => some (.v, pack fmtVL [0, 0, s.val, 0, 0, 0, 0, 0, 0, slot.code, x.toNat, 71])
  | .treeclr p => some (.v, pack fmtVU [p.val, 0, 31, 0, 0, 0, 0, 0, 0, 96])
  | .treeset ta row p => some (.v, pack fmtVU [p.val, 0, 31, row.val, 0, 0, ta.port.toNat, ta.t.val, 0, 97])
  | .treeadd s parent p => some (.v, pack fmtVS [p.val, 0, 31, 0, parent.val, s.val, 0, 0, 0, 98])
  | .treemask kd blk p => some (.v, pack fmtVU [p.val, 0, 31, blk.val, 0, 0, 0, 0, kd.val, 99])
  | .treebias td blk p => some (.v, pack fmtVU [p.val, 0, 31, blk.val, 0, 0, 0, 0, td.val, 100])
  | .treepos td s row p => some (.v, pack fmtVS [p.val, 0, 31, 0, row.val, s.val, 0, 0, td.val, 101])
  | .treeprune td s row p => some (.v, pack fmtVS [p.val, 0, 31, 0, row.val, s.val, 0, 0, td.val, 102])
  | .treerd s node fld p => some (.v, pack fmtVS [p.val, 0, 31, 0, (node.val + 64 * fld.val), s.val, 0, 0, 0, 103])
  | .fexp2 td ta v => some (.f, pack fmtF [0, v.p.val, v.k.val, v.sel.toNat, ta.port.toNat, ta.t.val, td.val, 1])
  | .flog2 td ta v => some (.f, pack fmtF [0, v.p.val, v.k.val, v.sel.toNat, ta.port.toNat, ta.t.val, td.val, 2])
  | .frcp td ta v => some (.f, pack fmtF [0, v.p.val, v.k.val, v.sel.toNat, ta.port.toNat, ta.t.val, td.val, 3])
  | .frsqrt td ta v => some (.f, pack fmtF [0, v.p.val, v.k.val, v.sel.toNat, ta.port.toNat, ta.t.val, td.val, 4])
  | .fsqrt td ta v => some (.f, pack fmtF [0, v.p.val, v.k.val, v.sel.toNat, ta.port.toNat, ta.t.val, td.val, 5])
  | .ftanh td ta v => some (.f, pack fmtF [0, v.p.val, v.k.val, v.sel.toNat, ta.port.toNat, ta.t.val, td.val, 6])
  | .fsigm td ta v => some (.f, pack fmtF [0, v.p.val, v.k.val, v.sel.toNat, ta.port.toNat, ta.t.val, td.val, 7])
  | .fexp td ta v => some (.f, pack fmtF [0, v.p.val, v.k.val, v.sel.toNat, ta.port.toNat, ta.t.val, td.val, 8])
  | .fsin td ta v => some (.f, pack fmtF [0, v.p.val, v.k.val, v.sel.toNat, ta.port.toNat, ta.t.val, td.val, 9])
  | .fcos td ta v => some (.f, pack fmtF [0, v.p.val, v.k.val, v.sel.toNat, ta.port.toNat, ta.t.val, td.val, 10])
  | .xperm td ta xp => some (.x, pack fmtX [0, xp.val, ta.port.toNat, ta.t.val, td.val, 1])
  | .xpld xp ta row => some (.x, pack fmtX [row.val, xp.val, ta.port.toNat, ta.t.val, 0, 2])
  | .xshuf td ta kind k => some (.x, pack fmtX [(k.toNat + 256 * kind.toNat), 0, ta.port.toNat, ta.t.val, td.val, 3])
  | .xbrev td ta => some (.x, pack fmtX [0, 0, ta.port.toNat, ta.t.val, td.val, 4])
  | .xtrn td ta => some (.x, pack fmtX [0, 0, ta.port.toNat, ta.t.val, td.val, 5])
  | .mlds ta p => some (.q, pack fmtQ [0, p.val, 0, 0, 0, 0, 0, ta.port.toNat, ta.t.val, 0, 1])
  | .mldsl a p => some (.q, pack fmtQ [0, p.val, 0, a.val, 0, 0, 0, 0, 0, 0, 2])
  | .mswap p => some (.q, pack fmtQ [0, p.val, 0, 0, 0, 0, 0, 0, 0, 0, 3])
  | .mmul cd ta asel wsel r p => some (.q, pack fmtQ [0, p.val, r.inc.toNat, r.a.val, r.rep.toNat, wsel.toNat, asel.toNat, ta.port.toNat, ta.t.val, cd.val, 4])
  | .mmac cd ta asel wsel r p => some (.q, pack fmtQ [0, p.val, r.inc.toNat, r.a.val, r.rep.toNat, wsel.toNat, asel.toNat, ta.port.toNat, ta.t.val, cd.val, 5])
  | .mmull cd asel wsel r p => some (.q, pack fmtQ [0, p.val, r.inc.toNat, r.a.val, r.rep.toNat, wsel.toNat, asel.toNat, 0, 0, cd.val, 6])
  | .mmacl cd asel wsel r p => some (.q, pack fmtQ [0, p.val, r.inc.toNat, r.a.val, r.rep.toNat, wsel.toNat, asel.toNat, 0, 0, cd.val, 7])
  | .mmact cd ta asel wsel r p => some (.q, pack fmtQ [0, p.val, r.inc.toNat, r.a.val, r.rep.toNat, wsel.toNat, asel.toNat, ta.port.toNat, ta.t.val, cd.val, 8])
  | .mzero cd p => some (.q, pack fmtQ [0, p.val, 0, 0, 0, 0, 0, 0, 0, cd.val, 9])
  | .mrd td cd sel p => some (.q, pack fmtQ [0, p.val, 0, 0, 0, 0, sel.toNat, 0, td.val, cd.val, 10])
  | .mwr cd ta sel p => some (.q, pack fmtQ [0, p.val, 0, 0, 0, 0, sel.toNat, ta.port.toNat, ta.t.val, cd.val, 11])
  | .mstat td p => some (.q, pack fmtQ [0, p.val, 0, 0, 0, 0, 0, 0, td.val, 0, 12])
  | .issueBundle => none
  | .exposedResultLanding => none
  | .takeInterrupt => none
  | .contextSwitch => none
  | .quantumExpiry => none
  | .clusterWake => none
  | .debugRequest => none
  | .debugRelease => none
  | .globalLoadComplete => none
  | .tileLoadComplete => none
  | .fillComplete => none
  | .atomicPerformed => none
  | .phaseComplete => none
  | .vjoinComplete => none
  | .coreWindowWrite => none
  | .matrixOpExecute => none
  | .matrixOpComplete => none
  | .copyCommandExecute => none
  | .copyEngineFault => none
  | .copyCommandComplete => none
  | .sendTransmit => none
  | .sendtArm => none
  | .rxsetPerform => none
  | .rpostPerform => none
  | .taskExitRelease => none
  | .preemptRequest => none
  | .preemption => none
  | .contextSave => none
  | .resume => none
  | .taskBind => none
  | .launch => none
  | .tiletasks => none
  | .collective => none
  | .evsignal => none
  | .evwaitPacket => none
  | .barrierPacket => none
  | .nopPacket => none
  | .launchComplete => none
  | .qctlRetry => none
  | .qctlSkip => none
  | .tlbiGo => none
  | .tlbInvalidationDone => none
  | .ttArrive => none
  | .budgetPeriod => none
  | .timecmpMatch => none
  | .notify => none
  | .registerWrite => none
  | .transientReadRequest => none
  | .transientWriteRequest => none
  | .tokenArrival => none
  | .transientAttemptTimeout => none
  | .persistentRequest => none
  | .persistentActivation => none
  | .persistentDeactivation => none
  | .deactivationAck => none
  | .lineEviction => none
  | .tagRecall => none
  | .hostRead => none
  | .hostWrite => none
  | .hostBisnpResponse => none
  | .hostSnoop => none
  | .tokenEccError => none
  | .gracefulDieReset => none
  | .dieLost => none
  | .tokenRecoveryRegenerate => none
  | .packageFault => none
  | .routeDeliver => none
  | .routeForward => none
  | .routeReduce => none
  | .routeDeliverCounter => none
  | .routeDeliverForward => none
  | .routeTileArrival => none
  | .acknowledgement => none
  | .refusal => none
  | .lapseNotice => none
  | .barrierArrival => none
  | .barrierRelease => none
  | .barrierReleaseInstant => none
  | .sendAckTimeout => none
  | .chunkRetransmitTimeout => none
  | .stagingLeaseExpiry => none
  | .collectiveTimeout => none
  | .portFailure => none
  | .packageReset => none
  | .startctlGo => none
  | .stageAdvance => none
  | .podTimeRealign => none
  | .worldSwitch => none
  | .slewInterval => none
  | .shapingWindow => none
  | .traceFifoDrain => none
  | .ringReconfigure => none
  | .counterWrap => none
  | .dieCounterWrap => none
  | .portRetrained => none
  | .hostCxlCacheResponse => none
  | .dieRejoin => none
  | .storeBecomesVisible => none

/-- The kind of slot with presence bit `b` (R33). -/
def slotKind (b : Nat) : SlotKind :=
  match b with
  | 0 => .c
  | 1 => .s
  | 2 => .s
  | 3 => .a
  | 4 => .m
  | 5 => .v
  | 6 => .v
  | 7 => .f
  | 8 => .x
  | _ => .q

/-- The 16-bit words of a syllable of a slot kind (R33). -/
def slotWords (k : SlotKind) : Nat :=
  match k with
  | .v => 3
  | .q => 3
  | _ => 2

/-- The lowest presence bit of a slot kind. -/
def slotBit (k : SlotKind) : Nat :=
  match k with
  | .c => 0
  | .s => 1
  | .a => 3
  | .m => 4
  | .v => 5
  | .f => 7
  | .x => 8
  | .q => 9

/-- The presence bits set in a header, in commit order (R33). -/
def presentOf (h : Nat) : List Nat := (List.range 10).filter fun b => h.testBit b

/-- The words of a bundle after its header, by its header (R30, R33). -/
def bodyWords (h : Nat) : Nat := ((presentOf h).map fun b => slotWords (slotKind b)).sum

/-- A number from its 16-bit words, the first lowest (R33). -/
def ofWords : List Nat → Nat
  | [] => 0
  | x :: xs => x + 2 ^ 16 * ofWords xs

/-- `n` 16-bit words of a number, the lowest first. -/
def toWords : Nat → Nat → List Nat
  | 0, _ => []
  | n + 1, w => w % 2 ^ 16 :: toWords n (w / 2 ^ 16)

/-- The syllables of the present slots, cut from the words after the header (R33). -/
def cutSlots : List Nat → List Nat → List (Nat × Nat)
  | [], _ => []
  | b :: bs, ws =>
    let k := slotWords (slotKind b)
    (b, ofWords (ws.take k)) :: cutSlots bs (ws.drop k)

/-- The latent and tree groups, refused in V1 (R40, R45). -/
def v0Only (w : Nat) : Bool :=
  let op := w / 2 ^ 41 % 128
  (0x40 ≤ op && op ≤ 0x47) || (0x60 ≤ op && op ≤ 0x67)

/-- The syllable in the slot with presence bit `b`: V1 refuses the latent and tree groups (R62). -/
def decodeAt (b w : Nat) : Except DecErr Instr :=
  if b = 6 ∧ v0Only w then .error .unassigned else decodeSlot (slotKind b) w

/-- The bundle that holds one syllable of a kind, with STALL 0: its header and words (R33). -/
def bundleOf (k : SlotKind) (w : Nat) : List Nat :=
  2 ^ slotBit k :: toWords (slotWords k) w

/-- The first of the kinds, in commit order, in which a word is an instruction. -/
def firstKind : List SlotKind → Nat → Option (SlotKind × Instr)
  | [], _ => none
  | k :: ks, w =>
    match decodeSlot k w with
    | .ok i => if i.wf then some (k, i) else firstKind ks w
    | .error _ => firstKind ks w

/-- The kind of slot for which a table word stands: a word does not say its slot (R33), so the first slot in commit
order in which it is a well-formed syllable is taken (log entry 6). -/
def kindOfTableWord (nbits w : Nat) : Option (SlotKind × Instr) :=
  if nbits = 48 then firstKind [.v, .q] w
  else if nbits = 32 then firstKind [.c, .s, .a, .m, .f, .x] w
  else none

/-- The instruction that the decoder reads from a table word. -/
def decodeTableWord (nbits w : Nat) : Option Instr := (kindOfTableWord nbits w).map (·.2)

end Sys2Proof
end

