-- ==== Sys2Proof/Machine/State.lean ====
section
/-! DEFINITION. Everything the spec gives the machine, as plain data, and the machine right after reset.
Each field cites the rule that names it. BUSY bits and order waits are no fields of their own: a register is busy
while an outstanding operation of the lists below names it (R35, R162, R275). -/

namespace Sys2Proof.Machine

open Sys2Proof

/-- Why the machine stops with no next state. Every exception the spec describes is a next state, not one of these. -/
inductive Fault where
  /-- An access to an address that is not present. No step raises it: a context traps or stops with cause 0x0B (R18), and
  the command processor starts no entry of a queue that is not present (log entry 48). Safe: nothing can be proved of what
  follows. -/
  | notPresent (addr : Nat)
deriving DecidableEq, Repr

/-- Why the model gives a step no meaning. -/
inductive Refusal where
  /-- Raised by exec for an instruction that has no meaning yet, with its mnemonic. Safe: nothing can be proved of
  what follows. -/
  | notModelled (mnemonic : String)
deriving DecidableEq, Repr

/-! ## Agents and packets -/

/-- The token-holding agents: the L2 of a compute die, the slice of a memory-side die, PD1 and the
host proxy (R19). -/
inductive Agent where
  | cd (d : Fin 8)
  | md (m : Fin 8)
  | pd1
  | proxy
deriving DecidableEq, Repr

/-- A fabric packet (R409), payload included. -/
structure Packet where
  last : Bool
  region : BitVec 16
  dstChip : BitVec 12
  srcChip : BitVec 12
  kind : BitVec 4
  version : BitVec 8
  dst : BitVec 48
  /-- the route entries remaining, the next first (NROUTE is their number) -/
  route : List (BitVec 16)
  seq : BitVec 32
  collid : BitVec 32
  redType : BitVec 4
  redOp : BitVec 4
  flagEn : Bool
  flagA : BitVec 48
  flagV : BitVec 64
  /-- LEN bytes -/
  payload : List Byte
  /-- the chips that received it so far (R411) -/
  hops : Nat
  /-- the fields of the header drawn as zero hold zero -/
  zeros : Bool
deriving DecidableEq, Repr

/-- What Watia finds in the firmware image at package reset (R444). -/
structure Firmware where
  ecdsa : Bool
  lms : Bool
  /-- security version number of the image and the fused minimum -/
  svn : BitVec 32
  minSvn : BitVec 32
  /-- the fused chip id, and the part: false K320, true K320M -/
  fusedChip : BitVec 12
  module : Bool
deriving DecidableEq, Repr

/-- What training found when a stage completes (R445, R446). -/
structure Trained where
  cdMask : BitVec 8
  mdMask : BitVec 8
  pd0 : Bool
  pd1 : Bool
  ports : BitVec 16
  /-- bytes of the second-tier devices at the two memory ports of PD1; 0 for one that is left out (R441) -/
  tier0 : Nat
  tier1 : Nat
  /-- the pod's TIME when a trained port reaches a chip of lower id -/
  podTime : Option Nat
deriving DecidableEq, Repr

/-! ## Registers of a context -/

/-- The element types of R70. -/
inductive ElemTy where
  | f32 | bf16 | f16 | e4m3 | e5m2 | cb4 | i8 | n8 | i16 | i32 | i4
deriving DecidableEq, Repr

/-- The latent state: one 16-bit descriptor for RS, RB, CS, CB, and DEVNF (R225). -/
structure Lat where
  rs : BitVec 16
  rb : BitVec 16
  cs : BitVec 16
  cb : BitVec 16
  devnf : Bool
deriving DecidableEq, Repr

/-- The identity latent state (R225). -/
def Lat.id : Lat := ⟨0, 0, 0, 0, false⟩

/-- A tile or an accumulator (R162, R204). An accumulator has 16 rows, 64 columns and type f32 or i32. -/
structure Tile where
  cells : Grid
  /-- ROWS − 1 and COLS − 1 -/
  rows : Fin 16
  cols : Fin 64
  ty : ElemTy
  lat : Lat
  invalid : Bool
  /-- POISON, with the physical line address that trap 0x14 reports (R153) -/
  poison : Option (BitVec 64)
deriving DecidableEq, Repr

/-- The state of a tile or accumulator at context creation (R163, R204). -/
def Tile.fresh : Tile := ⟨Grid.zero, 15, 63, .f32, Lat.id, false, none⟩

/-- A generator descriptor (R126); ADDR is the address register itself. -/
structure Gen where
  step : Vector (BitVec 64) 4
  count : Vector (BitVec 32) 4
  ctr : Vector (BitVec 32) 4
  pitch : BitVec 32
  ctrl : BitVec 8
  modBase : BitVec 64
  modLen : BitVec 32
  itab : BitVec 21
  iscale : BitVec 32
  flagA : BitVec 64
  flagV : BitVec 64
  chip : BitVec 12
deriving DecidableEq, Repr

/-- A descriptor at reset (R126). -/
def Gen.fresh : Gen :=
  ⟨.replicate 4 0, .replicate 4 0, .replicate 4 0, 0, 0x70, 0, 0, 0, 0, 0, 0, 0⟩

/-- A latent vector (R227). -/
structure LatVec where
  e : Vector (BitVec 32) 64
  isOpen : Bool
  closing : Bool
  scale : Option (BitVec 32)
  pend : Nat
  err : Bool
deriving DecidableEq, Repr

/-- A latent vector at context creation (R227). -/
def LatVec.fresh : LatVec := ⟨.replicate 64 0, false, false, none, 0, false⟩

/-- A node of the token tree (R319). -/
structure Node where
  parent : BitVec 6
  valid : Bool
  depth : BitVec 6
  token : BitVec 32
  acc : Bool
deriving DecidableEq, Repr

/-- A token tree (R319). -/
abbrev Tree := Vector Node 64

/-- The tree at context creation and after TREECLR (R320). -/
def Tree.fresh : Tree := (Vector.replicate 64 ⟨0, false, 0, 0, false⟩).set 0 ⟨0, true, 0, 0, false⟩

/-- A level of the loop stack (R107). -/
structure Loop where
  start : VAddr
  fin : VAddr
  count : BitVec 32
  index : BitVec 32
deriving DecidableEq, Repr

/-- A weight plane (R204). -/
structure Plane where
  rows : Vector (BitVec 2048) 64
  valid : Bool
  /-- FORM 1 -/
  packed : Bool
  ty : ElemTy
  cs : BitVec 16
deriving DecidableEq, Repr

/-- An empty plane. Its rows are zero: nothing reads the rows of an empty plane (R218; log entry 2). MSTAT shows it with FORM
0, TYPE f32 and the identity CS (R216; log entry 94). -/
def Plane.fresh : Plane := ⟨.replicate 64 0, false, false, .f32, 0⟩

/-- The registers that a bundle reads at issue and that the held set holds (R36, R372). -/
structure Regs where
  s : Vector Word 64
  a : Vector Word 16
  ag : Vector Gen 16
  /-- bit 0 is p0 -/
  p : BitVec 16
  t : Vector Tile 32
  c : Vector Tile 8
  k : Vector Mask 8
  lv : Vector LatVec 16
  fmt : Vector (BitVec 64) 16
  /-- register 0x050 + i (R77) -/
  cb : Vector (BitVec 64) 32
  /-- entry j: OFF in bit 6, DEST in [5:0] (R189) -/
  xp : Vector (Vector (BitVec 7) 64) 4
  tree : Tree
  /-- outermost first (R107) -/
  loops : List Loop
  fbase : BitVec 4
deriving DecidableEq, Repr

/-- The registers at context creation (R120, R124, R126, R163, R168, R189, R204, R227, R320); the scalar registers
are zero (R156: the window's reset entries). -/
def Regs.fresh : Regs where
  s := .replicate 64 0
  a := .replicate 16 0
  ag := .replicate 16 Gen.fresh
  p := 1
  t := .replicate 32 Tile.fresh
  c := .replicate 8 Tile.fresh
  k := (Vector.replicate 8 Mask.zero).set 0 Mask.ones
  lv := .replicate 16 LatVec.fresh
  fmt := .replicate 16 0
  cb := .replicate 32 0
  xp := .replicate 4 (tabulate 64 fun j => BitVec.ofNat 7 j.val)
  tree := Tree.fresh
  loops := []
  fbase := 0

/-! ## Exposed results in flight -/

/-- What an exposed result writes when it lands (R36). -/
inductive Write where
  | s (d : SReg) (v : Word)
  | p (d : PReg) (v : Bool)
  | a (d : AReg) (v : Word)
  /-- the counters of the dimensions below `n`, which an advance has walked, and WRAP (R128, R131) -/
  | ctr (d : AReg) (n : Nat) (ctr : Vector (BitVec 32) 4) (wrap : Bool)
  /-- a descriptor field (R126), by its mod code -/
  | field (d : AReg) (fld : BitVec 7) (v : Word)
  /-- mask bits: `vals` where `en` (R176, R325) -/
  | mask (d : KReg) (en vals : Mask)
  /-- containers where `en`, the type and the latent state if given (R169) -/
  | tile (d : XReg) (en : Mask) (vals : Grid) (ty : Option ElemTy) (lat : Option Lat)
  /-- POISON, with the line address (R153) -/
  | poison (d : TReg) (pa : BitVec 64)
  /-- shape and type (R166) -/
  | shape (d : TReg) (rows : Fin 16) (cols : Fin 64) (ty : ElemTy)
  /-- the latent state alone (R232, R233) -/
  | latent (d : XReg) (lat : Lat)
  /-- a latent vector's entries where `en`, OPEN, and whether ERR is cleared (R235-R237) -/
  | lv (d : LvReg) (en : BitVec 64) (e : Vector (BitVec 32) 64) (isOpen : Bool) (clearErr : Bool)
  /-- the close of a latent vector, with its scale; PEND is examined at the landing (R235) -/
  | lvClose (d : LvReg) (scale : Option (BitVec 32))
  | tree (t : Tree)
  | xp (d : Fin 4) (pat : Vector (BitVec 7) 64)
  /-- a system register (R119) -/
  | sys (num : BitVec 12) (v : Word)
  | fbase (b : BitVec 4)
deriving DecidableEq, Repr

/-- An exposed result in flight: it lands at schedule cycle `due`; `slot` is the presence bit of its slot and `seq`
numbers the bundles of the context, which decide among results of one cycle (R37). -/
structure Landing where
  due : Nat
  slot : Nat
  seq : Nat
  writes : List Write
  flags : BitVec 5
deriving DecidableEq, Repr

/-- A level's schedule history: when its last V0, V1 and F syllables issued (R42), and the landing cycles still to come
of every exposed result of a syllable that has issued, with whether it counts as a tile result (R41, R373). -/
structure Hist where
  v0 : Option Nat
  v1 : Option Nat
  f : Option Nat
  lands : List (Nat × Bool)
deriving DecidableEq, Repr

/-- No syllable issued. -/
def Hist.none : Hist := ⟨Option.none, Option.none, Option.none, []⟩

/-- The privilege levels (R365). -/
inductive Priv where
  | task | sup
deriving DecidableEq, Repr

/-- A register-file cluster (R115); `waking sup due`: asleep until that level's schedule cycle `due`. -/
inductive Cluster where
  | awake | asleep | waking (sup : Bool) (due : Nat)
deriving DecidableEq, Repr

/-- The loop-buffer tag (R111): bundles still to tag, the loop depth at the LBUF, and the tagged PCs with the bundle
words first stored there (none until its first issue) and the next PC. -/
structure LoopBuf where
  left : Nat
  depth : Nat
  tagged : List (VAddr × Option (List (BitVec 16) × Bool × VAddr))
deriving DecidableEq, Repr

/-- No tag (R111). -/
def LoopBuf.none : LoopBuf := ⟨0, 0, []⟩

/-- A memory: bytes by address, rising, with no byte listed that an unlisted address reads as (see Ops.lean). -/
abbrev Memory := List Host.Cell

/-- What is set aside of the task while its context is in supervisor mode (R366, R371). -/
structure Aside where
  loops : List Loop
  lbuf : LoopBuf
  flight : List Landing
  hist : Hist
deriving DecidableEq, Repr

/-- What the committed slots of a split bundle have decided: its PC, the next fetch address before the end check, and
an EXIT or YIELD to carry out once the rest has committed (R108, R113, R114, R372). -/
structure Split where
  pc : VAddr
  target : VAddr
  exit : Option (BitVec 26)
  yields : Bool
deriving DecidableEq, Repr

/-! ## Operations with hidden latency -/

/-- A global load outstanding (R136). -/
structure Load where
  dst : SReg
  val : Word
  poison : Option (BitVec 64)
  /-- lines whose tokens the die's L2 needs -/
  lines : List Nat
  /-- where an earlier atomic of the context to its bytes was outstanding at issue: the number of its bundle, the bytes'
  addresses, and whether the value is sign-extended. It is then read once those atomics are performed (R277) -/
  after : Option (Nat × List Nat × Bool)
deriving DecidableEq, Repr

/-- A tile load outstanding (R151). -/
structure TileLoad where
  t : TReg
  ty : ElemTy
  en : Mask
  vals : Grid
  full : Bool
  poison : Option (BitVec 64)
  lines : List Nat
  /-- as `Load.after`: the number of its bundle, the addresses of each row's bytes and the element width -/
  after : Option (Nat × List (List Nat) × Nat)
deriving DecidableEq, Repr

/-- A silo slot with a valid tag: its kind (true: accumulator) and all a tile or accumulator holds (R159). -/
structure SiloSlot where
  isAcc : Bool
  tile : Tile
deriving DecidableEq, Repr

/-- A FILL outstanding, with the slot as it stood at issue (R160). -/
structure Fill where
  x : XReg
  slot : Option SiloSlot
deriving DecidableEq, Repr

/-- An atomic, or the increment of an EVSIG, issued and not performed (R286, R291). -/
structure Atomic where
  dst : Option SReg
  op : BitVec 4
  /-- bytes -/
  size : Nat
  /-- physical address of the target -/
  pa : Nat
  v : Word
  expect : Word
  /-- the scope at which it refreshes and ends its order wait, if it acquires -/
  acquire : Option (BitVec 2)
  /-- of a release its scope and the commands joined at issue; and whether it has published (R278, R286) -/
  release : Option (BitVec 2 × List Nat)
  published : Bool
  lines : List Nat
  /-- the number of its bundle -/
  seq : Nat
deriving DecidableEq, Repr

/-- A store in the phase buffer (R151, R278): one byte, its physical address, and the number of its bundle. -/
structure PStore where
  addr : Nat
  val : Byte
  seq : Nat
deriving DecidableEq, Repr

/-- The held set: what the uncommitted slots read at issue, with the bytes and the stores in the phase buffer that the
indirect tables were read from (R130, R372). -/
structure Held where
  regs : Regs
  table : Memory
  pbuf : List PStore
deriving DecidableEq, Repr

/-- An older value of a byte that a context may still read (R278, R280): the writer that replaced it, and where the
replacing write has been published: on which cores at core scope, at pkg and at sys scope (R279). -/
structure Stale where
  addr : Nat
  val : Byte
  /-- a context's number, or 2000 + that of the context whose engine command wrote it -/
  src : Nat
  seq : Nat
  cores : List Nat
  pkg : Bool
  sys : Bool
deriving DecidableEq, Repr

/-- The write of a release (R281): the location's bytes, the scope, the core of the releasing agent, and the writes that it
covers: those of `src` with a number up to `upTo`, and those of `eng` with a number among `joined`. A byte of the location is
`dead` where another write than an atomic read-modify-write has written it last (log entry 110). -/
structure Rel where
  pa : Nat
  size : Nat
  scope : BitVec 2
  core : Nat
  src : Nat
  upTo : Nat
  eng : Nat
  joined : List Nat
  dead : List Nat
deriving DecidableEq, Repr

/-- An older value of a code word, an aligned pair of bytes, that was written after a task was bound, and the write that
replaced it: the task may fetch it still (R28; log entry 22). -/
structure OldCode where
  addr : Nat
  val : BitVec 16
  src : Nat
  seq : Nat
deriving DecidableEq, Repr

/-- The value of a scratchpad byte before a write through one view, which a read through the other view may still
return before a VJOIN (R141), and the commands that have written the byte since, after whose joining it may not. -/
structure Unjoined where
  off : Nat
  swz : Bool
  old : Byte
  overBy : List Nat
deriving DecidableEq, Repr

/-- A packet of a send in transmission that is not acknowledged: its index, transfer tag and time (R413, R416). -/
structure TxPkt where
  index : Nat
  tag : BitVec 32
  sentAt : Nat
deriving DecidableEq, Repr

/-- A command of a context's copy queue, as captured at issue (R132, R253, R259, R415, R420). -/
structure Cmd where
  /-- the M opcode: 0x10-0x12, 0x38, 0x39, 0x3A, 0x3C -/
  op : BitVec 6
  tok : SReg
  flags : BitVec 6
  dstReg : Word
  srcReg : Word
  dstGen : Gen
  srcGen : Gen
  len : Word
  /-- the control word of a send, the value of RXSET and RPOST -/
  ctl : Word
  chip : BitVec 12
  rx : BitVec 6
  pc : VAddr
  sup : Bool
  seq : Nat
  /-- the commands joined when it issued (R278) -/
  joined : List Nat
  /-- its scratchpad at issue, for the indirect tables (R130) -/
  table : Memory
  done : Nat
  started : Bool
  finished : Bool
  /-- a window write of it was discarded (R157) -/
  discarded : Bool
  /-- its flag has been stored (R263) -/
  flagged : Bool
  /-- the pages that it has touched: virtual page, access (0 read, 1 write, 2 both) and physical page (R265) -/
  pages : List (Nat × Nat × Nat)
  /-- the reason and address at which it stopped (R265) -/
  stop : Option (BitVec 8 × Word)
  tx : List TxPkt
  acked : List Nat
deriving DecidableEq, Repr

/-- A Q operation accepted and not completed (R205, R214). -/
structure QOp where
  op : BitVec 6
  cd : CReg
  ta : TReg
  /-- the tiles it read at issue: ta, or t to t + 3 -/
  tiles : List Tile
  /-- the A and W records' content, none where the fmtsel had no register to take a type from at issue -/
  arec : Option (BitVec 64)
  /-- for W, none also where the plane gives the type -/
  wrec : Option (BitVec 64)
  wImplied : Bool
  cb : Vector (BitVec 64) 32
  rep : Nat
  inc : Nat
  /-- scratchpad offsets of the streamed tiles, and PITCH (R210) -/
  addrs : List Nat
  pitch : BitVec 32
  pc : VAddr
  cycle : Nat
  executed : Bool
  /-- repeats completed -/
  next : Nat
  /-- accumulators that it reads as they stood at issue, with what earlier operations of the context have made of them
  since (R205) -/
  accs : List (CReg × Tile)
  /-- scratchpad bytes that its own bundle writes: offset, value before, and the value written, none of an atomic that has
  not been performed (R276) -/
  before : List (Nat × Byte × Option Byte)
  /-- the ticks to which it holds the array and the loader (R206); 0 for none -/
  arrayTo : Nat
  loaderTo : Nat
  /-- the values of MSTAT, as the state stood at issue (R216) -/
  stat : List (BitVec 32)
  flags : BitVec 5
deriving DecidableEq, Repr

/-! ## A context -/

/-- The system registers that are not among Regs (R120, R367, R368). -/
structure Sys where
  slotv : Bool
  slot : BitVec 4
  tcause : BitVec 8
  tepc : VAddr
  tval : Word
  tvec : VAddr
  tscratch : Word
  fflags : BitVec 5
  checkmode : Bool
  quantum : Word
  errbase : Word
  taskId : Word
  launchId : Word
  regionId : Word
  ntasks : Word
  args : Word
  driftThresh : BitVec 32
  driftLast : Word
  bpa : Vector (BitVec 64) 8
deriving DecidableEq, Repr

/-- The system registers at reset (R120, R122, R367, R368). -/
def Sys.fresh : Sys :=
  ⟨false, 0, 0, 0, 0, 0, 0, 0, false, 0, 0, 0, 0, 0, 0, 0, 1024, 0, .replicate 8 0⟩

/-- The effective values of a region, read when a launch starts (R343-R345). -/
structure Region where
  block : Nat
  id : BitVec 16
  domain : BitVec 8
  notify : Bool
  prio : BitVec 3
  ptroot : Nat
  handler : VAddr
  errArea : VAddr
  /-- MAXCTX of the region that defines ERRAREA -/
  errMax : Nat
  arrive : Bool
  silo : Nat
  /-- the region's and its ancestors' blocks, nearest first, with their MAXCTX -/
  chain : List (Nat × Nat)
  coreset : BitVec 320
  windows : BitVec 320
  /-- the region and those ancestors that have a budget of their own -/
  budgets : List Nat
  ageLimit : Nat
  quantum : Nat
  collTimeout : Nat
deriving DecidableEq, Repr

/-- The task bound to a context (R351, R358). -/
structure Bound where
  launch : Nat
  index : Nat
  region : Region
  /-- its error slot (R359) -/
  eslot : Nat
  boundAt : Nat
  /-- the sheaf's image address and SHEAF_ID -/
  sheaf : Nat × BitVec 64
deriving DecidableEq, Repr

/-- A context's life: issuing, exiting (R114) with its exit code and whether it ends with a fault, pre-empting (R384), or stopped by the debugger with
the sc that have passed (R387). -/
inductive Mode where
  | run
  | exiting (code : BitVec 26) (fault : Bool)
  | preempting
  | debug (d : Nat)
deriving DecidableEq, Repr

/-- An FBAR arrival awaiting its release: the barrier and the generation (R429). -/
structure BarWait where
  bar : BitVec 8
  gen : BitVec 32
  released : Bool
deriving DecidableEq, Repr

/-- One hardware context (R15). -/
structure Ctx where
  task : Option Bound
  pc : VAddr
  /-- schedule time of the task and of the supervisor (R34, R366) -/
  sc : Nat
  ssc : Nat
  priv : Priv
  wbase : Nat
  wsize : Nat
  regs : Regs
  sys : Sys
  /-- results in flight of the level that runs (R36) -/
  flight : List Landing
  hist : Hist
  aside : Option Aside
  held : Option Held
  split : Option Split
  /-- pending interrupts: cause and TVAL (R377) -/
  ipend : List (BitVec 8 × Word)
  lbuf : LoopBuf
  clusters : Vector Cluster 4
  active : Plane
  shadow : Plane
  silo : Vector (Option SiloSlot) 64
  siloSlots : Nat
  /-- scalar registers left busy by poison, with the line address (R153) -/
  spoison : List (SReg × BitVec 64)
  loads : List Load
  tloads : List TileLoad
  fills : List Fill
  atomics : List Atomic
  queue : List Cmd
  /-- the copy queue is halted (R266) -/
  halted : Bool
  mq : List QOp
  mhalted : Bool
  /-- matrix errors found since creation (R216) -/
  merrs : BitVec 32
  pbuf : List PStore
  stale : List Stale
  unjoined : List Unjoined
  /-- older values of code words written since its task was bound (R28), and of a saved task the memory as it was saved -/
  code : List OldCode
  slept : Memory
  /-- engine commands joined, by the numbers of their bundles (R263, R278) -/
  joined : List Nat
  /-- completed commands whose token has not been read: the token and the number of the bundle (R262) -/
  unread : List (SReg × Nat)
  /-- a PHASE in force: its scope, and the commands joined when it issued (R284) -/
  phase : Option (BitVec 2 × List Nat)
  /-- a VJOIN in force (R285) -/
  vjoin : Bool
  barrier : Option BarWait
  /-- the arrival of its handler, which leaves the task's as it is (R429) -/
  supBarrier : Option BarWait
  /-- bundles issued, numbering them (R275) -/
  seq : Nat
  mode : Mode
  /-- the wait of its EXIT has met a fault of the copy engine or of the matrix unit (R114) -/
  waitFault : Bool
  /-- a pre-emption or a debug stop has been requested (R384, R387) -/
  preemptReq : Bool
  debugReq : Bool
  /-- the next issue attempt is matched by no breakpoint (R461) -/
  bpSkip : Bool
  /-- clock cycles of stalls while the context held its core (R112) -/
  stalled : Nat
  /-- interlock records still to make (R459), and CAUSE of the last wait (R460) -/
  interlock : Nat
  waitCause : BitVec 8
  /-- clock cycles of the present wait of the bundle that waits to issue (R360) -/
  waitRun : Nat
  /-- the tick at which the STALL cycles of its last bundle ended (R460) -/
  freeAt : Nat
  /-- the older values of bytes that it could read as the last bundle of task mode issued (R130) -/
  old : List Stale × List Unjoined
  timecmp : Word
  /-- budget notices of this period already given (R363) -/
  noticed : Bool
deriving DecidableEq, Repr

/-- A created context with no task bound (R15, R163, R204). -/
def Ctx.fresh : Ctx where
  task := none
  pc := 0
  sc := 0
  ssc := 0
  priv := .task
  wbase := 0
  wsize := 0
  regs := Regs.fresh
  sys := Sys.fresh
  flight := []
  hist := Hist.none
  aside := none
  held := none
  split := none
  ipend := []
  lbuf := LoopBuf.none
  clusters := .replicate 4 .awake
  active := Plane.fresh
  shadow := Plane.fresh
  silo := .replicate 64 none
  siloSlots := 0
  spoison := []
  loads := []
  tloads := []
  fills := []
  atomics := []
  queue := []
  halted := false
  mq := []
  mhalted := false
  merrs := 0
  pbuf := []
  stale := []
  unjoined := []
  code := []
  slept := []
  joined := []
  unread := []
  phase := none
  vjoin := false
  barrier := none
  supBarrier := none
  seq := 0
  mode := .run
  waitFault := false
  preemptReq := false
  debugReq := false
  bpSkip := false
  stalled := 0
  interlock := 0
  waitCause := 0
  waitRun := 0
  freeAt := 0
  old := ([], [])
  timecmp := 0
  noticed := false

/-! ## The operands of a step -/

/-- What Watia writes into a context that is stopped: its registers, tree and loops, its system registers, its PC, its
weight planes and silo, the held set, what is set aside of the task, its results in flight, the loop buffer, the phase buffer
and the state of its clusters (R15, R387). -/
structure Edit where
  regs : Regs
  sys : Sys
  pc : VAddr
  active : Plane
  shadow : Plane
  silo : Vector (Option SiloSlot) 64
  held : Option Held
  aside : Option Aside
  flight : List Landing
  lbuf : LoopBuf
  pbuf : List PStore
  clusters : Vector Cluster 4
deriving DecidableEq, Repr

/-- What Watia assigns to a virtual function: its number, its root region block and its queues (R442). -/
structure FnAssign where
  fn : Nat
  root : Nat
  queues : List (Fin 64)
deriving DecidableEq, Repr

/-- What moves next: the operands of the step of an agent, as its meaning's docstring names them. -/
structure Move where
  /-- a context's number 4 × core + ctx, a core, a queue, a barrier, a die or a launch id -/
  x : Nat
  /-- an index into one of that unit's lists, an address or a count -/
  n : Nat
  /-- a token-holding agent, and a second one -/
  who : Agent
  peer : Agent
  line : Nat
  val : Word
  bytes : List Byte
  flag : Bool
  /-- the port a packet arrived on; none for one that did not leave the package -/
  port : Option (Fin 16)
  pkt : Packet
  fw : Firmware
  trained : Trained
  /-- what Watia writes into a stopped context (R387) -/
  edit : Option Edit
  /-- what Watia assigns to the virtual functions (R442) -/
  fns : Option (List FnAssign)
  /-- of a register step: the context or copy command that has stored, and the number of its bundle (R262) -/
  src : Option (Nat × Nat)
deriving DecidableEq, Repr

/-- No operands. -/
def Move.none : Move where
  x := 0
  n := 0
  who := .pd1
  peer := .pd1
  line := 0
  val := 0
  bytes := []
  flag := false
  port := Option.none
  pkt := ⟨false, 0, 0, 0, 0, 0, 0, [], 0, 0, 0, 0, false, 0, 0, [], 0, false⟩
  fw := ⟨true, true, 0, 0, 0, false⟩
  trained := ⟨0, 0, true, false, 0, 0, 0, Option.none⟩
  edit := Option.none
  fns := Option.none
  src := Option.none

/-! ## A core -/

/-- A translation that a TLB holds: region, first page, pages of 4 KiB, first frame, rights W R X SUP (R142, R145). -/
structure Tlb where
  region : BitVec 16
  vpn : Nat
  pages : Nat
  pfn : Nat
  r : Bool
  w : Bool
  x : Bool
  sup : Bool
deriving DecidableEq, Repr

/-- A sheaf in a core's bundle store (R30): image address, SHEAF_ID, base and COUNT. Its entries stand in memory at the
bundle store's place in the core's window (R32). -/
structure Sheaf where
  image : Nat
  id : BitVec 64
  base : Nat
  count : Nat
deriving DecidableEq, Repr

/-- What the four contexts of a core share (R13, R142, R206, R360, R361, R453, R462). -/
structure Core where
  /-- the context that holds the issue width, and the clocks it has held it (R361) -/
  holder : Fin 4
  held : Nat
  /-- the tick at which the core can issue again -/
  readyAt : Nat
  /-- the ticks to which the array and the loader are held (R206) -/
  arrayAt : Nat
  loaderAt : Nat
  sheaves : List Sheaf
  evsel : Vector (BitVec 64) 8
  evcnt : Vector (BitVec 64) 8
  /-- the issue-rate window: its number, its array cycles, and the window in which a ramp began (R453) -/
  window : Nat
  charged : Nat
  ramp : Option Nat
  /-- the first-level TLB (R142) -/
  tlb : List Tlb
  /-- the context that holds the width has been switched in and has neither issued nor waited since (R460) -/
  switched : Bool
  /-- the tick up to which the holder's clock cycles have been charged to it (R361, R464) -/
  paidTo : Nat
deriving DecidableEq, Repr

/-- A core at bring-up. -/
def Core.fresh : Core :=
  ⟨0, 0, 0, 0, 0, [], .replicate 8 0, .replicate 8 0, 0, 0, none, [], false, 0⟩

/-! ## Tasks, launches and queues -/

/-- A task that has been bound at least once or has an entry of its own (R353, R356). -/
inductive TaskSt where
  /-- a tile task never bound, with its DEPCOUNT and the time it became ready -/
  | waiting (dep : BitVec 32) (readyAt : Option Nat)
  | bound (x : Nat)
  /-- pre-empted, with its save area (R385) and its ready time (R357) -/
  | saved (c : Ctx) (readyAt : Nat)
deriving DecidableEq, Repr

/-- A task of a launch (R16). -/
structure Task where
  index : Nat
  arg : Word
  st : TaskSt
deriving DecidableEq, Repr

/-- A launch in progress (R16, R353). -/
structure Launch where
  id : Nat
  tile : Bool
  region : Region
  queue : Fin 64
  entry : Nat
  count : Nat
  sheaf : Nat
  sheafId : BitVec 64
  entryPc : VAddr
  args : Word
  wait0 : Nat
  wait1 : Nat
  signal : Nat
  status : Bool
  parent : Nat
  /-- TILETASKS: the id of task 0 -/
  baseId : BitVec 14
  /-- LAUNCH: the next task index never bound; the time its tasks became ready -/
  fresh : Nat
  readyAt : Option Nat
  tasks : List Task
  ended : Nat
  /-- tasks that exited non-zero or were lost, and one non-zero exit code (R353) -/
  bad : Nat
  code : BitVec 26
  err : Bool
deriving DecidableEq, Repr

/-- A queue's registers and what the command processor holds of it (R346-R348, R352). -/
structure Queue where
  base : BitVec 48
  log2n : BitVec 5
  region : BitVec 48
  dev : Bool
  en : Bool
  halted : Bool
  /-- entries started that have not completed (FENCE, BARRIER): their indexes -/
  live : List Nat
  /-- entry 0: the physical function; 1-16: the virtual function that owns the queue (R442) -/
  fn : Nat
deriving DecidableEq, Repr

/-- A queue at reset (R346). -/
def Queue.fresh : Queue := ⟨0, 4, 0, false, false, false, [], 0⟩

/-! ## Tokens -/

/-- What an agent holds of a line (R301). -/
structure Hold where
  who : Agent
  count : Nat
  owner : Bool
  valid : Bool
  dirty : Bool
deriving DecidableEq, Repr

/-- A line of which some token is away from its home (R309). -/
structure LineTok where
  line : Nat
  holds : List Hold
deriving DecidableEq, Repr

/-- Tokens in flight to an agent (R301, R306). -/
structure TokMsg where
  dst : Agent
  line : Nat
  count : Nat
  owner : Bool
  data : Bool
  dirty : Bool
deriving DecidableEq, Repr

/-- Who has asked an agent for a line, so far as it may go on without it: a context for the bundle that it issues next, or for
the command at the head of its queue; a command queue for its next entry; a region's armed sends; a trace ring; the
scheduler for a sheaf; or an operation that only ends with its access. From outside: the host, and a packet at a port, which
a machine that waits for tokens does not hold. -/
inductive Asker where
  | bundle (x : Nat)
  | engine (x : Nat)
  | queue (q : Nat)
  | armed (region : BitVec 16)
  | ring (die : Nat) (one : Bool)
  | bind
  | op
  | outside
deriving DecidableEq, Repr

/-- A need of an agent for a line: the attempt running, the agents that have answered, when it was sent, and the
attempts that have failed; `persistent` once it has gone to the home (R302, R303). -/
structure Need where
  who : Agent
  line : Nat
  write : Bool
  answered : List Agent
  sentAt : Nat
  failed : Nat
  persistent : Bool
  /-- its access has been had, or it is a home's recall: a persistent request then goes on until all 16 tokens have come
  (R305, R309) -/
  met : Bool
  /-- the region whose access it is for, if any (R466) -/
  region : Option Region
  /-- who has asked for it and not gone on without it -/
  asked : List Asker
deriving DecidableEq, Repr

/-- An entry of a home's persistent table (R304): the agents that have seen its activation, those still to
acknowledge its deactivation. -/
structure PEntry where
  home : Agent
  entry : Nat
  who : Agent
  line : Nat
  epoch : BitVec 8
  active : Bool
  seen : List Agent
  /-- the deactivation has been sent -/
  closing : Bool
  unacked : List Agent
  order : Nat
deriving DecidableEq, Repr

/-- A home's status (R316). -/
structure Home where
  poisoned : BitVec 32
  recovering : Bool
deriving DecidableEq, Repr

/-- The token state of the package (R300-R317). -/
structure Tok where
  lines : List LineTok
  msgs : List TokMsg
  needs : List Need
  table : List PEntry
  epoch : BitVec 8
  order : Nat
  homes : Vector Home 10
  /-- poisoned lines (R315), with the bytes written since by one holder of all tokens -/
  poison : List (Nat × BitVec 128)
  /-- lines the host caches through the proxy (R310), and back-invalidation snoops awaiting an answer -/
  hostCached : List Nat
  bisnp : List Nat
  /-- host memory lines asked for over CXL.cache, and those obtained with their bytes (R310) -/
  hostAsked : List Nat
  hostHeld : List (Nat × List Byte)
  /-- corrected errors (R311) -/
  corrected : Nat
deriving DecidableEq, Repr

/-- Tokens at package reset: every token at its home (R309). -/
def Tok.fresh : Tok :=
  ⟨[], [], [], [], 0, 0, .replicate 10 ⟨0, false⟩, [], [], [], [], [], 0⟩

/-! ## The fabric -/

/-- A pod barrier (R428), its arrivals at the root and its releases pending. -/
structure Barrier where
  region : BitVec 16
  root : BitVec 12
  rank : BitVec 12
  nchip : BitVec 12
  en : Bool
  localN : BitVec 11
  gen : BitVec 32
  arrived : BitVec 11
  stagger : BitVec 14
  /-- the chips whose arrivals this root holds -/
  chips : List (BitVec 12)
  /-- the releases applied and not yet come: the TIME of each without δ, and its generation (R430) -/
  release : List (Nat × BitVec 32)
deriving DecidableEq, Repr

/-- A pod barrier at reset (R428). -/
def Barrier.fresh : Barrier := ⟨0, 0, 0, 0, false, 0, 0, 0, 500, [], []⟩

/-- An armed send of a region (R418). -/
structure Armed where
  region : BitVec 16
  cmd : Cmd
  core : Nat
  /-- its trigger has been reached, and its source waits for tokens at its homes (R418, R432) -/
  due : Bool
deriving DecidableEq, Repr

/-- A fired send in transmission: its packets left to send and unacknowledged (R416, R418). -/
structure Fired where
  region : BitVec 16
  pkts : List Packet
  tx : List TxPkt
deriving DecidableEq, Repr

/-- A chunk staged at a reduce hop (R423, R425). -/
structure Stage where
  collid : BitVec 32
  seq : BitVec 32
  need : Nat
  port : BitVec 4
  parts : List Packet
  /-- when the lease ends; once the combined chunk has been sent, when that was -/
  leaseTo : Nat
  /-- the combined chunk has been sent and awaits its acknowledgement -/
  sent : Bool
deriving DecidableEq, Repr

/-- A reduce hop's window for one collective and source (R424). -/
structure Window where
  collid : BitVec 32
  src : BitVec 12
  base : Nat
  bits : BitVec 1024
deriving DecidableEq, Repr

/-- A COLLECTIVE in progress (R426, R427): the chunks not acknowledged, each with the time of its last transmission plus
one, or 0 before it. -/
structure Coll where
  collid : BitVec 32
  queue : Fin 64
  entry : Nat
  region : Region
  event : Nat
  startAt : Nat
  chunks : List (Packet × Nat)
  /-- a chunk's source is poisoned and is never transmitted (R432) -/
  poisoned : Bool
deriving DecidableEq, Repr

/-- A record of a fabric error log (R431). -/
structure FabErr where
  region : BitVec 16
  srcChip : BitVec 12
  reason : BitVec 8
  port : BitVec 4
  kind : BitVec 4
  seq : BitVec 32
  collid : BitVec 32
deriving DecidableEq, Repr

/-- The fabric state of the chip (R407-R431). -/
structure Fab where
  /-- route table: ids whose registers are not zero (R414) -/
  routes : List (Nat × BitVec 64 × BitVec 64)
  /-- packets emitted, with their port, oldest first -/
  out : List (BitVec 4 × Packet)
  /-- packets to the chip's own id, within the package (R414) -/
  loop : List Packet
  armed : List Armed
  fired : List Fired
  /-- receive counters that are not zero: region, number, value (R419) -/
  rx : List (BitVec 16 × BitVec 6 × BitVec 32)
  bars : List (Nat × Barrier)
  stages : List Stage
  windows : List Window
  colls : List Coll
  /-- the error rings of PD0 and PD1, newest last, and their FERRCNT -/
  errs0 : List FabErr
  cnt0 : BitVec 32
  errs1 : List FabErr
  cnt1 : BitVec 32
deriving DecidableEq, Repr

/-- The fabric at package reset. -/
def Fab.fresh : Fab := ⟨[], [], [], [], [], [], [], [], [], [], [], 0, [], 0⟩

/-! ## The package -/

/-- A trace record before it is written (R456). -/
structure TraceRec where
  payload : Word
  stamp : Word
  core : BitVec 9
  ctx : BitVec 2
  sup : Bool
  ty : BitVec 4
  pc : VAddr
  kind : BitVec 8
  cycle : BitVec 48
  /-- the tick at which its bundle issued, by which records are ordered (R457) -/
  clock : Nat
deriving DecidableEq, Repr

/-- A trace or drift ring's registers (R458). -/
structure Ring where
  base : BitVec 48
  log2n : BitVec 5
  head : BitVec 32
  tail : BitVec 32
  lost : BitVec 32
deriving DecidableEq, Repr

/-- A compute die's trace FIFO and its two rings (R456, R458). -/
structure DieTrace where
  fifo : List TraceRec
  ring0 : Ring
  ring1 : Ring
deriving DecidableEq, Repr

/-- A die's trace state at reset (R458). -/
def DieTrace.fresh : DieTrace := ⟨[], ⟨0, 0, 0, 0, 0⟩, ⟨0, 0, 0, 0, 0⟩⟩

/-- Events of a clock counted by a counter of a core: they enter it once that clock is over (R463). -/
structure Counted where
  clock : Nat
  core : Nat
  ctr : Fin 8
  n : Nat
deriving DecidableEq, Repr

/-- A die or fabric counter: DCFG and DCNT (R465). -/
structure DCtr where
  cfg : BitVec 64
  cnt : BitVec 64
deriving DecidableEq, Repr

/-- A write on its way into a core's register window: the target context, the window offset and the bytes of one
aligned piece; where its write covers all 1,024 containers of a tile or accumulator, the name of that write; and the
context and number of the copy command that makes it (R157, R158). -/
structure WinWrite where
  x : Nat
  off : Nat
  bytes : List Byte
  whole : Option (Nat × Nat)
  src : Option (Nat × Nat)
deriving DecidableEq, Repr

/-- A write of all containers of a tile or accumulator that is landing: the target context, the tile's place in its window,
the write's name, and the containers that have landed (R157, R164). -/
structure Whole where
  x : Nat
  place : Nat
  name : Nat × Nat
  landed : BitVec 1024
deriving DecidableEq, Repr

/-- The package registers and units outside the cores (R441-R467). -/
structure Pkg where
  /-- real time since package reset in sixths of a nanosecond, and the ns by which alignment moved TIME (R450) -/
  tick : Nat
  timeAdj : Nat
  stage : BitVec 4
  reason : BitVec 8
  svn : BitVec 32
  clock : BitVec 16
  part : BitVec 4
  cdMask : BitVec 8
  mdMask : BitVec 8
  pd1 : Bool
  ports : BitVec 16
  /-- compute dies lost (R314) -/
  lost : BitVec 8
  /-- compute dies being reset gracefully, that have not rejoined (R313) -/
  resetting : BitVec 8
  hbmBytes : Nat
  /-- bytes of the second-tier devices at the memory ports of PD1 (R441) -/
  tier0 : Nat
  tier1 : Nat
  fusedChip : BitVec 12
  chipId : BitVec 12
  /-- STARTCTL.CHIPID, and GO seen (R449) -/
  startChip : BitVec 12
  go : Bool
  slewRate : BitVec 10
  slewEstimate : Nat
  slewLimit : Nat
  rampEn : Bool
  rampStep : BitVec 11
  rampBase : BitVec 11
  cap : BitVec 11
  tlbiRegion : BitVec 16
  tlbiVa : BitVec 48
  tlbiCount : BitVec 32
  tlbiBusy : Bool
  /-- the region, first page and count that the running invalidation took at GO (R147) -/
  tlbiNow : BitVec 16 × BitVec 48 × BitVec 32
  /-- the second-level TLB of each compute die (R142) -/
  tlbs : Vector (List Tlb) 8
  /-- MSI-X vectors raised: function and vector (R443) -/
  msix : List (Nat × Nat)
  hdmBase : Nat
  /-- the active function and when it became so (R442) -/
  fn : Nat
  fnSince : Nat
  /-- root region block of each virtual function (R442) -/
  fnRoots : List (Nat × Nat)
  traces : Vector DieTrace 8
  /-- records of drifts and interlocks on their way into ring 1 (R459) -/
  drifts : List TraceRec
  /-- records of TRACE on their way into the FIFO of their die (R457) -/
  traced : List TraceRec
  /-- events on their way into the counters of cores (R463) -/
  counted : List Counted
  dctrs : List (Nat × DCtr)
  images : List (Nat × List (Nat × DCtr))
  /-- the budget period: its number, and what regions have used: block, HBM, fabric, matrix (R363) -/
  period : Nat
  used : List (Nat × Nat × Nat × Nat)
  /-- the budgets as read at the start of the period: block, HBM, fabric, matrix (R345) -/
  budgets : List (Nat × Nat × Nat × Nat)
  /-- the last host read's data and poison indication (R310, R315) -/
  hostData : List Byte
  hostPoison : Bool
  /-- the last host access was completed as an unsupported request (R148) -/
  hostUr : Bool
deriving DecidableEq, Repr

/-- The package just after package reset with firmware that verifies: stage 1 (R445, R448, R449, R451). Its chip id,
security version and part are named in the assumption log (entry 4). -/
def Pkg.fresh : Pkg where
  tick := 0
  timeAdj := 0
  stage := 1
  reason := 0
  svn := 0
  clock := 600
  part := 0
  cdMask := 1
  mdMask := 0
  pd1 := false
  ports := 0
  lost := 0
  resetting := 0
  hbmBytes := 0x10000000
  tier0 := 0
  tier1 := 0
  fusedChip := 0
  chipId := 0
  startChip := 0
  go := false
  slewRate := 200
  slewEstimate := 0
  slewLimit := 0
  rampEn := true
  rampStep := 250
  rampBase := 250
  cap := 0
  tlbiRegion := 0
  tlbiVa := 0
  tlbiCount := 0
  tlbiBusy := false
  tlbiNow := (0, 0, 0)
  tlbs := .replicate 8 []
  msix := []
  hdmBase := 0
  fn := 0
  fnSince := 0
  fnRoots := []
  traces := .replicate 8 DieTrace.fresh
  drifts := []
  traced := []
  counted := []
  dctrs := []
  images := []
  period := 0
  used := []
  budgets := []
  hostData := []
  hostPoison := false
  hostUr := false

/-- The command processor and the scheduler (R346-R359). -/
structure Sched where
  queues : Vector Queue 64
  launches : List Launch
  /-- RETRY (false) and SKIP (true) of queues whose header's line has tokens away from its home (R301, R352) -/
  cmds : List (Fin 64 × Bool)
deriving DecidableEq, Repr

/-- The scheduler at reset. -/
def Sched.fresh : Sched := ⟨.replicate 64 Queue.fresh, [], []⟩

/-! ## The bundle being committed -/

/-- A bundle that has issued and whose slots are committing: what it reads (R36), memory as it stood at issue (R276),
the indirect tables (R130), the slots still to commit with their presence bits, the slot that commits, and where
fetch goes next. Between steps no bundle is open. -/
structure Bundle where
  isOpen : Bool
  view : Regs
  mem : Memory
  table : Memory
  slots : List (Nat × Instr)
  slot : Nat
  pc : VAddr
  np : VAddr
  target : VAddr
  stall : Nat
  /-- the bundle goes on after a fault of one of its slots (R381) -/
  again : Bool
  /-- the older values of bytes that could be read at issue (R130) -/
  old : List Stale × List Unjoined
  /-- stores in the phase buffer at issue (R276), and those that an indirect table is read with (R130) -/
  pbuf : List PStore
  tpbuf : List PStore
  /-- a slot that reads a scalar register which a poisoned load left busy: the slot, the register, the line (R153) -/
  bad : Option (Nat × SReg × BitVec 64)
  /-- ERET, EXIT or YIELD committed in this bundle -/
  eret : Bool
  exit : Option (BitVec 26)
  yields : Bool
  /-- TRAP or BKPT to take once the C slot has committed: cause and TVAL (R117, R380) -/
  soft : Option (BitVec 8 × Word)
deriving DecidableEq, Repr

/-- No bundle. -/
def Bundle.none : Bundle :=
  ⟨false, Regs.fresh, [], [], [], 0, 0, 0, 0, 0, false, ([], []), [], [], .none, false, .none,
    false, .none⟩

/-- The whole machine. -/
structure State where
  /-- the focused context's number, 4 × core + ctx, and its state; the others that have any -/
  id : Nat
  c : Ctx
  others : List (Nat × Ctx)
  bundle : Bundle
  /-- which agents move next, with which steps; empty: the focused context issues its next bundle -/
  agenda : List (Instr × Move)
  /-- the operands of the step that moves -/
  move : Move
  /-- counts the free values taken -/
  fresh : Nat
  mem : Memory
  cores : List (Nat × Core)
  sched : Sched
  tok : Tok
  fab : Fab
  wwrites : List WinWrite
  wholes : List Whole
  /-- the writes of releases that an acquire may synchronise with (R281) -/
  rels : List Rel
  /-- the values of bytes of HBM before the writes that no publication at sys scope covers yet (R345) -/
  unsys : List Stale
  pkg : Pkg
deriving DecidableEq, Repr

/-- The machine right after package reset (R445): stage 1, no task bound, no memory written. -/
def State.reset : State where
  id := 0
  c := Ctx.fresh
  others := []
  bundle := Bundle.none
  agenda := []
  move := Move.none
  fresh := 0
  mem := []
  cores := []
  sched := Sched.fresh
  tok := Tok.fresh
  fab := Fab.fresh
  wwrites := []
  wholes := []
  rels := []
  unsys := []
  pkg := Pkg.fresh

end Sys2Proof.Machine
end

