-- ==== Sys2Proof/Machine/Flags.lean ====
section
/-! DEFINITION. Numbers and the flags they raise: decoding, rounding and encoding of one element, exact sums and
products, minima and maxima (05_numbers R70-R90). Values are exact: rationals, signed zeros and infinities, and NaNs. -/

namespace Sys2Proof.Machine

open Sys2Proof

/-- A format record's element type code (R70, R73). -/
def ElemTy.ofCode : Nat → Option ElemTy
  | 0 => some .f32 | 1 => some .bf16 | 2 => some .f16 | 3 => some .e4m3 | 4 => some .e5m2 | 5 => some .cb4
  | 6 => some .i8 | 7 => some .n8 | 8 => some .i16 | 9 => some .i32 | 10 => some .i4 | _ => none

/-- The type code (R70). -/
def ElemTy.code : ElemTy → Nat
  | .f32 => 0 | .bf16 => 1 | .f16 => 2 | .e4m3 => 3 | .e5m2 => 4 | .cb4 => 5
  | .i8 => 6 | .n8 => 7 | .i16 => 8 | .i32 => 9 | .i4 => 10

/-- The width of an element (R70). -/
def ElemTy.width : ElemTy → Nat
  | .f32 | .i32 => 32
  | .bf16 | .f16 | .i16 => 16
  | .e4m3 | .e5m2 | .i8 | .n8 => 8
  | .cb4 | .i4 => 4

/-! ## Flags (R88) -/

/-- NV, DZ, OF, UF, NX in bits 4 to 0. -/
abbrev Flags := BitVec 5

def Flags.none : Flags := 0
def Flags.nv : Flags := 16
def Flags.dz : Flags := 8
def Flags.of : Flags := 4
def Flags.uf : Flags := 2
def Flags.nx : Flags := 1

/-- A flag when a condition holds. -/
def flagIf (b : Bool) (f : Flags) : Flags := if b then f else 0

/-! ## Exact values -/

/-- The value of an encoded number: a NaN with its sign, whether it signals, and its fraction aligned at bit 22; an
infinity; a zero; or a rational that is not zero (R70, R71, R79). -/
inductive Num where
  | nan (neg signalling : Bool) (frac : BitVec 23)
  | inf (neg : Bool)
  | zero (neg : Bool)
  | fin (q : Rat)
deriving DecidableEq, Repr

/-- The default NaN (R71): positive, quiet, payload zero. -/
def Num.default : Num := .nan false false 0x400000

def Num.isNaN : Num → Bool
  | .nan .. => true
  | _ => false

def Num.isSNaN : Num → Bool
  | .nan _ s _ => s
  | _ => false

def Num.isInf : Num → Bool
  | .inf _ => true
  | _ => false

/-- A NaN quieted: its fraction MSB set (R71). -/
def Num.quiet : Num → Num
  | .nan n _ f => .nan n false (f ||| 0x400000)
  | x => x

/-- The sign of a number. -/
def Num.neg? : Num → Bool
  | .nan n _ _ => n
  | .inf n => n
  | .zero n => n
  | .fin q => q < 0

/-- A rational, zero as +0. -/
def Num.ofRat (q : Rat) : Num := if q = 0 then .zero false else .fin q

/-- The negated value. -/
def Num.negate : Num → Num
  | .nan n s f => .nan (!n) s f
  | .inf n => .inf (!n)
  | .zero n => .zero (!n)
  | .fin q => .fin (-q)

/-- The magnitude. -/
def Num.abs : Num → Num
  | .nan _ s f => .nan false s f
  | .inf _ => .inf false
  | .zero _ => .zero false
  | .fin q => .fin (if q < 0 then -q else q)

/-- The real value of a finite number. -/
def Num.rat : Num → Rat
  | .fin q => q
  | _ => 0

/-- 2^e. -/
def pow2 (e : Int) : Rat := if 0 ≤ e then ((2 ^ e.toNat : Nat) : Rat) else 1 / ((2 ^ (-e).toNat : Nat) : Rat)

/-- floor(log2 q) of a positive rational. -/
def ratLog2 (q : Rat) : Int :=
  let e : Int := (Nat.log2 q.num.natAbs : Int) - (Nat.log2 q.den : Int)
  if pow2 e ≤ q then e else e - 1

/-! ## Floating-point formats (R70) -/

/-- A floating-point layout: fraction bits, exponent bits, bias, and whether it has infinities. -/
structure Fmt where
  frac : Nat
  exp : Nat
  bias : Nat
  ieee : Bool
deriving DecidableEq, Repr

/-- The layout of a floating-point type; none for cb4 and the integers. -/
def ElemTy.fmt : ElemTy → Option Fmt
  | .f32 => some ⟨23, 8, 127, true⟩
  | .bf16 => some ⟨7, 8, 127, true⟩
  | .f16 => some ⟨10, 5, 15, true⟩
  | .e4m3 => some ⟨3, 4, 7, false⟩
  | .e5m2 => some ⟨2, 5, 15, true⟩
  | _ => none

/-- The exponent of the smallest normal. -/
def Fmt.emin (f : Fmt) : Int := 1 - f.bias

/-- The largest finite value. -/
def Fmt.max (f : Fmt) : Rat :=
  if f.ieee then (2 - pow2 (-f.frac)) * pow2 ((2 ^ f.exp : Nat) - 2 - f.bias : Int)
  else 448

/-- The value of an encoding (R70, R71). -/
def Fmt.decode (f : Fmt) (bits : Nat) : Num :=
  let m := bits % 2 ^ f.frac
  let e := bits / 2 ^ f.frac % 2 ^ f.exp
  let n := bits / 2 ^ (f.frac + f.exp) % 2 == 1
  let sgn : Rat := if n then -1 else 1
  if f.ieee && e == 2 ^ f.exp - 1 then
    if m == 0 then .inf n else .nan n (m / 2 ^ (f.frac - 1) == 0) (BitVec.ofNat 23 (m * 2 ^ (23 - f.frac)))
  else if !f.ieee && e == 15 && m == 7 then .nan n false 0x400000
  else if e == 0 then
    if m == 0 then .zero n else .fin (sgn * m * pow2 (f.emin - f.frac))
  else .fin (sgn * (2 ^ f.frac + m : Nat) * pow2 ((e : Int) - f.bias - f.frac))

/-- The encoding of a magnitude that the format holds exactly, with a sign. -/
def Fmt.bits (f : Fmt) (neg : Bool) (v : Rat) : Nat :=
  let s := neg.toNat * 2 ^ (f.frac + f.exp)
  if v = 0 then s
  else if v < pow2 f.emin then s + (v / pow2 (f.emin - f.frac)).floor.toNat
  else
    let e := ratLog2 v
    s + (e + f.bias).toNat * 2 ^ f.frac + ((v / pow2 (e - f.frac)).floor.toNat - 2 ^ f.frac)

/-- The encoding of an infinity. -/
def Fmt.infBits (f : Fmt) (neg : Bool) : Nat := neg.toNat * 2 ^ (f.frac + f.exp) + (2 ^ f.exp - 1) * 2 ^ f.frac

/-! ## Rounding (R80, R81) -/

/-- A magnitude rounded to an integer by a mode; `neg` is the sign of the value. -/
def roundMag (rm : Rm) (neg : Bool) (v : Rat) : Nat :=
  let n := v.floor.toNat
  let r := v - n
  if r = 0 then n
  else
    match rm with
    | .rz => n
    | .rdn => if neg then n + 1 else n
    | .rup => if neg then n else n + 1
    | .rne => if r < 1/2 then n else if 1/2 < r then n + 1 else if n % 2 = 0 then n else n + 1

/-- RoundOnce of R80 with the overflow of R81: the encoding of a rational that is not zero, and its flags. -/
def Fmt.round (f : Fmt) (isE5m2 : Bool) (rm : Rm) (sat : Bool) (y : Rat) : Nat × Flags :=
  let neg : Bool := y < 0
  let v := if neg then -y else y
  let q1 := pow2 (ratLog2 v - f.frac)
  let r1 := roundMag rm neg (v / q1) * q1
  if f.max < r1 then
    let big : Bool := sat || (f.ieee && !isE5m2 &&
      (match rm with
      | .rne => false
      | .rz => true
      | .rdn => !neg
      | .rup => neg))
    let res := if big then f.bits neg f.max
      else if f.ieee then f.infBits neg
      else neg.toNat * 128 + 0x7F
    (res, Flags.of ||| Flags.nx)
  else if r1 < pow2 f.emin then
    let q2 := pow2 (f.emin - f.frac)
    let r2 := roundMag rm neg (v / q2) * q2
    (f.bits neg r2, if r2 = v then 0 else Flags.uf ||| Flags.nx)
  else (f.bits neg r1, flagIf (r1 != v) Flags.nx)

/-! ## Integers (R83) -/

/-- The range of an integer type. -/
def ElemTy.range : ElemTy → Int × Int
  | .i4 => (-8, 7)
  | .i8 => (-128, 127)
  | .n8 => (0, 255)
  | .i16 => (-32768, 32767)
  | _ => (-2147483648, 2147483647)

/-- The type is one of the integer types. -/
def ElemTy.isInt : ElemTy → Bool
  | .i4 | .i8 | .n8 | .i16 | .i32 => true
  | _ => false

/-- A value brought into a range. -/
def clampInt (lo hi v : Int) : Int := if v < lo then lo else if hi < v then hi else v

/-- A rational rounded to an integer by a mode. -/
def roundInt (rm : Rm) (q : Rat) : Int :=
  if q < 0 then -(roundMag rm true (-q) : Int) else roundMag rm false q

/-- A value converted to an integer range by R83. -/
def toIntRange (lo hi : Int) (rm : Rm) (x : Num) : Int × Flags :=
  match x with
  | .nan .. => (0, Flags.nv)
  | .inf n => (if n then lo else hi, Flags.nv)
  | .zero _ => (0, 0)
  | .fin q =>
    let r := roundInt rm q
    if r < lo ∨ hi < r then (clampInt lo hi r, Flags.nv) else (r, flagIf ((r : Rat) != q) Flags.nx)

/-- The w-bit pattern of an integer. -/
def intBits (w : Nat) (v : Int) : Nat := (v % (2 ^ w : Nat)).toNat

/-- The integer that a type reads in its w bits: signed for i4, i8, i16 and i32, unsigned for every other (R170). -/
def ElemTy.int (t : ElemTy) (bits : Nat) : Int :=
  let w := t.width
  let b := bits % 2 ^ w
  match t with
  | .i4 | .i8 | .i16 | .i32 => if b < 2 ^ (w - 1) then b else (b : Int) - (2 ^ w : Nat)
  | _ => b

/-! ## Records (R73-R78) -/

/-- A format record as an operation reads it, with the codebook it names. -/
structure Rec where
  ty : ElemTy
  e : Int
  sat : Bool
  rm : Rm
  book : Vector (BitVec 16) 16
deriving DecidableEq, Repr

/-- The codebook of a number among the 32 registers of R77. -/
def bookOf (cb : Vector (BitVec 64) 32) (n : Fin 8) : Vector (BitVec 16) 16 :=
  tabulate 16 fun i =>
    (cb.get (Fin.ofNat 32 (4 * n.val + i.val / 4))).extractLsb' (16 * (i.val % 4)) 16

/-- A record is ill-formed (R74). -/
def recBad (r : BitVec 64) : Bool := 0xB ≤ r.toNat % 16 || r.toNat / 2 ^ 19 ≠ 0 || r.getLsbD 7

/-- A record's content read (R73); of an ill-formed one only as far as its fields go. -/
def Rec.ofWord (r : BitVec 64) (cb : Vector (BitVec 64) 32) : Rec where
  ty := (ElemTy.ofCode (r.toNat % 16)).getD .f32
  e := (r.extractLsb' 8 8).toInt
  sat := r.getLsbD 16
  rm := Rm.ofCode (r.toNat / 2 ^ 17 % 4)
  book := bookOf cb (Fin.ofNat 8 (r.toNat / 16))

/-- The implied record of a register's type (R75). -/
def Rec.implied (t : ElemTy) (cb : Vector (BitVec 64) 32) : Rec := ⟨t, 0, false, .rne, bookOf cb 0⟩

/-- The value of a BF16 encoding. -/
def bf16Num (b : BitVec 16) : Num := (Fmt.mk 7 8 127 true).decode b.toNat

/-- The value of an F32 encoding. -/
def f32Num (b : BitVec 32) : Num := (Fmt.mk 23 8 127 true).decode b.toNat

/-- A finite value scaled by 2^e. -/
def Num.scale (x : Num) (e : Int) : Num :=
  match x with
  | .fin q => .fin (q * pow2 e)
  | y => y

/-- Decode of R79: the exact value of one stored element. -/
def Rec.decode (r : Rec) (bits : BitVec 32) : Num :=
  let v : Num :=
    match r.ty.fmt with
    | some f => f.decode (bits.toNat % 2 ^ r.ty.width)
    | none =>
      if r.ty = .cb4 then bf16Num (r.book.get (Fin.ofNat 16 bits.toNat)) else Num.ofRat (r.ty.int bits.toNat : Rat)
  v.scale r.e

/-- NaNTo of R82. -/
def nanTo (f : Fmt) (neg signalling : Bool) (frac : BitVec 23) : Nat × Flags :=
  let s := neg.toNat * 2 ^ (f.frac + f.exp)
  let m := (frac.toNat ||| 0x400000) / 2 ^ (23 - f.frac)
  ((if f.ieee then s + (2 ^ f.exp - 1) * 2 ^ f.frac + m else s + 0x7F), flagIf signalling Flags.nv)

/-- The index of the entry that a test picks, lowest first: among the entries kept by `ok`, the first that no other
beats. -/
def pickEntry (book : Vector (BitVec 16) 16) (ok : Num → Bool) (beats : Num → Num → Bool) : Option (Fin 16) :=
  (List.finRange 16).foldl (fun best i =>
    let x := bf16Num (book.get i)
    if ok x then
      match best with
      | none => some i
      | some j => if beats x (bf16Num (book.get j)) then some i else some j
    else best) none

/-- Two numbers that are not NaN have the same real value or infinity. -/
def Num.same (x y : Num) : Bool :=
  match x, y with
  | .inf a, .inf b => a == b
  | .inf _, _ => false
  | _, .inf _ => false
  | _, _ => x.rat == y.rat

/-- Strict order of the numbers that are not NaN, −0 below +0 (R87). -/
def Num.lt (x y : Num) : Bool :=
  match x, y with
  | .inf a, .inf b => a && !b
  | .inf a, _ => a
  | _, .inf b => !b
  | .zero a, .zero b => a && !b
  | _, _ => x.rat < y.rat

/-- Distance of a codebook entry from a finite value; none for an infinite entry. -/
def entryDist (x : Num) (y : Rat) : Option Rat :=
  match x with
  | .inf _ => none
  | _ => let d := x.rat - y; some (if d < 0 then -d else d)

/-- CbChoose of R78. -/
def cbChoose (book : Vector (BitVec 16) 16) (y : Num) : Nat × Flags :=
  let notNaN := fun (x : Num) => !x.isNaN
  match y with
  | .nan _ s _ =>
    match pickEntry book (fun x => x.isNaN) (fun _ _ => false) with
    | some i => (i.val, flagIf (s || (List.finRange 16).all fun k => (bf16Num (book.get k)).isNaN) Flags.nv)
    | none => (0, Flags.nv)
  | .inf n =>
    match pickEntry book (fun x => x == .inf n) (fun _ _ => false) with
    | some i => (i.val, 0)
    | none =>
      match pickEntry book notNaN (fun a b =>
          if n then Num.lt a b && !Num.same a b else Num.lt b a && !Num.same a b) with
      | some i => (i.val, Flags.nx)
      | none => (0, Flags.nv)
  | _ =>
    let q := y.rat
    match pickEntry book notNaN (fun a b =>
        match entryDist a q, entryDist b q with
        | some da, some db => da < db
        | some _, none => true
        | none, _ => false) with
    | some i => (i.val, flagIf (!(Num.same (bf16Num (book.get i)) y)) Flags.nx)
    | none => (0, Flags.nv)

/-- Encode of R79: the w bits of a value, and its flags. -/
def Rec.encode (r : Rec) (x : Num) : BitVec 32 × Flags :=
  if r.ty = .cb4 then
    let c := cbChoose r.book (x.scale (-r.e))
    (BitVec.ofNat 32 c.1, c.2)
  else
    match r.ty.fmt with
    | some f =>
      match x with
      | .nan n s m => let c := nanTo f n s m; (BitVec.ofNat 32 c.1, c.2)
      | .inf n =>
        if r.sat then (BitVec.ofNat 32 (f.bits n f.max), if f.ieee then 0 else Flags.of ||| Flags.nx)
        else if f.ieee then (BitVec.ofNat 32 (f.infBits n), 0)
        else (BitVec.ofNat 32 (n.toNat * 128 + 0x7F), Flags.nv)
      | .zero n => (BitVec.ofNat 32 (f.bits n 0), 0)
      | .fin q => let c := f.round (r.ty == .e5m2) r.rm r.sat (q * pow2 (-r.e)); (BitVec.ofNat 32 c.1, c.2)
    | none =>
      let lh := r.ty.range
      let c := toIntRange lh.1 lh.2 r.rm (x.scale (-r.e))
      (BitVec.ofNat 32 (intBits r.ty.width c.1), c.2)

/-- The record of an f32 result with a rounding mode. -/
def Rec.f32 (rm : Rm) : Rec := ⟨.f32, 0, false, rm, .replicate 16 0⟩
/-- The record of a bf16 result with a rounding mode. -/
def Rec.bf16 (rm : Rm) : Rec := ⟨.bf16, 0, false, rm, .replicate 16 0⟩

/-! ## Sums and products (R85, R86) -/

/-- The flags of the operands: invalid when one is a signalling NaN (R71). -/
def snanFlag (xs : List Num) : Flags := flagIf (xs.any Num.isSNaN) Flags.nv

/-- The first NaN of the operands, quieted (R86). -/
def firstNaN (xs : List Num) : Option Num := (xs.find? Num.isNaN).map Num.quiet

/-- A product of two numbers that are not NaN; none for 0 × ∞ (R86). -/
def mulNum (x y : Num) : Option Num :=
  let n := x.neg? != y.neg?
  match x, y with
  | .inf _, .zero _ => none
  | .zero _, .inf _ => none
  | .inf _, _ => some (.inf n)
  | _, .inf _ => some (.inf n)
  | .zero _, _ => some (.zero n)
  | _, .zero _ => some (.zero n)
  | _, _ => some (.fin (x.rat * y.rat))

/-- The exact sum of numbers that are not NaN; none for infinities of both signs (R86). `rdn`: the rounding is towards
−∞. An empty sum is +0. -/
def sumNum (rdn : Bool) (xs : List Num) : Option Num :=
  let pos := xs.any (fun x => x == .inf false)
  let neg := xs.any (fun x => x == .inf true)
  if pos && neg then none
  else if pos then some (.inf false)
  else if neg then some (.inf true)
  else
    let q := xs.foldl (fun (a : Rat) x => a + x.rat) 0
    if q ≠ 0 then some (.fin q)
    else if !xs.isEmpty && xs.all (fun x => x == .zero true) then some (.zero true)
    else if xs.all (fun x => x == .zero false) then some (.zero false)
    else some (.zero rdn)

/-- An exact result or the default NaN of an invalid operation. -/
def orInvalid (x : Option Num) : Num × Flags :=
  match x with
  | some v => (v, 0)
  | none => (Num.default, Flags.nv)

/-- a + b, with the NaN choice of R86. -/
def addOp (rdn : Bool) (a b : Num) : Num × Flags :=
  match firstNaN [a, b] with
  | some v => (v, snanFlag [a, b])
  | none => orInvalid (sumNum rdn [a, b])

/-- a × b, with the NaN choice of R86. -/
def mulOp (a b : Num) : Num × Flags :=
  match firstNaN [a, b] with
  | some v => (v, snanFlag [a, b])
  | none => orInvalid (mulNum a b)

/-- a × b + c, exact, NaNs in the order c, a, b; 0 × ∞ raises invalid even beside a NaN c (R86). -/
def fmaOp (rdn : Bool) (a b c : Num) : Num × Flags :=
  match firstNaN [c, a, b] with
  | some v =>
    let bad := !a.isNaN && !b.isNaN && (mulNum a b).isNone
    (v, snanFlag [a, b, c] ||| flagIf bad Flags.nv)
  | none =>
    match mulNum a b with
    | none => (Num.default, Flags.nv)
    | some p => orInvalid (sumNum rdn [p, c])

/-- Infinities of both signs stand among the terms: invalid, beside a NaN as well (R86; log entry 14). -/
def bothInf (xs : List Num) : Bool := xs.any (fun x => x == .inf false) && xs.any fun x => x == .inf true

/-- A sum of many terms, as RRED, CRED, RSCAN and LVACC form it: a NaN gives the default NaN (R86). -/
def sumMany (rdn : Bool) (xs : List Num) : Num × Flags :=
  if xs.any Num.isNaN then (Num.default, snanFlag xs ||| flagIf (bothInf xs) Flags.nv) else orInvalid (sumNum rdn xs)

/-- The squares of terms; a NaN stays one. -/
def squares (xs : List Num) : List Num := xs.map fun x => if x.isNaN then x else (mulNum x x).getD Num.default

/-- A sum of squares of many terms. -/
def sumSquares (rdn : Bool) (xs : List Num) : Num × Flags := sumMany rdn (squares xs)

/-- Minimum and maximum of two (R87). -/
def maxOp (isMax : Bool) (a b : Num) : Num × Flags :=
  let f := snanFlag [a, b]
  if a.isNaN && b.isNaN then (Num.default, f)
  else if a.isNaN then (b, f)
  else if b.isNaN then (a, f)
  else if isMax then (if Num.lt a b then b else a, f)
  else (if Num.lt b a then b else a, f)

/-- Minimum and maximum of many; `empty` is the result when none is selected (R87, R183). -/
def maxMany (isMax : Bool) (empty : Num) (xs : List Num) : Num × Flags :=
  match xs with
  | [] => (empty, 0)
  | x :: rest =>
    let r := rest.foldl (fun (acc : Num) y => (maxOp isMax acc y).1) x
    (if r.isNaN then Num.default else r, snanFlag xs)

/-- A relation of two values: the result, and the flags of R102. -/
def cmpOp (rel : FRel) (a b : Num) : Bool × Flags :=
  let nan := a.isNaN || b.isNaN
  match rel with
  | .eq => (!nan && Num.same a b, snanFlag [a, b])
  | .un => (nan, snanFlag [a, b])
  | .lt => (!nan && Num.lt a b && !Num.same a b, flagIf nan Flags.nv)
  | .le => (!nan && !(Num.lt b a && !Num.same a b), flagIf nan Flags.nv)

/-- The product of two f32 encodings rounded to f32 by RNE, NaNs in operand order (R235). -/
def mulF32 (a b : BitVec 32) : BitVec 32 × Flags :=
  let p := mulOp (f32Num a) (f32Num b)
  let e := (Rec.f32 .rne).encode p.1
  (e.1, p.2 ||| e.2)

end Sys2Proof.Machine
end

