-- ==== Sys2Proof/Machine/Ops.lean ====
section
/-! DEFINITION. The named operations over memory, registers and contexts: bytes of memory, the physical map and
translation, what a context reads and writes, results landing, publication and refresh, and taking an exception and
returning from one. -/

namespace Sys2Proof.Machine

open Sys2Proof

/-! ## Memory -/

/-- The byte at an address; an unlisted byte reads as zero (log entry 3). -/
def memGet : Memory → Nat → Byte
  | [], _ => 0
  | (k, v) :: m, a => if a < k then 0 else if a = k then v else memGet m a

/-- The memory with a byte written, in canonical form. -/
def memSet : Memory → Nat → Byte → Memory
  | [], a, b => if b = 0 then [] else [(a, b)]
  | (k, v) :: m, a, b =>
    if a < k then (if b = 0 then (k, v) :: m else (a, b) :: (k, v) :: m)
    else if a = k then (if b = 0 then m else (a, b) :: m)
    else (k, v) :: memSet m a b

/-- Every listed address lies above `lo`, addresses rise, and no listed byte is zero. -/
def memAbove : Nat → Memory → Bool
  | _, [] => true
  | lo, (k, v) :: m => lo < k && v != 0 && memAbove k m

/-- The canonical form: addresses strictly rise and no entry equals what an unlisted address reads as. -/
def Memory.wf : Memory → Bool
  | [] => true
  | (k, v) :: m => v != 0 && memAbove k m

/-- `n` bytes from `a`, lowest address first. -/
def memBytes (m : Memory) (a : Nat) : Nat → List Byte
  | 0 => []
  | n + 1 => memGet m a :: memBytes m (a + 1) n

/-- Bytes written from `a` upwards. -/
def memPut (m : Memory) (a : Nat) : List Byte → Memory
  | [] => m
  | b :: bs => memPut (memSet m a b) (a + 1) bs

/-- The number of little-endian bytes (R3). -/
def leNat : List Byte → Nat
  | [] => 0
  | b :: bs => b.toNat + 256 * leNat bs

/-- The `n` little-endian bytes of a number. -/
def leBytes : Nat → Nat → List Byte
  | 0, _ => []
  | n + 1, v => BitVec.ofNat 8 v :: leBytes n (v / 256)

/-- A little-endian number of `n` bytes in memory. -/
def memRead (m : Memory) (a n : Nat) : Nat := leNat (memBytes m a n)

/-- A little-endian number of `n` bytes stored. -/
def memWrite (m : Memory) (a n v : Nat) : Memory := memPut m a (leBytes n v)

/-! ## Lists of numbered things -/

/-- The entry with a key. -/
def alGet {α : Type} : List (Nat × α) → Nat → Option α
  | [], _ => none
  | (k, v) :: l, a => if k = a then some v else alGet l a

/-- The list with the entry of a key replaced, or added. -/
def alSet {α : Type} : List (Nat × α) → Nat → α → List (Nat × α)
  | [], a, v => [(a, v)]
  | (k, w) :: l, a, v => if k = a then (a, v) :: l else (k, w) :: alSet l a v

/-- The list without the n-th entry. -/
def dropAt {α : Type} : List α → Nat → List α
  | [], _ => []
  | _ :: l, 0 => l
  | x :: l, n + 1 => x :: dropAt l n

/-- The list with the n-th entry replaced. -/
def setAt {α : Type} : List α → Nat → α → List α
  | [], _, _ => []
  | _ :: l, 0, v => v :: l
  | x :: l, n + 1, v => x :: setAt l n v

/-! ## Contexts, cores and time -/

/-- A context's state; a context that nothing has touched is as created (log entry 2). -/
def State.ctx (s : State) (x : Nat) : Ctx := if x = s.id then s.c else (alGet s.others x).getD Ctx.fresh

/-- The state with a context replaced. -/
def State.setCtx (s : State) (x : Nat) (c : Ctx) : State :=
  if x = s.id then { s with c := c } else { s with others := alSet s.others x c }

/-- The state with a context changed. -/
def State.modCtx (s : State) (x : Nat) (f : Ctx → Ctx) : State := s.setCtx x (f (s.ctx x))

/-- The state focused on a context. -/
def State.focus (s : State) (x : Nat) : State :=
  if x = s.id then s
  else { s with id := x, c := s.ctx x, others := alSet (s.others.filter fun e => e.1 != x) s.id s.c }

/-- Every context that has any state: its number and state. -/
def State.allCtx (s : State) : List (Nat × Ctx) := (s.id, s.c) :: s.others

/-- The state with every context changed. -/
def State.mapCtx (s : State) (f : Nat → Ctx → Ctx) : State :=
  { s with c := f s.id s.c, others := s.others.map fun e => (e.1, f e.1 e.2) }

/-- The state with the context of every saved task changed. -/
def State.mapSaved (s : State) (f : Ctx → Ctx) : State :=
  let task := fun (t : Task) => match t.st with
    | .saved c r => { t with st := .saved (f c) r }
    | _ => t
  { s with sched := { s.sched with launches := s.sched.launches.map fun l => { l with tasks := l.tasks.map task } } }

/-- A core's shared state. -/
def State.core (s : State) (n : Nat) : Core := (alGet s.cores n).getD Core.fresh

/-- The state with a core changed. -/
def State.modCore (s : State) (n : Nat) (f : Core → Core) : State :=
  { s with cores := alSet s.cores n (f (s.core n)) }

/-- The core number of a context number. -/
def coreOf (x : Nat) : Nat := x / 4

/-- The ticks, sixths of a nanosecond, of one clock cycle: 10 at 600 MHz, 3 at 2.0 GHz (R12, R445). -/
def State.clk (s : State) : Nat := if s.pkg.clock = 600 then 10 else 3

/-- TIME in ns (R450). -/
def State.time (s : State) : Nat := s.pkg.tick / 6 + s.pkg.timeAdj

/-- Real time brought forward to a tick. -/
def State.until (s : State) (t : Nat) : State :=
  { s with pkg := { s.pkg with tick := max s.pkg.tick t } }

/-- Real time advanced by clock cycles. -/
def State.wait (s : State) (n : Nat) : State := { s with pkg := { s.pkg with tick := s.pkg.tick + n * s.clk } }

/-- A free bit of Config, and the counter advanced. -/
def State.freeBit (s : State) : Bool × State := (Config.freeBit s.fresh, { s with fresh := s.fresh + 1 })

/-! ## The physical map (R18) -/

/-- What a physical address reaches. -/
inductive Place where
  /-- HBM -/
  | hbm
  /-- the second tier -/
  | tier
  /-- the window of a core, with the offset in it -/
  | window (core : Nat) (off : Nat)
  /-- package control, with the offset in it -/
  | pctl (off : Nat)
  /-- not present -/
  | absent
deriving DecidableEq, Repr

/-- Stage 4 has been entered: every unit present is up, also where a package fault has stopped it since (R445, R447). -/
def State.fullOn (s : State) : Bool := s.pkg.stage == 4 || s.pkg.clock == 2000

/-- A core is present: its die is, and until stage 4 it is one of cores 0 to 7 (R11, R445, R446). A core of a die lost at run
time is not, in the descriptor table either (R18, R314; log entry 73). -/
def State.coreHere (s : State) (n : Nat) : Bool :=
  n < 320 && s.pkg.cdMask.getLsbD (n / 40) && !s.pkg.lost.getLsbD (n / 40) && (s.fullOn || n < 8)

/-- The base of core windows (R18). -/
def winBase : Nat := 0x200000000000

/-- The physical address of a byte of a core's scratchpad, through its window (R155). -/
def scratchAddr (core off : Nat) : Nat := winBase + core * 0x1000000 + off

/-- An address lies in the second-tier memory of a device that PD1 has attached. Each memory port has 2 TiB of the range, the
first port the lower half (R18, R441; log entry 86). -/
def Pkg.inTier (p : Pkg) (pa : Nat) : Bool :=
  (0x100000000000 ≤ pa && pa < 0x100000000000 + p.tier0) || (0x120000000000 ≤ pa && pa < 0x120000000000 + p.tier1)

/-- Bytes of second-tier memory that PD1 has attached (R448). -/
def Pkg.tierBytes (p : Pkg) : Nat := p.tier0 + p.tier1

/-- What a physical address reaches, at this stage (R18, R445). -/
def State.place (s : State) (pa : Nat) : Place :=
  if pa < s.pkg.hbmBytes then .hbm
  else if s.pkg.inTier pa then .tier
  else if winBase ≤ pa ∧ pa < winBase + 320 * 0x1000000 then
    let n := (pa - winBase) / 0x1000000
    if s.coreHere n then .window n ((pa - winBase) % 0x1000000) else .absent
  else if 0x300000000000 ≤ pa ∧ pa < 0x300001000000 then .pctl (pa - 0x300000000000)
  else .absent

/-- A byte of plain memory: HBM, the second tier or a scratchpad (R274). -/
def plainPlace : Place → Bool
  | .hbm | .tier => true
  | .window _ off => off < 0x200000
  | _ => false

/-- The line of a physical address (R300). -/
def lineOf (pa : Nat) : Nat := pa / 128

/-- A line is poisoned (R315). -/
def State.poisoned (s : State) (line : Nat) : Bool := s.tok.poison.any fun e => e.1 == line

/-! ## Translation (R143-R148) -/

/-- The kinds of access of R145. -/
inductive Access where
  | read | write | both | fetch
deriving DecidableEq, Repr

/-- A bit of a page-table entry. -/
def pteBit (e i : Nat) : Bool := e.testBit i

/-- The walk from a table of a level down to a leaf: the leaf's first page, its number of pages and its entry, or the
cause (R143, R145). `fuel` is the levels left. -/
def State.walk (s : State) (va : Nat) : Nat → Nat → Nat → Except (BitVec 8) (Nat × Nat × Nat)
  | 0, _, _ => .error 0x0C
  | fuel + 1, level, table =>
    let e := memRead s.mem (table + 8 * (va / 2 ^ (39 - 9 * level) % 512)) 8
    let pa := e / 4096 % 2 ^ 36 * 4096
    let leaf := pteBit e 1
    let contig := pteBit e 5
    let pages := if level = 2 then (if contig then 16384 else 512) else (if contig then 16 else 1)
    if !pteBit e 0 then .error 0x0B
    else if s.place pa == .absent then .error 0x0B
    else if e / 2 ^ 48 ≠ 0 ∨ e / 128 % 32 ≠ 0 then .error 0x0C
    else if leaf && level < 2 then .error 0x0C
    else if !leaf && level == 3 then .error 0x0C
    else if contig && !leaf then .error 0x0C
    else if leaf then
      let own := if level = 2 then 512 else 1
      let first := va / 4096 / pages * pages
      let entryPage := va / 4096 / own * own
      let pfn := pa / 4096
      if pa % (4096 * own) ≠ 0 then .error 0x0C
      else if contig && (pfn < entryPage - first || (pfn - (entryPage - first)) % pages != 0) then .error 0x0C
      else .ok (first, pages, e)
    else s.walk va fuel (level + 1) pa

/-- The addresses of the table entries that a walk reads, from a table of a level down (R143, R145). -/
def State.walkReads (s : State) (va : Nat) : Nat → Nat → Nat → List Nat
  | 0, _, _ => []
  | fuel + 1, level, table =>
    let at' := table + 8 * (va / 2 ^ (39 - 9 * level) % 512)
    let e := memRead s.mem at' 8
    at' :: (if pteBit e 0 && !pteBit e 1 then s.walkReads va fuel (level + 1) (e / 4096 % 2 ^ 36 * 4096) else [])

/-- A TLB's translation of an address for a region. -/
def tlbHit (l : List Tlb) (r : Region) (va : Nat) : Option Tlb :=
  l.find? fun t => t.region == r.id && t.vpn ≤ va / 4096 && va / 4096 < t.vpn + t.pages

/-- What the TLBs of a core and of its die hold for an address (R142): `via` is the core, none for an agent of a port die,
which has no TLB. -/
def State.tlbHit (s : State) (via : Option Nat) (r : Region) (va : Nat) : Option Tlb :=
  match via with
  | none => none
  | some n =>
    match Sys2Proof.Machine.tlbHit (s.core n).tlb r va with
    | some t => some t
    | none => Sys2Proof.Machine.tlbHit (s.pkg.tlbs.get (Fin.ofNat 8 (n / 40))) r va

/-- The translation of an address for a region: a TLB's if one holds it, otherwise the walk's (R142, R145). What a TLB holds
is used though the tables have changed since (log entry 72). -/
def State.tlbFor (s : State) (via : Option Nat) (r : Region) (va : Nat) : Except (BitVec 8) Tlb :=
  match s.tlbHit via r va with
  | some t => .ok t
  | none =>
    match s.walk va 4 0 r.ptroot with
    | .error c => .error c
    | .ok (first, pages, e) =>
      let own := if pages = 16384 ∨ pages = 512 then 512 else 1
      let pfn := e / 4096 % 2 ^ 36 - (va / 4096 / own * own - first)
      .ok ⟨r.id, first, pages, pfn, pteBit e 2, pteBit e 3, pteBit e 4, pteBit e 6⟩

/-- The rights of a translation allow an access (R145, third row). -/
def Tlb.allows (t : Tlb) (acc : Access) (sup : Bool) : Bool :=
  (sup || !t.sup) &&
    (match acc with
    | .read => t.r
    | .write => t.w
    | .both => t.r && t.w
    | .fetch => t.x)

/-- Package control blocks granted to a context (R148): `sup` its mode, `rd` a read and `wr` a write. -/
def pctlGrant (r : Region) (off : Nat) (sup rd wr : Bool) : Bool :=
  if off < 0x100 then !wr
  else if off < 0x1000 then false
  else if off < 0x1020 then sup
  else if 0x2000 ≤ off ∧ off < 0x2050 then sup && !wr
  else if off / 8 = 0x800 then !rd && wr && r.arrive
  else if 0x5000 ≤ off ∧ off < 0xA000 then sup && r.windows.getLsbD ((off - 0x5000) / 64)
  else if 0x21000 ≤ off ∧ off < 0x21C08 then sup && !wr
  else false

/-- The fourth row of R145: a core window or package control that the region is not granted. -/
def State.grant (s : State) (r : Region) (pa : Nat) (acc : Access) (sup : Bool) : Bool :=
  let wr := acc == .write || acc == .both
  match s.place pa with
  | .window n _ => r.windows.getLsbD n
  | .pctl off => pctlGrant r off sup (acc != .write) wr
  | _ => true

/-- The physical address of a virtual one, or the cause of R145. -/
def State.translate (s : State) (via : Option Nat) (r : Region) (va : Nat) (acc : Access) (sup : Bool) :
    Except (BitVec 8) Nat :=
  match s.tlbFor via r va with
  | .error c => .error c
  | .ok t =>
    let pa := (t.pfn + (va / 4096 - t.vpn)) * 4096 + va % 4096
    if s.place pa == .absent then .error 0x0B
    else if !t.allows acc sup then .error 0x0C
    else if !s.grant r pa acc sup then .error 0x0D
    else .ok pa

/-- A TLB with one more translation; of a full one an entry of the hardware's choice, number `k`, makes room. -/
def tlbPut (cap k : Nat) (l : List Tlb) (t : Tlb) : List Tlb :=
  if l.contains t then l else t :: (if cap ≤ l.length then dropAt l (k % cap) else l)

/-- The TLBs of a core and of its die with the translation of an address that a walk or the die's TLB has found: 256
entries a core, 8,192 a die. A translation stays until an invalidation or until it makes room (R142; log entry 72). -/
def State.fill (s : State) (via : Option Nat) (r : Region) (va : Nat) : State :=
  match via, s.tlbFor via r va with
  | some n, .ok t =>
    let d := Fin.ofNat 8 (n / 40)
    let k := (Config.freeWord s.fresh).toNat
    if (s.core n).tlb.contains t && (s.pkg.tlbs.get d).contains t then s
    else
      { s.modCore n (fun c => { c with tlb := tlbPut 256 k c.tlb t }) with
        pkg := { s.pkg with tlbs := s.pkg.tlbs.set d (tlbPut 8192 (k / 256) (s.pkg.tlbs.get d) t) }
        fresh := s.fresh + 1 }
  | _, _ => s

/-- A region of no task: nothing translates through it. -/
def Region.none : Region :=
  ⟨0, 0, 0, false, 0, 0, 0, 0, 0, false, 0, [], 0, 0, [], 0, 0, 0⟩

/-- The region of a context's task. -/
def Ctx.region (c : Ctx) : Region :=
  match c.task with
  | some b => b.region
  | Option.none => Region.none

/-- Its mode is supervisor. -/
def Ctx.isSup (c : Ctx) : Bool := c.priv == .sup

/-! ## Busy registers -/

/-- A load, an atomic or a copy command is outstanding that will write a scalar register (R136, R259, R286). -/
def Ctx.sPending (c : Ctx) (r : SReg) : Bool :=
  r != 0 && (c.loads.any (·.dst == r) || c.atomics.any (·.dst == some r)
    || c.queue.any (fun q => q.op != 0x3A && q.op != 0x3C && q.tok == r))

/-- A scalar register is busy: an operation that writes it is outstanding, or poison has left it so (R153). -/
def Ctx.sBusy (c : Ctx) (r : SReg) : Bool := c.sPending r || (r != 0 && c.spoison.any (·.1 == r))

/-- A copy token is pending in the register (R261). -/
def Ctx.tokenPending (c : Ctx) (r : SReg) : Bool :=
  r != 0 && c.queue.any (fun q => q.op != 0x3A && q.op != 0x3C && q.tok == r)

/-- The Q operation writes the register (R217). -/
def QOp.writes (q : QOp) (x : XReg) : Bool :=
  match x with
  | .t r => (q.op == 0x0A || q.op == 0x0C) && q.ta == r
  | .c r =>
    if q.op == 0x09 || q.op == 0x0B then q.cd == r
    else if q.op == 0x04 || q.op == 0x05 || q.op == 0x06 || q.op == 0x07 || q.op == 0x08 then
      (List.range (q.rep + 1)).any fun k => q.next ≤ k && (q.cd.val + k * q.inc) % 8 == r.val
    else false

/-- BUSY of a tile or accumulator: a hidden-latency write to it is outstanding (R162, R217). -/
def Ctx.xBusy (c : Ctx) (x : XReg) : Bool :=
  c.fills.any (·.x == x) || c.mq.any (·.writes x)
    || (match x with
        | .t r => c.tloads.any (·.t == r)
        | .c _ => false)

/-! ## Register access -/

/-- A scalar register; s0 reads zero (R92). -/
def Regs.sget (r : Regs) (i : SReg) : Word := if i = 0 then 0 else r.s.get i

/-- A predicate; p0 reads 1 (R93). -/
def Regs.pget (r : Regs) (i : PReg) : Bool := i == 0 || r.p.getLsbD i.val

/-- A mask; k0 reads all ones (R168). -/
def Regs.kget (r : Regs) (i : KReg) : Mask := if i = 0 then Mask.ones else r.k.get i

/-- A tile or accumulator. -/
def Regs.xget (r : Regs) : XReg → Tile
  | .t i => r.t.get i
  | .c i => r.c.get i

/-- A scalar register written; a write to s0 is discarded (R92). -/
def Regs.sset (r : Regs) (i : SReg) (v : Word) : Regs := if i = 0 then r else { r with s := r.s.set i v }

/-- A predicate written; a write to p0 is discarded (R93). -/
def Regs.pset (r : Regs) (i : PReg) (v : Bool) : Regs :=
  if i = 0 then r
  else { r with p := if v then r.p ||| BitVec.twoPow 16 i.val else r.p &&& ~~~(BitVec.twoPow 16 i.val) }

/-- A tile or accumulator written. -/
def Regs.xset (r : Regs) (x : XReg) (t : Tile) : Regs :=
  match x with
  | .t i => { r with t := r.t.set i t }
  | .c i => { r with c := r.c.set i t }

/-- A latent vector written. -/
def Regs.lvset (r : Regs) (i : LvReg) (v : LatVec) : Regs := { r with lv := r.lv.set i v }

/-- The guard P[p] XOR n (R47), in the registers the bundle reads. -/
def Regs.guard (r : Regs) (g : Guard) : Bool := r.pget g.p != g.n

/-! ## Results landing (R36, R37) -/

/-- The cluster of a tile (R15). -/
def clusterOf (t : TReg) : Fin 4 := Fin.ofNat 4 (t.val / 8)

/-- A register whose cluster is asleep or waking (R115). -/
def Ctx.asleep (c : Ctx) (x : XReg) : Bool :=
  match x with
  | .t r => c.clusters.get (clusterOf r) != .awake
  | .c _ => false

/-- The grid with the containers of `en` replaced. -/
def Grid.merge (g : Grid) (en : Mask) (vals : Grid) : Grid :=
  tabulate 16 fun i => tabulate 64 fun j => if en.at i j then vals.at i j else g.at i j

/-- The mask with the bits of `en` replaced. -/
def Mask.merge (m en vals : Mask) : Mask :=
  tabulate 16 fun i => (m.get i &&& ~~~(en.get i)) ||| (vals.get i &&& en.get i)

/-- A write of containers, type and latent slots, DEVNF staying (log entry 13); a write of all 1,024 containers is a full
overwrite and clears the marks (R164, R169). -/
def Tile.write (t : Tile) (en : Mask) (vals : Grid) (ty : Option ElemTy) (lat : Option Lat) : Tile :=
  let full := en == Mask.ones
  { t with
    cells := Grid.merge t.cells en vals
    ty := ty.getD t.ty
    lat := match lat with
      | some l => { l with devnf := t.lat.devnf }
      | none => t.lat
    invalid := t.invalid && !full
    poison := if full then none else t.poison }

/-- A generator's field written, by its mod code (R126). -/
def Gen.setField (g : Gen) (fld : BitVec 7) (v : Word) : Gen :=
  let f := fld.toNat
  if f = 0x01 then { g with step := g.step.set 0 v }
  else if f = 0x02 then { g with step := g.step.set 1 v }
  else if f = 0x03 then { g with step := g.step.set 2 v }
  else if f = 0x04 then { g with step := g.step.set 3 v }
  else if f = 0x05 then { g with count := g.count.set 0 (v.setWidth 32) }
  else if f = 0x06 then { g with count := g.count.set 1 (v.setWidth 32) }
  else if f = 0x07 then { g with count := g.count.set 2 (v.setWidth 32) }
  else if f = 0x08 then { g with count := g.count.set 3 (v.setWidth 32) }
  else if f = 0x09 then { g with ctr := g.ctr.set 0 (v.setWidth 32) }
  else if f = 0x0A then { g with ctr := g.ctr.set 1 (v.setWidth 32) }
  else if f = 0x0B then { g with ctr := g.ctr.set 2 (v.setWidth 32) }
  else if f = 0x0C then { g with ctr := g.ctr.set 3 (v.setWidth 32) }
  else if f = 0x0D then { g with pitch := v.setWidth 32 }
  else if f = 0x0E then { g with ctrl := v.setWidth 8 }
  else if f = 0x0F then { g with modBase := v }
  else if f = 0x10 then { g with modLen := v.setWidth 32 }
  else if f = 0x11 then { g with itab := v.setWidth 21 }
  else if f = 0x12 then { g with iscale := v.setWidth 32 }
  else if f = 0x13 then { g with flagA := v }
  else if f = 0x14 then { g with flagV := v }
  else if f = 0x15 then { g with chip := v.setWidth 12 }
  else g

/-- A generator's field read: zero-extended, PITCH sign-extended (R126). -/
def Gen.getField (g : Gen) (fld : BitVec 7) : Word :=
  let f := fld.toNat
  if f = 0x01 then g.step.get 0
  else if f = 0x02 then g.step.get 1
  else if f = 0x03 then g.step.get 2
  else if f = 0x04 then g.step.get 3
  else if f = 0x05 then (g.count.get 0).setWidth 64
  else if f = 0x06 then (g.count.get 1).setWidth 64
  else if f = 0x07 then (g.count.get 2).setWidth 64
  else if f = 0x08 then (g.count.get 3).setWidth 64
  else if f = 0x09 then (g.ctr.get 0).setWidth 64
  else if f = 0x0A then (g.ctr.get 1).setWidth 64
  else if f = 0x0B then (g.ctr.get 2).setWidth 64
  else if f = 0x0C then (g.ctr.get 3).setWidth 64
  else if f = 0x0D then g.pitch.signExtend 64
  else if f = 0x0E then g.ctrl.setWidth 64
  else if f = 0x0F then g.modBase
  else if f = 0x10 then g.modLen.setWidth 64
  else if f = 0x11 then g.itab.setWidth 64
  else if f = 0x12 then g.iscale.setWidth 64
  else if f = 0x13 then g.flagA
  else if f = 0x14 then g.flagV
  else if f = 0x15 then g.chip.setWidth 64
  else 0

/-- The count of a dimension: 0 stands for 2^32 (R126). -/
def Gen.countOf (g : Gen) (d : Fin 4) : Nat := if g.count.get d = 0 then 2 ^ 32 else (g.count.get d).toNat

/-! ## System registers of a context (R119-R122, R367, R368) -/

/-- TSTATUS as read: IPEND, HELD, SLOTV, SLOT (R367). -/
def Ctx.tstatus (c : Ctx) : Word :=
  let ip := (List.range 8).foldl (fun (w : Nat) i =>
    if c.ipend.any (fun e => e.1 == BitVec.ofNat 8 (0x80 + i)) then w + 2 ^ (48 + i) else w) 0
  BitVec.ofNat 64 (ip + 32 * c.held.isSome.toNat + 16 * c.sys.slotv.toNat + c.sys.slot.toNat)

/-- A write of a context's own system register, as its fields take it: RO registers and fields ignore it (R5, R120). -/
def Ctx.sysWrite (c : Ctx) (num : BitVec 12) (v : Word) : Ctx :=
  let n := num.toNat
  if n = 0x000 then
    { c with
      sys := { c.sys with slotv := v.getLsbD 4, slot := v.setWidth 4 }
      held := if v.getLsbD 5 then c.held else none }
  else if n = 0x001 then { c with sys := { c.sys with tcause := v.setWidth 8 } }
  else if n = 0x002 then { c with sys := { c.sys with tepc := v.setWidth 48 } }
  else if n = 0x003 then { c with sys := { c.sys with tval := v } }
  else if n = 0x004 then { c with sys := { c.sys with tvec := v.setWidth 48 } }
  else if n = 0x005 then { c with sys := { c.sys with tscratch := v } }
  else if n = 0x006 then { c with sys := { c.sys with fflags := v.setWidth 5 } }
  else if n = 0x007 then { c with sys := { c.sys with checkmode := v.getLsbD 0 } }
  else if n = 0x008 then { c with regs := { c.regs with fbase := v.setWidth 4 } }
  else if n = 0x009 then { c with sys := { c.sys with quantum := if v.toNat < 64 then 64 else v } }
  else if n = 0x00A then { c with sys := { c.sys with errbase := v } }
  else if 0x040 ≤ n ∧ n < 0x050 then { c with regs := { c.regs with fmt := c.regs.fmt.set (n % 16) v (Nat.mod_lt _ (by decide)) } }
  else if 0x050 ≤ n ∧ n < 0x070 then
    { c with regs := { c.regs with cb := c.regs.cb.set ((n - 0x050) % 32) v (Nat.mod_lt _ (by decide)) } }
  else if n = 0x090 then { c with sys := { c.sys with driftThresh := v.setWidth 32 } }
  else if 0x0A0 ≤ n ∧ n < 0x0A8 then
    { c with sys := { c.sys with bpa := c.sys.bpa.set (n % 8) (v &&& 0x0001FFFFFFFFFFFF) (Nat.mod_lt _ (by decide)) } }
  else c

/-- The deferred or immediate close of a latent vector whose PEND is 0: the scale, then OPEN := 0 (R235). `mul` is the
rounded product of an entry and the scale. -/
def LatVec.close (v : LatVec) (scale : Option (BitVec 32)) (mul : BitVec 32 → BitVec 32 → BitVec 32) : LatVec :=
  match scale with
  | none => { v with isOpen := false, closing := false, scale := none }
  | some k => { v with e := tabulate 64 fun i => mul (v.e.get i) k, isOpen := false, closing := false, scale := none }

/-- The level's own schedule time (R34, R366). -/
def Ctx.now (c : Ctx) : Nat := if c.isSup then c.ssc else c.sc

/-- Flags raised (R88). -/
def Ctx.raiseFlags (c : Ctx) (f : Flags) : Ctx := { c with sys := { c.sys with fflags := c.sys.fflags ||| f } }

/-- The flags of scaling a vector's entries (R235). -/
def LatVec.scaleFlags (v : LatVec) (k : BitVec 32) : Flags :=
  (List.finRange 64).foldl (fun (f : Flags) i => f ||| (mulF32 (v.e.get i) k).2) 0

/-- The vector with the close of an LVCLOSE whose PEND is 0. -/
def LatVec.closeNow (v : LatVec) (scale : Option (BitVec 32)) : LatVec := v.close scale fun e k => (mulF32 e k).1

/-- The counters of the dimensions below n replaced, and the mark WRAP set in a descriptor's CTRL when every dimension
wrapped (R127, R128). -/
def Gen.advanced (g : Gen) (n : Nat) (ctr : Vector (BitVec 32) 4) (wrap : Bool) : Gen :=
  { g with ctr := tabulate 4 fun i => if i.val < n then ctr.get i else g.ctr.get i, ctrl := if wrap then g.ctrl ||| 0x80 else g.ctrl }

/-- One write landing. A scalar register that is busy keeps its pending result (R94, R261); a tile of a cluster that is
not awake discards the write (R115). -/
def Ctx.applyWrite (c : Ctx) (w : Write) : Ctx :=
  match w with
  | .s d v =>
    if c.sBusy d then c
    else { c with regs := c.regs.sset d v, unread := c.unread.filter fun e => e.1 != d }
  | .p d v => { c with regs := c.regs.pset d v }
  | .a d v => { c with regs := { c.regs with a := c.regs.a.set d v } }
  | .ctr d n ctr wrap => { c with regs := { c.regs with ag := c.regs.ag.set d ((c.regs.ag.get d).advanced n ctr wrap) } }
  | .field d fld v =>
    if fld = 0 then { c with regs := { c.regs with a := c.regs.a.set d v } }
    else { c with regs := { c.regs with ag := c.regs.ag.set d ((c.regs.ag.get d).setField fld v) } }
  | .mask d en vals =>
    if d = 0 then c else { c with regs := { c.regs with k := c.regs.k.set d (Mask.merge (c.regs.k.get d) en vals) } }
  | .tile d en vals ty lat =>
    if c.asleep d then c else { c with regs := c.regs.xset d ((c.regs.xget d).write en vals ty lat) }
  | .poison d pa =>
    if c.asleep (.t d) then c
    else { c with regs := { c.regs with t := c.regs.t.set d { c.regs.t.get d with poison := some pa } } }
  | .shape d rows cols ty =>
    if c.asleep (.t d) then c
    else { c with regs := { c.regs with t := c.regs.t.set d { c.regs.t.get d with rows := rows, cols := cols, ty := ty } } }
  | .latent d lat => if c.asleep d then c else { c with regs := c.regs.xset d { c.regs.xget d with lat := lat } }
  | .lv d en e isOpen clearErr =>
    let v := c.regs.lv.get d
    let e' : Vector (BitVec 32) 64 := tabulate 64 fun j => if en.getLsb j then e.get j else v.e.get j
    { c with regs := c.regs.lvset d { v with e := e', isOpen := isOpen, err := v.err && !clearErr } }
  | .lvClose d scale =>
    let v := c.regs.lv.get d
    if v.pend = 0 then
      let c' := { c with regs := c.regs.lvset d (v.closeNow scale) }
      match scale with
      | some k => c'.raiseFlags (v.scaleFlags k)
      | none => c'
    else { c with regs := c.regs.lvset d { v with closing := true, scale := scale } }
  | .tree t => { c with regs := { c.regs with tree := t } }
  | .xp d pat => { c with regs := { c.regs with xp := c.regs.xp.set d pat } }
  | .sys num v => c.sysWrite num v
  | .fbase b => { c with regs := { c.regs with fbase := b } }

/-- A result landing: its writes and its flags (R36, R90). The flags of a tile result that is discarded because its cluster
sleeps (R115) are raised all the same, which R89 leaves open (log entry 84). -/
def Ctx.applyLanding (c : Ctx) (l : Landing) : Ctx := (l.writes.foldl Ctx.applyWrite c).raiseFlags l.flags

/-- A result lands before another: at an earlier sc, else from an earlier slot, else from an earlier bundle (R37). -/
def Landing.before (a b : Landing) : Bool :=
  a.due < b.due || (a.due == b.due && (a.slot < b.slot || (a.slot == b.slot && a.seq ≤ b.seq)))

/-- Results in flight, kept in the order in which they land. -/
def insertLanding (l : Landing) : List Landing → List Landing
  | [] => [l]
  | k :: ks => if k.before l then k :: insertLanding l ks else l :: k :: ks

/-- The context with one more result in flight. -/
def Ctx.push (c : Ctx) (l : Landing) : Ctx := { c with flight := insertLanding l c.flight }

/-- The results of a list that are due by a schedule time land, in order. -/
def landList (now : Nat) (c : Ctx) : List Landing → Ctx
  | [] => { c with flight := [] }
  | l :: ls => if l.due ≤ now then landList now (c.applyLanding l) ls else { c with flight := l :: ls }

/-- Every result due by the level's schedule time lands. -/
def Ctx.landDue (c : Ctx) : Ctx := landList c.now c c.flight

/-- A result stays in flight while its context waits at the very sc at which it is due: its register is one that an operation
with hidden latency, as a copy command its token, has still to write (R35, R439; log entry 89). -/
def Ctx.keeps (c : Ctx) (l : Landing) : Bool :=
  l.due == c.now && l.writes.any fun w => match w with
    | .s d _ => c.sBusy d
    | _ => false

/-- The results due by a schedule time that the level has reached land, in order, but for those that stay (R36). -/
def Ctx.landBy (c : Ctx) (sc : Nat) : Ctx :=
  let go := fun (l : Landing) => l.due ≤ sc && !c.keeps l
  { (c.flight.filter go).foldl Ctx.applyLanding c with flight := c.flight.filter fun l => !go l }

/-- The schedule time that a context's level has reached by now: the cycles of its last bundle take their clock cycles one by
one (R34, R35). -/
def State.reached (s : State) (c : Ctx) : Nat := c.now - (c.freeAt - s.pkg.tick + (s.clk - 1)) / s.clk

/-- Every result in flight of the level lands. -/
def Ctx.landAll (c : Ctx) : Ctx := { c.flight.foldl Ctx.applyLanding c with flight := [] }

/-- The registers that a landing advances: those whose value it writes together with their counters, as a post-increment does
and an AINC of a register onto itself, which counts as one (log entry 88). -/
def Landing.advances (l : Landing) : List AReg := l.writes.filterMap fun w => match w with
  | .ctr d _ _ _ => if l.writes.any (fun u => match u with
      | .a e _ => e == d
      | _ => false) then some d else none
  | _ => none

/-- A landing that gives way to a later-issued bundle's advance of the same register at the same sc: its own advance of that
register is lost, so the generator advances once (R125). -/
def Landing.yieldTo (k l : Landing) : Landing :=
  if k.due = l.due ∧ k.seq ≠ l.seq then
    { k with writes := k.writes.filter fun w => match w with
      | .a d _ | .ctr d _ _ _ => !(k.advances.contains d && l.advances.contains d)
      | _ => true }
  else k

/-- An advance in flight, of the slot that commits (R125, R131). -/
def State.emitAdv (s : State) (lat : Nat) (ws : List Write) : State :=
  let l : Landing := ⟨s.c.now + lat, s.bundle.slot, s.c.seq, ws, 0⟩
  { s with c := { s.c with flight := insertLanding l (s.c.flight.map fun k => k.yieldTo l) } }

/-- An exposed result of the slot that commits, with its latency and flags. -/
def State.emit (s : State) (lat : Nat) (ws : List Write) (flags : Flags := 0) : State :=
  { s with c := s.c.push ⟨s.c.now + lat, s.bundle.slot, s.c.seq, ws, flags⟩ }

/-! ## Clusters waking (R115) -/

/-- The tiles of a cluster as RFMODE leaves them when it wakes: 16×64 f32, identity, invalid. -/
def Regs.resetCluster (r : Regs) (cl : Fin 4) : Regs :=
  { r with t := tabulate 32 fun i => if clusterOf i = cl then { Tile.fresh with invalid := true } else r.t.get i }

/-- The sc of a level. -/
def Ctx.scOf (c : Ctx) (sup : Bool) : Nat := if sup then c.ssc else c.sc

/-- A write to a tile of a cluster. -/
def Write.inCluster (w : Write) (cl : Fin 4) : Bool :=
  match w with
  | .tile (.t d) _ _ _ _ | .poison d _ | .shape d _ _ _ | .latent (.t d) _ => clusterOf d == cl
  | _ => false

/-- A result in flight without its writes to the tiles of a cluster. Its flags stay (log entry 84). -/
def Landing.outside (l : Landing) (cl : Fin 4) : Landing := { l with writes := l.writes.filter fun w => !w.inCluster cl }

/-- The results in flight, and those set aside, to the tiles of a cluster are discarded. -/
def Ctx.discardTo (c : Ctx) (cl : Fin 4) : Ctx :=
  { c with
    flight := c.flight.map (·.outside cl)
    aside := c.aside.map fun a => { a with flight := a.flight.map (·.outside cl) } }

/-- A cluster whose wake is due becomes awake. A result that is still in flight to it was so when it slept: it is
discarded (R115). -/
def Ctx.wakeDue (c : Ctx) (cl : Fin 4) : Ctx :=
  match c.clusters.get cl with
  | .waking sup due =>
    if due ≤ c.scOf sup then
      { c.discardTo cl with clusters := c.clusters.set cl .awake, regs := c.regs.resetCluster cl }
    else c
  | _ => c

/-- Every cluster whose wake is due becomes awake. -/
def Ctx.wakeAll (c : Ctx) : Ctx := (List.finRange 4).foldl Ctx.wakeDue c

/-! ## Counting (R462-R464) -/

/-- An interrupt raised for a context (R377, R378): a pending one of its cause is kept, a NOTIFY's value replaced; with
no task bound there it is dropped. -/
def Ctx.raiseIrq (c : Ctx) (cause : BitVec 8) (val : Word) : Ctx :=
  if c.task.isNone then c
  else if c.ipend.any (·.1 == cause) then
    if cause = 0x84 then { c with ipend := c.ipend.map fun e => if e.1 = cause then (cause, val) else e } else c
  else { c with ipend := c.ipend ++ [(cause, val)] }

/-- A core counter that has passed 2^48 − 1: OVF, and with OVIE the owner's interrupt (R463). -/
def State.counterOvf (s : State) (core : Nat) (n : Fin 8) : State :=
  let sel := (s.core core).evsel.get n
  let s := s.modCore core fun k => { k with evsel := k.evsel.set n (sel ||| BitVec.twoPow 64 40) }
  if sel.getLsbD 38 then s.modCtx (4 * core + (sel.toNat / 2 ^ 36) % 4) fun c => c.raiseIrq 0x83 (BitVec.ofNat 64 n.val)
  else s

/-- A counter of a core counts an event of a context (R462, R464). -/
def State.countsFor (s : State) (x ev : Nat) (n : Fin 8) : Bool :=
  let sel := (s.core (coreOf x)).evsel.get n
  sel.getLsbD 39 && sel.getLsbD (32 + x % 4) && (sel.getLsbD 16 || !(s.ctx x).isSup) && sel.toNat % 2 ^ 16 == ev

/-- `k` events counted by one counter of a core if it counts them: they enter it once their clock is over (R463, R464). -/
def State.countIn (s : State) (x ev k : Nat) (n : Fin 8) : State :=
  if s.countsFor x ev n then
    { s with pkg := { s.pkg with counted := s.pkg.counted ++ [⟨s.pkg.tick, coreOf x, n, k⟩] } }
  else s

/-- Counted events enter their counter, which may wrap (R463). -/
def State.countUp (s : State) (e : Counted) : State :=
  let v := ((s.core e.core).evcnt.get e.ctr).toNat + e.n
  let t := s.modCore e.core fun q => { q with evcnt := q.evcnt.set e.ctr (BitVec.ofNat 64 (v % 2 ^ 48)) }
  if v ≥ 2 ^ 48 then t.counterOvf e.core e.ctr else t

/-- The events of clocks that are over enter their counters, in order (R463). -/
def State.countFlush (s : State) : State :=
  if s.pkg.counted.isEmpty then s
  else
    let t : State := { s with pkg := { s.pkg with counted := s.pkg.counted.filter fun e => s.pkg.tick ≤ e.clock } }
    (s.pkg.counted.filter fun e => e.clock < s.pkg.tick).foldl State.countUp t

/-- `k` events of a context counted by its core (R464). A core whose state nothing has touched counts nothing. -/
def State.countEv (s : State) (x ev k : Nat) : State :=
  if (alGet s.cores (coreOf x)).isNone || k == 0 then s else (List.finRange 8).foldl (fun t n => t.countIn x ev k n) s

/-! ## Taking an exception, and the end of a task (R370-R376) -/

/-- The context stops issuing and drains, as EXIT does, with an exit code (R114, R376). -/
def Ctx.beginExit (c : Ctx) (code : BitVec 26) (fault : Bool) : Ctx := { c with mode := .exiting code fault }

/-- The exit code of a fault end (R376). -/
def faultCode (cause : BitVec 8) : BitVec 26 := BitVec.ofNat 26 (0x2000000 + 256 * cause.toNat)

/-- The clock cycles of an entry (R371): the core issues nothing in them, and they stall the task (R35). -/
def State.entryCycles (s : State) : State :=
  let t := max (s.core (coreOf s.id)).readyAt s.pkg.tick + 4 * s.clk
  { s.modCore (coreOf s.id) fun k => { k with readyAt := t, paidTo := t, held := k.held + 4 } with
    c := { s.c with stalled := s.c.stalled + 4 } }

/-- Entry (R371): with no handler, or in supervisor mode, the task ends with a fault. `tepc` is the saved PC; `slot`
the slot to resume at, with what the uncommitted slots read, if the entry splits a bundle; `keep` leaves SLOTV, SLOT and
HELD as they are (an interrupt). The entry and its clock cycles are counted in the mode that it leaves (R464). DESIGN CHOICE,
log entry 108: SLOT is 0 where no slot resumes. -/
def State.enter (s : State) (cause : BitVec 8) (val : Word) (tepc : VAddr) (keep : Bool)
    (slot : Option (Nat × Held × Split)) : State :=
  if s.c.sys.tvec = 0 ∨ s.c.isSup then
    { s with bundle := Bundle.none, c := { s.c.beginExit (faultCode cause) true with pc := tepc } }
  else
    let s0 := (s.countEv s.id 0 4).countEv s.id 0x10 1
    let c := s0.c
    let c1 : Ctx :=
      { c with
        sys := { c.sys with tcause := cause, tval := val, tepc := tepc }
        aside := some ⟨c.regs.loops, c.lbuf, c.flight, c.hist⟩
        regs := { c.regs with loops := [] }
        lbuf := LoopBuf.none
        flight := []
        hist := Hist.none
        priv := .sup
        ssc := 0
        pc := c.sys.tvec }
    let c2 : Ctx :=
      match keep, slot with
      | true, _ => c1
      | false, some (n, h, sp) =>
        { c1 with sys := { c1.sys with slotv := true, slot := BitVec.ofNat 4 n }, held := some h, split := some sp }
      | false, none => { c1 with sys := { c1.sys with slotv := false, slot := 0 }, held := none, split := none }
    ({ s0 with bundle := Bundle.none, c := c2 } : State).entryCycles

/-- A trap taken at issue, before any slot commits (R43, R370). -/
def State.issueTrap (s : State) (pc : VAddr) (cause : BitVec 8) (val : Word) : State := s.enter cause val pc false none

/-- What the uncommitted slots of the open bundle read (R372). -/
def State.heldNow (s : State) : Held := ⟨s.bundle.view, s.bundle.table, s.bundle.tpbuf⟩

/-- What the committed slots of the open bundle have decided. -/
def State.splitNow (s : State) : Split := ⟨s.bundle.pc, s.bundle.target, s.bundle.exit, s.bundle.yields⟩

/-- The fault of the slot that commits: the slots before it stay committed, it and the later ones are held (R370). -/
def State.slotFault (s : State) (cause : BitVec 8) (val : Word) : State :=
  s.enter cause val s.bundle.pc false (some (s.bundle.slot, s.heldNow, s.splitNow))

/-- The pending interrupt of highest priority (R377). -/
def Ctx.topIrq (c : Ctx) : Option (BitVec 8 × Word) :=
  [(0x86 : BitVec 8), 0x82, 0x84, 0x81, 0x83, 0x87].findSome? fun k => c.ipend.find? (·.1 == k)

/-- The pending interrupt of highest priority is taken at a task-mode boundary (R377). -/
def State.takeIrq (s : State) : State :=
  match s.c.topIrq with
  | none => s
  | some (cause, val) =>
    ({ s with c := { s.c with ipend := s.c.ipend.filter fun e => e.1 != cause } } : State).enter cause val s.c.pc true none

/-- The return to task mode (R381): the supervisor's loops are dropped, the task's loops, tags, results in flight and
history come back, and fetch goes to TEPC. A wake started in supervisor mode keeps the rest of its 32 sc in task time
(log entry 8). -/
def Ctx.eret (c : Ctx) : Ctx :=
  let a := c.aside.getD ⟨[], LoopBuf.none, [], Hist.none⟩
  { c with
    regs := { c.regs with loops := a.loops }
    lbuf := a.lbuf
    flight := a.flight
    hist := a.hist
    aside := none
    priv := .task
    pc := c.sys.tepc
    clusters := tabulate 4 fun i =>
      match c.clusters.get i with
      | .waking true due => .waking false (c.sc + (due - c.ssc))
      | k => k }

end Sys2Proof.Machine
end

