-- ==== Sys2Proof/Machine/Pkg.lean ====
section
/-! DEFINITION. The package-control registers (R148): what each reads as, what a write to one with no behaviour of its
own does (R5), and which steps a store to package control starts. -/

namespace Sys2Proof.Machine

open Sys2Proof

/-- A field of a register: its value placed at a bit. -/
def fld (v lo : Nat) : Nat := v * 2 ^ lo

/-- Bits [lo + w − 1 : lo] of a register value. -/
def bitsOf (v : Word) (lo w : Nat) : Nat := v.toNat / 2 ^ lo % 2 ^ w

/-- Cores present, by core number (R448). -/
def State.coresPresent (s : State) : List Nat := (List.range 320).filter s.coreHere

/-- The package descriptor table (R448), register at an offset that is a multiple of 8; of a lost die see log entry 73. -/
def State.descriptor (s : State) (off : Nat) : Word :=
  let p := s.pkg
  BitVec.ofNat 64
    (if off = 0x00 then
      fld p.svn.toNat 32 + fld p.clock.toNat 16 + fld p.reason.toNat 8 + fld p.part.toNat 4 + p.stage.toNat
    else if off = 0x08 then
      fld p.pd1.toNat 44 + fld p.chipId.toNat 32 + fld p.ports.toNat 16 + fld p.mdMask.toNat 8 + p.cdMask.toNat
    else if off = 0x10 then p.hbmBytes
    else if off = 0x18 then
      ((List.range 8).filter fun i => p.mdMask.getLsbD i).length * 2 ^ 31
    else if off = 0x20 then p.tierBytes
    else if off = 0x28 then s.coresPresent.length
    else if 0x30 ≤ off ∧ off < 0x58 then
      ((List.range 64).map fun i => if s.coreHere (8 * (off - 0x30) + i) then 2 ^ i else 0).sum
    else 0)

/-- The record that a fabric error log holds at a place of its ring (R431). -/
def logRecord (log : List FabErr) (cnt : BitVec 32) (i : Nat) : Option FabErr :=
  let n := log.length
  (List.range n).findSome? fun j =>
    if (cnt.toNat + 2 ^ 32 - n + j) % 64 = i then log[j]? else none

/-- The two words of a fabric error record (R431). -/
def FabErr.word (e : FabErr) (k : Nat) : Nat :=
  if k = 0 then fld e.region.toNat 48 + fld e.srcChip.toNat 28 + fld e.reason.toNat 8 + fld e.port.toNat 4 + e.kind.toNat
  else fld e.seq.toNat 32 + e.collid.toNat

/-- A ring's register (R458). -/
def Ring.reg (r : Ring) (k : Nat) : Nat :=
  if k = 0 then r.base.toNat else if k = 1 then r.log2n.toNat else if k = 2 then r.head.toNat
  else if k = 3 then r.tail.toNat else if k = 4 then r.lost.toNat else 0

/-- A pod barrier of the chip (R428). -/
def State.barrierOf (s : State) (b : Nat) : Barrier := (alGet s.fab.bars b).getD Barrier.fresh

/-- A route table entry (R414). -/
def State.route (s : State) (c : Nat) : BitVec 64 × BitVec 64 := (alGet s.fab.routes c).getD (0, 0)

/-- A home's agent by its number (R316). -/
def homeAgent (h : Nat) : Agent := if h < 8 then .md (Fin.ofNat 8 h) else if h = 8 then .pd1 else .proxy

/-- The number of the counter whose registers stand at an offset: 16 × x + n for counter n of die index x, 256 + n for
fabric counter n (R465). -/
def dctrIndex (off : Nat) : Option Nat :=
  let o := off - 0x50000
  if off < 0x52000 then (if o / 16 % 32 < 16 then some (o / 0x200 * 16 + o / 16 % 32) else none)
  else some (256 + o / 16 % 32)

/-- A die or fabric counter by its number. -/
def State.dctr (s : State) (i : Nat) : DCtr := (alGet s.pkg.dctrs i).getD ⟨0, 0⟩

/-- A register of a die or fabric counter, number i, after a write of the bits `m`: DCFG or DCNT, whose OVF a 1 clears (R465). -/
def DCtr.put (d : DCtr) (i : Nat) (cfg : Bool) (v m : Word) : DCtr :=
  let w := v &&& m
  let rw := fun (old : Word) => (old &&& ~~~m) ||| w
  if cfg then { d with cfg := rw d.cfg &&& (if i < 256 then 0xFFFFF000FFE0FFFF else 0xCFFFF000FFE0FFFF) }
  else
    let ovf := d.cnt.getLsbD 63 && !w.getLsbD 63
    { d with cnt := (rw d.cnt &&& 0xFFFFFFFFFFFF) ||| (if ovf then BitVec.twoPow 64 63 else 0) }

/-- What a package-control register reads as; `off` is a multiple of 8. A write-only field reads 0 (R5). -/
def State.pctlReg (s : State) (off : Nat) : Word :=
  if off < 0x100 then s.descriptor off
  else BitVec.ofNat 64
    (if off = 0xE00 then s.pkg.slewRate.toNat
    else if off = 0xE08 then
      fld s.pkg.rampEn.toNat 33 + fld s.pkg.rampStep.toNat 22 + fld s.pkg.rampBase.toNat 11 + s.pkg.cap.toNat
    else if off = 0xF00 then fld s.pkg.startChip.toNat 32
    else if off = 0x1000 then s.pkg.tlbiRegion.toNat
    else if off = 0x1008 then s.pkg.tlbiVa.toNat
    else if off = 0x1018 then s.pkg.tlbiBusy.toNat
    else if 0x2000 ≤ off ∧ off < 0x2050 then
      let h := (off - 0x2000) / 8
      let home := s.tok.homes.get (Fin.ofNat 10 h)
      fld home.poisoned.toNat 32 + fld home.recovering.toNat 16
        + (s.tok.table.filter fun e => e.home == homeAgent h).length
    else if 0x3000 ≤ off ∧ off < 0x3800 then
      let q := s.sched.queues.get (Fin.ofNat 64 ((off - 0x3000) / 32))
      let k := off / 8 % 4
      if k = 0 then q.base.toNat else if k = 1 then q.log2n.toNat else if k = 2 then q.region.toNat
      else fld q.dev.toNat 1 + q.en.toNat
    else if 0x5000 ≤ off ∧ off < 0xA000 then
      if off / 8 % 2 = 0 then (s.ctx ((off - 0x5000) / 16)).timecmp.toNat else 0
    else if 0x10000 ≤ off ∧ off < 0x20000 then
      let r := s.route ((off - 0x10000) / 16)
      if off / 8 % 2 = 0 then r.1.toNat else r.2.toNat
    else if 0x20000 ≤ off ∧ off < 0x21000 then
      let b := s.barrierOf ((off - 0x20000) / 16)
      if off / 8 % 2 = 0 then
        fld b.region.toNat 48 + fld b.root.toNat 36 + fld b.rank.toNat 24 + fld b.nchip.toNat 12 + fld b.en.toNat 11
          + b.localN.toNat
      else fld b.gen.toNat 32 + fld b.arrived.toNat 21 + b.stagger.toNat
    else if 0x21000 ≤ off ∧ off < 0x21400 then
      (logRecord s.fab.errs0 s.fab.cnt0 ((off - 0x21000) / 16)).elim 0 fun e => e.word (off / 8 % 2)
    else if off = 0x21400 then s.fab.cnt0.toNat
    else if 0x21800 ≤ off ∧ off < 0x21C00 then
      if s.pkg.pd1 then (logRecord s.fab.errs1 s.fab.cnt1 ((off - 0x21800) / 16)).elim 0 fun e => e.word (off / 8 % 2)
      else 0
    else if off = 0x21C00 then (if s.pkg.pd1 then s.fab.cnt1.toNat else 0)
    else if 0x30000 ≤ off ∧ off < 0x30800 then
      let d := s.pkg.traces.get (Fin.ofNat 8 ((off - 0x30000) / 0x100))
      if off / 0x40 % 4 = 0 then d.ring0.reg (off / 8 % 8)
      else if off / 0x40 % 4 = 1 then d.ring1.reg (off / 8 % 8)
      else 0
    else if 0x40000 ≤ off ∧ off < 0x4A000 then
      let c := s.core ((off - 0x40000) / 0x80)
      let k := off / 8 % 16
      if k < 8 then (c.evsel.get (Fin.ofNat 8 k)).toNat else (c.evcnt.get (Fin.ofNat 8 k)).toNat
    else if 0x50000 ≤ off ∧ off < 0x52200 then
      match dctrIndex off with
      | some i => if off / 8 % 2 = 0 then (s.dctr i).cfg.toNat else (s.dctr i).cnt.toNat
      | none => 0
    else 0)

/-- An asker goes on without what it has asked for: a need that is its alone ends, and a persistent request for it that has
reached its home goes on until all 16 tokens have come (R305). -/
def State.dropAsker (s : State) (a : Asker) : State :=
  let atHome := fun (n : Need) => n.persistent && s.tok.table.any fun e => e.who == n.who && e.line == n.line
  let without := fun (n : Need) =>
    let rest := n.asked.filter (· != a)
    if !n.asked.contains a then some n
    else if !rest.isEmpty then some { n with asked := rest }
    else if n.met || atHome n then some { n with asked := [], met := true }
    else none
  if s.tok.needs.isEmpty then s else { s with tok := { s.tok with needs := s.tok.needs.filterMap without } }

/-- A queue changed. -/
def State.modQueue (s : State) (q : Fin 64) (f : Queue → Queue) : State :=
  { s with sched := { s.sched with queues := s.sched.queues.set q (f (s.sched.queues.get q)) } }

/-- A pod barrier changed. -/
def State.modBarrier (s : State) (b : Nat) (f : Barrier → Barrier) : State :=
  { s with fab := { s.fab with bars := alSet s.fab.bars b (f (s.barrierOf b)) } }

/-- The trace state of a die changed. -/
def State.modTrace (s : State) (d : Nat) (f : DieTrace → DieTrace) : State :=
  { s with pkg := { s.pkg with traces := s.pkg.traces.set (Fin.ofNat 8 d) (f (s.pkg.traces.get (Fin.ofNat 8 d))) } }

/-- Ring 0 or ring 1 of a die changed. -/
def State.modRing (s : State) (d : Nat) (one : Bool) (f : Ring → Ring) : State :=
  s.modTrace d fun t => if one then { t with ring1 := f t.ring1 } else { t with ring0 := f t.ring0 }

/-- The RW fields of a core's event register, written by the host or by a context; OVF is cleared by a 1 (R462). -/
def evselWrite (old v : Word) (owner : Nat) : Word :=
  let ovf := old.getLsbD 40 && !v.getLsbD 40
  BitVec.ofNat 64 (fld ovf.toNat 40 + fld (bitsOf v 38 2) 38 + fld (owner % 4) 36 + fld (bitsOf v 32 4) 32
    + fld (bitsOf v 16 1) 16 + bitsOf v 0 16)

/-- A write to a package-control register that has no behaviour of its own: RW fields and the COUNT of TLBI_CMD take the
value in the bytes that `m` covers, W1C fields are cleared by ones, everything else ignores it (R5); so do the registers of a
core that is not present, whose state starts at its bring-up (R6; log entry 79). -/
def State.setReg (s : State) (off : Nat) (v m : Word) : State :=
  let old := s.pctlReg off
  let w := v &&& m
  let rw := (old &&& ~~~m) ||| w
  if off = 0xE00 then { s with pkg := { s.pkg with slewRate := rw.setWidth 10 } }
  else if off = 0xE08 then
    { s with
      pkg := { s.pkg with
        rampEn := rw.getLsbD 33
        rampStep := rw.extractLsb' 22 11
        rampBase := rw.extractLsb' 11 11
        cap := rw.extractLsb' 0 11 } }
  else if off = 0xF00 then
    if s.pkg.stage = 1 then { s with pkg := { s.pkg with startChip := rw.extractLsb' 32 12 } } else s
  else if off = 0x1010 then
    if s.pkg.tlbiBusy then s
    else { s with pkg := { s.pkg with tlbiCount := ((s.pkg.tlbiCount.setWidth 64 <<< 32 &&& ~~~m) ||| w).extractLsb' 32 32 } }
  else if off = 0x1000 then { s with pkg := { s.pkg with tlbiRegion := rw.setWidth 16 } }
  else if off = 0x1008 then { s with pkg := { s.pkg with tlbiVa := rw.setWidth 48 &&& 0xFFFFFFFFF000 } }
  else if 0x3000 ≤ off ∧ off < 0x3800 then
    (s.dropAsker (.queue ((off - 0x3000) / 32))).modQueue (Fin.ofNat 64 ((off - 0x3000) / 32)) fun q =>
      let k := off / 8 % 4
      if k = 0 then { q with base := rw.setWidth 48 &&& 0xFFFFFFFFFFC0 }
      else if k = 1 then { q with log2n := rw.setWidth 5 }
      else if k = 2 then { q with region := rw.setWidth 48 }
      else { q with dev := rw.getLsbD 1, en := rw.getLsbD 0 }
  else if 0x5000 ≤ off ∧ off < 0xA000 ∧ off / 8 % 2 = 0 then
    if s.coreHere ((off - 0x5000) / 64) then s.modCtx ((off - 0x5000) / 16) fun c => { c with timecmp := rw } else s
  else if 0x10000 ≤ off ∧ off < 0x20000 then
    let c := (off - 0x10000) / 16
    let r := s.route c
    { s with fab := { s.fab with routes := alSet s.fab.routes c (if off / 8 % 2 = 0 then (rw, r.2) else (r.1, rw)) } }
  else if 0x20000 ≤ off ∧ off < 0x21000 then
    s.modBarrier ((off - 0x20000) / 16) fun b =>
      if off / 8 % 2 = 0 then
        { b with
          region := rw.extractLsb' 48 16
          root := rw.extractLsb' 36 12
          rank := rw.extractLsb' 24 12
          nchip := rw.extractLsb' 12 12
          en := rw.getLsbD 11
          localN := rw.extractLsb' 0 11 }
      else { b with stagger := rw.extractLsb' 0 14 }
  else if 0x30000 ≤ off ∧ off < 0x30800 then
    if off / 0x40 % 4 ≤ 1 then
      s.modRing ((off - 0x30000) / 0x100) (off / 0x40 % 4 == 1) fun r =>
        if off / 8 % 8 = 3 then { r with tail := rw.setWidth 32 }
        else if off / 8 % 8 = 4 then { r with lost := r.lost &&& ~~~(w.setWidth 32) }
        else r
    else s
  else if 0x40000 ≤ off ∧ off < 0x4A000 then
    if !s.coreHere ((off - 0x40000) / 0x80) then s
    else s.modCore ((off - 0x40000) / 0x80) fun c =>
      let k := off / 8 % 16
      if k < 8 then { c with evsel := c.evsel.set (Fin.ofNat 8 k) (evselWrite old ((rw &&& ~~~(BitVec.twoPow 64 40)) ||| (w &&& BitVec.twoPow 64 40)) (bitsOf rw 36 2)) }
      else { c with evcnt := c.evcnt.set (Fin.ofNat 8 k) (rw &&& 0xFFFFFFFFFFFF) }
  else if 0x50000 ≤ off ∧ off < 0x52200 then
    match dctrIndex off with
    | none => s
    | some i =>
      { s with pkg := { s.pkg with dctrs := alSet s.pkg.dctrs i ((s.dctr i).put i (off / 8 % 2 == 0) v m) } }
  else s

/-- The operands of a write to a package-control register: its offset, the value and the bytes written. -/
def Move.reg (off : Nat) (v m : Word) : Move := { Move.none with n := off, val := v, line := m.toNat }

/-- The steps that a write to a register of package control starts (R146, R346, R355, R378, R449, R458); the others
are plain register writes. `owner`: the region block of the context that writes, none for the host. Of a narrower write to a
register that is write-only, the COUNT of TLBI_CMD keeps the bytes that no write of GO has used yet, and NOTIFY takes the
bytes that are not written as 0 (R5; log entry 80). -/
def regSteps (owner : Option Nat) (off : Nat) (v m : Word) : List (Instr × Move) :=
  let w := v &&& m
  if off = 0xF00 then
    (Instr.registerWrite, Move.reg off v m) :: (if w.getLsbD 0 then [(Instr.startctlGo, Move.none)] else [])
  else if off = 0x1010 then
    (Instr.registerWrite, Move.reg off v m) ::
      (if w.getLsbD 0 then [(Instr.tlbiGo, { Move.none with flag := owner.isSome, line := owner.getD 0 })] else [])
  else if 0x3000 ≤ off ∧ off < 0x3800 ∧ off / 8 % 4 = 3 then
    let q := { Move.none with x := (off - 0x3000) / 32 }
    (Instr.registerWrite, Move.reg off v m) ::
      (if w.getLsbD 3 && !w.getLsbD 2 then [(Instr.qctlRetry, q)]
      else if w.getLsbD 2 && !w.getLsbD 3 then [(Instr.qctlSkip, q)]
      else [])
  else if off = 0x4000 then [(Instr.ttArrive, Move.reg off v m)]
  else if 0x5000 ≤ off ∧ off < 0xA000 ∧ off / 8 % 2 = 1 then
    [(Instr.notify, { Move.none with x := (off - 0x5000) / 16, val := w })]
  else if 0x30000 ≤ off ∧ off < 0x30800 ∧ off / 0x40 % 4 ≤ 1 ∧ off / 8 % 8 ≤ 1 then
    [(Instr.ringReconfigure, Move.reg off v m)]
  else [(Instr.registerWrite, Move.reg off v m)]

/-- The mask of a byte of a register. -/
def byteMask (i : Nat) : Word := 0xFF#64 <<< (8 * i)

/-- The registers that bytes written to package control cover, each with its value and mask. -/
def regWords : Nat → List Byte → List (Nat × Word × Word)
  | _, [] => []
  | off, b :: bs =>
    let i := off % 8
    let e := (off - i, (b.setWidth 64) <<< (8 * i), byteMask i)
    match regWords (off + 1) bs with
    | (o, v, m) :: rest => if o = off - i then (o, v ||| e.2.1, m ||| e.2.2) :: rest else e :: (o, v, m) :: rest
    | [] => [e]

/-- A store to package control takes effect at its target as the steps of the registers it covers, which move next
after those already on the agenda (log entry 9); `src` is the context or copy command that stores. -/
def State.pctlStore (s : State) (off : Nat) (bytes : List Byte) (owner : Option Nat) (src : Option (Nat × Nat) := none) : State :=
  { s with agenda := s.agenda ++ (regWords off bytes).flatMap fun w =>
    (regSteps owner w.1 w.2.1 w.2.2).map fun e => (e.1, { e.2 with src := src }) }

/-- A byte of package control as read. -/
def State.pctlByte (s : State) (off : Nat) : Byte := (s.pctlReg (off / 8 * 8)).extractLsb' (8 * (off % 8)) 8

/-! ## The host's view (R148, R442) -/

/-- The host's column of R148. -/
def hostGrant (off : Nat) (wr : Bool) : Bool :=
  if off < 0x100 ∨ (0x2000 ≤ off ∧ off < 0x2050) ∨ (0x21000 ≤ off ∧ off < 0x21C08) then !wr
  else if 0x4000 ≤ off ∧ off < 0x4008 then wr
  else
    (0xE00 ≤ off && off < 0xE10) || (0xF00 ≤ off && off < 0xF08) || (0x1000 ≤ off && off < 0x1020)
      || (0x3000 ≤ off && off < 0x3800) || (0x5000 ≤ off && off < 0xA000) || (0x10000 ≤ off && off < 0x21000)
      || (0x30000 ≤ off && off < 0x30800) || (0x40000 ≤ off && off < 0x4A000) || (0x50000 ≤ off && off < 0x52200)

/-- A die counter that a change of function leaves in place: in use, and not switched with the function (R467). -/
def State.dctrStays (s : State) (i : Nat) : Bool :=
  let d := s.dctr i
  bitsOf d.cfg 60 2 != 2 && (d.cfg != 0 || d.cnt != 0)

/-- A function that does not run now: its switched counters stand in its image (R467). -/
def State.fnIdle (s : State) (fn : Nat) : Bool := fn != 0 && fn != s.pkg.fn

/-- A die counter as the image of a function holds it; zeros where it has none (R467). -/
def State.imageOf (s : State) (fn i : Nat) : DCtr := (alGet ((alGet s.pkg.images fn).getD []) i).getD ⟨0, 0⟩

/-- A register that the view of a function exposes: every one to the physical function, 0; to a virtual function those of its
own queues, the descriptor table, and its own counters: of the cores of its root region, and the die counters that count
for it or are free; of a function that does not run, those of its image (R442, R467, R468; log entry 78). -/
def State.fnView (s : State) (fn off : Nat) : Bool :=
  if fn = 0 then true
  else if off < 0x100 then true
  else if 0x3000 ≤ off ∧ off < 0x3800 then (s.sched.queues.get (Fin.ofNat 64 ((off - 0x3000) / 32))).fn == fn
  else if 0x40000 ≤ off ∧ off < 0x4A000 then
    s.pkg.fnRoots.any fun e => e.1 == fn && (memRead s.mem (e.2 + 0x40) 40).testBit ((off - 0x40000) / 0x80)
  else if 0x50000 ≤ off ∧ off < 0x52000 then
    match dctrIndex off with
    | some i => let d := s.dctr i
      if s.fnIdle fn then !s.dctrStays i
      else (bitsOf d.cfg 60 2 == 2 && bitsOf d.cfg 44 16 == fn) || (d.cfg == 0 && d.cnt == 0)
    | none => false
  else false

/-- A host access to package control through BAR0 that its grant refuses (R148). -/
def State.hostRefused (s : State) (fn off n : Nat) (wr : Bool) : Bool :=
  (List.range n).any fun i => s.fnView fn (off + i) && !hostGrant (off + i) wr

/-- A register of a function that does not run stands in its image: a die counter's (R467). -/
def State.inImage (s : State) (fn off : Nat) : Bool := s.fnIdle fn && 0x50000 ≤ off && off < 0x52000

/-- A byte that a function's view shows (R442, R468). -/
def State.viewByte (s : State) (fn off : Nat) : Byte :=
  if s.inImage fn off then
    match dctrIndex off with
    | some i =>
      let d := s.imageOf fn i
      (if off / 8 % 2 = 0 then d.cfg else d.cnt).extractLsb' (8 * (off % 8)) 8
    | none => 0
  else s.pctlByte off

/-- The bytes that a host reads through BAR0: zero beyond its function's view (R442). -/
def State.hostBytes (s : State) (fn off n : Nat) : List Byte :=
  (List.range n).map fun i => if s.fnView fn (off + i) then s.viewByte fn (off + i) else 0

/-- The image of a function with a register of a die counter written. -/
def State.imagePut (s : State) (fn off : Nat) (v m : Word) : State :=
  match dctrIndex off with
  | some i =>
    let img := (alGet s.pkg.images fn).getD []
    { s with pkg := { s.pkg with
      images := alSet s.pkg.images fn (alSet img i ((s.imageOf fn i).put i (off / 8 % 2 == 0) v m)) } }
  | none => s

/-- A host write through BAR0; one that is not wholly in its function's view is ignored (R442). -/
def State.hostStore (s : State) (fn off : Nat) (bytes : List Byte) : State :=
  if (List.range bytes.length).all fun i => s.fnView fn (off + i) then
    if s.inImage fn off then (regWords off bytes).foldl (fun t w => t.imagePut fn w.1 w.2.1 w.2.2) s
    else s.pctlStore off bytes none
  else s

end Sys2Proof.Machine
end

