-- ==== Sys2Proof/Machine/Mem.lean ====
section
/-! DEFINITION. What a context, an engine command and the host read and write: the phase buffer, publication and
refresh (15_ordering), the scratchpad and its two views (R139-R141), core windows (R155-R158), and the checks of an
access (R145, R157). -/

namespace Sys2Proof.Machine

open Sys2Proof

/-! ## Core windows (R155, R156) -/

/-- Status of a context's copy queue, as ENGQ reads it (R267). -/
def Ctx.engStatus (c : Ctx) : Word :=
  let reason : Nat :=
    if c.halted then
      match c.queue with
      | q :: _ => (q.stop.map (·.1.toNat)).getD 0
      | [] => 0
    else 0
  BitVec.ofNat 64 (fld reason 8 + fld c.halted.toNat 4 + c.queue.length % 16)

/-- A byte of a 32-bit container or entry. -/
def contByte (v : BitVec 32) (i : Nat) : Byte := v.extractLsb' (8 * (i % 4)) 8

/-- A byte of a register of 64 bits. -/
def wordByte (v : Word) (i : Nat) : Byte := v.extractLsb' (8 * (i % 8)) 8

/-- A byte of a context's register window, at an offset from the context base (R155, R156). Tiles of a cluster that is
not awake read zero (R157). -/
def Ctx.windowByte (c : Ctx) (o : Nat) : Byte :=
  let i := Fin.ofNat 16 (o / 256)
  let j := Fin.ofNat 64 (o / 4)
  if o < 0x20000 then
    let t := Fin.ofNat 32 (o / 0x1000)
    if c.asleep (.t t) then 0 else contByte (Grid.at (c.regs.t.get t).cells i j) o
  else if o < 0x28000 then contByte (Grid.at (c.regs.c.get (Fin.ofNat 8 (o / 0x1000))).cells i j) o
  else if o < 0x29000 then contByte ((c.regs.lv.get i).e.get j) o
  else if o < 0x29200 then wordByte (c.regs.sget (Fin.ofNat 64 (o / 8))) o
  else if o < 0x29280 then wordByte (c.regs.a.get (Fin.ofNat 16 (o / 8))) o
  else if o < 0x29288 then wordByte ((c.regs.p ||| 1).setWidth 64) o
  else if o < 0x29290 then
    wordByte (BitVec.ofNat 64 ((List.finRange 16).map fun v => if (c.regs.lv.get v).isOpen then 2 ^ v.val else 0).sum) o
  else 0

/-- The address of a bundle-store entry in its core's window (R32). -/
def entryAddr (core e : Nat) : Nat := winBase + core * 0x1000000 + 0x400000 + 64 * e

/-- A context at the boundary before its next bundle, with what is due there (R158). -/
def Ctx.atBoundary (c : Ctx) : Ctx := c.landBy c.now

/-- A byte of a core window beyond its scratchpad. A read lands at a boundary of its target, after the results that are due
there (R158). -/
def State.windowByte (s : State) (core off : Nat) : Byte :=
  if 0x200000 ≤ off ∧ off < 0x300000 then
    (s.ctx (4 * core + (off - 0x200000) / 0x40000)).atBoundary.windowByte ((off - 0x200000) % 0x40000)
  else if 0x400000 ≤ off ∧ off < 0x440000 then
    memGet s.mem (winBase + core * 0x1000000 + off)
  else if 0x600000 ≤ off ∧ off < 0x600020 then
    wordByte (s.ctx (4 * core + (off - 0x600000) / 8)).engStatus off
  else 0

/-- The window offset is one of a context's registers. -/
def isRegWindow (off : Nat) : Bool := 0x200000 ≤ off && off < 0x300000

/-! ## Reads -/

/-- A byte as an agent that sees every performed write reads it: an engine command, the host, a home. -/
def State.byteAt (s : State) (pa : Nat) : Byte :=
  match s.place pa with
  | .window n off => if off < 0x200000 then memGet s.mem pa else s.windowByte n off
  | .pctl off => s.pctlByte off
  | _ => memGet s.mem pa

/-- `n` bytes as such an agent reads them. -/
def State.bytesAt (s : State) (pa n : Nat) : List Byte := (List.range n).map fun i => s.byteAt (pa + i)

/-- A 64-bit word as such an agent reads it. -/
def State.wordOf (s : State) (pa : Nat) : Nat := leNat (s.bytesAt pa 8)

/-- The older values of a byte that a context may still read: one of them, or the current one; those older than the one
read can no longer be read (R277, R280). -/
def pickStale (pa : Nat) (cur : Byte) : List Stale → Nat → Byte × List Stale × Nat
  | [], f => (cur, [], f)
  | e :: es, f =>
    if e.addr ≠ pa then
      let r := pickStale pa cur es f
      (r.1, e :: r.2.1, r.2.2)
    else if Config.freeBit f then (e.val, e :: es, f + 1)
    else pickStale pa cur es (f + 1)

/-- A context with the older values of a byte that a read has left. One that it has passed over was older than another agent's
write, and so the values that a view of its scratchpad might return are: they go too (R141, R277). -/
def Ctx.saw (c : Ctx) (x pa : Nat) (left : List Stale) : Ctx :=
  { c with
    stale := left
    unjoined := if left.length < c.stale.length then c.unjoined.filter fun e => scratchAddr (coreOf x) e.off != pa
      else c.unjoined }

/-- A byte that the focused context reads where memory holds `cur`. -/
def State.seeByte (s : State) (pa : Nat) (cur : Byte) : Byte × State :=
  if s.c.stale.isEmpty then (cur, s)
  else
    let r := pickStale pa cur s.c.stale s.fresh
    (r.1, { s with c := s.c.saw s.id pa r.2.1, fresh := r.2.2 })

/-- The latest byte of a phase buffer at an address. -/
def pbufGet (pb : List PStore) (pa : Nat) : Option Byte :=
  pb.foldl (fun (acc : Option Byte) e => if e.addr = pa then some e.val else acc) none

/-- A global byte that a slot reads: memory and the phase buffer as they stood before the bundle (R276). A byte of the own
scratchpad that the swizzled view wrote is read through its window as that view wrote it (R141; log entry 92). -/
def State.slotByte (s : State) (pa : Nat) : Byte × State :=
  match s.place pa with
  | .pctl off => (s.pctlByte off, s)
  | .window n off =>
    if off < 0x200000 then
      match pbufGet s.bundle.pbuf pa with
      | some b => (b, s)
      | none => s.seeByte pa (memGet s.bundle.mem pa)
    else (s.windowByte n off, s)
  | _ =>
    match pbufGet s.bundle.pbuf pa with
    | some b => (b, s)
    | none => s.seeByte pa (memGet s.bundle.mem pa)

/-- `n` global bytes from an address that a slot reads. -/
def State.slotBytes (s : State) (pa : Nat) : Nat → List Byte × State
  | 0 => ([], s)
  | n + 1 =>
    let r := s.slotByte pa
    let q := r.2.slotBytes (pa + 1) n
    (r.1 :: q.1, q.2)

/-- The values that a write through one view has replaced and a read through the other may return (R141). -/
def pickUnjoined (off : Nat) (swz : Bool) : List Unjoined → Nat → Option Byte × List Unjoined × Nat
  | [], f => (none, [], f)
  | e :: es, f =>
    if e.off ≠ off ∨ e.swz = swz then
      let r := pickUnjoined off swz es f
      (r.1, e :: r.2.1, r.2.2)
    else if Config.freeBit f then (some e.old, e :: es, f + 1)
    else pickUnjoined off swz es (f + 1)

/-- A scratchpad byte of the focused context's core through a view, where it stands in no phase buffer: an older value
that a write through the other view has replaced (R141), or memory. -/
def State.scratchMem (s : State) (m : Memory) (swz : Bool) (off : Nat) : Byte × State :=
  let r := if s.c.unjoined.isEmpty then (none, [], s.fresh) else pickUnjoined off swz s.c.unjoined s.fresh
  let s' : State := { s with c := { s.c with unjoined := r.2.1 }, fresh := r.2.2 }
  match r.1 with
  | some b => (b, s')
  | none => s'.seeByte (scratchAddr (coreOf s.id) off) (memGet m (scratchAddr (coreOf s.id) off))

/-- A scratchpad byte of the focused context's core through a view, from a memory and a phase buffer as they stood at
issue. The buffer holds stores made through the core's own window; the linear view shows them at once, the swizzled view
may (R141, R277; log entry 75). -/
def State.scratchByte (s : State) (m : Memory) (pb : List PStore) (swz : Bool) (off : Nat) : Byte × State :=
  match pbufGet pb (scratchAddr (coreOf s.id) off) with
  | none => s.scratchMem m swz off
  | some b =>
    if !swz then (b, s)
    else
      let f := s.freeBit
      if f.1 then (b, f.2) else f.2.scratchMem m swz off

/-- `n` scratchpad bytes from an offset. -/
def State.scratchBytes (s : State) (m : Memory) (pb : List PStore) (swz : Bool) (off : Nat) : Nat → List Byte × State
  | 0 => ([], s)
  | n + 1 =>
    let r := s.scratchByte m pb swz off
    let q := r.2.scratchBytes m pb swz (off + 1) n
    (r.1 :: q.1, q.2)

/-! ## Writes, publication and refresh (R277-R283) -/

/-- The bytes of a poisoned line written since; the mark clears when all 128 are (R315). -/
def poisonWrite (line byte : Nat) : List (Nat × BitVec 128) → List (Nat × BitVec 128)
  | [] => []
  | (l, m) :: rest =>
    if l = line then
      let m' := m ||| BitVec.twoPow 128 byte
      if m' = BitVec.allOnes 128 then rest else (l, m') :: rest
    else (l, m) :: poisonWrite line byte rest

/-- The older values of a byte once a write has replaced `old` by `b`: one more, or none more where the byte is the same
and no older value of it is left, which no read could tell (R277, R278). -/
def addStale (l : List Stale) (pa : Nat) (old b : Byte) (src seq : Nat) : List Stale :=
  if old = b ∧ !l.any (·.addr == pa) then l else l ++ [⟨pa, old, src, seq, [], false, false⟩]

/-- A value of a byte that a write through one view has replaced may still be read by a context of a core (R141). -/
def Ctx.unjoinedAt (c : Ctx) (core pa : Nat) : Bool := c.unjoined.any fun e => scratchAddr core e.off == pa

/-- A context with an older value of the code word at an address, where a write has replaced it (R28): one for each write, as
it stood before the first byte of it. -/
def Ctx.oldWord (c : Ctx) (pa : Nat) (w : BitVec 16) (src seq : Nat) : Ctx :=
  let a := pa / 2 * 2
  if c.code.any fun e => e.addr == a && e.src == src && e.seq == seq then c else { c with code := c.code ++ [⟨a, w, src, seq⟩] }

/-- Context x after a write of some agent: the writer itself reads no older value any more; a bound context may read the
old one until a refresh (R277, R278). -/
def Ctx.afterWrite (c : Ctx) (own : Bool) (x pa : Nat) (old b : Byte) (src seq : Nat) : Ctx :=
  if own then (if c.stale.isEmpty then c else { c with stale := c.stale.filter fun e => e.addr != pa })
  else if c.task.isNone then c
  else if c.unjoinedAt (coreOf x) pa then { c with stale := c.stale ++ [⟨pa, old, src, seq, [], false, false⟩] }
  else { c with stale := addStale c.stale pa old b src seq }

/-- A release after a write to a byte: a byte of its location holds a value that an acquire may synchronise with only where
that is the release's own, or a later one of an atomic read-modify-write (R281). -/
def Rel.after (r : Rel) (pa : Nat) (rmw : Bool) : Rel :=
  if r.pa ≤ pa ∧ pa < r.pa + r.size then
    { r with dead := if rmw then r.dead.filter (· != pa) else if r.dead.contains pa then r.dead else pa :: r.dead }
  else r

/-- Some of the bytes read hold a value of the release, or a later one of an atomic read-modify-write. -/
def Rel.readBy (r : Rel) (pa n : Nat) : Bool := (List.range n).any fun i => r.pa ≤ pa + i && pa + i < r.pa + r.size && !r.dead.contains (pa + i)

/-- A write performed: memory takes the byte; every bound context but the one named by `own` may read the old one until a
refresh; `own` reads no older one any more (R277, R278), but each may fetch it (R28). `rmw`: it is part of an atomic
read-modify-write (R281). -/
def State.perform (s : State) (own : Option Nat) (src seq : Nat) (pa : Nat) (b : Byte) (rmw : Bool := false) : State :=
  let old := memGet s.mem pa
  let s1 : State :=
    { s with
      mem := memSet s.mem pa b
      tok := if s.tok.poison.isEmpty then s.tok
        else { s.tok with poison := poisonWrite (lineOf pa) (pa % 128) s.tok.poison }
      rels := s.rels.map fun r => r.after pa rmw
      unsys := if pa < s.pkg.hbmBytes then addStale s.unsys pa old b src seq else s.unsys }
  let word := BitVec.ofNat 16 (memRead s.mem (pa / 2 * 2) 2)
  s1.mapCtx fun x c =>
    let c1 := c.afterWrite (own == some x) x pa old b src seq
    if old = b ∨ c.task.isNone then c1 else c1.oldWord pa word src seq

/-- The values that the views may still return once a write through a view has replaced `old` by `b` at an offset: the other
view the one replaced, and that view itself no older one (R141). -/
def viewWrite (l : List Unjoined) (swz : Bool) (off : Nat) (old b : Byte) : List Unjoined :=
  (l.filter fun e => !(e.off == off && e.swz != swz)) ++ (if old = b then [] else [⟨off, swz, old, []⟩])

/-- A byte of the scratchpad window of a context's core. -/
def ownWindow (x pa : Nat) : Bool := scratchAddr (coreOf x) 0 ≤ pa && pa < scratchAddr (coreOf x) 0x200000

/-- A store of a phase buffer performed. One to the own scratchpad, through its window, is a write through the linear
view: until a VJOIN the swizzled view may still return the value that it replaces (R141, R211). -/
def State.performOne (s : State) (x : Nat) (e : PStore) : State :=
  let old := memGet s.mem e.addr
  let s1 := s.perform (some x) x e.seq e.addr e.val
  if ownWindow x e.addr then
    s1.modCtx x fun c => { c with unjoined := viewWrite c.unjoined false (e.addr - scratchAddr (coreOf x) 0) old e.val }
  else s1

/-- The stores of a phase buffer performed in order. -/
def State.performAll (s : State) (x : Nat) : List PStore → State
  | [] => s
  | e :: es => (s.performOne x e).performAll x es

/-! ## Die and fabric counters (R465, R466) -/

/-- A byte of HBM as its last publication at sys scope has left it (R345). -/
def State.sysByte (s : State) (pa : Nat) : Byte :=
  ((s.unsys.find? fun e => e.addr == pa).map (·.val)).getD (memGet s.mem pa)

/-- A little-endian number of `n` bytes as last published at sys scope. -/
def State.sysMem (s : State) (pa n : Nat) : Nat := leNat ((List.range n).map fun i => s.sysByte (pa + i))

/-- An access of a region is charged to the region with an id: to its own, and to those of the ancestors that have a budget
of their own (R363). -/
def State.chargedTo (s : State) (r : Region) (id : Nat) : Bool :=
  r.id.toNat == id || r.budgets.any fun b => s.sysMem b 2 == id

/-- A filter of a counter admits an event of a region, or of none. -/
def State.admits (s : State) (cfg : BitVec 64) (r : Option Region) : Bool :=
  let kind := bitsOf cfg 60 2
  let owner := bitsOf cfg 44 16
  if kind = 0 then true
  else
    match r with
    | none => false
    | some r =>
      if kind = 1 then s.chargedTo r owner
      else if kind = 2 then
        s.pkg.fnRoots.any (fun f => f.1 == owner && r.chain.any fun b => b.1 == f.2)
      else false

/-- The counter wraps: OVF, and with OVIE interrupt 0x83 to the context named, where its task's region matches. -/
def State.dieWrap (s : State) (i : Nat) : State :=
  let d := s.dctr i
  let s1 : State := { s with pkg := { s.pkg with
    dctrs := alSet s.pkg.dctrs i { d with cnt := BitVec.twoPow 64 63 ||| d.cnt } } }
  let x := 4 * bitsOf d.cfg 23 9 + bitsOf d.cfg 21 2
  let val := if i < 256 then 0x1000 + 0x100 * (i / 16) + i % 16 else 0x2000 + (i - 256)
  if d.cfg.getLsbD 62 then
    s1.modCtx x fun c =>
      if s.admits d.cfg (c.task.map (·.region)) then c.raiseIrq 0x83 (BitVec.ofNat 64 val) else c
  else s1

/-- `k` events counted by one counter if it counts them. -/
def State.countOne (s : State) (ev k : Nat) (r : Option Region) (i : Nat) : State :=
  let d := s.dctr i
  if d.cfg.getLsbD 63 && d.cfg.toNat % 2 ^ 16 == ev && s.admits d.cfg r then
    let v := d.cnt.toNat % 2 ^ 48 + k
    let cnt := (d.cnt &&& BitVec.twoPow 64 63) ||| BitVec.ofNat 64 (v % 2 ^ 48)
    let s1 : State := { s with pkg := { s.pkg with dctrs := alSet s.pkg.dctrs i { d with cnt := cnt } } }
    if 2 ^ 48 ≤ v then s1.dieWrap i else s1
  else s

/-- `k` events counted by the 16 counters from number `base` on. -/
def State.countDie (s : State) (base ev k : Nat) (r : Option Region) : State :=
  if s.pkg.dctrs.isEmpty then s else (List.range 16).foldl (fun t n => t.countOne ev k r (base + n)) s

/-- An event of a memory-side die, as a home. -/
def State.countHome (s : State) (home : Agent) (ev : Nat) (r : Option Region) : State :=
  match home with
  | .md m => s.countDie (16 * (8 + m.val)) ev 1 r
  | _ => s

/-- Events of a compute die's L2. -/
def State.countL2 (s : State) (who : Agent) (ev : Nat) (r : Option Region) (k : Nat := 1) : State :=
  match who with
  | .cd d => s.countDie (16 * d.val) ev k r
  | _ => s

/-- An event of a port die: PD1's counters for ports 8 to 15. -/
def State.countFab (s : State) (port : Option (Fin 16)) (ev : Nat) : State :=
  s.countDie (if port.any fun p => 8 ≤ p.val then 272 else 256) ev 1 none

/-- A counter of L2 hits or misses, or of HBM lines read or written: a free number of events, since no rule says which
access reaches which cache (R465; log entry 38). -/
def State.cacheOne (s : State) (r : Option Region) (i : Nat) : State :=
  let d := s.dctr i
  let ev := d.cfg.toNat % 2 ^ 16
  if (i < 128 ∧ (ev = 0x100 ∨ ev = 0x101)) ∨ (128 ≤ i ∧ i < 256 ∧ (ev = 0x200 ∨ ev = 0x201)) then
    s.countOne ev (Config.cacheEvents s.pkg.tick i d.cnt.toNat) r i
  else s

/-- The events of caches and of HBM that the accesses of a region may cause (log entry 38). -/
def State.cacheDies (s : State) (r : Option Region) : State :=
  (s.pkg.dctrs.map (·.1)).foldl (fun t i => t.cacheOne r i) s

/-! ## Charges to budgets (R363) -/

/-- The budgets that a block holds: 0 HBM, 1 fabric, 2 matrix (R343). -/
def State.blockBudgets (s : State) (b : Nat) : Nat × Nat × Nat × Nat :=
  (b, s.sysMem (b + 0x90) 8, s.sysMem (b + 0x98) 8, s.sysMem (b + 0xA0) 4)

/-- The amount of a kind in a block's entry: 0 HBM, 1 fabric, 2 matrix; 0 of a block that has none. -/
def amountOf (l : List (Nat × Nat × Nat × Nat)) (block kind : Nat) : Nat :=
  match l.find? (·.1 == block) with
  | some (_, h, f, m) => if kind = 0 then h else if kind = 1 then f else m
  | none => 0

/-- A region's budget as read for the period; 0 stands for no limit (R343, R345). -/
def State.budget (s : State) (block kind : Nat) : Nat := amountOf s.pkg.budgets block kind

/-- What a region has used this period. -/
def State.usedOf (s : State) (block kind : Nat) : Nat := amountOf s.pkg.used block kind

/-- What is carried over of a block's use after `gap` periods: the excess, up to one budget, into the next alone (R363). -/
def State.carried (s : State) (gap block kind : Nat) : Nat :=
  if gap = 1 then min (s.budget block kind) (s.usedOf block kind - s.budget block kind) else 0

/-- The package in the budget period that TIME lies in: where a new one has begun the excess is carried over, budgets are
read again and notices may be given again (R345, R363). -/
def State.rolled (s : State) : State :=
  let n := s.time / 10000
  if n = s.pkg.period then s
  else
    let gap := n - s.pkg.period
    let blocks := (s.sched.launches.flatMap fun l => l.region.budgets).eraseDups
    ({ s with pkg := { s.pkg with
      period := n
      used := s.pkg.used.map fun (u : Nat × Nat × Nat × Nat) =>
        (u.1, s.carried gap u.1 0, s.carried gap u.1 1, s.carried gap u.1 2)
      budgets := blocks.map s.blockBudgets } }.mapCtx fun _ c => { c with noticed := false }).mapSaved fun c =>
        { c with noticed := false }

/-- A region or an ancestor with a budget of its own has exhausted it (R363). -/
def State.exhausted (s : State) (r : Region) (kind : Nat) : Bool :=
  if r.budgets.isEmpty then false
  else
    let t := s.rolled
    r.budgets.any fun b => t.budget b kind != 0 && t.budget b kind ≤ t.usedOf b kind

/-- A charge to a region and to every ancestor with a budget of its own (R363). -/
def State.charge (s0 : State) (r : Region) (kind n : Nat) : State :=
  if r.budgets.isEmpty then s0
  else
    let s := s0.rolled
    { s with pkg := { s.pkg with used := r.budgets.foldl (fun (u : List (Nat × Nat × Nat × Nat)) b =>
      let e := (u.find? (·.1 == b)).getD (b, 0, 0, 0)
      let e' := if kind = 0 then (b, e.2.1 + n, e.2.2.1, e.2.2.2)
        else if kind = 1 then (b, e.2.1, e.2.2.1 + n, e.2.2.2)
        else (b, e.2.1, e.2.2.1, e.2.2.2 + n)
      e' :: u.filter fun d => d.1 != b) s.pkg.used } }

/-- 128 bytes charged for each HBM line that an access reaches (R363; log entry 15), with the events of caches. -/
def State.chargeLines (s : State) (r : Region) (lines : List Nat) : State :=
  if r.budgets.isEmpty then s.cacheDies (some r)
  else (s.cacheDies (some r)).charge r 0 (128 * (lines.eraseDups.filter fun l => s.place (l * 128) == .hbm).length)

/-- The scopes at which a publication is made: at core scope on a core, at pkg scope, at sys scope (R279). -/
structure Pub where
  core : Option Nat
  pkg : Bool
  sys : Bool

/-- A publication of an agent of a core at a scope alone, as a release makes it (R278). -/
def Pub.only (core : Nat) (scope : BitVec 2) : Pub := ⟨if scope = 0 then some core else none, scope == 1, scope == 2⟩

/-- A publication at a scope and every narrower one, as a PHASE makes it (R278). -/
def Pub.upTo (core : Nat) (scope : BitVec 2) : Pub := ⟨some core, 1 ≤ scope.toNat, scope == 2⟩

/-- Publications at pkg scope and at sys scope. -/
def Pub.atPkg : Pub := ⟨none, true, false⟩
def Pub.atSys : Pub := ⟨none, false, true⟩

/-- An older value whose replacement has been published. -/
def Stale.raise (e : Stale) (p : Pub) : Stale :=
  { e with
    cores := match p.core with
      | some n => if e.cores.contains n then e.cores else n :: e.cores
      | none => e.cores
    pkg := e.pkg || p.pkg
    sys := e.sys || p.sys }

/-- The older values left once some are replaced for good: none at or below one that is. -/
def dropStale (gone : Stale → Bool) : List Stale → List Stale
  | [] => []
  | e :: es =>
    let rest := dropStale gone es
    if gone e || es.any fun d => d.addr == e.addr && gone d then rest else e :: rest

/-- The older values of some bytes, with the writes that replaced them published (R278): `hit` names the entries. A value
is no longer the newest at sys scope once its replacement has been published there. -/
def State.raisePub (s : State) (p : Pub) (hit : Stale → Bool) : State :=
  { s with unsys := if p.sys then dropStale hit s.unsys else s.unsys }.mapCtx fun _ k =>
    if k.stale.isEmpty then k
    else { k with stale := k.stale.map fun e => if hit e then e.raise p else e }

/-- A store in a context's phase buffer whose bytes an earlier atomic of the context has still to write: it stays there, so
that the context's writes to them take place in its order (R277). -/
def Ctx.storeHeld (c : Ctx) (e : PStore) : Bool :=
  c.atomics.any fun a => a.seq < e.seq && a.pa ≤ e.addr && e.addr < a.pa + a.size

/-- The number by which the stores of a context to register windows and package control are known on their way. -/
def storeSrc (x : Nat) : Nat := 5000 + x

/-- The stores of a context up to a bundle can be performed, and those to register windows and to package control have landed
(R157, R299). -/
def State.canPublish (s : State) (x upTo : Nat) : Bool :=
  let c := s.ctx x
  let mine := fun (k : Nat × Nat) => k.1 == storeSrc x && k.2 ≤ upTo
  (c.atomics.isEmpty || !c.pbuf.any fun e => e.seq ≤ upTo && c.storeHeld e)
    && !s.wwrites.any (fun w => w.src.any mine) && !s.agenda.any fun e => e.2.src.any mine

/-- The register steps of the stores of a context or copy command to package control are still to be done. -/
def State.stepsOf (s : State) (src : Nat × Nat) : Bool := s.agenda.any fun e => e.2.src == some src

/-- A context's writes numbered up to `upTo`, and the writes of the engine commands `joined`, published (R278). -/
def State.publish (s : State) (x : Nat) (p : Pub) (upTo : Nat) (joined : List Nat) : State :=
  let c := s.ctx x
  let go := c.pbuf.filter fun e => e.seq ≤ upTo
  let s1 := (s.performAll x go).chargeLines c.region (go.map fun e => lineOf e.addr)
  let s2 := s1.modCtx x fun c => { c with pbuf := c.pbuf.filter fun e => upTo < e.seq }
  s2.raisePub p fun e => (e.src == x && e.seq ≤ upTo) || (e.src == 2000 + x && joined.contains e.seq)

/-- Every earlier write of a context, with those of the commands that it has joined, published. -/
def State.publishAll (s : State) (x : Nat) (p : Pub) : State := s.publish x p (s.ctx x).seq (s.ctx x).joined

/-- An older value is replaced for good by a refresh at a scope: the write that replaced it was published there, within
the refreshing context's reach (R279, R280). -/
def Stale.seen (e : Stale) (x : Nat) (scope : BitVec 2) : Bool :=
  if scope = 0 then e.cores.contains (coreOf x) else if scope = 1 then e.pkg else e.sys

/-- Context x once it reads no value older than some writes. A value that a view of its scratchpad might still return is
older than a write of another agent to the byte: the context's own later writes end such an entry (R141, R280). -/
def Ctx.forget (c : Ctx) (x : Nat) (gone : Stale → Bool) : Ctx :=
  if c.stale.isEmpty then c
  else
    { c with
      stale := dropStale gone c.stale
      unjoined := c.unjoined.filter fun u => !c.stale.any fun e => e.addr == scratchAddr (coreOf x) u.off && gone e }

/-- A refresh at a scope (R280). -/
def State.refresh (s : State) (x : Nat) (scope : BitVec 2) : State := s.modCtx x fun c => c.forget x fun e => e.seen x scope

/-- A release at a location synchronises with an acquire there by a context at a scope: each lies within the other's
scope (R281). -/
def Rel.meets (r : Rel) (x : Nat) (scope : BitVec 2) : Bool :=
  (r.scope != 0 || r.core == coreOf x) && (scope != 0 || r.core == coreOf x)

/-- A write that a release covers. -/
def Rel.covers (r : Rel) (e : Stale) : Bool := (e.src == r.src && e.seq ≤ r.upTo) || (e.src == r.eng && r.joined.contains e.seq)

/-- An acquire of a context at a scope has read some bytes: it sees what the releases there that synchronise with it cover
(R281), and refreshes (R280). -/
def State.acquireAt (s : State) (x pa n : Nat) (scope : BitVec 2) : State :=
  let rs := s.rels.filter fun r => r.readBy pa n && r.meets x scope
  (s.modCtx x fun c => if rs.isEmpty then c else c.forget x fun e => rs.any fun r => r.covers e).refresh x scope

/-- The core of an agent that belongs to none: a port die, the command processor (R279). -/
def noCore : Nat := 320

/-- The write of a release stands at its location (R281). -/
def State.release (s : State) (r : Rel) : State := { s with rels := s.rels ++ [r] }

/-- The stores of a context up to a bundle to some bytes performed, before an atomic or an engine write to them
(R262, R286). -/
def State.performOwn (s : State) (x pa n upTo : Nat) : State :=
  let hit := fun (e : PStore) => pa ≤ e.addr && e.addr < pa + n && e.seq ≤ upTo
  let c := s.ctx x
  if c.pbuf.any hit then
    (s.performAll x (c.pbuf.filter hit)).modCtx x fun c => { c with pbuf := c.pbuf.filter fun e => !hit e }
  else s

/-- Bytes written at once by an agent with no phase buffer: an atomic, the host, the command processor. -/
def State.performBytes (s : State) (own : Option Nat) (src seq : Nat) (pa : Nat) (bytes : List Byte) (rmw : Bool := false) :
    State :=
  match bytes with
  | [] => s
  | b :: bs => (s.perform own src seq pa b rmw).performBytes own src seq (pa + 1) bs rmw

/-- A context has seen the newest value of some bytes: it reads no older one (R277). -/
def State.caughtUp (s : State) (x pa n : Nat) : State :=
  s.modCtx x fun c => c.forget x fun e => pa ≤ e.addr && e.addr < pa + n

/-- The writes to some bytes by a source published, those numbered `seq`. -/
def State.pubBytes (s : State) (pa n src seq : Nat) (p : Pub) : State :=
  s.raisePub p fun e => pa ≤ e.addr && e.addr < pa + n && e.src == src && e.seq == seq

/-- A write published at once, by an agent that is no context (R283, R348, R412); `seq` tells its writes apart, and `rmw`
that it is part of an atomic read-modify-write. -/
def State.agentWrite (s : State) (p : Pub) (seq pa : Nat) (bytes : List Byte) (rmw : Bool := false) : State :=
  (s.performBytes none 4000 seq pa bytes rmw).pubBytes pa bytes.length 4000 seq p

/-- A write by the host or the command processor, published at sys scope when it completes (R283). -/
def State.hostWrite (s : State) (pa : Nat) (bytes : List Byte) : State := s.agentWrite Pub.atSys 0 pa bytes

/-- A write into a core window beyond its scratchpad waits for a boundary of its target as 32-byte pieces (R158). -/
def windowPieces (base : Nat) (whole src : Option (Nat × Nat)) : Nat → List Byte → List WinWrite
  | _, [] => []
  | off, b :: bs =>
    let x := base + (off - 0x200000) / 0x40000
    match windowPieces base whole src (off + 1) bs with
    | w :: rest => if w.off = off + 1 ∧ w.off % 32 ≠ 0 then { w with off := off, bytes := b :: w.bytes } :: rest
      else ⟨x, off, [b], whole, src⟩ :: w :: rest
    | [] => [⟨x, off, [b], whole, src⟩]

/-- Pieces of one copy command or store joined where they stand side by side in an aligned 32 bytes, so that those land together. -/
def joinPieces (old new : List WinWrite) : List WinWrite :=
  match old.getLast?, new with
  | some w, v :: rest =>
    if w.src.isSome ∧ w.src = v.src ∧ w.x = v.x ∧ w.off + w.bytes.length = v.off ∧ v.off % 32 ≠ 0 then
      old.dropLast ++ { w with bytes := w.bytes ++ v.bytes } :: rest
    else old ++ new
  | _, _ => old ++ new

/-- Bytes written at a window offset beyond the scratchpad. -/
def State.windowStore (s : State) (core off : Nat) (bytes : List Byte) (whole : Option (Nat × Nat) := none)
    (src : Option (Nat × Nat) := none) : State :=
  if isRegWindow off then
    { s with wwrites := joinPieces s.wwrites (windowPieces (4 * core) whole src off bytes) }
  else s

/-- Global bytes that a slot stores: plain memory through the phase buffer, a core window's registers and package
control at their target (R142, R157, R278). -/
def State.slotStore (s : State) (pa : Nat) (bytes : List Byte) : State :=
  let buffered := { s with c := { s.c with
    pbuf := s.c.pbuf ++ (bytes.zipIdx.map fun e => ⟨pa + e.2, e.1, s.c.seq⟩) } }
  match s.place pa with
  | .pctl off => s.pctlStore off bytes (some s.c.region.block) (some (storeSrc s.id, s.c.seq))
  | .window n off => if off < 0x200000 then buffered else s.windowStore n off bytes none (some (storeSrc s.id, s.c.seq))
  | _ => buffered

/-- A store of the context through its own window to a scratchpad byte, buffered and earlier than a local store to the
byte, is performed before that (R277). -/
def State.drainByte (s : State) (off : Nat) : State :=
  let pa := scratchAddr (coreOf s.id) off
  match pbufGet s.c.pbuf pa with
  | none => s
  | some _ =>
    let s1 := s.performAll s.id (s.c.pbuf.filter fun e => e.addr == pa)
    { s1 with c := { s1.c with pbuf := s1.c.pbuf.filter fun e => e.addr != pa } }

/-- A scratchpad byte that a slot stores through a view (R141). -/
def State.scratchStore1 (s0 : State) (swz : Bool) (off : Nat) (b : Byte) : State :=
  let s := if s0.c.pbuf.isEmpty then s0 else s0.drainByte off
  let pa := scratchAddr (coreOf s.id) off
  let old := memGet s.mem pa
  let s1 := s.perform (some s.id) s.id s.c.seq pa b
  { s1 with c := { s1.c with unjoined := viewWrite s1.c.unjoined swz off old b } }

/-- Scratchpad bytes that a slot stores. -/
def State.scratchStore (s : State) (swz : Bool) (off : Nat) : List Byte → State
  | [] => s
  | b :: bs => (s.scratchStore1 swz off b).scratchStore swz (off + 1) bs

/-- The bytes of a span cut where an address is a multiple of 32, each piece with its address: a piece lies in one page, and
lands at one boundary of a core window (R158). -/
def cut32 : Nat → List Byte → List (Nat × List Byte)
  | _, [] => []
  | va, b :: bs =>
    match cut32 (va + 1) bs with
    | (a, r) :: rest => if (va + 1) % 32 ≠ 0 then (va, b :: r) :: rest else (va, [b]) :: (a, r) :: rest
    | [] => [(va, [b])]

/-- The command at the head of a context's queue changed. -/
def State.modHead (s : State) (x : Nat) (f : Cmd → Cmd) : State :=
  s.modCtx x fun c => { c with queue := match c.queue with
    | [] => []
    | q :: rest => f q :: rest }

/-! ## Checks of an access -/

/-- The addresses of a span at which a translation is made: its first byte and each page start within it. -/
def spanProbes (va n : Nat) : List Nat :=
  va % 2 ^ 48 :: ((List.range n).drop 1).filterMap fun i =>
    if (va + i) % 4096 = 0 then some ((va + i) % 2 ^ 48) else none

/-- A virtual address translates to a place in package control, whose grant is by register. -/
def State.inPctl (s : State) (via : Option Nat) (r : Region) (sup : Bool) (acc : Access) (va : Nat) : Bool :=
  match s.tlbFor via r va with
  | .ok t => match s.place ((t.pfn + (va / 4096 - t.vpn)) * 4096 + va % 4096) with
    | .pctl _ => t.allows acc sup
    | _ => false
  | .error _ => false

/-- The first fault of an access to `n` bytes from a virtual address, in order: a translation cause (R145), or 0x0A for
a register-window access that is not in whole aligned containers (R157), or 0x0D for a store to the bundle store (R32). -/
def State.checkSpan (s : State) (via : Option Nat) (r : Region) (sup : Bool) (acc : Access) (va n : Nat) :
    Option (BitVec 8 × Nat) :=
  let whole := (spanProbes va n).any (s.inPctl via r sup acc)
  let probes := bif whole then (List.range (max n 1)).map (fun i => (va + i) % 2 ^ 48) else spanProbes va n
  probes.findSome? fun a =>
    match s.translate via r a acc sup with
    | .error c => some (c, a)
    | .ok pa =>
      match s.place pa with
      | .window _ off =>
        if isRegWindow off && (va % 4 ≠ 0 || n % 4 ≠ 0) then some (0x0A, va % 2 ^ 48)
        else if acc == .write && 0x400000 ≤ off && off < 0x440000 then some (0x0D, a)
        else none
      | _ => none

/-- The physical address of a virtual one that the checks have passed. -/
def State.paOf (s : State) (via : Option Nat) (r : Region) (va : Nat) (acc : Access) (sup : Bool) : Nat :=
  match s.translate via r (va % 2 ^ 48) acc sup with
  | .ok pa => pa
  | .error _ => 0

/-- The TLBs of a core after an access to a span. -/
def State.fillSpan (s : State) (via : Option Nat) (r : Region) (va n : Nat) : State :=
  (spanProbes va n).foldl (fun t a => t.fill via r a) s

/-- The first poisoned line of some physical bytes, as its address. -/
def State.poisonIn (s : State) (pa n : Nat) : Option (BitVec 64) :=
  if s.tok.poison.isEmpty then none
  else (List.range n).findSome? fun i =>
    if s.poisoned (lineOf (pa + i)) then some (BitVec.ofNat 64 (lineOf (pa + i) * 128)) else none

/-- An agent needs tokens for its reads and writes only once coherence runs (R445, stage 4). -/
def State.coherent (s : State) : Bool := s.fullOn

/-- The lines that the die's L2 reads to translate an address which no TLB holds: those of the walk's entries (R142,
R300). -/
def State.walkLines (s : State) (via : Option Nat) (r : Region) (va : Nat) : List Nat :=
  if (s.tlbHit via r va).isSome then [] else (s.walkReads va 4 0 r.ptroot).map lineOf

/-- The lines of the walks that an access to a span makes. -/
def State.spanWalks (s : State) (via : Option Nat) (r : Region) (va n : Nat) : List Nat :=
  (spanProbes va n).flatMap (s.walkLines via r)

/-- The lines of the bytes of a span that translate. -/
def State.byteLines (s : State) (via : Option Nat) (r : Region) (sup : Bool) (acc : Access) (va n : Nat) : List Nat :=
  (List.range n).filterMap fun i =>
    if i = 0 ∨ (va + i) % 128 = 0 then
      match s.translate via r ((va + i) % 2 ^ 48) acc sup with
      | .ok pa => some (lineOf pa)
      | .error _ => none
    else none

/-- The lines that an access to a span reaches: of its walks, then of its bytes. -/
def State.spanLines (s : State) (via : Option Nat) (r : Region) (sup : Bool) (acc : Access) (va n : Nat) : List Nat :=
  s.spanWalks via r va n ++ s.byteLines via r sup acc va n

/-- Bytes that an agent which is no context writes at a physical address, published: plain memory takes them at once, a
register of a core window or of package control as it takes a store, and an address that is not present takes none (R18,
R142, R157). -/
def State.placeWrite (s : State) (p : Pub) (pa : Nat) (bytes : List Byte) : State :=
  match s.place pa with
  | .pctl off => s.pctlStore off bytes none
  | .window n off => if off < 0x200000 then s.agentWrite p 0 pa bytes else s.windowStore n off bytes
  | .absent => s
  | _ => s.agentWrite p 0 pa bytes

/-- Bytes that such an agent writes to a span of virtual addresses which its checks have passed. -/
def State.spanWrite (s : State) (p : Pub) (via : Option Nat) (r : Region) (va : Nat) (bytes : List Byte) : State :=
  (cut32 va bytes).foldl (fun t e => t.placeWrite p (s.paOf via r e.1 .write true) e.2) s

/-! ## Error records (R359) -/

/-- The address of an error record of a context's task, at an offset of its error slot. -/
def Ctx.errAt (c : Ctx) (off : Nat) : Nat := (c.sys.errbase.toNat + off) % 2 ^ 48

/-- An error record of 32 bytes faults: it is written through the region's page tables as a supervisor write (R359). -/
def State.errBad (s : State) (x off : Nat) : Bool :=
  (s.checkSpan (some (coreOf x)) (s.ctx x).region true .write ((s.ctx x).errAt off) 32).isSome

/-- The lines that an error record is written to; none where it is dropped. -/
def State.errLines (s : State) (x off : Nat) : List Nat :=
  if s.errBad x off then []
  else s.byteLines (some (coreOf x)) (s.ctx x).region true .write ((s.ctx x).errAt off) 32

/-- The lines of the walks that an error record makes (R300). -/
def State.errWalks (s : State) (x off : Nat) : List Nat :=
  s.spanWalks (some (coreOf x)) (s.ctx x).region ((s.ctx x).errAt off) 32

/-- An error record written and published at pkg scope; dropped where it faults (R359). -/
def State.errWrite (s : State) (x off : Nat) (bytes : List Byte) : State × Bool :=
  if s.errBad x off then (s, false)
  else (s.spanWrite Pub.atPkg (some (coreOf x)) (s.ctx x).region ((s.ctx x).errAt off) bytes, true)

/-- The agent that caches for a core: the L2 of its die (R19). -/
def l2Of (core : Nat) : Agent := .cd (Fin.ofNat 8 (core / 40))

end Sys2Proof.Machine
end

