-- ==== Sys2Proof/Machine/Operands.lean ====
section
/-! DEFINITION. The operands of a syllable: what it reads, names and lands (R35-R43), record selection (R54, R75),
scratchpad words of an indirect table and the advance of a generator (R126-R131). -/

namespace Sys2Proof.Machine

open Sys2Proof

/-- IDIM, NDIM and MODE of a descriptor (R127). -/
def Gen.idim (g : Gen) : Nat := g.ctrl.toNat / 16 % 8
def Gen.ndim (g : Gen) : Nat := g.ctrl.toNat / 4 % 4
def Gen.mode (g : Gen) : Nat := g.ctrl.toNat % 4

/-- The latency of an advance: 6 with an indirect dimension, else 1 (R131). -/
def Gen.lat (g : Gen) : Nat := if g.idim ≤ 3 then 6 else 1

/-- The signed PITCH of a descriptor (R126). -/
def Gen.pitchInt (g : Gen) : Int := g.pitch.toInt

/-- Rows and columns that are active. -/
def Tile.nrows (t : Tile) : Nat := t.rows.val + 1
def Tile.ncols (t : Tile) : Nat := t.cols.val + 1

/-- The address of row `i` of a tile access, modulo 2^64 (R150). -/
def rowAddr (base : Word) (pitch : Int) (i : Nat) : Nat := (base + BitVec.ofInt 64 (pitch * i)).toNat

/-- Bytes of a row of `cols` elements of width `w`. -/
def rowLen (cols w : Nat) : Nat := (cols * w + 7) / 8

/-- The bytes of an access: 1, 2, 4 or 8 (R134). -/
def amemBytes (m : AMem) : Nat := 2 ^ m.width.toNat

/-- The effective address of a scalar access (R134). -/
def Regs.ea (r : Regs) (m : AMem) : Word := r.a.get m.a + m.off.signExtend 64 * BitVec.ofNat 64 (amemBytes m)

/-- Bytes of a size code of an atomic. -/
def sizeBytes (size : BitVec 2) : Nat := if size = 0 then 4 else 8

end Sys2Proof.Machine

namespace Sys2Proof

open Sys2Proof.Machine

/-! ## What a syllable reads (R121, R369) -/

/-- A register read as a source: its kind and number, as TVAL of cause 0x04 codes them (R369). -/
inductive Src where
  | s (r : SReg)
  | a (r : AReg)
  | p (r : PReg)
  | t (r : TReg)
  | k (r : KReg)
  | ag (r : AReg)
  | xp (n : Fin 4)
  | lv (r : LvReg)
  | c (r : CReg)
  | tree
deriving DecidableEq, Repr

/-- The kind and number of R369. -/
def Src.code : Src → Nat × Nat
  | .s r => (0, r.val) | .a r => (1, r.val) | .p r => (2, r.val) | .t r => (3, r.val) | .k r => (4, r.val)
  | .ag r => (5, r.val) | .xp n => (6, n.val) | .lv r => (7, r.val) | .c r => (8, r.val) | .tree => (9, 0)

/-- A combined target as a source. -/
def xSrc : XReg → Src
  | .t r => .t r
  | .c r => .c r

/-- An address register with its descriptor. -/
def aSrc (r : AReg) : List Src := [.a r, .ag r]

/-- The address operand of an A-slot access. -/
def AMem.srcs (m : AMem) : List Src := if m.post then aSrc m.a else [.a m.a]

/-- No guard. -/
def Guard.always : Guard := ⟨0, false⟩

/-- The guard of a syllable (R47); of the forms with none, one that is always true. -/
def Instr.guard (i : Instr) : Guard :=
  match i with
  | .add _ _ _ g | .sub _ _ _ g | .mul _ _ _ g | .mulh _ _ _ g | .mulhn _ _ _ g | .div _ _ _ g | .divn _ _ _ g
  | .rem _ _ _ g | .remn _ _ _ g | .and _ _ _ g | .or _ _ _ g | .xor _ _ _ g | .shl _ _ _ g | .shr _ _ _ g
  | .sra _ _ _ g | .min _ _ _ g | .max _ _ _ g | .minn _ _ _ g | .maxn _ _ _ g | .clz _ _ g | .popc _ _ g
  | .cmpeq _ _ _ g _ | .cmplt _ _ _ g _ | .cmpltn _ _ _ g _ | .pand _ _ _ g _ _ | .por _ _ _ g _ _
  | .pxor _ _ _ g _ _ | .pmov _ _ g _ | .fadd _ _ _ g _ | .fsub _ _ _ g _ | .fmul _ _ _ g _ | .ffma _ _ _ g _
  | .fmin _ _ _ g | .fmax _ _ _ g | .fcvti _ _ g _ | .fcvtf _ _ g _ | .fcmp _ _ _ g _ | .fcvtb _ _ g _
  | .movli _ _ g | .dchk _ _ g | .amov _ _ g | .aadd _ _ _ g | .ainc _ _ g | .agset _ _ _ g | .agrd _ _ _ g
  | .aidx _ _ _ g | .ard _ _ g | .spill _ _ g _ | .fill _ _ g => g
  | .br g _ => g
  | .ld _ m _ | .st m _ | .pref m => m.g
  | .tld _ m | .tst _ m _ | .tldl _ m _ | .tstl _ m _ _ => m.g
  | .tadd _ _ _ v | .tsub _ _ _ v | .tmul _ _ _ v | .tmax _ _ _ v | .tmin _ _ _ v
  | .tiadd _ _ _ v | .tisub _ _ _ v | .timul _ _ _ v | .tand _ _ _ v | .tor _ _ _ v | .txor _ _ _ v
  | .tshl _ _ _ v | .tshr _ _ _ v | .timax _ _ _ v | .timin _ _ _ v | .tsel _ _ _ v | .tcmp _ _ _ _ v
  | .tfma _ _ _ _ v | .tabs _ _ v | .tneg _ _ v | .tcvt _ _ v | .tmov _ _ v
  | .tadds _ _ _ v | .tmuls _ _ _ v | .tfmas _ _ _ v | .tfill _ _ v | .tfilli _ _ v | .tiota _ _ _ v
  | .rrot _ _ _ _ v | .crot _ _ _ _ v | .rbc _ _ _ _ v | .cbc _ _ _ _ v | .rred _ _ _ v | .cred _ _ _ v
  | .rscan _ _ _ v
  | .fexp2 _ _ v | .flog2 _ _ v | .frcp _ _ v | .frsqrt _ _ v | .fsqrt _ _ v | .ftanh _ _ v | .fsigm _ _ v
  | .fexp _ _ v | .fsin _ _ v | .fcos _ _ v => ⟨v.p, false⟩
  | .tshape _ _ _ _ p | .rowmov _ _ _ _ _ p | .tget _ _ _ _ _ p | .tset _ _ _ _ _ p | .tchk _ _ _ p
  | .treeclr p | .treeset _ _ p | .treeadd _ _ p | .treemask _ _ p | .treebias _ _ p | .treepos _ _ _ p
  | .treeprune _ _ _ p | .treerd _ _ _ p
  | .mlds _ p | .mldsl _ p | .mswap p | .mmul _ _ _ _ _ p | .mmac _ _ _ _ _ p | .mmull _ _ _ _ p
  | .mmacl _ _ _ _ p | .mmact _ _ _ _ _ p | .mzero _ p | .mrd _ _ _ p | .mwr _ _ _ p | .mstat _ p => ⟨p, false⟩
  | _ => Guard.always

/-- A V or F syllable with a mask: the mask read. -/
def VCtl.srcs (v : VCtl) : List Src := if v.k = 0 then [] else [.k v.k]

/-- The accumulators that the repeats of an accumulating product read (R214, R218): their numbers come again after at most
eight. -/
def accSrcs (d : CReg) (r : Rep) : List Src :=
  (List.range (min 8 (r.rep.toNat + 1))).map fun k => .c (Fin.ofNat 8 (d.val + k * r.inc.toNat))

/-- What a syllable reads at issue, its guard apart, within one slot in the order in which a fault reports it (log entry
10): its fields in the order tiles, then scalars, addresses, predicates, masks and the rest. -/
def Instr.reads (i : Instr) : List Src :=
  match i with
  | .bri s | .loopReg s _ | .syswr s _ | .trace s _ => [.s s]
  | .ret => [.s 62]
  | .add _ a b _ | .sub _ a b _ | .mul _ a b _ | .mulh _ a b _ | .mulhn _ a b _ | .div _ a b _ | .divn _ a b _
  | .rem _ a b _ | .remn _ a b _ | .and _ a b _ | .or _ a b _ | .xor _ a b _ | .shl _ a b _ | .shr _ a b _
  | .sra _ a b _ | .min _ a b _ | .max _ a b _ | .minn _ a b _ | .maxn _ a b _
  | .cmpeq _ a b _ _ | .cmplt _ a b _ _ | .cmpltn _ a b _ _
  | .fadd _ a b _ _ | .fsub _ a b _ _ | .fmul _ a b _ _ | .fmin _ a b _ | .fmax _ a b _ | .fcmp _ a b _ _
  | .dchk a b _ => [.s a, .s b]
  | .ffma d a b _ _ => [.s a, .s b, .s d]
  | .clz _ a _ | .popc _ a _ | .addi _ a _ | .andi _ a _ | .ori _ a _ | .xori _ a _ | .shli _ a _ | .shri _ a _
  | .srai _ a _ | .muli _ a _ | .fcvti _ a _ _ | .fcvtf _ a _ _ | .fcvtb _ a _ _ => [.s a]
  | .movk d _ _ => [.s d]
  | .sel _ a b g => [.s a, .s b] ++ (if g.p = 0 then [] else [.p g.p])
  | .pand _ a b _ _ _ | .por _ a b _ _ _ | .pxor _ a b _ _ _ => [.p a, .p b]
  | .pmov _ a _ _ => [.p a]
  | .amov _ a _ | .ard _ a _ => [.a a]
  | .aadd _ a s _ => [.s s, .a a]
  | .aaddi a _ => [.a a]
  | .ainc _ a _ => aSrc a
  | .agset _ s _ _ => [.s s]
  | .agrd _ a f _ => if f = 0 then [.a a] else [.ag a]
  | .aidx _ a s _ => [.s s] ++ aSrc a
  | .ld _ m _ | .pref m => m.srcs
  | .st m s => .s s :: m.srcs
  | .tld _ m | .tldl _ m _ => aSrc m.a
  | .tst t m _ | .tstl t m _ _ => .t t :: aSrc m.a
  | .spill x _ _ _ => [xSrc x]
  | .copy o _ | .copyg o _ | .copya o _ | .send o _ | .sendt o _ =>
    [.s o.tok, .s o.len] ++ (aSrc o.dst ++ aSrc o.src)
  | .amo d a s op _ _ _ => [.s s] ++ (if op = 9 then [.s d] else []) ++ [.a a]
  | .waitm _ a s _ _ _ => [.s s, .a a]
  | .qpost s _ | .rxset s _ | .rpost s _ _ => [.s s]
  | .evsig a _ | .evwait a _ => [.a a]
  | .tadd _ a b v | .tsub _ a b v | .tmul _ a b v | .tmax _ a b v | .tmin _ a b v
  | .tiadd _ a b v | .tisub _ a b v | .timul _ a b v | .tand _ a b v | .tor _ a b v | .txor _ a b v
  | .tshl _ a b v | .tshr _ a b v | .timax _ a b v | .timin _ a b v | .tsel _ a b v | .tcmp _ a b _ v =>
    [.t a.t, .t b.t] ++ v.srcs
  | .tfma _ a b c v => [.t a.t, .t b.t, .t c.t] ++ v.srcs
  | .tabs _ a v | .tneg _ a v | .tcvt _ a v | .tmov _ a v | .rred _ a _ v | .cred _ a _ v | .rscan _ a _ v
  | .fexp2 _ a v | .flog2 _ a v | .frcp _ a v | .frsqrt _ a v | .fsqrt _ a v | .ftanh _ a v | .fsigm _ a v
  | .fexp _ a v | .fsin _ a v | .fcos _ a v => .t a.t :: v.srcs
  | .tadds _ a s v | .tmuls _ a s v | .rrot _ a s _ v | .crot _ a s _ v | .rbc _ a s _ v | .cbc _ a s _ v =>
    [.t a.t, .s s] ++ v.srcs
  | .tfmas d a s v => [.t a.t, .t d, .s s] ++ v.srcs
  | .tfill _ s v => .s s :: v.srcs
  | .tfilli _ _ v | .tiota _ _ _ v => v.srcs
  | .rowmov _ _ a _ _ _ | .tget _ a _ _ _ _ => [.t a.t]
  | .tset _ _ _ s _ _ => [.s s]
  | .tchk a b _ _ => [.t a.t, .t b.t]
  | .tlat x _ _ _ _ _ _ _ | .tlatc x _ | .tdev x _ _ | .tlatq _ x _ => [xSrc x]
  | .lvacc x _ lv _ extend => xSrc x :: (if extend then [.lv lv] else [])
  | .lvclose lv s scale => (if scale then [.s s] else []) ++ [.lv lv]
  | .lvmovToVector _ x _ _ => [xSrc x]
  | .lvmovToRow _ _ lv => [.lv lv]
  | .lvset _ s _ => [.s s]
  | .treeclr _ | .treemask _ _ _ | .treebias _ _ _ | .treerd _ _ _ _ => [.tree]
  | .treeset a _ _ => [.t a.t, .tree]
  | .treeadd s _ _ | .treepos _ s _ _ | .treeprune _ s _ _ => [.s s, .tree]
  | .xperm _ a n => [.t a.t, .xp n]
  | .xpld _ a _ | .xshuf _ a _ _ | .xbrev _ a | .xtrn _ a => [.t a.t]
  | .mlds a _ => (List.range 4).map fun i => .t (Fin.ofNat 32 (a.t.val + i))
  | .mldsl a _ => aSrc a
  | .mmul _ a _ _ r _ => .t a.t :: (if r.rep = 0 then [] else aSrc r.a)
  | .mmac d a _ _ r _ | .mmact d a _ _ r _ => .t a.t :: ((if r.rep = 0 then [] else aSrc r.a) ++ accSrcs d r)
  | .mmull _ _ _ r _ => aSrc r.a
  | .mmacl d _ _ r _ => aSrc r.a ++ accSrcs d r
  | .mrd _ c _ _ => [.c c]
  | .mwr _ a _ _ => [.t a.t]
  | _ => []

/-- A syllable's sources with its guard; s0, p0 and k0 are never read early (R92, R93, R168). -/
def Instr.sources (i : Instr) : List Src :=
  (i.reads ++ if i.guard.p = 0 then [] else [Src.p i.guard.p]).filter fun r =>
    r != Src.s 0 && r != Src.p 0 && r != Src.k 0

/-- The tile that a syllable writes or changes, by its td or target field. -/
def Instr.target (i : Instr) : Option XReg :=
  match i with
  | .tld t _ | .tldl t _ _ => some (.t t)
  | .fill x _ _ | .spill x _ _ _ => some x
  | .tadd d _ _ _ | .tsub d _ _ _ | .tmul d _ _ _ | .tmax d _ _ _ | .tmin d _ _ _
  | .tiadd d _ _ _ | .tisub d _ _ _ | .timul d _ _ _ | .tand d _ _ _ | .tor d _ _ _ | .txor d _ _ _
  | .tshl d _ _ _ | .tshr d _ _ _ | .timax d _ _ _ | .timin d _ _ _ | .tsel d _ _ _
  | .tfma d _ _ _ _ | .tabs d _ _ | .tneg d _ _ | .tcvt d _ _ | .tmov d _ _
  | .tadds d _ _ _ | .tmuls d _ _ _ | .tfmas d _ _ _ | .tfill d _ _ | .tfilli d _ _ | .tiota d _ _ _
  | .rrot d _ _ _ _ | .crot d _ _ _ _ | .rbc d _ _ _ _ | .cbc d _ _ _ _ | .rred d _ _ _ | .cred d _ _ _
  | .rscan d _ _ _ | .tshape d _ _ _ _ | .rowmov d _ _ _ _ _ | .tset d _ _ _ _ _
  | .fexp2 d _ _ | .flog2 d _ _ | .frcp d _ _ | .frsqrt d _ _ | .fsqrt d _ _ | .ftanh d _ _ | .fsigm d _ _
  | .fexp d _ _ | .fsin d _ _ | .fcos d _ _ | .treebias d _ _ | .treepos d _ _ _ | .treeprune d _ _ _
  | .xperm d _ _ | .xshuf d _ _ _ | .xbrev d _ | .xtrn d _ | .mrd d _ _ _ | .mstat d _ => some (.t d)
  | .tlat x _ _ _ _ _ _ _ | .tlatc x _ | .tdev x _ _ | .lvacc x _ _ _ _ | .lvmovToVector _ x _ _
  | .lvmovToRow x _ _ | .tlatq _ x _ => some x
  | _ => none

/-- The tiles that a syllable names, sources first (R167). -/
def Instr.tiles (i : Instr) : List TReg :=
  let src := i.reads.filterMap fun r => match r with
    | .t x => some x
    | _ => none
  src ++ (match i.target with
    | some (.t x) => [x]
    | _ => [])

/-- The tiles and accumulators whose BUSY holds the bundle when the guard is true (R165, R217, R230): the tiles read; of
the V and M slots also the accumulators read or written and the targets of the latent group. -/
def Instr.busyOn (i : Instr) : List XReg :=
  let src := i.reads.filterMap fun r => match r with
    | .t x => some (XReg.t x)
    | _ => none
  src ++ (match i with
    | .tlat x _ _ _ _ _ _ _ | .tlatc x _ | .tdev x _ _ | .lvacc x _ _ _ _ | .lvmovToVector _ x _ _
    | .lvmovToRow x _ _ | .tlatq _ x _ | .spill x _ _ _ => [x]
    | .fill (.c r) _ _ => [.c r]
    | _ => [])

/-- The scalar registers for which a bundle waits when the guard is true: those read, a command's token among them
(R253, R259). -/
def Instr.scalarsOn (i : Instr) : List SReg :=
  i.reads.filterMap fun r => match r with
    | .s x => some x
    | _ => none

/-- The scalar registers that it waits for where its sources come from the held set: a command's token (R259, R372). -/
def Instr.tokensOn (i : Instr) : List SReg :=
  match i with
  | .copy o _ | .copyg o _ | .copya o _ | .send o _ | .sendt o _ => [o.tok]
  | _ => []

/-- The tiles and accumulators that it writes and waits for where its sources come from the held set (R217, R230, R372). -/
def Instr.busyHeld (i : Instr) : List XReg :=
  match i with
  | .tlat x _ _ _ _ _ _ _ | .tlatc x _ | .tdev x _ _ | .lvmovToRow x _ _ => [x]
  | .fill (.c r) _ _ => [.c r]
  | _ => []

/-- An ordered syllable (R275). -/
def Instr.ordered (i : Instr) : Bool :=
  match i with
  | .ld _ _ _ | .st _ _ | .tld _ _ | .tst _ _ _ | .tldl _ _ _ | .tstl _ _ _ _ | .copy _ _ | .copyg _ _ | .copya _ _
  | .amo _ _ _ _ _ _ _ | .waitm _ _ _ _ _ _ | .evsig _ _ | .evwait _ _ | .phase _ | .qpost _ _ | .send _ _
  | .sendt _ _ | .rpost _ _ _ | .fbar _ | .mldsl _ _ | .mmull _ _ _ _ _ | .mmacl _ _ _ _ _ => true
  | .mmul _ _ _ _ r _ | .mmac _ _ _ _ r _ | .mmact _ _ _ _ r _ => r.rep != 0
  | _ => false

/-- A scratchpad access that a VJOIN in force holds (R285), with the address registers as read. -/
def Instr.scratch (i : Instr) (r : Regs) : Bool :=
  match i with
  | .ld _ m _ | .st m _ => m.loc
  | .tldl _ _ _ | .tstl _ _ _ _ | .mldsl _ _ | .mmull _ _ _ _ _ | .mmacl _ _ _ _ _ => true
  | .mmul _ _ _ _ q _ | .mmac _ _ _ _ q _ | .mmact _ _ _ _ q _ => q.rep != 0
  | .copy o _ | .copyg o _ | .copya o _ => (r.a.get o.dst).getLsbD 63 || (r.a.get o.src).getLsbD 63
  | .send o _ | .sendt o _ => (r.a.get o.src).getLsbD 63
  | _ => false

/-- A syllable that reaches global memory or starts an engine command: what an exhausted HBM budget holds (R363). -/
def Instr.global (i : Instr) : Bool :=
  match i with
  | .ld _ m _ | .st m _ => !m.loc
  | .tldl _ _ _ | .tstl _ _ _ _ => false
  | .mldsl _ _ | .mmull _ _ _ _ _ | .mmacl _ _ _ _ _ | .mmul _ _ _ _ _ _ | .mmac _ _ _ _ _ _ | .mmact _ _ _ _ _ _ => false
  | .phase _ => false
  | _ => i.ordered

/-! ## What a syllable lands -/

/-- The landing of an advance. -/
def advLand (r : Regs) (a : AReg) : List (Nat × Bool) := [((r.ag.get a).lat, false)]

/-- A scalar result's landing; a write to s0 does not land (R92). -/
def sLand (d : SReg) (lat : Nat) : List (Nat × Bool) := if d = 0 then [] else [(lat, false)]

/-- A predicate result's landing. -/
def pLand (d : PReg) : List (Nat × Bool) := if d = 0 then [] else [(1, false)]

/-- A result of a combined target: a tile counts under R41. -/
def xLand (x : XReg) (lat : Nat) : List (Nat × Bool) :=
  match x with
  | .t _ => [(lat, true)]
  | .c _ => [(lat, false)]

/-- The exposed results of a syllable: the latency of each, and whether it counts as a tile result (R41). -/
def Instr.lands (i : Instr) (r : Regs) : List (Nat × Bool) :=
  match i with
  | .call _ | .fmtbase _ => [(1, false)]
  | .sysrd s _ => sLand s 1
  | .syswr _ _ => [(1, false)]
  | .add d _ _ _ | .sub d _ _ _ | .and d _ _ _ | .or d _ _ _ | .xor d _ _ _ | .shl d _ _ _ | .shr d _ _ _
  | .sra d _ _ _ | .min d _ _ _ | .max d _ _ _ | .minn d _ _ _ | .maxn d _ _ _ | .sel d _ _ _
  | .clz d _ _ | .popc d _ _ | .addi d _ _ | .andi d _ _ | .ori d _ _ | .xori d _ _ | .shli d _ _ | .shri d _ _
  | .srai d _ _ | .movi d _ | .movk d _ _ | .movli d _ _ => sLand d 1
  | .mul d _ _ _ | .mulh d _ _ _ | .mulhn d _ _ _ | .muli d _ _ => sLand d 3
  | .div d _ _ _ | .divn d _ _ _ | .rem d _ _ _ | .remn d _ _ _ => sLand d 12
  | .cmpeq pd _ _ _ _ | .cmplt pd _ _ _ _ | .cmpltn pd _ _ _ _ | .pand pd _ _ _ _ _ | .por pd _ _ _ _ _
  | .pxor pd _ _ _ _ _ | .pmov pd _ _ _ => pLand pd
  | .fadd d _ _ _ _ | .fsub d _ _ _ _ | .fmul d _ _ _ _ | .ffma d _ _ _ _ | .fmin d _ _ _ | .fmax d _ _ _
  | .fcmp d _ _ _ _ => sLand d 4
  | .fcvti d _ _ _ | .fcvtf d _ _ _ | .fcvtb d _ _ _ => sLand d 2
  | .amov _ _ _ | .aadd _ _ _ _ | .aaddi _ _ | .agset _ _ _ _ => [(1, false)]
  | .ainc _ a _ => advLand r a
  | .agrd s _ _ _ | .ard s _ _ => sLand s 1
  | .aidx _ _ _ _ => [(6, false)]
  | .ld s m _ => (if m.loc then sLand s 4 else []) ++ (if m.post then advLand r m.a else [])
  | .st m _ | .pref m => if m.post then advLand r m.a else []
  | .tld _ m | .tst _ m _ => if m.post then advLand r m.a else []
  | .tldl _ m _ => (6, true) :: (if m.post then advLand r m.a else [])
  | .tstl _ m _ _ => if m.post then advLand r m.a else []
  | .engq s => sLand s 1
  | .waitm d _ _ _ _ _ => sLand d 1
  | .tadd _ _ _ _ | .tsub _ _ _ _ | .tmul _ _ _ _ | .tmax _ _ _ _ | .tmin _ _ _ _ | .tfma _ _ _ _ _
  | .tadds _ _ _ _ | .tmuls _ _ _ _ | .tfmas _ _ _ _ | .tcvt _ _ _ => [(4, true)]
  | .tcmp _ _ _ _ _ => [(4, false)]
  | .tabs _ _ _ | .tneg _ _ _ | .tsel _ _ _ _ | .tiadd _ _ _ _ | .tisub _ _ _ _ | .timul _ _ _ _ | .tand _ _ _ _
  | .tor _ _ _ _ | .txor _ _ _ _ | .tshl _ _ _ _ | .tshr _ _ _ _ | .timax _ _ _ _ | .timin _ _ _ _ | .tmov _ _ _
  | .tfill _ _ _ | .tfilli _ _ _ | .tiota _ _ _ _ | .tshape _ _ _ _ _ | .rowmov _ _ _ _ _ _ | .tset _ _ _ _ _ _ =>
    [(2, true)]
  | .tget s _ _ _ _ _ => sLand s 2
  | .crot _ _ _ _ _ | .cbc _ _ _ _ _ | .cred _ _ _ _ => [(3, true)]
  | .rrot _ _ _ _ _ | .rbc _ _ _ _ _ | .rred _ _ _ _ | .rscan _ _ _ _ => [(6, true)]
  | .tlat _ _ _ _ _ _ _ _ | .tlatc _ _ | .lvacc _ _ _ _ _ | .lvclose _ _ _ | .lvmovToVector _ _ _ _
  | .lvset _ _ _ => [(2, false)]
  | .tlatq s _ _ => sLand s 2
  | .tdev x _ _ => xLand x 8
  | .lvmovToRow x _ _ => xLand x 2
  | .treeclr _ | .treeadd _ _ _ | .treemask _ _ _ => [(3, false)]
  | .treeset _ _ _ => [(4, false)]
  | .treebias _ _ _ => [(4, true)]
  | .treepos _ _ _ _ => [(3, true)]
  | .treeprune _ _ _ _ => [(6, true)]
  | .treerd s _ _ _ => sLand s 3
  | .fexp2 _ _ _ | .flog2 _ _ _ | .frcp _ _ _ | .frsqrt _ _ _ | .fsqrt _ _ _ | .ftanh _ _ _ | .fsigm _ _ _
  | .fexp _ _ _ | .fsin _ _ _ | .fcos _ _ _ => [(20, true)]
  | .xperm _ _ _ | .xshuf _ _ _ _ | .xbrev _ _ | .xtrn _ _ => [(3, true)]
  | .xpld _ _ _ => [(3, false)]
  | .mldsl a _ => advLand r a
  | .mmul _ _ _ _ q _ | .mmac _ _ _ _ q _ | .mmact _ _ _ _ q _ => if q.rep = 0 then [] else advLand r q.a
  | .mmull _ _ _ q _ | .mmacl _ _ _ q _ => advLand r q.a
  | _ => []

end Sys2Proof

namespace Sys2Proof.Machine

open Sys2Proof

/-- The registers that a write in flight will change, as sources (R121). -/
def Write.touches : Write → List Src
  | .s d _ => [.s d]
  | .p d _ => [.p d]
  | .a d _ => [.a d]
  | .ctr d _ _ _ => [.ag d]
  | .field d f _ => if f = 0 then [.a d] else [.ag d]
  | .mask d _ _ => [.k d]
  | .tile d _ _ _ _ => [xSrc d]
  | .poison d _ => [.t d]
  | .shape d _ _ _ => [.t d]
  | .latent d _ => [xSrc d]
  | .lv d _ _ _ _ => [.lv d]
  | .lvClose d _ => [.lv d]
  | .tree _ => [.tree]
  | .xp d _ => [.xp d]
  | .sys _ _ => []
  | .fbase _ => []

/-- The first source of a syllable whose exposed write is still in flight (R121). Results that a trap's entry has set aside
are not in flight for the handler (log entry 85). -/
def Ctx.early (c : Ctx) (i : Instr) : Option Src :=
  if c.flight.isEmpty then none
  else i.sources.find? fun r => c.flight.any fun l => c.now < l.due && l.writes.any fun w => w.touches.contains r

/-! ## Records (R54, R73-R76) -/

/-- The format register that a selector names, by the loop stack and FBASE as read; none for 0x1F, 0x16-0x1E and an
inactive level (R54). -/
def Regs.fmtIndex (r : Regs) (sel : BitVec 5) : Option (Fin 16) :=
  let n := sel.toNat
  if n < 16 then some (Fin.ofNat 16 n)
  else if n < 0x16 then (r.loops[n - 16]?).map fun l => Fin.ofNat 16 (r.fbase.toNat + l.index.toNat)
  else none

/-- A selector is ill-formed at issue; in the Q slot the record's content is not looked at (R54). -/
def Regs.selBad (r : Regs) (sel : BitVec 5) (q : Bool) : Bool :=
  if sel = 0x1F then false
  else
    match r.fmtIndex sel with
    | none => true
    | some i => !q && recBad (r.fmt.get i)

/-- The record that a selector names; 0x1F stands for the implied record of a type (R75). -/
def Regs.record (r : Regs) (sel : BitVec 5) (ty : ElemTy) : Rec :=
  match r.fmtIndex sel with
  | some i => Rec.ofWord (r.fmt.get i) r.cb
  | none => Rec.implied ty r.cb

/-- The rows of a global tile access, as addresses and lengths (R150). -/
def Regs.tileSpans (r : Regs) (t : TReg) (m : TMem) : List (Nat × Nat) :=
  let T := r.t.get t
  (List.range T.nrows).map fun i =>
    (rowAddr (r.a.get m.a) (r.ag.get m.a).pitchInt i, rowLen T.ncols (r.record m.sel T.ty).ty.width)

/-- The global spans that a syllable translates at issue, an engine command's apart, each with its access. -/
def Regs.spans (r : Regs) (i : Instr) : List (Nat × Nat) :=
  match i with
  | .ld _ m _ | .st m _ | .pref m => if m.loc then [] else [((r.ea m).toNat, amemBytes m)]
  | .tld t m | .tst t m _ => r.tileSpans t m
  | .amo _ a _ _ size _ _ | .waitm _ a _ _ size _ => [((r.a.get a).toNat, sizeBytes size)]
  | .evsig a _ | .evwait a _ => [((r.a.get a).toNat, 16)]
  | _ => []

/-- A syllable that stores to global memory through the phase buffer. -/
def storesGlobal (i : Instr) : Bool :=
  match i with
  | .st m _ => !m.loc
  | .tst _ _ _ => true
  | _ => false

/-! ## Generators (R126-R131) -/

/-- A number is a power of two. -/
def isPow2 (n : Nat) : Bool := n != 0 && n == 2 ^ Nat.log2 n

/-- Reasons 0x01 to 0x05 of R129. -/
def Gen.bad (g : Gen) : Option Nat :=
  if (4 ≤ g.idim ∧ g.idim ≤ 6) ∨ (g.idim ≠ 7 ∧ g.idim > g.ndim) then some 1
  else if (List.finRange 4).any fun d => d.val ≤ g.ndim && (g.ctr.get d).toNat ≥ g.countOf d then some 2
  else if g.mode = 1 ∧ g.modLen = 0 then some 3
  else if g.mode = 3 ∧ !isPow2 g.modLen.toNat then some 4
  else if g.mode = 2 ∧ (!isPow2 (g.countOf 0) || g.idim == 0) then some 5
  else none

/-- The scratchpad offset of an indirect entry, or reason 0x06 (R129). -/
def Gen.entryOff (g : Gen) (c : Nat) : Option Nat :=
  let o := g.itab.toNat + 4 * c
  if g.itab.toNat % 4 ≠ 0 ∨ o > 0x1FFFFC then none else some o

/-- Two entries name the same older value, whatever has been published of its replacement since. -/
def Stale.same (a b : Stale) : Bool := a.addr == b.addr && a.val == b.val && a.src == b.src && a.seq == b.seq

/-- Two entries name the same older value of a view. -/
def Unjoined.same (a b : Unjoined) : Bool := a.off == b.off && a.swz == b.swz && a.old == b.old

/-- An older value could be read as the bundle issued. -/
def Bundle.wasStale (b : Bundle) (e : Stale) : Bool := b.old.1.any e.same
def Bundle.wasUnjoined (b : Bundle) (e : Unjoined) : Bool := b.old.2.any e.same

/-- A signed 32-bit scratchpad word of the indirect tables, read in the linear view as the bundle issued: of the older values
only those that could be read then (R130). -/
def State.tableRead (s : State) (off : Nat) : Int × State :=
  let b := s.bundle
  let t : State := { s with c := { s.c with
    stale := s.c.stale.filter b.wasStale, unjoined := s.c.unjoined.filter b.wasUnjoined } }
  let r := t.scratchBytes b.table b.tpbuf false off 4
  ((BitVec.ofNat 32 (leNat r.1)).toInt,
    { r.2 with c := { r.2.c with
      stale := r.2.c.stale ++ s.c.stale.filter fun e => !b.wasStale e
      unjoined := r.2.c.unjoined ++ s.c.unjoined.filter fun e => !b.wasUnjoined e } })

/-- The low `b` bits of `c` reversed (R128). -/
def bitRev (c : Nat) : Nat → Nat
  | 0 => 0
  | b + 1 => (c % 2) * 2 ^ b + bitRev (c / 2) b

/-- Term of R128 for a dimension that is not indirect. -/
def Gen.term (g : Gen) (d : Fin 4) (c : Nat) : Int :=
  if d = 0 ∧ g.mode = 2 then (g.step.get 0).toInt * bitRev c (Nat.log2 (g.countOf 0))
  else (g.step.get d).toInt * c

/-- An advance: the new address, counters and WRAP. -/
structure Adv where
  y : Word
  ctr : Vector (BitVec 32) 4
  wrap : Bool
  /-- the dimensions walked: those below it have a new counter -/
  n : Nat

/-- The dimensions that an advance with these counters has walked: up to the first that did not wrap to 0 (R128). -/
def walkedDims (ndim : Nat) (ctr : Vector (BitVec 32) 4) : Nat :=
  ((List.finRange 4).find? fun d => d.val ≤ ndim && ctr.get d != 0).elim (ndim + 1) fun d => d.val + 1

/-- The loop of R128 over the dimensions: the sums of the terms of dimension 0 and of the higher ones, the counters,
whether all wrapped; none where an entry cannot be read. -/
def State.advLoop (s : State) (g : Gen) : List (Fin 4) → Int → Int → Vector (BitVec 32) 4 →
    Option (Int × Int × Vector (BitVec 32) 4 × Bool) × State
  | [], d0, dh, ctr => (some (d0, dh, ctr, true), s)
  | d :: ds, d0, dh, ctr =>
    let old := (g.ctr.get d).toNat
    let new := if old + 1 = g.countOf d then 0 else old + 1
    let ctr' := ctr.set d (BitVec.ofNat 32 new)
    let go := fun (s : State) (t : Int) =>
      let d0' := if d = 0 then t else d0
      let dh' := if d = 0 then dh else dh + t
      if new ≠ 0 then (some (d0', dh', ctr', false), s) else s.advLoop g ds d0' dh' ctr'
    if g.idim = d.val then
      match g.entryOff new, g.entryOff old with
      | some o1, some o2 =>
        let r1 := s.tableRead o1
        let r2 := r1.2.tableRead o2
        go r2.2 (g.iscale.toNat * r1.1 - g.iscale.toNat * r2.1)
      | _, _ => (none, s)
    else go s (g.term d new - g.term d old)

/-- Advance of R128, with the checks of R129: the advance or the reason. -/
def State.advance (s : State) (g : Gen) (x : Word) : Except Nat Adv × State :=
  match g.bad with
  | some r => (.error r, s)
  | none =>
    match s.advLoop g ((List.finRange 4).take (g.ndim + 1)) 0 0 g.ctr with
    | (none, s') => (.error 6, s')
    | (some (d0, dh, ctr, wrap), s') =>
      let xi : Int := x.toNat
      let ml : Int := g.modLen.toNat
      let y : Int :=
        if g.mode = 1 then g.modBase.toNat + (xi + d0 + dh - g.modBase.toNat) % ml
        else if g.mode = 3 then (xi - xi % ml) + (xi + d0) % ml + dh
        else xi + d0 + dh
      (.ok ⟨BitVec.ofInt 64 y, ctr, wrap, walkedDims g.ndim ctr⟩, s')

/-- TVAL of a descriptor fault (R129, R369). -/
def descVal (a : AReg) (reason : Nat) : Word := BitVec.ofNat 64 (2 ^ 63 + 2 ^ 56 + a.val * 256 + reason)

/-- The writes of an advance that lands (R131). -/
def Adv.writes (d : Adv) (ad ag : AReg) : List Write := [.a ad d.y, .ctr ag d.n d.ctr d.wrap]

/-! ## Guarded execution -/

/-- The registers that the open bundle reads. -/
def State.view (s : State) : Regs := s.bundle.view

/-- A next state. -/
abbrev Out := Host.Outcome State Fault Refusal

/-- A slot whose guard is false commits nothing (R93). -/
def State.guarded (s : State) (g : Guard) (go : State → State) : Out := .next (if s.view.guard g then go s else s)

/-- An agent's step that is enabled, or nothing at all. -/
def State.when (s : State) (b : Bool) (go : State → State) : Out := .next (if b then go s else s)

end Sys2Proof.Machine
end

