-- ==== Sys2Proof/Machine/FabBase.lean ====
section
/-! DEFINITION. What every unit that sends a packet shares (23_fabric R409-R414, R431, 25_host_power R443): routes, the
packets between chips and within the package, fabric error records and interrupts to the host. -/

namespace Sys2Proof.Machine

open Sys2Proof

/-! ## Interrupts to the host (R443) -/

/-- The functions: PF0 and the virtual functions that Watia has assigned (R442). -/
def State.functions (s : State) : List Nat := 0 :: s.pkg.fnRoots.map (·.1)

/-- A vector raised to one function. -/
def State.msi (s : State) (fn vec : Nat) : State := { s with pkg := { s.pkg with msix := s.pkg.msix ++ [(fn, vec)] } }

/-- A vector raised to every function. -/
def State.msiAll (s : State) (vec : Nat) : State := s.functions.foldl (fun t f => t.msi f vec) s

/-! ## Fabric errors (R431) -/

/-- A ring of 64 records with one more. -/
def logPut (log : List FabErr) (e : FabErr) : List FabErr := if log.length < 64 then log ++ [e] else log.tail ++ [e]

/-- A record in the log of a port die: PD1's for ports 8 to 15, PD0's otherwise; it raises vector 64. -/
def State.fabError (s : State) (port : Option (Fin 16)) (e : FabErr) : State :=
  let s1 : State :=
    if port.any fun p => 8 ≤ p.val then
      { s with fab := { s.fab with errs1 := logPut s.fab.errs1 e, cnt1 := s.fab.cnt1 + 1 } }
    else { s with fab := { s.fab with errs0 := logPut s.fab.errs0 e, cnt0 := s.fab.cnt0 + 1 } }
  s1.msiAll 64

/-- The record about a packet. -/
def Packet.error (p : Packet) (port : Option (Fin 16)) (reason : BitVec 8) : FabErr :=
  ⟨p.region, p.srcChip, reason, (port.map fun k => BitVec.ofNat 4 k.val).getD 0, p.kind, p.seq, p.collid⟩

/-! ## Routes (R410, R414) -/

/-- Port, op and argument of a route entry (R410). -/
def entPort (e : BitVec 16) : BitVec 4 := e.extractLsb' 12 4
def entOp (e : BitVec 16) : Nat := (e.extractLsb' 8 4).toNat
def entArg (e : BitVec 16) : BitVec 8 := e.setWidth 8

/-- The eight entries of a table entry or of a packet's two route words. -/
def routeWords (lo hi : BitVec 64) : List (BitVec 16) :=
  ((List.range 4).map fun i => lo.extractLsb' (16 * i) 16) ++ (List.range 4).map fun i => hi.extractLsb' (16 * i) 16

/-- The route of a packet built for a chip: op 3 on a counter at its end, or op 0; none where the table entry has no
terminal (R414). -/
def State.routeTo (s : State) (chip : BitVec 12) (rx : Option (BitVec 6)) : Option (List (BitVec 16)) :=
  let r := s.route chip.toNat
  let ents := routeWords r.1 r.2
  let hops := ents.takeWhile fun e => entOp e == 1
  (ents[hops.length]?).map fun e =>
    hops ++ [match rx with
      | some n => entPort e ++ (3 : BitVec 4) ++ (0 : BitVec 2) ++ n
      | none => entPort e ++ (0 : BitVec 12)]

/-- A port is connected and up (R408). -/
def State.portUp (s : State) (p : BitVec 4) : Bool := s.pkg.ports.getLsbD p.toNat

/-- A packet with no content of its own. -/
def Packet.blank : Packet := { Move.none.pkt with version := 1, zeros := true }

/-- A packet with its route leaves the die that built it: within the package where its route is one terminal entry,
out of a port where entry 0 is op 1. An error is the reason of a record (R411, R414). -/
def State.emitPkt (s : State) (p : Packet) : Except (BitVec 8) State :=
  match p.route with
  | [] => .error 2
  | [_] => .ok { s with fab := { s.fab with loop := s.fab.loop ++ [p] } }
  | e :: rest =>
    if entOp e ≠ 1 then .error 2
    else if s.portUp (entPort e) then
      .ok (({ s with fab := { s.fab with
        out := s.fab.out ++ [(entPort e, { p with route := rest, hops := 1 })] } } : State).countFab
          (some (Fin.ofNat 16 (entPort e).toNat)) 0x0300)
    else .error 3

/-- The port die that builds a packet for a port, by a port of its own: PD1 for ports 8 to 15 where the package has it
(R411, R431; log entry 31). -/
def State.builtFor (s : State) (port : BitVec 4) : Option (Fin 16) :=
  if s.pkg.pd1 then some (Fin.ofNat 16 port.toNat) else none

/-- The port die that builds a packet with its route: that of the port of entry 0, PD0 for one that stays in the package. -/
def State.builder (s : State) (p : Packet) : Option (Fin 16) :=
  match p.route with
  | e :: _ :: _ => s.builtFor (entPort e)
  | _ => none

/-- A control packet (kinds 2 to 6) sent to its chip by the route table; one that cannot leave is dropped with a record
(R411, R413). -/
def State.sendControl (s : State) (p : Packet) : State :=
  let q := { p with srcChip := s.pkg.chipId, route := (s.routeTo p.dstChip none).getD [] }
  match s.emitPkt q with
  | .ok t => t
  | .error r => s.fabError (s.builder q) (q.error none r)

/-- The answer to a packet: an acknowledgement, a refusal or a lapse notice (R413). -/
def State.answer (s : State) (p : Packet) (kind : BitVec 4) (flagA : BitVec 48) (flagV : BitVec 64) : State :=
  s.sendControl { Packet.blank with
    region := p.region
    dstChip := p.srcChip
    kind := kind
    dst := p.dst
    seq := p.seq
    collid := p.collid
    flagA := flagA
    flagV := flagV }

/-- An acknowledgement carries the length of its packet (R413). -/
def State.ackPkt (s : State) (p : Packet) : State := s.answer p 4 0 (BitVec.ofNat 64 p.payload.length)

/-- A refusal with its reason and, for reason 0x2A, the remote address, by a port die, named by a port of its own (R413,
R465). -/
def State.refuse (s : State) (port : Option (Fin 16)) (p : Packet) (reason : Nat) (adr : BitVec 48) : State :=
  (s.countFab port 0x0304).answer p 5 adr (BitVec.ofNat 64 reason)

/-- A packet dropped: a record, and a refusal where it was of KIND 0 or 1 (R411). -/
def State.dropPkt (s : State) (port : Option (Fin 16)) (p : Packet) (reason : BitVec 8) : State :=
  let s1 := s.fabError port (p.error port reason)
  if p.kind = 0 ∨ p.kind = 1 then s1.refuse port p 0x28 0 else s1

/-- A packet that the chip has built is dropped by the die that built it (R411, R431). -/
def State.dropBuilt (s : State) (die : Option (Fin 16)) (p : Packet) (reason : BitVec 8) : State :=
  let s1 := s.fabError die (p.error none reason)
  if p.kind = 0 ∨ p.kind = 1 then s1.refuse die p 0x28 0 else s1

/-- A data or counter packet sent by the die that builds it; one that it drops is refused to the chip itself. -/
def State.sendPkt (s : State) (p : Packet) : State :=
  match s.emitPkt p with
  | .ok t => t
  | .error r => s.dropBuilt (s.builder p) p r

/-- The transfer tags of the packets that are not acknowledged: of the copy queues, and of fired sends (R413). -/
def State.tagsOut (s : State) : List (BitVec 32) :=
  (s.allCtx.flatMap fun e => e.2.queue.flatMap fun q => q.tx.map (·.tag))
    ++ s.fab.fired.flatMap fun f => f.pkts.map (·.seq) ++ f.tx.map (·.tag)

/-- A transfer tag that is unique among those not acknowledged and among `more`; beyond that it is free (R413, log
entry 67). -/
def State.newTag (s : State) (more : List (BitVec 32)) : BitVec 32 :=
  let used := more ++ s.tagsOut
  let base := (Config.freeWord s.fresh).setWidth 32
  (((List.range (used.length + 1)).map fun k => base + BitVec.ofNat 32 k).find? fun t => !used.contains t).getD base

/-- The free value of a step is taken. -/
def State.took (s : State) : State := { s with fresh := s.fresh + 1 }

/-! ## Receive counters (R419) -/

/-- A receive counter of a region. -/
def State.rxOf (s : State) (region : BitVec 16) (n : BitVec 6) : BitVec 32 :=
  ((s.fab.rx.find? fun e => e.1 == region && e.2.1 == n).map (·.2.2)).getD 0

/-- A receive counter set. -/
def State.rxSet (s : State) (region : BitVec 16) (n : BitVec 6) (v : BitVec 32) : State :=
  { s with fab := { s.fab with rx := (region, n, v) :: s.fab.rx.filter fun e => !(e.1 == region && e.2.1 == n) } }

end Sys2Proof.Machine
end

