-- ==== Sys2Proof/Machine/TokBase.lean ====
section
/-! DEFINITION. Who holds the tokens of a line, and what an agent needs before it reads or writes one (16_token_coherence
R300-R303). -/

namespace Sys2Proof.Machine

open Sys2Proof

/-- The memory-side dies present, in rising order (R18). -/
def State.mdPresent (s : State) : List (Fin 8) := (List.finRange 8).filter fun m => s.pkg.mdMask.getLsbD m.val

/-- The home of a line of HBM or of the second tier, of host memory otherwise; before stage 4 that of HBM is CD0's L2 (R18,
R300, R310). -/
def State.homeOf (s : State) (line : Nat) : Agent :=
  match s.place (line * 128) with
  | .hbm =>
    let ms := if s.fullOn then s.mdPresent else []
    match ms[line % (max ms.length 1)]? with
    | some m => .md m
    | none => .cd 0
  | .tier => .pd1
  | _ => .proxy

/-- The first line number of host memory, as the host proxy names its lines: no physical address of R18 reaches them. -/
def hostLine : Nat := 0x8000000000

/-- A line that tokens cover: core windows and package control hold none (R142). -/
def State.tokened (s : State) (line : Nat) : Bool :=
  hostLine ≤ line || (match s.place (line * 128) with
    | .hbm | .tier => true
    | _ => false)

/-- The token-holding agents that run (R19, R317): a lost compute die is none of them. -/
def State.agents (s : State) : List Agent :=
  ((List.finRange 8).filter fun d => s.pkg.cdMask.getLsbD d.val && !s.pkg.lost.getLsbD d.val).map Agent.cd
    ++ s.mdPresent.map Agent.md ++ (if s.pkg.pd1 then [.pd1] else []) ++ [.proxy]

/-- What an agent holds of a line: all at the home where nothing is recorded (R309). -/
def State.holdOf (s : State) (who : Agent) (line : Nat) : Hold :=
  match s.tok.lines.find? (·.line == line) with
  | some l => (l.holds.find? (·.who == who)).getD ⟨who, 0, false, false, false⟩
  | none => if s.homeOf line = who then ⟨who, 16, true, true, false⟩ else ⟨who, 0, false, false, false⟩

/-- The number of a home (R316). -/
def homeNumber : Agent → Fin 10
  | .md m => Fin.ofNat 10 m.val
  | .pd1 => 8
  | .proxy => 9
  | .cd _ => 0

/-- Recovery is in progress at a line's home (R314). -/
def State.recovering (s : State) (line : Nat) : Bool := (s.tok.homes.get (homeNumber (s.homeOf line))).recovering

/-- An agent may read a line with one token and valid data, and write it with all 16 (R301); while the line's home recovers
nobody may (R314). -/
def State.canUse (s : State) (who : Agent) (line : Nat) (write : Bool) : Bool :=
  !s.coherent || !s.tokened line ||
    (let h := s.holdOf who line
     h.valid && (if write then h.count == 16 else 1 ≤ h.count) && !s.recovering line)

/-- The region of a context's task, whose accesses its are (R466). -/
def Ctx.owner (c : Ctx) : Option Region := c.task.map (·.region)

/-- A need of a line joined by another of the same agent: one request, of all 16 tokens where either asks for them, which
is sent anew where it asks for more (R300). -/
def Need.join (n : Need) (write : Bool) (now : Nat) (a : Asker) : Need :=
  let n := if n.asked.contains a then n else { n with asked := n.asked ++ [a] }
  if n.met then { n with met := false, write := n.write || write }
  else if write && !n.write then { n with write := true, answered := [], sentAt := now }
  else n

/-- An agent's need of a line, with its first attempt sent (R302); a home asks for its own lines by a persistent request
(R309, R432). `a` asks for it, and `r` is the region whose access it is for. -/
def State.addNeed (s : State) (who : Agent) (line : Nat) (write : Bool) (a : Asker) (r : Option Region) : State :=
  if s.tok.needs.any fun n => n.who == who && n.line == line then
    { s with tok := { s.tok with needs := s.tok.needs.map fun n =>
      if n.who = who ∧ n.line = line then n.join write s.time a else n } }
  else
    { s with tok := { s.tok with needs := s.tok.needs ++ [⟨who, line, write, [], s.time, 0, s.homeOf line == who, false, r, [a]⟩] } }

/-- The first line that an agent cannot use yet. -/
def State.missing (s : State) (who : Agent) (lines : List Nat) (write : Bool) : Option Nat :=
  lines.find? fun l => !s.canUse who l write

/-- An agent has had its access to some lines. Its needs of them that the access fulfils end; a persistent request that has
reached its home goes on until all 16 tokens have come, and its requester then deactivates it (R303, R305). -/
def State.needMet (s : State) (who : Agent) (lines : List Nat) (write : Bool) : State :=
  let all := fun (l : Nat) => (s.holdOf who l).count == 16
  let asked := fun (l : Nat) => s.tok.table.any fun e => e.who == who && e.line == l
  let done := fun (n : Need) => n.who == who && lines.contains n.line && (write || !n.write || n.met)
  if s.tok.needs.isEmpty then s
  else
    { s with tok := { s.tok with
      needs := (s.tok.needs.filter fun n => !(done n && (!n.persistent || all n.line || !asked n.line))).map fun n =>
        if done n then { n with met := true } else n
      table := s.tok.table.map fun e =>
        if e.who = who ∧ e.active ∧ !e.closing ∧ all e.line ∧ s.tok.needs.any fun n => n.line == e.line && done n then
          { e with closing := true, unacked := s.agents }
        else e } }

/-- Lines that a holder of all their tokens has written: its copies are dirty, but for those in a home's own slice (R301,
R306). -/
def State.markDirty (s : State) (who : Agent) (lines : List Nat) : State :=
  if s.coherent then
    { s with tok := { s.tok with
      lines := s.tok.lines.map fun l =>
        if lines.contains l.line ∧ s.homeOf l.line ≠ who then
          { l with holds := l.holds.map fun h => if h.who = who then { h with dirty := true } else h }
        else l } }
  else s

/-- A step that uses lines: it waits, its need recorded, for the tokens that are missing. -/
def State.withLines (s : State) (who : Agent) (lines : List Nat) (write : Bool) (a : Asker) (r : Option Region)
    (go : State → State) : State :=
  match s.missing who lines write with
  | some l => s.addNeed who l write a r
  | none =>
    let t := (go s).needMet who lines write
    if write then t.markDirty who lines else t

/-- A step that makes page walks and then uses lines: it waits as `withLines` does, first for a token of each line that the
walks read (R300). -/
def State.withWalks (s : State) (who : Agent) (walks lines : List Nat) (write : Bool) (a : Asker)
    (r : Option Region) (go : State → State) : State :=
  match s.missing who walks false with
  | some l => s.addNeed who l false a r
  | none => (s.needMet who walks false).withLines who lines write a r go

/-! ## Homes that act for another agent (R309, R432) -/

/-- The first line that its home cannot use yet. -/
def State.homeMissing (s : State) (lines : List Nat) (write : Bool) : Option Nat :=
  lines.find? fun l => !s.canUse (s.homeOf l) l write

/-- The homes of some lines have had their access. -/
def State.homesMet (s : State) (lines : List Nat) (write : Bool) : State :=
  if s.tok.needs.isEmpty then s else lines.foldl (fun t l => t.needMet (t.homeOf l) [l] write) s

/-- A step at the homes of some lines, which first gather the tokens they lack. -/
def State.atHomes (s : State) (lines : List Nat) (write : Bool) (a : Asker) (r : Option Region) (go : State → State) :
    State :=
  match s.homeMissing lines write with
  | some l => s.addNeed (s.homeOf l) l write a r
  | none => (go s).homesMet lines write

/-- Bytes of HBM lines that an access reads for a region, charged to it (R363; log entry 15). -/
def State.chargeReads (s : State) (r : Region) (lines : List Nat) : State :=
  let n := (lines.eraseDups.filter fun l => s.place (l * 128) == .hbm).length
  if n = 0 then s else s.charge r 0 (128 * n)

/-- The lines that an error record's walks read and that it is written to, charged to the context's region (R359, R363). -/
def State.chargeErr (s : State) (x off : Nat) : State :=
  s.chargeReads (s.ctx x).region (s.errWalks x off ++ s.errLines x off)

/-! ## The phase buffer and tokens (R151, R308) -/

/-- The lines of a context's phase buffer that tokens cover, of its stores up to a bundle. -/
def State.bufferLines (s : State) (x upTo : Nat) : List Nat :=
  (((s.ctx x).pbuf.filter fun e => e.seq ≤ upTo).map fun e => lineOf e.addr).eraseDups.filter s.tokened

/-- The oldest stores of a phase buffer of more than 32 KiB written to the die's L2 early, up to `fuel` bytes; where the L2
lacks tokens of the oldest's line it asks for them, and the store stays until they have come (R15, R151; log entry 74). -/
def State.drainFull (s : State) (x : Nat) : Nat → State
  | 0 => s
  | fuel + 1 =>
    let c := s.ctx x
    match c.pbuf with
    | [] => s
    | e :: rest =>
      if c.pbuf.length ≤ 0x8000 then s
      else
        match s.missing (l2Of (coreOf x)) [lineOf e.addr] true with
        | some l => s.addNeed (l2Of (coreOf x)) l true .op c.owner
        | none =>
          (((((s.chargeLines c.region [lineOf e.addr]).performOne x e).modCtx x fun c =>
            { c with pbuf := rest }).needMet (l2Of (coreOf x)) [lineOf e.addr] true).markDirty (l2Of (coreOf x))
              [lineOf e.addr]).drainFull x fuel

/-- The context's phase buffer brought back to 32 KiB. -/
def State.drainOver (s : State) : State := s.drainFull s.id s.c.pbuf.length

end Sys2Proof.Machine
end

