-- ==== Sys2Proof/Machine/Issue.lean ====
section
/-! DEFINITION. How a context fetches and issues a bundle: fetch (R25-R28), the whole-bundle checks in the order of R43,
the waits of R35, opening the bundle, and closing it with the end check of R108. -/

namespace Sys2Proof.Machine

open Sys2Proof

/-! ## Fetch -/

/-- A code word as a fetch of the focused context reads it: the present value, or an older one that was written over since its
task was bound (R28; log entry 22). -/
def State.codeWord (s : State) (pa : Nat) : Nat :=
  let old := s.c.code.filter (·.addr == pa)
  if old.isEmpty then leNat [s.byteAt pa, s.byteAt (pa + 1)]
  else
    match old[Config.oldCode s.pkg.tick s.id pa % (old.length + 1)]? with
    | some e => e.val.toNat
    | none => leNat [s.byteAt pa, s.byteAt (pa + 1)]

/-- A code word at an address, or the cause and TVAL of its fetch fault (R26, R145, R315). -/
def State.readCode (s : State) (va : Nat) : Except (BitVec 8 × Word) Nat :=
  let a := va % 2 ^ 48
  match s.translate (some (coreOf s.id)) s.c.region a .fetch s.c.isSup with
  | .error c => .error (c, BitVec.ofNat 64 a)
  | .ok pa =>
    match s.poisonIn pa 2 with
    | some l => .error (0x14, l)
    | none => .ok (s.codeWord pa)

/-- `n` code words from an address. -/
def State.readCodes (s : State) (va : Nat) : Nat → Except (BitVec 8 × Word) (List Nat)
  | 0 => .ok []
  | n + 1 =>
    match s.readCode va with
    | .error e => .error e
    | .ok w =>
      match s.readCodes (va + 2) n with
      | .error e => .error e
      | .ok ws => .ok (w :: ws)

/-- A bundle fetched: its words, whether they fill a sheaf entry, its PC and the next. -/
structure Fetched where
  words : List Nat
  sheaf : Bool
  pc : VAddr
  np : VAddr

/-- The words of an entry of the bundle store (R29, R30). -/
def State.entryWords (s : State) (e : Nat) : List Nat :=
  (List.range 24).map fun i => memRead s.mem (entryAddr (coreOf s.id) e + 2 * i) 2

/-- The bundle that the loop buffer holds for a PC, where the PC is tagged and has been stored (R111). -/
def LoopBuf.stored (l : LoopBuf) (pc : VAddr) : Option Fetched :=
  match l.tagged.find? (·.1 == pc) with
  | some (_, some (ws, sheaf, np)) => some ⟨ws.map BitVec.toNat, sheaf, pc, np⟩
  | _ => Option.none

/-- FetchBundle of R26, a stored PC issuing from the loop buffer with no index word fetched (R111). `fuel` bounds the skip
words: it covers every word of the address space, so it runs out only where all of them are skip words (log entry 68). -/
def State.fetchFrom (s : State) : Nat → VAddr → Except (BitVec 8 × Word × VAddr) Fetched
  | 0, pc => .error (0x0B, pc.setWidth 64, pc)
  | fuel + 1, pc =>
    match s.c.lbuf.stored pc, s.readCode pc.toNat with
    | some f, _ => .ok f
    | none, .error (c, v) => .error (c, v, pc)
    | none, .ok w =>
      if w = 0xFFFE then s.fetchFrom fuel (pc + 2)
      else if w = 0xFFFF then
        match s.readCode (pc.toNat + 2) with
        | .error (c, v) => .error (c, v, pc)
        | .ok h =>
          let n := bodyWords h
          match s.readCodes (pc.toNat + 4) n with
          | .error (c, v) => .error (c, v, pc)
          | .ok ws => .ok ⟨h :: ws, false, pc, pc + 4 + BitVec.ofNat 48 (2 * n)⟩
      else if w ≤ 0x0FFF then
        if w ≥ s.c.wsize then .error (0x12, BitVec.ofNat 64 w, pc)
        else .ok ⟨s.entryWords (s.c.wbase + w), true, pc, pc + 2⟩
      else .error (0x01, BitVec.ofNat 64 w, pc)

/-- Fetch at the context's address. -/
def State.fetch (s : State) : Except (BitVec 8 × Word × VAddr) Fetched := s.fetchFrom (2 ^ 47) s.c.pc

/-- The addresses of the code words that a fetch reads, up to one that stops it (R26, R28). -/
def State.fetchReads (s : State) : Nat → Nat → List Nat
  | 0, _ => []
  | fuel + 1, pc =>
    match s.c.lbuf.stored (BitVec.ofNat 48 pc), s.readCode pc with
    | some _, _ => []
    | none, .error _ => [pc]
    | none, .ok w =>
      if w = 0xFFFE then pc :: s.fetchReads fuel (pc + 2)
      else if w = 0xFFFF then
        match s.readCode (pc + 2) with
        | .error _ => [pc, pc + 2]
        | .ok h => (List.range (bodyWords h + 2)).map fun i => pc + 2 * i
      else [pc]

/-- The lines that the die's L2 reads for the next fetch, a token of each (R28). -/
def State.fetchLines (s : State) : List Nat :=
  ((s.fetchReads (2 ^ 47) s.c.pc.toNat).flatMap fun a =>
    s.spanLines (some (coreOf s.id)) s.c.region s.c.isSup .fetch a 2).eraseDups

/-! ## The checks of R40 -/

/-- The first check that a syllable fails, as its reason; else its instruction. `seen`: the ports used before it. -/
def slotCheck (r : Regs) (seen : List Port) (b w : Nat) : Except Nat Instr :=
  match decodeAt b w with
  | .error .opcodeZero => .error 2
  | .error .unassigned => .error 3
  | .error .reserved => .error 4
  | .ok i =>
    if i.ports.any fun p => 6 ≤ p.toNat then .error 5
    else if !portsDistinct i.ports || i.ports.any fun p => seen.contains p then .error 6
    else if i.sels.any fun z => r.selBad z.1 z.2 then .error 8
    else .ok i

/-- The instructions of the slots, or the first offending slot and its reason. -/
def slotsCheck (r : Regs) : List (Nat × Nat) → List Port → Except (Nat × Nat) (List (Nat × Instr))
  | [], _ => .ok []
  | (b, w) :: rest, seen =>
    match slotCheck r seen b w with
    | .error e => .error (b, e)
    | .ok i =>
      match slotsCheck r rest (seen ++ i.ports) with
      | .error e => .error e
      | .ok is => .ok ((b, i) :: is)

/-- R40 for a bundle: the offending slot, 0xF for the header and padding, and the reason. -/
def bundleCheck (r : Regs) (f : Fetched) : Except (Nat × Nat) (List (Nat × Instr)) :=
  let h := f.words.headD 0
  let n := bodyWords h
  if h / 2 ^ 14 ≠ 0 then .error (15, 1)
  else if f.sheaf && (f.words.drop (n + 1)).any (· != 0) then .error (15, 7)
  else slotsCheck r (cutSlots (presentOf h) (f.words.drop 1)) []

/-! ## The checks of R41 -/

/-- The landings that a bundle's syllables add, from the cycle at which it issues. -/
def bundleLands (r : Regs) (now : Nat) (slots : List (Nat × Instr)) : List (Nat × Bool) :=
  slots.flatMap fun e => (e.2.lands r).map fun l => (now + l.1, l.2)

/-- The offset of the first cycle at which more than four tile results would land (R41). -/
def overload (now : Nat) (lands : List (Nat × Bool)) : Option Nat :=
  (List.range 21).find? fun o => (lands.filter fun l => l.1 == now + o && l.2).length > 4

/-- A slot present in a bundle. -/
def hasSlot (slots : List (Nat × Instr)) (b : Nat) : Bool := slots.any (·.1 == b)

/-- An interval not yet over (R42). -/
def tooSoon (last : Option Nat) (now gap : Nat) : Bool :=
  match last with
  | some k => now < k + gap
  | none => false

/-- The lowest DEST that two entries with OFF = 0 share (R190). -/
def patClash (pat : Vector (BitVec 7) 64) : Option Nat :=
  (List.range 64).find? fun d =>
    ((List.finRange 64).filter fun j => (pat.get j).toNat == d).length ≥ 2

/-- The first crossbar collision: DEST and pattern (R190). -/
def crossClash (r : Regs) (slots : List (Nat × Instr)) : Option (Nat × Nat) :=
  slots.findSome? fun e => match e.2 with
    | .xperm _ _ n => (patClash (r.xp.get n)).map fun d => (d, n.val)
    | _ => none

/-- The number of distinct cycles at which results would land (R373). -/
def distinctLands (lands : List (Nat × Bool)) : Nat := ((lands.map (·.1)).eraseDups).length

/-- R41 and R373 for a bundle: TVAL of the illegal schedule, lowest reason first. -/
def Ctx.scheduleCheck (c : Ctx) (slots : List (Nat × Instr)) : Option Nat :=
  let now := c.now
  let lands := c.hist.lands ++ bundleLands c.regs now slots
  match overload now lands with
  | some o => some (o * 256 + 1)
  | none =>
    if hasSlot slots 5 && tooSoon c.hist.v0 now 2 then some 2
    else if hasSlot slots 6 && tooSoon c.hist.v1 now 2 then some 3
    else if hasSlot slots 7 && tooSoon c.hist.f now 8 then some 4
    else
      match crossClash c.regs slots with
      | some (d, n) => some (n * 65536 + d * 256 + 5)
      | none => if c.isSup && distinctLands (lands.filter fun l => now < l.1) > 12 then some 6 else none

/-- The history after a bundle has issued. -/
def Ctx.histAfter (c : Ctx) (slots : List (Nat × Instr)) : Hist :=
  let now := c.now
  { v0 := if hasSlot slots 5 then some now else c.hist.v0
    v1 := if hasSlot slots 6 then some now else c.hist.v1
    f := if hasSlot slots 7 then some now else c.hist.f
    lands := (c.hist.lands.filter fun l => now < l.1) ++ bundleLands c.regs now slots }

/-! ## The checks of R115 and R121 -/

/-- The first slot that names a tile of a cluster not awake, and the tile (R167). -/
def Ctx.sleepCheck (c : Ctx) (slots : List (Nat × Instr)) : Option (Nat × TReg) :=
  slots.findSome? fun e => (e.2.tiles.find? fun t => c.asleep (.t t)).map fun t => (e.1, t)

/-- The first slot that reads a register whose write is in flight, under CHECKMODE, and the source (R121). -/
def Ctx.earlyCheck (c : Ctx) (slots : List (Nat × Instr)) : Option (Nat × Src) :=
  if c.sys.checkmode then slots.findSome? fun e => (c.early e.2).map fun r => (e.1, r) else none

/-- What a bundle's checks find: a trap, or its instructions (R43). -/
def Ctx.issueChecks (c : Ctx) (f : Fetched) : Except (BitVec 8 × Word) (List (Nat × Instr)) :=
  match bundleCheck c.regs f with
  | .error (b, r) => .error (0x02, BitVec.ofNat 64 (b * 256 + r))
  | .ok slots =>
    match c.scheduleCheck slots with
    | some v => .error (0x03, BitVec.ofNat 64 v)
    | none =>
      match c.sleepCheck slots with
      | some (b, t) => .error (0x05, BitVec.ofNat 64 (b * 256 + t.val))
      | none =>
        match c.earlyCheck slots with
        | some (b, r) => .error (0x04, BitVec.ofNat 64 (b * 4096 + r.code.1 * 256 + r.code.2))
        | none => .ok slots

/-! ## Atomics' addresses (R287, R288) -/

/-- The checks of an atomic, a wait or an event on `n` bytes at `ea`: the cause and TVAL, or the physical address. -/
def State.checkAtomic (s : State) (ea : Word) (n : Nat) (acc : Access) : Except (BitVec 8 × Word) Nat :=
  if ea.toNat % n ≠ 0 then .error (0x0A, ea)
  else
    let va := ea.toNat % 2 ^ 48
    match s.translate (some (coreOf s.id)) s.c.region va acc s.c.isSup with
    | .error c => .error (c, BitVec.ofNat 64 va)
    | .ok pa => if plainPlace (s.place pa) then .ok pa else .error (0x0C, ea)

/-- The watched bytes as the agent of the target reads them, after the context's own stores to them (R289). -/
def State.watch (s : State) (pa n : Nat) : Nat :=
  leNat ((List.range n).map fun i => (pbufGet s.c.pbuf (pa + i)).getD (s.byteAt (pa + i)))

/-- An atomic of the context to some bytes is outstanding: a read of them that sees it waits for it (R277). -/
def Ctx.atomicAt (c : Ctx) (pa n : Nat) : Bool := c.atomics.any fun a => a.pa < pa + n && pa < a.pa + a.size

/-- An atomic of the context to its own core's scratchpad is outstanding, made through the core's window. -/
def Ctx.windowAtomic (c : Ctx) (x : Nat) : Bool := c.atomics.any fun a => ownWindow x a.pa

/-- A syllable that reads or writes the scratchpad by its offsets: as data, as the table of an advance, or as the packet of
QPOST. -/
def usesOffsets (i : Instr) (r : Regs) : Bool :=
  i.scratch r || (i.lands r).contains (6, false) || (match i with
    | .qpost _ _ => true
    | _ => false)

/-- The condition of WAITM (R289). -/
def waitCond (cond : BitVec 4) (m v : Nat) : Bool :=
  if cond = 0 then v ≤ m else if cond = 1 then m == v else m != v

/-- An event is signalled (R290): its COUNT and its second word. -/
def signalled (count word : Nat) : Bool := word % 2 ^ 32 ≤ count || word / 2 ^ 63 == 1

/-! ## Shaping and slew (R452, R453) -/

/-- CAP as it acts (R451). -/
def State.capValue (s : State) : Nat := if s.pkg.cap = 0 ∨ 2000 < s.pkg.cap.toNat then 2000 else s.pkg.cap.toNat

/-- The cap of a core's current window (R453). -/
def State.windowCap (s : State) (core : Nat) : Nat :=
  match (s.core core).ramp with
  | some w0 =>
    if s.pkg.rampEn then
      Nat.min s.capValue (s.pkg.rampBase.toNat + (s.time / 1000 - w0) * s.pkg.rampStep.toNat)
    else s.capValue
  | none => s.capValue

/-- The array cycles charged to a core's current window (R453). -/
def State.windowUsed (s : State) (core : Nat) : Nat :=
  if (s.core core).window = s.time / 1000 then (s.core core).charged else 0

/-! ## Waits (R35) -/

/-- Why a bundle does not issue yet. -/
inductive Wait where
  | scoreboard | token | engine | matrix | latent | fetch | slew | cap | budget | order
deriving DecidableEq, Repr

/-- CAUSE of R460. -/
def Wait.cause : Wait → Nat
  | .scoreboard => 1 | .token => 2 | .engine => 2 | .matrix => 3 | .latent => 4 | .fetch => 5 | .slew => 6 | .cap => 7
  | .budget => 8 | .order => 10

/-- The clock cycles after which a wait lets the core switch; none: never (R360). -/
def Wait.switchAfter : Wait → Option Nat
  | .token | .engine | .latent | .budget => some 0
  | .scoreboard | .order => some 64
  | _ => none

/-- The resource of a Q syllable (R206): the array, the loader, or none. -/
inductive QRes where
  | array | loader | none
deriving DecidableEq, Repr

/-- The resource that a Q syllable needs. -/
def qRes : Instr → QRes
  | .mmul _ _ _ _ _ _ | .mmac _ _ _ _ _ _ | .mmact _ _ _ _ _ _ | .mmull _ _ _ _ _ | .mmacl _ _ _ _ _
  | .mzero _ _ | .mrd _ _ _ _ | .mwr _ _ _ _ => .array
  | .mlds _ _ | .mldsl _ _ => .loader
  | _ => .none

/-- The instruction stands in the Q slot. -/
def isQ : Instr → Bool
  | .mlds _ _ | .mldsl _ _ | .mswap _ | .mmul _ _ _ _ _ _ | .mmac _ _ _ _ _ _ | .mmact _ _ _ _ _ _
  | .mmull _ _ _ _ _ | .mmacl _ _ _ _ _ | .mzero _ _ | .mrd _ _ _ _ | .mwr _ _ _ _ | .mstat _ _ => true
  | _ => false

/-- The wait of a Q syllable whose guard is true (R206, R220, R363, R453). -/
def State.qWait (s : State) (i : Instr) : Option Wait :=
  let core := s.core (coreOf s.id)
  if s.c.mhalted then some .matrix
  else if (qRes i = .array ∧ s.pkg.tick < core.arrayAt) ∨ (qRes i = .loader ∧ s.pkg.tick < core.loaderAt) then some .matrix
  else if s.exhausted s.c.region 2 then some .budget
  else if s.windowCap (coreOf s.id) ≤ s.windowUsed (coreOf s.id) then some .cap
  else none

/-- The vectors that a latent slot's descriptor references (R225). -/
def descVecs (d : BitVec 16) : List LvReg :=
  if d.getLsbD 15 then
    Fin.ofNat 16 d.toNat :: (if d.getLsbD 10 then [Fin.ofNat 16 (d.toNat / 16)] else [])
  else []

/-- The vectors that a latent state references. -/
def Lat.vecs (l : Lat) : List LvReg := descVecs l.rs ++ descVecs l.rb ++ descVecs l.cs ++ descVecs l.cb

/-- TDEV and LVMOV into a row wait for these vectors: none never closes or failed, and some has not closed (R237,
R238). -/
def vecWait (r : Regs) (vs : List LvReg) : Bool :=
  !(vs.any fun v => ((r.lv.get v).isOpen && !(r.lv.get v).closing) || (r.lv.get v).err)
    && vs.any fun v => (r.lv.get v).pend > 0 || (r.lv.get v).closing

/-- Hidden-latency writes outstanding to tiles of a cluster (R115). -/
def Ctx.clusterBusy (c : Ctx) (cl : Fin 4) : Bool :=
  (List.finRange 32).any fun t => clusterOf t = cl && c.xBusy (.t t)

/-- The arrival of the level that runs: a handler's leaves the task's as it is (R429). -/
def Ctx.arrival (c : Ctx) : Option BarWait := if c.isSup then c.supBarrier else c.barrier

/-- The context with another arrival of the level that runs. -/
def Ctx.setArrival (c : Ctx) (w : Option BarWait) : Ctx :=
  if c.isSup then { c with supBarrier := w } else { c with barrier := w }

/-- The context has arrived at a barrier and not yet left it. -/
def Ctx.arrivedAt (c : Ctx) (b : BitVec 8) : Bool := c.arrival.any fun w => w.bar == b

/-- The release of an FBAR's generation reached this context (R429, R430). -/
def Ctx.barrierDone (c : Ctx) (b : BitVec 8) : Bool :=
  match c.arrival with
  | some w => w.bar == b && w.released
  | none => false

/-- The header words of a queue in memory: WRITE and READ (R347). -/
def State.queueIdx (s : State) (q : Queue) : Nat × Nat := (s.wordOf q.base.toNat, s.wordOf (q.base.toNat + 8))

/-- LOG2N as it acts (R346). -/
def Queue.log2 (q : Queue) : Nat := if 4 ≤ q.log2n.toNat ∧ q.log2n.toNat ≤ 16 then q.log2n.toNat else 4

/-- The checks of QPOST, in order: the reason of R354. -/
def State.qpostBad (s : State) (q : Queue) (off : Word) (ty : Nat) : Option Nat :=
  if !q.en || !q.dev then some 1
  else if !(s.c.region.chain.any fun b => b.1 == q.region.toNat) then some 2
  else if off.toNat % 64 ≠ 0 ∨ off.toNat > 0x1FFFC0 then some 3
  else if ty = 0 ∨ 7 < ty then some 4
  else none

/-- The values that QPOST may read as the TYPE of a scratchpad packet, its first byte (R141, R277, R348). -/
def State.packetTypes (s : State) (off : Word) : List Nat :=
  let o := off.toNat % 2 ^ 21
  let pa := scratchAddr (coreOf s.id) o
  match pbufGet s.c.pbuf pa with
  | some b => [b.toNat]
  | none =>
    ((memGet s.mem pa :: (s.c.stale.filter (·.addr == pa)).map (·.val))
      ++ (s.c.unjoined.filter fun e => e.off == o && e.swz).map (·.old)).map (·.toNat)

/-- The header of a queue, its READ and WRITE, and the entry that a post fills next stand at addresses that are present;
else the first that does not (R18, R347). -/
def State.queueAbsent (s : State) (q : Queue) : Option Nat :=
  let b := q.base.toNat
  if s.place b == .absent then some b
  else
    let a := b + 64 + 64 * ((s.queueIdx q).1 % 2 ^ q.log2)
    if s.place a == .absent then some a else none

/-- A barrier that the context's region may use (R429). -/
def State.barrierOk (s : State) (b : BitVec 8) : Bool :=
  let k := s.barrierOf b.toNat
  k.en && k.region == s.c.region.id

/-- The wait of a syllable whose guard is true, beyond its busy registers. -/
def State.ownWait (s : State) (i : Instr) : Option Wait :=
  let c := s.c
  let r := c.regs
  if isQ i then s.qWait i
  else
    match i with
    | .tdev x _ _ => if vecWait r (r.xget x).lat.vecs then some .latent else none
    | .lvmovToRow _ _ lv => if vecWait r [lv] then some .latent else none
    | .rfmode mask =>
      if (List.finRange 4).any fun k => !mask.getLsbD k.val && c.clusters.get k == .awake && c.clusterBusy k then
        some .scoreboard
      else none
    | .copy _ _ | .copyg _ _ | .copya _ _ | .rxset _ _ | .rpost _ _ _ =>
      if 8 ≤ c.queue.length then some .engine else none
    | .send _ _ | .sendt _ _ =>
      if s.exhausted c.region 1 then some .budget else if 8 ≤ c.queue.length then some .engine else none
    | .waitm _ a v cond size _ =>
      let n := if size = 0 then 4 else 8
      match s.checkAtomic (r.a.get a) n .read with
      | .error _ => none
      | .ok pa =>
        if c.atomicAt pa n then some .engine
        else if (s.poisonIn pa n).isSome || waitCond cond (s.watch pa n) ((r.sget v).toNat % 2 ^ (8 * n)) then none
        else some .engine
    | .evwait a _ =>
      match s.checkAtomic (r.a.get a) 16 .read with
      | .error _ => none
      | .ok pa =>
        if c.atomicAt pa 16 then some .engine
        else if (s.poisonIn pa 16).isSome || signalled (s.watch pa 8) (s.watch (pa + 8) 8) then none
        else some .engine
    | .fbar b => if c.barrierDone b || (!c.arrivedAt b && !s.barrierOk b) then none else some .engine
    | .qpost v queue =>
      let q := s.sched.queues.get (Fin.ofNat 64 queue.toNat)
      if (s.packetTypes (r.sget v)).all fun ty => (s.qpostBad q (r.sget v) ty).isSome then none
      else
        let w := s.queueIdx q
        if !s.canPublish s.id c.seq then some .engine
        else if (s.queueAbsent q).isNone && (w.1 + 2 ^ 64 - w.2) % 2 ^ 64 ≥ 2 ^ q.log2 then some .engine else none
    | _ => none

/-- The wait of one syllable whose guard is true. One that reaches the scratchpad by offsets waits for an earlier atomic of
the context there (R277; log entry 42). `held` where its sources come from the held set, which no outstanding
operation changes (R375). -/
def State.slotWait (s : State) (held : Bool) (i : Instr) : Option Wait :=
  match (if held then i.tokensOn else i.scalarsOn).find? s.c.sPending with
  | some r => if s.c.tokenPending r then some .token else some .scoreboard
  | none =>
    if (if held then i.busyHeld else i.busyOn).any s.c.xBusy then some .scoreboard
    else if s.c.windowAtomic s.id && usesOffsets i s.c.regs then some .scoreboard
    else if i.global && s.exhausted s.c.region 0 then some .budget
    else s.ownWait i

/-- A line that an agent needs tokens of before a bundle issues, to read or to write, and the wait until they have come. -/
structure TokNeed where
  who : Agent
  line : Nat
  write : Bool
  wait : Wait

/-- The lines of the walks that a syllable makes. -/
def State.slotWalks (s : State) (i : Instr) : List Nat :=
  (s.c.regs.spans i).flatMap fun e => s.spanWalks (some (coreOf s.id)) s.c.region e.1 e.2

/-- The words that OnlySkipWords reads from `f` on (R108): up to the first that is no skip word. -/
def State.skipReads (s : State) (f : Nat) : Nat → List Nat
  | 0 => []
  | n + 1 =>
    match s.readCode f with
    | .ok w => if w = 0xFFFE then f :: s.skipReads (f + 2) n else [f]
    | .error _ => [f]

/-- Every word from `f` up to `e` is a skip word; a word that cannot be read is none (R108). -/
def State.skipRun (s : State) (f : Nat) : Nat → Bool
  | 0 => true
  | n + 1 =>
    match s.readCode f with
    | .ok w => w == 0xFFFE && s.skipRun (f + 2) n
    | .error _ => false

/-- OnlySkipWords of R108. -/
def State.onlySkips (s : State) (f e : VAddr) : Bool :=
  f.toNat < e.toNat && s.skipRun f.toNat ((e.toNat - f.toNat + 1) / 2)

/-- The words that it reads. -/
def State.onlyReads (s : State) (f e : VAddr) : List Nat :=
  if f.toNat < e.toNat then s.skipReads f.toNat ((e.toNat - f.toNat + 1) / 2) else []

/-- The words that the end check of R108 reads, over the levels from the innermost. -/
def State.endReads (s : State) : List Loop → VAddr → List Nat
  | [], _ => []
  | l :: ls, f =>
    s.onlyReads f l.fin ++
      (if (f = l.fin ∨ s.onlySkips f l.fin) ∧ l.count.toNat ≤ l.index.toNat + 1 then s.endReads ls l.fin else [])

/-- Where fetch may go after a bundle: on, or as its C slot sends it (R106, R107). -/
def Fetched.exits (f : Fetched) (r : Regs) : Instr → List VAddr
  | .br _ off => [f.np, f.pc + 2 * off.signExtend 48]
  | .call off => [f.pc + 2 * off.signExtend 48]
  | .bri x => [(r.sget x).setWidth 48]
  | .ret => [(r.sget 62).setWidth 48]
  | _ => []

/-- The code words that the LOOP of a bundle and the end check after it read (R107, R108). -/
def State.endWords (s : State) (f : Fetched) (slots : List (Nat × Instr)) : List Nat :=
  let r := s.c.regs
  let ls := r.loops.reverse
  let body := fun (len : BitVec 13) =>
    let fin := f.np + 2 * len.setWidth 48
    s.onlyReads f.np fin ++ s.endReads ls fin
  let moved := slots.flatMap fun e => f.exits r e.2
  let own := slots.flatMap fun e => match e.2 with
    | .loopImm _ len | .loopReg _ len => body len
    | .loopx => s.endReads ls.tail f.np
    | _ => []
  own ++ (if moved.isEmpty then [f.np] else moved).flatMap (s.endReads ls)

/-- The lines of the code words that the end check of a bundle reads through the die's L2, a token of each (R28, R108). -/
def State.endLines (s : State) (f : Fetched) (slots : List (Nat × Instr)) : List Nat :=
  ((s.endWords f slots).flatMap fun a => s.spanLines (some (coreOf s.id)) s.c.region s.c.isSup .fetch a 2).eraseDups

/-- What a syllable whose guard is true needs: the lines of its walks (R142, R300); of a wait the watched line at the home
(R287, R289); of QPOST the lines that its publication writes, at the L2, and those of the queue at their homes (R299,
R354). DEDUCED, log entry 107: these waits of QPOST are engine waits, as its wait for room is (R360). -/
def State.slotNeeds (s : State) (slots : List (Nat × Instr)) (i : Instr) : List TokNeed :=
  let x := s.id
  let via := some (coreOf x)
  let l2 := l2Of (coreOf x)
  let r := s.c.regs
  let walks := (s.slotWalks i).map fun l => ⟨l2, l, false, .scoreboard⟩
  let watched := fun (a : AReg) (n : Nat) =>
    match s.checkAtomic (r.a.get a) n .read with
    | .ok pa => [⟨s.homeOf (lineOf pa), lineOf pa, false, .engine⟩]
    | .error _ => []
  match i with
  | .waitm _ a _ _ size _ => walks ++ watched a (sizeBytes size)
  | .evwait a _ => walks ++ watched a 16
  | .qpost _ queue =>
    let q := s.sched.queues.get (Fin.ofNat 64 queue.toNat)
    let own := slots.flatMap fun e =>
      if storesGlobal e.2 && r.guard e.2.guard then
        (r.spans e.2).flatMap fun p => s.spanLines via s.c.region s.c.isSup .write p.1 p.2
      else []
    let b := q.base.toNat
    (s.bufferLines x s.c.seq ++ own).map (fun l => ⟨l2, l, true, .engine⟩)
      ++ [lineOf b, lineOf (b + 64 + 64 * ((s.queueIdx q).1 % 2 ^ q.log2))].map fun l => ⟨s.homeOf l, l, true, .engine⟩
  | _ => walks

/-- What a bundle needs of tokens: for the end check after it (R28), and for its slots. -/
def State.bundleNeeds (s : State) (f : Fetched) (slots : List (Nat × Instr)) : List TokNeed :=
  if s.coherent then
    (s.endLines f slots).map (fun l => ⟨l2Of (coreOf s.id), l, false, .fetch⟩)
      ++ slots.flatMap fun e => if s.c.regs.guard e.2.guard then s.slotNeeds slots e.2 else []
  else []

/-- The needs of a bundle have been met. -/
def State.needsMet (s : State) (l : List TokNeed) : State := l.foldl (fun t n => t.needMet n.who [n.line] n.write) s

/-- An order wait of every ordered syllable is in force (R275). -/
def Ctx.orderWait (c : Ctx) : Bool := c.phase.isSome || c.atomics.any fun a => a.acquire.isSome

/-- The wait of a bundle. -/
def State.bundleWait (s : State) (held : Bool) (slots : List (Nat × Instr)) : Option Wait :=
  let c := s.c
  if c.orderWait && slots.any (·.2.ordered) then some .order
  else if c.vjoin && slots.any (·.2.scratch c.regs) then some .order
  else
    match slots.findSome? fun e => if c.regs.guard e.2.guard then s.slotWait held e.2 else none with
    | some w => some w
    | none =>
      if 0 < s.pkg.slewLimit ∧ s.pkg.slewLimit ≤ s.pkg.slewEstimate ∧ slots.any fun e => 5 ≤ e.1 && e.1 != 8 then
        some .slew
      else none

/-! ## Trace rings (R456-R460) -/

/-- The 32 bytes of a record (R456). -/
def TraceRec.bytes (r : TraceRec) : List Byte :=
  leBytes 8 r.payload.toNat ++ leBytes 8 r.stamp.toNat
    ++ leBytes 8 (fld r.core.toNat 55 + fld r.ctx.toNat 53 + fld r.sup.toNat 52 + fld r.ty.toNat 48 + r.pc.toNat)
    ++ leBytes 8 (fld r.kind.toNat 56 + r.cycle.toNat)

/-- LOG2N of a ring as it acts; 0 disables it (R458). -/
def Ring.log2 (r : Ring) : Nat :=
  let n := r.log2n.toNat
  if n = 0 then 0 else if n < 7 then 7 else if 20 < n then 20 else n

/-- A ring has no room, or is disabled. -/
def Ring.closed (r : Ring) : Bool := r.log2 == 0 || 2 ^ r.log2 ≤ (r.head - r.tail).toNat

/-- A ring of a die. -/
def State.ring (s : State) (d : Nat) (one : Bool) : Ring :=
  let t := s.pkg.traces.get (Fin.ofNat 8 d)
  if one then t.ring1 else t.ring0

/-- The address of the next record of a ring. -/
def Ring.next (r : Ring) : Nat := r.base.toNat + 32 * (r.head.toNat % 2 ^ r.log2)

/-- A record written to a ring and published, then HEAD; or dropped (R458). -/
def State.ringPut (s : State) (d : Nat) (one : Bool) (rec : TraceRec) : State :=
  let r := s.ring d one
  if r.closed then s.modRing d one fun r => { r with lost := r.lost + 1 }
  else
    let s1 := if plainPlace (s.place r.next) then s.hostWrite r.next rec.bytes else s
    s1.modRing d one fun r => { r with head := r.head + 1 }

/-- The line that the next record of a ring is written to, at its home (log entry 97). -/
def State.ringLines (s : State) (d : Nat) (one : Bool) : List Nat :=
  let r := s.ring d one
  if r.closed then [] else [lineOf r.next].filter s.tokened

/-- The die of the focused context's core. -/
def State.die (s : State) : Nat := coreOf s.id / 40

/-- A record goes before another in a ring or FIFO: at an earlier clock, else from a lower core, then context (R457). -/
def TraceRec.before (a b : TraceRec) : Bool :=
  a.clock < b.clock || (a.clock == b.clock && (a.core < b.core || (a.core == b.core && a.ctx ≤ b.ctx)))

/-- A record put in its place, after those of its own context. -/
def insertRec (r : TraceRec) : List TraceRec → List TraceRec
  | [] => [r]
  | k :: ks => if k.before r then k :: insertRec r ks else r :: k :: ks

/-- Records in the order of R457. -/
def sortRecs (l : List TraceRec) : List TraceRec := l.foldl (fun acc r => insertRec r acc) []

/-- A record enters the FIFO of its die, or is lost where it finds that full (R456, R457). -/
def State.fifoStep (s : State) (r : TraceRec) : State :=
  s.modTrace (r.core.toNat / 40) fun t =>
    if t.fifo.length < 1024 then { t with fifo := t.fifo ++ [r] } else { t with ring0 := { t.ring0 with lost := t.ring0.lost + 1 } }

/-- The records of clocks that are over enter the FIFOs of their dies in order (R457). -/
def State.fifoFlush (s : State) : State :=
  if s.pkg.traced.isEmpty then s
  else
    let s1 : State := { s with pkg := { s.pkg with traced := s.pkg.traced.filter fun r => s.pkg.tick ≤ r.clock } }
    (sortRecs (s.pkg.traced.filter fun r => r.clock < s.pkg.tick)).foldl State.fifoStep s1

/-- A record about a bundle of the focused context that issues at `pc` now (R456). -/
def State.traceRec (s : State) (pc : VAddr) (ty : BitVec 4) (payload : Word) (kind : BitVec 8) : TraceRec where
  payload := payload
  stamp := BitVec.ofNat 64 s.time
  core := BitVec.ofNat 9 (coreOf s.id)
  ctx := BitVec.ofNat 2 (s.id % 4)
  sup := s.c.isSup
  ty := ty
  pc := pc
  kind := kind
  cycle := BitVec.ofNat 48 s.c.now
  clock := s.pkg.tick

/-- A record of an interlock or a drift on its way to ring 1, past the FIFO (R459). -/
def State.driftPut (s : State) (rec : TraceRec) : State := { s with pkg := { s.pkg with drifts := s.pkg.drifts ++ [rec] } }

/-- A record of a clock that has passed enters ring 1 of its die; where the home of its place lacks tokens it stays, and so do
the die's records behind it. -/
def State.driftStep (s : State) (r : TraceRec) : State :=
  let d := r.core.toNat / 40
  let wait : State := { s with pkg := { s.pkg with drifts := s.pkg.drifts ++ [r] } }
  if s.pkg.drifts.any fun k => k.clock < s.pkg.tick && k.core.toNat / 40 == d then wait
  else
    match s.homeMissing (s.ringLines d true) true with
    | some l => wait.addNeed (s.homeOf l) l true (.ring d true) none
    | none => ((s.ringPut d true r).homesMet (s.ringLines d true) true).dropAsker (.ring d true)

/-- The records of clocks that have passed enter ring 1 of their dies, in the order of R457 (R459). -/
def State.driftFlush (s : State) : State :=
  if s.pkg.drifts.isEmpty then s
  else
    let s1 : State := { s with pkg := { s.pkg with drifts := s.pkg.drifts.filter fun r => s.pkg.tick ≤ r.clock } }
    (sortRecs (s.pkg.drifts.filter fun r => r.clock < s.pkg.tick)).foldl State.driftStep s1

/-- What enters counters, FIFOs and rings once its clock is over (R457, R459, R463). -/
def State.clocksOver (s : State) : State := s.countFlush.fifoFlush.driftFlush

/-- CAUSE of the interlock record: the last wait that held the bundle, a switch-in among them (R460). -/
def State.interlockCause (s : State) : BitVec 8 := if (s.core (coreOf s.id)).switched then 9 else s.c.waitCause

/-- The interlock record that an armed context makes for a bundle of task mode (R459); CLOCKS count from the end of the STALL
cycles of its last bundle (R460). -/
def State.interlockRec (s : State) (pc : VAddr) : State :=
  if s.c.interlock = 0 ∨ s.c.isSup then s
  else
    let cause := s.interlockCause
    let clocks := if cause = 0 then 0 else (s.pkg.tick - s.c.freeAt) / s.clk
    let s1 := s.driftPut (s.traceRec pc 2 (BitVec.ofNat 64 (fld cause.toNat 56 + clocks % 2 ^ 48)) 0)
    { s1 with c := { s1.c with interlock := s1.c.interlock - 1 } }

/-! ## The boundary before a bundle -/

/-- No other context owns a counter of the core while it runs: the context may write it (R463). -/
def State.evOwn (s : State) (k : Nat) : Bool :=
  let sel := (s.core (coreOf s.id)).evsel.get (Fin.ofNat 8 k)
  !(sel.getLsbD 39 && bitsOf sel 36 2 != s.id % 4)

/-- A core counter register written by a context, if no other context owns the counter while it runs (R463). -/
def State.evWrite (s : State) (k : Nat) (v : Word) : State :=
  let n := Fin.ofNat 8 k
  let sel := (s.core (coreOf s.id)).evsel.get n
  if !s.evOwn k then s
  else s.modCore (coreOf s.id) fun c =>
    if k < 8 then { c with evsel := c.evsel.set n (evselWrite sel v (s.id % 4)) }
    else { c with evcnt := c.evcnt.set n (v &&& 0xFFFFFFFFFFFF) }

/-- The core counter selections among the results of a landing, which are state of the core (R119, R463). -/
def State.landCounters (s : State) (l : Landing) : State :=
  l.writes.foldl (fun s w => match w with
    | .sys num v => if 0x080 ≤ num.toNat ∧ num.toNat < 0x088 then s.evWrite (num.toNat - 0x080) v else s
    | _ => s) s

/-- Results of the focused context that are due by a schedule time which it has reached land, those on its core among them
(R36). -/
def State.landAt (s : State) (sc : Nat) : State :=
  let s1 := (s.c.flight.filter fun l => l.due ≤ sc).foldl State.landCounters s
  { s1 with c := s1.c.landBy sc }

/-- The results that are due by the sc of the next bundle land, whether or not it waits (R36; log entry 89). -/
def State.landNow (s : State) : State := s.landAt s.c.now

/-- As a bundle issues, what its wait has kept in flight lands (R36, R94). -/
def State.landRest (s : State) : State := if s.c.flight.any fun l => l.due ≤ s.c.now then { s with c := s.c.landDue } else s

/-- The results of a context that are due by now land, before something else happens to its registers in real time: an operation
of its own with hidden latency completes (R36, R90, R228, R235). -/
def State.reach (s : State) (x : Nat) : State :=
  let sc := s.reached (s.ctx x)
  if (s.ctx x).flight.any fun l => l.due ≤ sc then ((s.focus x).landAt sc).focus s.id else s

/-- Every result in flight of the focused context's level lands. -/
def State.landEvery (s : State) : State :=
  let s1 := s.c.flight.foldl State.landCounters s
  { s1 with c := s1.c.landAll }

/-- Results and wakes that are due take effect (R36, R115). -/
def State.settle (s : State) : State :=
  let s1 := s.landNow
  { s1 with c := s1.c.wakeAll }

/-! ## Opening a bundle -/

/-- Reading a token joins its command: its writes are then the context's to publish, and it reads no older byte, through
either view of the scratchpad (R141, R262, R263). -/
def Ctx.joinReg (x : Nat) (c : Ctx) (r : SReg) : Ctx :=
  match c.unread.find? (·.1 == r) with
  | none => c
  | some (_, n) =>
    { c with
      unread := c.unread.filter fun e => e.1 != r
      joined := c.joined ++ [n]
      unjoined := c.unjoined.filter fun e => !e.overBy.contains n
      stale := dropStale (fun e => e.src == 2000 + x && e.seq == n) c.stale }

/-- The tokens that a bundle reads are joined as it issues, and so before a PHASE or a release of that bundle (R284; log
entry 96). -/
def Ctx.joinReads (c : Ctx) (x : Nat) (slots : List (Nat × Instr)) : Ctx :=
  if c.unread.isEmpty then c
  else
    slots.foldl (fun c e =>
      if c.regs.guard e.2.guard then e.2.scalarsOn.foldl (Ctx.joinReg x) c else c) c

/-- The tagged PCs with a bundle stored again for one whose bundle a save has left out (R111). -/
def LoopBuf.again (l : LoopBuf) (pc : VAddr) (stored : VAddr × Option (List (BitVec 16) × Bool × VAddr)) :
    List (VAddr × Option (List (BitVec 16) × Bool × VAddr)) :=
  l.tagged.map fun e => if e.1 = pc ∧ e.2.isNone then stored else e

/-- The loop-buffer tag as a bundle at a PC issues (R111): of a tag that was set with no level active, the end at a bundle
outside it is taken whatever levels are active then (log entry 70). -/
def LoopBuf.issue (l : LoopBuf) (f : Fetched) : LoopBuf :=
  let stored := (f.pc, some (f.words.map (BitVec.ofNat 16), f.sheaf, f.np))
  if 0 < l.left then
    { l with left := l.left - 1, tagged := if l.tagged.any (·.1 == f.pc) then l.again f.pc stored else l.tagged ++ [stored] }
  else if l.tagged.any (·.1 == f.pc) then { l with tagged := l.again f.pc stored }
  else if l.depth = 0 then LoopBuf.none
  else l

/-- The counters of L1 and TLB misses of the core: a free number of events (R464; log entry 38). Counter `n` of core `k`
has number 1024 + 8 k + n. -/
def State.cacheCore (s : State) : State :=
  let core := coreOf s.id
  (List.finRange 8).foldl (fun t n =>
    let ev := ((t.core core).evsel.get n).toNat % 2 ^ 16
    if ev = 0x0D ∨ ev = 0x0E then
      t.countIn t.id ev (Config.cacheEvents t.pkg.tick (1024 + 8 * core + n.val) ((t.core core).evcnt.get n).toNat) n
    else t) s

/-- Clock cycles charged to the context that holds its core: counted, held and, when it stalls, kept (R112, R361,
R464). -/
def State.holdClocks (s : State) (n : Nat) (stalled : Bool) : State :=
  let s1 := s.modCore (coreOf s.id) fun k => { k with held := k.held + n }
  let s2 : State := if stalled then { s1 with c := { s1.c with stalled := s1.c.stalled + n } } else s1
  (s2.countEv s2.id 0 n).cacheCore.cacheDies (some s2.c.region)

/-- The first slot that reads a register which a poisoned load has left busy, the register and the line (R153). -/
def Ctx.poisonRead (c : Ctx) (slots : List (Nat × Instr)) : Option (Nat × SReg × BitVec 64) :=
  if c.spoison.isEmpty then none
  else
    slots.findSome? fun e =>
      if c.regs.guard e.2.guard then
        e.2.scalarsOn.findSome? fun r => (c.spoison.find? (·.1 == r)).map fun p => (e.1, r, p.2)
      else none

/-- The context goes on with a bundle after a fault of one of its slots (R381). -/
def Ctx.resumes (c : Ctx) : Bool := !c.isSup && c.sys.slotv

/-- What the fetch of a bundle, its end check and the walks of its slots read of HBM, charged to the region (R363). -/
def State.chargeIssue (s : State) (f : Fetched) (slots : List (Nat × Instr)) : State :=
  if s.c.region.budgets.isEmpty then s
  else
    s.chargeReads s.c.region
      (s.fetchLines ++ s.endLines f slots ++ slots.flatMap fun e => if s.c.regs.guard e.2.guard then s.slotWalks e.2 else [])

/-- The bundle opens: its slots read what stands now (R36, R276). `held` replaces it in a resumed bundle (R381), for which
no register is read and no token is joined again. A resumed bundle is no other bundle issued: it was counted, tagged and
recorded as it first issued (R111, R459, R464; log entry 99). What a split bundle has decided is kept through the bundles
of a handler (R372). -/
def State.openBundle (s : State) (f : Fetched) (slots : List (Nat × Instr)) (held : Option Held)
    (split : Option Split) : State :=
  let t := max s.pkg.tick (s.core (coreOf s.id)).readyAt
  let s0 := ((s.chargeIssue f slots).until t).clocksOver.landRest
  let again := s0.c.resumes
  let c := if held.isSome then s0.c else s0.c.joinReads s0.id slots
  let view := (held.map (·.regs)).getD c.regs
  let sp : Split := match split with
    | some k => if k.pc = f.pc then k else ⟨f.pc, f.np, none, false⟩
    | none => ⟨f.pc, f.np, none, false⟩
  let old := if again then c.old else (c.stale, if c.vjoin then [] else c.unjoined)
  let s1 : State :=
    { s0 with
      bundle :=
        { isOpen := true
          view := view
          mem := s0.mem
          table := (held.map (·.table)).getD s0.mem
          slots := slots
          slot := 0
          pc := f.pc
          np := f.np
          target := sp.target
          stall := f.words.headD 0 / 1024 % 16
          again := again
          old := old
          pbuf := c.pbuf
          tpbuf := (held.map (·.pbuf)).getD c.pbuf
          bad := if held.isSome then none else c.poisonRead slots
          eret := false
          exit := sp.exit
          yields := sp.yields
          soft := none }
      c := { c with
        seq := c.seq + 1
        lbuf := if again then c.lbuf else c.lbuf.issue f
        split := if c.isSup then c.split else none
        old := if c.isSup then c.old else old
        bpSkip := false } }
  let s2 := if again then s1 else (s1.interlockRec f.pc).modCore (coreOf s1.id) fun k => { k with switched := false }
  let s3 : State := { s2 with c := { s2.c with waitRun := 0, waitCause := 0 } }
  let s4 := if again then s3 else s3.countEv s3.id 1 1
  s4.fillSpan (some (coreOf s4.id)) s4.c.region f.pc.toNat (f.np - f.pc).toNat

/-! ## Breakpoints and stops -/

/-- The lowest enabled breakpoint at the PC (R461). -/
def Ctx.breakAt (c : Ctx) (pc : VAddr) : Option (Fin 8) :=
  if c.isSup || c.bpSkip then none
  else (List.finRange 8).find? fun i =>
    (c.sys.bpa.get i).getLsbD 0 && ((c.sys.bpa.get i).toNat / 2 % 2 ^ 47 == pc.toNat / 2)

/-- What an attempt to issue does: something else happens in its place, the bundle waits, or it opens. -/
inductive Try where
  | instead (s : State)
  | wait (w : Wait) (s : State)
  | opened (s : State)

/-- A debug stop is taken: issue stops and every exposed result in flight lands, D sc later (R387). -/
def State.debugStop (s : State) : State :=
  let c := s.c
  let d := (c.flight.map (·.due)).foldl (fun (m : Nat) x => max m (x - c.now)) 0
  let c1 : Ctx := if c.isSup then { c with ssc := c.ssc + d } else { c with sc := c.sc + d }
  let s0 := ({ s with c := c1 } : State).landEvery
  let s1 := ({ s0 with c := s0.c.wakeAll } : State).countEv s.id 2 d
  { s1 with c := { s1.c with mode := .debug d, debugReq := false } }

/-- The first FBAR of a bundle. -/
def fbarOf (slots : List (Nat × Instr)) : Option (BitVec 8) :=
  slots.findSome? fun e => match e.2 with
    | .fbar b => some b
    | _ => none

/-- The packet that a chip sends to a barrier's root when its own arrivals are complete (R413, R429). -/
def Barrier.arrival (k : Barrier) (b : BitVec 8) : Packet :=
  { Packet.blank with region := k.region, dstChip := k.root, kind := 2, dst := b.setWidth 48, seq := k.gen }

/-- The arrival of a context at a barrier: its stores and joined writes published at sys scope, and its arrival recorded;
with LOCAL of them the chip tells the root (R429). The bundle of FBAR has not issued, so the store of its A slot is no
part of what is published (R276; log entry 95). -/
def State.arrive (s : State) (b : BitVec 8) : State :=
  let s1 := s.publishAll s.id Pub.atSys
  let k := s1.barrierOf b.toNat
  let k' : Barrier := { k with arrived := k.arrived + 1 }
  let s2 := s1.modBarrier b.toNat fun _ => k'
  let s3 : State := { s2 with c := s2.c.setArrival (some ⟨b, k.gen, false⟩) }
  if k'.arrived = k'.localN then s3.sendControl (k'.arrival b) else s3

/-- The budget notice of a throttled context (R363). -/
def State.notice (s0 : State) (w : Wait) : Option State :=
  let s := s0.rolled
  if w = .budget ∧ s.c.region.notify ∧ !s.c.noticed then
    let k := (List.range 3).find? fun k => s.exhausted s.c.region k
    some { s with c := { s.c.raiseIrq 0x87 (BitVec.ofNat 64 (k.getD 0)) with noticed := true } }
  else none

/-- A bundle waits, a throttled one with its notice, or opens; `v` is the state with what its sources come from. -/
def State.openOr (s v : State) (f : Fetched) (slots : List (Nat × Instr)) (held : Option Held)
    (split : Option Split) : Try :=
  match v.bundleWait held.isSome slots with
  | some w => match s.notice w with
    | some s' => .instead s'
    | none => .wait w s
  | none =>
    let needs := v.bundleNeeds f slots
    match needs.find? fun n => !s.canUse n.who n.line n.write with
    | some n => .wait n.wait (s.addNeed n.who n.line n.write (.bundle s.id) s.c.owner)
    | none => .opened ((s.needsMet needs).openBundle f slots held split)

/-- The waits and the opening of a bundle whose checks have passed. -/
def State.tryOpen (s : State) (f : Fetched) (slots : List (Nat × Instr)) (held : Option Held)
    (split : Option Split) : Try :=
  let v : State := match held with
    | some h => { s with c := { s.c with regs := h.regs } }
    | none => s
  match fbarOf slots with
  | some b =>
    if s.barrierOk b && !s.c.arrivedAt b && !s.c.orderWait then
      let l2 := l2Of (coreOf s.id)
      let lines := s.bufferLines s.id s.c.seq
      if !s.canPublish s.id s.c.seq then .wait .engine s
      else match s.missing l2 lines true with
      | some l => .wait .engine (s.addNeed l2 l true (.bundle s.id) s.c.owner)
      | none => .instead (((s.arrive b).needMet l2 lines true).markDirty l2 lines)
    else s.openOr v f slots held split
  | none => s.openOr v f slots held split

/-- The slots of a resumed bundle at or after SLOT, decoded anew (R381). DESIGN CHOICE, log entry 109: of a bundle that a handler
has put in its place, a syllable that decodes to no instruction does nothing. -/
def resumedSlots (r : Regs) (f : Fetched) (slot : Nat) : List (Nat × Instr) :=
  (cutSlots (presentOf (f.words.headD 0)) (f.words.drop 1)).filterMap fun e =>
    if slot ≤ e.1 then
      match slotCheck r [] e.1 e.2 with
      | .ok i => some (e.1, i)
      | .error _ => none
    else none

/-- A resumed bundle: no check but that of sleeping clusters, whose trap keeps SLOT and the held set (R381). -/
def State.tryResume (s : State) (f : Fetched) : Try :=
  let c := s.c
  let slots := resumedSlots ((c.held.map (·.regs)).getD c.regs) f c.sys.slot.toNat
  match c.sleepCheck slots with
  | some (b, t) => .instead (s.enter 0x05 (BitVec.ofNat 64 (b * 256 + t.val)) f.pc true none)
  | none =>
    let used := fun (s : State) => { s with c := { s.c with
      sys := { s.c.sys with slotv := false }, held := none } }
    match s.tryOpen f slots c.held c.split with
    | .opened s' => .opened (used s')
    | t => t

/-- An attempt of the focused context to issue at its fetch address, what is due having landed. An odd address, which a
handler's TEPC (R381) or a handler address (log entry 71) leaves, faults 0x0A before any fetch. DEDUCED, log entry 100: a
bundle that opens enters the history with every syllable present, those of slots that a fault leaves uncommitted among
them (R42). -/
def State.tryFetch (s0 : State) : Try :=
  let c := s0.c
  let l2 := l2Of (coreOf s0.id)
  let lines := if s0.coherent then s0.fetchLines else []
  if c.pc.getLsbD 0 then .instead (s0.issueTrap c.pc 0x0A (c.pc.setWidth 64))
  else
    match s0.missing l2 lines false with
    | some l => .wait .fetch (s0.addNeed l2 l false (.bundle s0.id) c.owner)
    | none =>
      let s := s0.needMet l2 lines false
      match s.fetch with
    | .error (cause, v, pc) => .instead (s.issueTrap pc cause v)
    | .ok f =>
      if c.resumes then s.tryResume f
      else
        match c.issueChecks f with
        | .error (cause, v) => .instead (s.issueTrap f.pc cause v)
        | .ok slots =>
          match s.tryOpen f slots none none with
          | .opened s' => .opened { s' with c := { s'.c with hist := c.histAfter slots } }
          | t => t

/-- The PC of the bundle that would issue next, its skip words passed; the fetch address where a word cannot be read. -/
def State.nextPc (s : State) : Nat → VAddr → VAddr
  | 0, pc => pc
  | fuel + 1, pc =>
    match s.c.lbuf.stored pc, s.readCode pc.toNat with
    | none, .ok w => if w = 0xFFFE then s.nextPc fuel (pc + 2) else pc
    | _, _ => pc

/-- The matched breakpoint of the bundle that would issue. -/
def State.breakpoint (s : State) : Option (Fin 8) :=
  if (List.finRange 8).all fun i => !(s.c.sys.bpa.get i).getLsbD 0 then none else s.c.breakAt (s.nextPc (2 ^ 47) s.c.pc)

/-- The pending interrupt of highest priority is taken; one of the matrix unit ends the halt of its queue, and one of
either unit refreshes the context at pkg scope (R220, R359, R377). -/
def State.interrupt (s : State) : State :=
  match s.c.topIrq with
  | none => s
  | some (cause, _) =>
    let s1 : State := if cause = 0x86 then { s with c := { s.c with mhalted := false } } else s
    let s2 := if cause = 0x86 ∨ cause = 0x82 then s1.refresh s1.id 1 else s1
    s2.takeIrq

/-- What is due at a context's boundary before a bundle may issue (R379, R461; log entry 21). -/
inductive Due where
  | stop | preempt | irq | trap (n : Fin 8) | none
deriving DecidableEq, Repr

/-- What is due first: a breakpoint's stop or trap (R461), then a debug stop by a request, then pre-emption, then in task mode
an interrupt (R379). -/
def State.due (s : State) : Due :=
  let c := s.c
  match s.breakpoint with
  | some i => if (c.sys.bpa.get i).getLsbD 48 then .trap i else .stop
  | .none =>
    if c.debugReq then .stop
    else if c.preemptReq then .preempt
    else if !c.isSup && c.topIrq.isSome then .irq
    else .none

/-- The pre-emption of a context at a boundary: it stops issuing (R384). -/
def State.stopForSave (s : State) : State := { s with c := { s.c with mode := .preempting, preemptReq := false } }

/-- An attempt of the focused context to issue (R379): what is due first, else the bundle. The core is free again once the
bundle before has had its clock cycles. What is due at the sc of the bundle lands as that is reached (log entry 89). -/
def State.tryIssue (s0 : State) : Try :=
  let s := (s0.until (s0.core (coreOf s0.id)).readyAt).countFlush.settle
  let c := s.c
  if c.task.isNone || c.mode != .run then .instead s0
  else
    match s.due with
    | .stop => .instead s.debugStop
    | .preempt => .instead s.stopForSave
    | .irq => .instead s.interrupt
    | .trap i => .instead (s.issueTrap (s.nextPc (2 ^ 47) c.pc) 0x10 (BitVec.ofNat 64 (2 ^ 63 + i.val)))
    | .none => s.tryFetch

/-- Clock cycles of a wait of a cause by the focused context, which holds its core: schedule time stands still (R35, R360,
R464). -/
def State.waitClocks (s : State) (cause : BitVec 8) (n : Nat) : State :=
  let run := if s.c.waitCause = cause then s.c.waitRun + n else n
  let s1 := ({ s with c := { s.c with waitRun := run, waitCause := cause } } : State).holdClocks n true
  if cause.toNat ≤ 8 then s1.countEv s1.id (2 + cause.toNat) n else s1

/-- One clock cycle of a wait. -/
def State.stallClock (s : State) (w : Wait) : State :=
  let s1 := ((s.modCore (coreOf s.id) fun k => { k with switched := false }).waitClocks (BitVec.ofNat 8 w.cause) 1).wait 1
  s1.modCore (coreOf s1.id) fun k => { k with paidTo := s1.pkg.tick }

/-- The clock cycles that have passed since the holder of a core last moved are charged to it: it has held its core and
stalled, in the wait that it was in, if any (R112, R361, R464). -/
def State.catchUp (s : State) (core : Nat) : State :=
  let k := s.core core
  let x := 4 * core + k.holder.val
  let n := (s.pkg.tick - k.paidTo) / s.clk
  if n = 0 then s
  else
    let s1 := s.modCore core fun k => { k with paidTo := k.paidTo + n * s.clk }
    if (s1.ctx x).task.isNone then s1
    else
      let t := ({ s1 with pkg := { s1.pkg with tick := k.paidTo } } : State).focus x
      ((if t.c.waitRun = 0 then t.holdClocks n true else t.waitClocks t.c.waitCause n).until s.pkg.tick).focus s.id

/-- The slot that commits is the first to read a register that a poisoned load left busy: it faults 0x14 in its place, and
the mark has been reported (R153, R369; log entry 17). -/
def State.firstRead (s : State) (slot : Nat) : Option State :=
  match s.bundle.bad with
  | some (b, r, l) =>
    if b = slot then
      some (({ s with c := { s.c with spoison := s.c.spoison.filter fun p => p.1 != r } } : State).slotFault 0x14 l)
    else none
  | none => none

/-! ## Closing a bundle -/

/-- The end check of R108 over the levels, innermost first. -/
def State.endCheck (s : State) : List Loop → VAddr → List Loop × VAddr
  | [], f => ([], f)
  | l :: ls, f =>
    if f ≠ l.fin ∧ !s.onlySkips f l.fin then (l :: ls, f)
    else if l.index.toNat + 1 < l.count.toNat then ({ l with index := l.index + 1 } :: ls, l.start)
    else s.endCheck ls l.fin

/-- The tag after levels have popped (R111). -/
def LoopBuf.popped (l : LoopBuf) (depth : Nat) : LoopBuf := if depth < l.depth then LoopBuf.none else l

/-- The fetch address and loop stack after the bundle. -/
def State.afterBundle (s : State) : State :=
  let r := s.endCheck s.c.regs.loops.reverse s.bundle.target
  { s with c := { s.c with
    pc := r.2
    regs := { s.c.regs with loops := r.1.reverse }
    lbuf := s.c.lbuf.popped r.1.length } }

/-- The schedule cycles of a bundle pass (R34); those of a handler are a stall of the task (R35, R112). -/
def State.passCycles (s : State) (n : Nat) : State :=
  let c := s.c
  let c' : Ctx := if c.isSup then { c with ssc := c.ssc + n } else { c with sc := c.sc + n }
  let s1 := ({ s with c := c' } : State).holdClocks n c.isSup
  let s2 := s1.modCore (coreOf s1.id) fun k => 
    let t := max k.readyAt s1.pkg.tick + n * s1.clk
    { k with readyAt := t, paidTo := t }
  let s3 := s2.countEv s2.id 2 n
  { s3 with c := { s3.c with freeAt := (s3.core (coreOf s3.id)).readyAt } }

/-- A context of the core can issue: bound, running and held by no wait (R360). -/
def State.readyCtx (s : State) (x : Nat) : Bool :=
  let c := s.ctx x
  c.task.isSome && c.mode == .run &&
    (match (s.focus x).tryIssue with
    | .wait _ _ => false
    | _ => true)

/-- The next ready context of the core, in the order of R360. -/
def State.nextReady (s : State) : Option Nat :=
  let core := coreOf s.id
  ([1, 2, 3].map fun k => 4 * core + (s.id % 4 + k) % 4).find? s.readyCtx

/-- The core switches to a context, at a cost of 4 clock cycles (R360). -/
def State.switchTo (s : State) (y : Nat) : State :=
  let s1 := s.countEv s.id 0x0B 1
  let s2 := s1.modCore (coreOf s1.id) fun k =>
    let t := max k.readyAt s1.pkg.tick + 4 * s1.clk
    { k with holder := Fin.ofNat 4 y, held := 0, readyAt := t, paidTo := t, switched := true }
  s2.focus y

/-- EXIT once every slot has committed: a fault end where the handler ends the task after a synchronous trap (R114,
R376). -/
def Ctx.exitWith (c : Ctx) (code : BitVec 26) : Ctx :=
  let k := c.sys.tcause
  if c.isSup && k != 0 && !k.getLsbD 7 && k != 0x0F && k != 0x10 then c.beginExit (faultCode k) true
  else c.beginExit code false

/-- ERET once every slot has committed: the bundle stalls until the supervisor's results have landed, with the
supervisor's schedule time frozen, then the task resumes; a wake that is due by then takes effect at its next boundary (R35, R115,
R381; log entry 69). -/
def State.returnFrom (s : State) : State :=
  let d := (s.c.flight.map (·.due)).foldl (fun (m : Nat) x => max m (x - s.c.ssc)) 0
  let s0 := (s.holdClocks d true).wait d
  let s1 := (s0.modCore (coreOf s0.id) fun k => { k with paidTo := s0.pkg.tick }).landEvery
  { s1 with c := { s1.c.eret with bpSkip := true, freeAt := max s1.c.freeAt s1.pkg.tick } }

/-- The bundle closes: its slots have committed; the end check and its schedule cycles follow, then EXIT, ERET, the
trap of a TRAP or BKPT with no later slot, at whose entry the results that are due have landed (R36, R371), or YIELD. -/
def State.closeBundle (s : State) : State :=
  let b := s.bundle
  let s1 := s.drainOver.afterBundle.passCycles (1 + b.stall)
  let s2 : State := { s1 with bundle := Bundle.none }
  match b.exit with
  | some code => { s2 with c := s2.c.exitWith code }
  | none =>
    if b.eret then s2.returnFrom
    else if let some (cause, val) := b.soft then s2.settle.enter cause val s2.c.pc false none
    else if b.yields then
      match s2.nextReady with
      | some y => s2.switchTo y
      | none => s2
    else s2

end Sys2Proof.Machine
end

