-- ==== Sys2Proof/Machine/Scalar.lean ====
section
/-! DEFINITION. The scalar instructions of S0 and S1 (06_scalar_control R92-R105, R119-R123): integers, compares and
predicates, FP32, the loop index and the duplicate check. -/

namespace Sys2Proof.Machine

open Sys2Proof

/-! ## Results -/

/-- A scalar result of the slot that commits; a write to s0 does not land (R92), and the flags of its instruction are raised
all the same (log entry 87). -/
def State.emitS (s : State) (lat : Nat) (d : SReg) (v : Word) (flags : Flags := 0) : State :=
  s.emit lat (if d = 0 then [] else [.s d v]) flags

/-- A predicate result, landing 1 sc after issue (R93). -/
def State.emitP (s : State) (d : PReg) (v : Bool) : State := s.emit 1 (if d = 0 then [] else [.p d v])

/-- The value of a scalar register as the bundle reads it. -/
def State.sv (s : State) (r : SReg) : Word := s.view.sget r

/-- An integer instruction of two sources (R95). -/
def State.int2 (s : State) (lat : Nat) (d a b : SReg) (g : Guard) (f : Word → Word → Word) : Out :=
  s.guarded g fun s => s.emitS lat d (f (s.sv a) (s.sv b))

/-- An instruction with no guard (R97, R98). -/
def State.int1 (s : State) (lat : Nat) (d : SReg) (v : Word) : Out := .next (s.emitS lat d v)

/-- A compare or predicate instruction (R99). -/
def State.setP (s : State) (pd : PReg) (g : Guard) (v : State → Bool) : Out := s.guarded g fun s => s.emitP pd (v s)

/-- The zero-extension of a 32-bit result (R92). -/
def zext32 (v : BitVec 32) : Word := v.setWidth 64

/-- The FP32 value of a scalar source (R92). -/
def State.fv (s : State) (r : SReg) : Num := f32Num ((s.sv r).setWidth 32)

/-- RoundOnce to f32, or NaNTo, of an exact result with the flags it has raised (R101). -/
def f32Result (rm : Rm) (x : Num × Flags) : Word × Flags :=
  let e := (Rec.f32 rm).encode x.1
  (zext32 e.1, x.2 ||| e.2)

/-- A floating-point instruction (R101). -/
def State.fp (s : State) (d : SReg) (g : Guard) (v : State → Word × Flags) : Out :=
  s.guarded g fun s => s.emitS 4 d (v s).1 (v s).2

/-! ## Integer results (R95) -/

/-- Signed division, truncating (R95). -/
def divS (x y : Word) : Word :=
  if y = 0 then BitVec.allOnes 64
  else if x.toInt = -2 ^ 63 ∧ y.toInt = -1 then x
  else BitVec.ofInt 64 (x.toInt.tdiv y.toInt)

/-- Unsigned division (R95). -/
def divU (x y : Word) : Word := if y = 0 then BitVec.allOnes 64 else BitVec.ofNat 64 (x.toNat / y.toNat)

/-- The signed remainder (R95). -/
def remS (x y : Word) : Word :=
  if y = 0 then x
  else if x.toInt = -2 ^ 63 ∧ y.toInt = -1 then 0
  else BitVec.ofInt 64 (x.toInt - y.toInt * x.toInt.tdiv y.toInt)

/-- The unsigned remainder (R95). -/
def remU (x y : Word) : Word := if y = 0 then x else BitVec.ofNat 64 (x.toNat % y.toNat)

/-- Leading zero bits of a word of `n` bits (R95). -/
def clzFrom (x : Word) : Nat → Nat
  | 0 => 0
  | n + 1 => if x.getLsbD n then 0 else 1 + clzFrom x n

/-- The number of ones (R95). -/
def popCount (x : Word) : Nat := ((List.range 64).filter fun i => x.getLsbD i).length

/-- The shift amount y[5:0] (R95). -/
def shAmt (y : Word) : Nat := y.toNat % 64

def execAdd (d a b : SReg) (g : Guard) (s : State) : Out := s.int2 1 d a b g fun x y => x + y
def execSub (d a b : SReg) (g : Guard) (s : State) : Out := s.int2 1 d a b g fun x y => x - y
def execMul (d a b : SReg) (g : Guard) (s : State) : Out := s.int2 3 d a b g fun x y => x * y
def execMulh (d a b : SReg) (g : Guard) (s : State) : Out :=
  s.int2 3 d a b g fun x y => BitVec.ofInt 64 (x.toInt * y.toInt / 2 ^ 64)
def execMulhn (d a b : SReg) (g : Guard) (s : State) : Out :=
  s.int2 3 d a b g fun x y => BitVec.ofNat 64 (x.toNat * y.toNat / 2 ^ 64)
def execDiv (d a b : SReg) (g : Guard) (s : State) : Out := s.int2 12 d a b g divS
def execDivn (d a b : SReg) (g : Guard) (s : State) : Out := s.int2 12 d a b g divU
def execRem (d a b : SReg) (g : Guard) (s : State) : Out := s.int2 12 d a b g remS
def execRemn (d a b : SReg) (g : Guard) (s : State) : Out := s.int2 12 d a b g remU
def execAnd (d a b : SReg) (g : Guard) (s : State) : Out := s.int2 1 d a b g fun x y => x &&& y
def execOr (d a b : SReg) (g : Guard) (s : State) : Out := s.int2 1 d a b g fun x y => x ||| y
def execXor (d a b : SReg) (g : Guard) (s : State) : Out := s.int2 1 d a b g fun x y => x ^^^ y
def execShl (d a b : SReg) (g : Guard) (s : State) : Out := s.int2 1 d a b g fun x y => x <<< shAmt y
def execShr (d a b : SReg) (g : Guard) (s : State) : Out := s.int2 1 d a b g fun x y => x >>> shAmt y
def execSra (d a b : SReg) (g : Guard) (s : State) : Out := s.int2 1 d a b g fun x y => x.sshiftRight (shAmt y)
def execMin (d a b : SReg) (g : Guard) (s : State) : Out := s.int2 1 d a b g fun x y => if y.slt x then y else x
def execMax (d a b : SReg) (g : Guard) (s : State) : Out := s.int2 1 d a b g fun x y => if x.slt y then y else x
def execMinn (d a b : SReg) (g : Guard) (s : State) : Out := s.int2 1 d a b g fun x y => if y.ult x then y else x
def execMaxn (d a b : SReg) (g : Guard) (s : State) : Out := s.int2 1 d a b g fun x y => if x.ult y then y else x
def execClz (d a : SReg) (g : Guard) (s : State) : Out := s.int2 1 d a a g fun x _ => BitVec.ofNat 64 (clzFrom x 64)
def execPopc (d a : SReg) (g : Guard) (s : State) : Out := s.int2 1 d a a g fun x _ => BitVec.ofNat 64 (popCount x)

/-- SEL is never guarded: its predicate selects (R96). -/
def execSel (d a b : SReg) (g : Guard) (s : State) : Out :=
  s.int1 1 d (if s.view.guard g then s.sv a else s.sv b)

/-! ## Immediates (R97, R98) -/

def execAddi (d a : SReg) (imm : BitVec 13) (s : State) : Out := s.int1 1 d (s.sv a + imm.signExtend 64)
def execAndi (d a : SReg) (imm : BitVec 13) (s : State) : Out := s.int1 1 d (s.sv a &&& imm.signExtend 64)
def execOri (d a : SReg) (imm : BitVec 13) (s : State) : Out := s.int1 1 d (s.sv a ||| imm.signExtend 64)
def execXori (d a : SReg) (imm : BitVec 13) (s : State) : Out := s.int1 1 d (s.sv a ^^^ imm.signExtend 64)
def execShli (d a : SReg) (amt : BitVec 6) (s : State) : Out := s.int1 1 d (s.sv a <<< amt.toNat)
def execShri (d a : SReg) (amt : BitVec 6) (s : State) : Out := s.int1 1 d (s.sv a >>> amt.toNat)
def execSrai (d a : SReg) (amt : BitVec 6) (s : State) : Out := s.int1 1 d ((s.sv a).sshiftRight amt.toNat)
def execMuli (d a : SReg) (imm : BitVec 13) (s : State) : Out := s.int1 3 d (s.sv a * imm.signExtend 64)
def execMovi (d : SReg) (imm : BitVec 19) (s : State) : Out := s.int1 1 d (imm.signExtend 64)

/-- The word with 16 bits of one quarter replaced (R98). -/
def movk (x : Word) (q : BitVec 2) (v : BitVec 16) : Word :=
  (x &&& ~~~((0xFFFF : Word) <<< (16 * q.toNat))) ||| ((v.setWidth 64) <<< (16 * q.toNat))

def execMovk (d : SReg) (q : BitVec 2) (v : BitVec 16) (s : State) : Out := s.int1 1 d (movk (s.sv d) q v)

/-! ## Compares and predicates (R99) -/

def execCmpeq (pd : PReg) (a b : SReg) (g : Guard) (alt : Bool) (s : State) : Out :=
  s.setP pd g fun s => (s.sv a == s.sv b) != alt
def execCmplt (pd : PReg) (a b : SReg) (g : Guard) (alt : Bool) (s : State) : Out :=
  s.setP pd g fun s => if alt then (s.sv a).sle (s.sv b) else (s.sv a).slt (s.sv b)
def execCmpltn (pd : PReg) (a b : SReg) (g : Guard) (alt : Bool) (s : State) : Out :=
  s.setP pd g fun s => if alt then (s.sv a).ule (s.sv b) else (s.sv a).ult (s.sv b)
def execPand (pd pa pb : PReg) (g : Guard) (na nb : Bool) (s : State) : Out :=
  s.setP pd g fun s => (s.view.pget pa != na) && (s.view.pget pb != nb)
def execPor (pd pa pb : PReg) (g : Guard) (na nb : Bool) (s : State) : Out :=
  s.setP pd g fun s => (s.view.pget pa != na) || (s.view.pget pb != nb)
def execPxor (pd pa pb : PReg) (g : Guard) (na nb : Bool) (s : State) : Out :=
  s.setP pd g fun s => (s.view.pget pa != na) != (s.view.pget pb != nb)
def execPmov (pd pa : PReg) (g : Guard) (na : Bool) (s : State) : Out :=
  s.setP pd g fun s => s.view.pget pa != na

/-! ## FP32 (R101-R103) -/

def execFadd (d a b : SReg) (g : Guard) (rm : Rm) (s : State) : Out :=
  s.fp d g fun s => f32Result rm (addOp (rm == .rdn) (s.fv a) (s.fv b))
/-- x − y: the sum with y negated, a NaN y kept as it is (R86). -/
def subOp (rdn : Bool) (x y : Num) : Num × Flags := addOp rdn x (if y.isNaN then y else y.negate)
def execFsub (d a b : SReg) (g : Guard) (rm : Rm) (s : State) : Out :=
  s.fp d g fun s => f32Result rm (subOp (rm == .rdn) (s.fv a) (s.fv b))
def execFmul (d a b : SReg) (g : Guard) (rm : Rm) (s : State) : Out :=
  s.fp d g fun s => f32Result rm (mulOp (s.fv a) (s.fv b))
def execFfma (d a b : SReg) (g : Guard) (rm : Rm) (s : State) : Out :=
  s.fp d g fun s => f32Result rm (fmaOp (rm == .rdn) (s.fv a) (s.fv b) (s.fv d))

/-- MinNum and MaxNum with no rounding: the flags are those of the operands (R87, R101). -/
def minmaxResult (isMax : Bool) (a b : Num) : Word × Flags :=
  let r := maxOp isMax a b
  (zext32 ((Rec.f32 .rne).encode r.1).1, r.2)

def execFmin (d a b : SReg) (g : Guard) (s : State) : Out := s.fp d g fun s => minmaxResult false (s.fv a) (s.fv b)
def execFmax (d a b : SReg) (g : Guard) (s : State) : Out := s.fp d g fun s => minmaxResult true (s.fv a) (s.fv b)

/-- FCMP (R102). -/
def execFcmp (d a b : SReg) (g : Guard) (rel : FRel) (s : State) : Out :=
  s.fp d g fun s =>
    let r := cmpOp rel (s.fv a) (s.fv b)
    (if r.1 then 1 else 0, r.2)

/-- FCVTI to a signed 64-bit integer (R83, R103). -/
def execFcvti (d a : SReg) (g : Guard) (rm : Rm) (s : State) : Out :=
  s.guarded g fun s =>
    let r := toIntRange (-2 ^ 63) (2 ^ 63 - 1) rm (s.fv a)
    s.emitS 2 d (BitVec.ofInt 64 r.1) r.2

/-- FCVTF from a signed 64-bit integer (R103). -/
def execFcvtf (d a : SReg) (g : Guard) (rm : Rm) (s : State) : Out :=
  s.guarded g fun s =>
    let r := f32Result rm (Num.ofRat ((s.sv a).toInt : Rat), 0)
    s.emitS 2 d r.1 r.2

/-- FCVTB to bf16 (R103). -/
def execFcvtb (d a : SReg) (g : Guard) (rm : Rm) (s : State) : Out :=
  s.guarded g fun s =>
    let e := (Rec.bf16 rm).encode (s.fv a)
    s.emitS 2 d (zext32 e.1) e.2

/-! ## Loop index and duplicate check (R104, R105) -/

/-- MOVLI: an inactive level faults 0x11 (R104). -/
def execMovli (d : SReg) (lvl : BitVec 6) (g : Guard) (s : State) : Out :=
  s.guarded g fun s =>
    match s.view.loops[lvl.toNat]? with
    | some l => s.emitS 1 d (l.index.setWidth 64)
    | none => s.slotFault 0x11 (BitVec.ofNat 64 (lvl.toNat * 256 + 3))

/-- DCHK: two copies that differ fault 0x09 (R105). -/
def execDchk (a b : SReg) (g : Guard) (s : State) : Out :=
  s.guarded g fun s => if s.sv a = s.sv b then s else s.slotFault 0x09 (s.sv a ^^^ s.sv b)

end Sys2Proof.Machine
end

