-- ==== Sys2Proof/Machine/Address.lean ====
section
/-! DEFINITION. The address slot (07_address R124-R136): address registers, generators, and scalar loads, stores and
prefetches. -/

namespace Sys2Proof.Machine

open Sys2Proof

/-- An address register as the bundle reads it. -/
def State.av (s : State) (a : AReg) : Word := s.view.a.get a

/-- A descriptor as the bundle reads it. -/
def State.gv (s : State) (a : AReg) : Gen := s.view.ag.get a

/-- AMOV (R133). -/
def execAmov (ad aa : AReg) (g : Guard) (s : State) : Out := s.guarded g fun s => s.emit 1 [.a ad (s.av aa)]

/-- AADD (R133). -/
def execAadd (ad aa : AReg) (r : SReg) (g : Guard) (s : State) : Out :=
  s.guarded g fun s => s.emit 1 [.a ad (s.av aa + s.sv r)]

/-- AADDI (R133). -/
def execAaddi (ad : AReg) (imm : BitVec 22) (s : State) : Out := .next (s.emit 1 [.a ad (s.av ad + imm.signExtend 64)])

/-- A post-increment of a slot: the advance, or the fault of its descriptor (R129, R131). -/
def State.postInc (s : State) (ad ag : AReg) (go : State → State) : State :=
  let r := s.advance (s.gv ag) (s.av ag)
  match r.1 with
  | .error reason => r.2.slotFault 0x0C (descVal ag reason)
  | .ok d => go (r.2.emitAdv (s.gv ag).lat (d.writes ad ag))

/-- AINC: the advanced address goes to ad, the counters to the descriptor of aa (R133). -/
def execAinc (ad aa : AReg) (g : Guard) (s : State) : Out := s.guarded g fun s => s.postInc ad aa id

/-- AGSET (R126, R133). -/
def execAgset (ad : AReg) (r : SReg) (fld : BitVec 7) (g : Guard) (s : State) : Out :=
  s.guarded g fun s => s.emit 1 [.field ad fld (s.sv r)]

/-- AGRD (R126, R133). -/
def execAgrd (d : SReg) (aa : AReg) (fld : BitVec 7) (g : Guard) (s : State) : Out :=
  s.guarded g fun s => s.emitS 1 d (if fld = 0 then s.av aa else (s.gv aa).getField fld)

/-- The scratchpad offset of the entry that AIDX reads, or the reason of R129: 0x07 and 0x08 before 0x06. -/
def Gen.aidxOff (g : Gen) (idx : Nat) : Except Nat Nat :=
  match g.bad with
  | some r => .error r
  | none =>
    if g.idim = 7 then .error 7
    else if g.countOf (Fin.ofNat 4 g.idim) ≤ idx then .error 8
    else
      match g.entryOff idx with
      | some o => .ok o
      | none => .error 6

/-- AIDX: a scaled entry of the indirect table (R133). -/
def execAidx (ad aa : AReg) (r : SReg) (g : Guard) (s : State) : Out :=
  s.guarded g fun s =>
    match (s.gv aa).aidxOff ((s.sv r).toNat % 2 ^ 32) with
    | .error reason => s.slotFault 0x0C (descVal aa reason)
    | .ok off =>
      let e := s.tableRead off
      e.2.emit 6 [.a ad (s.av aa + BitVec.ofInt 64 ((s.gv aa).iscale.toNat * e.1))]

/-- ARD (R133). -/
def execArd (d : SReg) (aa : AReg) (g : Guard) (s : State) : Out := s.guarded g fun s => s.emitS 1 d (s.av aa)

/-! ## Loads, stores and prefetch -/

/-- The effective address (R134). -/
def State.ea (s : State) (m : AMem) : Word := s.view.ea m

/-- The core whose TLBs the focused context's accesses go through (R142). -/
def State.via (s : State) : Option Nat := some (coreOf s.id)

/-- The checks of a scalar access before its descriptor check: alignment, then range or translation (R124, R135). -/
def State.amemBad (s : State) (m : AMem) (acc : Access) : Option (BitVec 8 × Word) :=
  let ea := s.ea m
  if ea.toNat % (amemBytes m) ≠ 0 then some (0x0A, ea)
  else if m.loc then (if 0x200000 ≤ ea.toNat then some (0x0B, ea) else none)
  else (s.checkSpan s.via s.c.region s.c.isSup acc ea.toNat (amemBytes m)).map fun e => (e.1, BitVec.ofNat 64 e.2)

/-- The rest of an access once its checks have passed: its post-increment, then its effect. -/
def State.amemGo (s : State) (m : AMem) (go : State → State) : State :=
  if m.post then s.postInc m.a m.a go else go s

/-- A loaded value, sign- or zero-extended (R134). -/
def loadValue (bytes : List Byte) (sign : Bool) : Word :=
  let n := 8 * bytes.length
  let v := leNat bytes
  if sign && 2 ^ (n - 1) ≤ v then BitVec.ofInt 64 ((v : Int) - (2 ^ n : Nat)) else BitVec.ofNat 64 v

/-- An atomic of the context is outstanding at some bytes (R277). -/
def Ctx.atomicOn (c : Ctx) (addrs : List Nat) : Bool := !c.atomics.isEmpty && addrs.any fun a => c.atomicAt a 1

/-- LD: a local load lands at n + 4; a global one is outstanding, with the value that it reads now, until it completes
(R136; log entry 12). -/
def execLd (d : SReg) (m : AMem) (sign : Bool) (s : State) : Out :=
  s.guarded m.g fun s =>
    match s.amemBad m .read with
    | some (c, v) => s.slotFault c v
    | none =>
      s.amemGo m fun s =>
        let ea := s.ea m
        if m.loc then
          let r := s.scratchBytes s.bundle.mem s.bundle.pbuf false ea.toNat (amemBytes m)
          r.2.emitS 4 d (loadValue r.1 sign)
        else
          let pa := s.paOf s.via s.c.region ea.toNat .read s.c.isSup
          let r := (s.fillSpan s.via s.c.region ea.toNat (amemBytes m)).slotBytes pa (amemBytes m)
          let addrs := (List.range (amemBytes m)).map fun i => pa + i
          let l : Load :=
            ⟨d, loadValue r.1 sign, s.poisonIn pa (amemBytes m), [lineOf pa],
              if s.c.atomicOn addrs then some (s.c.seq, addrs, sign) else none⟩
          { r.2 with c := { r.2.c with loads := r.2.c.loads ++ [l] } }

/-- ST (R134, R136). -/
def execSt (m : AMem) (r : SReg) (s : State) : Out :=
  s.guarded m.g fun s =>
    match s.amemBad m .write with
    | some (c, v) => s.slotFault c v
    | none =>
      s.amemGo m fun s =>
        let ea := s.ea m
        let bytes := leBytes (amemBytes m) (s.sv r).toNat
        if m.loc then s.scratchStore false ea.toNat bytes
        else
          (s.fillSpan s.via s.c.region ea.toNat (amemBytes m)).slotStore
            (s.paOf s.via s.c.region ea.toNat .write s.c.isSup) bytes

/-- PREF: no fault of its address, and no effect but the post-increment and the TLBs' (R135, R136). -/
def execPref (m : AMem) (s : State) : Out :=
  s.guarded m.g fun s =>
    match s.amemBad m .read with
    | some _ => s.amemGo m id
    | none => s.amemGo m fun s => if m.loc then s else s.fillSpan s.via s.c.region (s.ea m).toNat (amemBytes m)

end Sys2Proof.Machine
end

