-- ==== Sys2Proof/Machine/Control.lean ====
section
/-! DEFINITION. The control slot (06_scalar_control R106-R123, 20_traps R365-R381, 26_monitors R456-R463): branches,
loops, the loop buffer, markers, register clusters, system registers, traps and the end of a task. -/

namespace Sys2Proof.Machine

open Sys2Proof

/-! ## Branches (R106) -/

/-- The open bundle with another next fetch address. -/
def State.goto (s : State) (a : VAddr) : State := { s with bundle := { s.bundle with target := a } }

/-- The target of a relative transfer. -/
def State.relative (s : State) (off : BitVec 21) : VAddr := s.bundle.pc + 2 * off.signExtend 48

def execBr (g : Guard) (off : BitVec 21) (s : State) : Out := s.guarded g fun s => s.goto (s.relative off)
def execCall (off : BitVec 21) (s : State) : Out :=
  .next ((s.emitS 1 62 (s.bundle.np.setWidth 64)).goto (s.relative off))
/-- A transfer to a computed target, which faults 0x0A at its bundle where bit 0 is 1 (R27). -/
def State.gotoReg (s : State) (a : VAddr) : State :=
  if a.getLsbD 0 then s.slotFault 0x0A (a.setWidth 64) else s.goto a

def execBri (r : SReg) (s : State) : Out := .next (s.gotoReg ((s.sv r).setWidth 48))
def execRet (s : State) : Out := .next (s.gotoReg ((s.sv 62).setWidth 48))

/-! ## Loops (R107) and the loop buffer (R111) -/

/-- A LOOP with its count: a body of skip words and a seventh level fault, a count of 0 passes over the body. -/
def State.loopTo (s : State) (count : BitVec 32) (len : BitVec 13) : State :=
  let np := s.bundle.np
  let fin := np + 2 * len.setWidth 48
  if s.onlySkips np fin then s.slotFault 0x11 4
  else if count = 0 then s.goto fin
  else if 6 ≤ s.c.regs.loops.length then s.slotFault 0x11 1
  else ({ s with c := { s.c with regs := { s.c.regs with loops := s.c.regs.loops ++ [(⟨np, fin, count, 0⟩ : Loop)] } } }).goto np

def execLoopImm (count : BitVec 12) (len : BitVec 13) (s : State) : Out := .next (s.loopTo (count.setWidth 32) len)
def execLoopReg (r : SReg) (len : BitVec 13) (s : State) : Out := .next (s.loopTo ((s.sv r).setWidth 32) len)

def execLoopx (s : State) : Out :=
  let ls := s.c.regs.loops
  if ls.isEmpty then .next (s.slotFault 0x11 2)
  else .next { s with c := { s.c with
    regs := { s.c.regs with loops := ls.dropLast }
    lbuf := s.c.lbuf.popped (ls.length - 1) } }

def execLbuf (n : BitVec 7) (s : State) : Out :=
  .next { s with c := { s.c with lbuf := ⟨n.toNat, s.c.regs.loops.length, []⟩ } }

/-! ## Markers and trace (R112, R118, R457, R459) -/

/-- A drift logged: DRIFT_LAST, a record in ring 1, and 256 bundles armed. -/
def State.logDrift (s : State) (drift : Word) : State :=
  let s1 := s.driftPut (s.traceRec s.bundle.pc 1 drift 0)
  let s2 : State := { s1 with c := { s1.c with sys := { s1.c.sys with driftLast := drift }, interlock := 256 } }
  s2.countEv s2.id 0x11 1

/-- MARKER: in supervisor mode it computes nothing. -/
def execMarker (e : BitVec 26) (s : State) : Out :=
  if s.c.isSup then .next s
  else
    let drift := BitVec.ofNat 26 (s.c.sc + s.c.stalled) - e
    let mag := drift.toInt.natAbs
    .next (if s.c.sys.driftThresh.toNat < mag then s.logDrift (drift.signExtend 64) else s)

/-- A record is on its way into the die's FIFO, which those of a clock enter in their order once it is over (R457). -/
def State.fifoPut (s : State) (rec : TraceRec) : State := { s with pkg := { s.pkg with traced := s.pkg.traced ++ [rec] } }

def execTrace (r : SReg) (kind : BitVec 8) (s : State) : Out :=
  .next (s.fifoPut (s.traceRec s.bundle.pc 0 (s.sv r) kind))

/-! ## The end of a bundle (R113, R114, R381) -/

def execYield (s : State) : Out := .next { s with bundle := { s.bundle with yields := true } }
def execExit (code : BitVec 26) (s : State) : Out := .next { s with bundle := { s.bundle with exit := some code } }

/-- TVAL of cause 0x0E (R369). -/
def privVal (slot opcode num : Nat) : Word := BitVec.ofNat 64 (fld num 12 + fld slot 8 + opcode)

def execEret (s : State) : Out :=
  if s.c.isSup then .next { s with bundle := { s.bundle with eret := true } }
  else .next (s.slotFault 0x0E (privVal s.bundle.slot 0x0C 0))

/-- A trap after the C slot has committed: at once where a later slot is left, which is then held; else as the bundle
closes (R117, R380). -/
def State.softTrap (s : State) (cause : BitVec 8) (val : Word) : State :=
  match s.bundle.slots with
  | (b, _) :: _ => s.enter cause val s.bundle.pc false (some (b, s.heldNow, s.splitNow))
  | [] => { s with bundle := { s.bundle with soft := some (cause, val) } }

def execTrap (code : BitVec 26) (s : State) : Out := .next (s.softTrap 0x0F (code.setWidth 64))
def execBkpt (code : BitVec 26) (s : State) : Out := .next (s.softTrap 0x10 (code.setWidth 64))

/-! ## Clusters and format base (R115, R116) -/

/-- A cluster under RFMODE: kept, woken 32 sc later, or put to sleep. -/
def Cluster.mode (k : Cluster) (keep sup : Bool) (now : Nat) : Cluster :=
  match k, keep with
  | .awake, true => .awake
  | .awake, false => .asleep
  | .asleep, true => .waking sup (now + 32)
  | .asleep, false => .asleep
  | .waking p d, true => .waking p d
  | .waking _ _, false => .asleep

def execRfmode (mask : BitVec 4) (s : State) : Out :=
  let c := s.c
  .next { s with c := { c with
    clusters := tabulate 4 fun i => (c.clusters.get i).mode (mask.getLsbD i.val) c.isSup c.now } }

def execFmtbase (b : BitVec 4) (s : State) : Out := .next (s.emit 1 [.fbase b])

/-! ## System registers (R119, R120, R463) -/

/-- Registers that task mode may not access (R120). -/
def sysPrivileged (n : Nat) : Bool := n ≤ 5 || n == 0x00A || (0x0A0 ≤ n && n < 0x0A8)

/-- A core counter register as a context reads it, with the events of clocks before its issue; another's running counter
reads 0 (R8, R463). -/
def State.evRead (s : State) (k : Nat) : Word :=
  let n := Fin.ofNat 8 k
  let core := s.core (coreOf s.id)
  let sel := core.evsel.get n
  if sel.getLsbD 39 && bitsOf sel 36 2 != s.id % 4 then 0
  else if k < 8 then sel
  else core.evcnt.get n

/-- A system register as a context reads it at issue. -/
def State.sysRead (s : State) (num : BitVec 12) : Word :=
  let c := s.c
  let y := c.sys
  let n := num.toNat
  if 0x040 ≤ n ∧ n < 0x050 then s.view.fmt.get (Fin.ofNat 16 n)
  else if 0x050 ≤ n ∧ n < 0x070 then s.view.cb.get (Fin.ofNat 32 (n - 0x050))
  else if 0x080 ≤ n ∧ n < 0x090 then s.evRead (n - 0x080)
  else if 0x0A0 ≤ n ∧ n < 0x0A8 then y.bpa.get (Fin.ofNat 8 n)
  else if n = 0x000 then c.tstatus
  else if n = 0x001 then y.tcause.setWidth 64
  else if n = 0x002 then y.tepc.setWidth 64
  else if n = 0x003 then y.tval
  else if n = 0x004 then y.tvec.setWidth 64
  else if n = 0x005 then y.tscratch
  else if n = 0x006 then y.fflags.setWidth 64
  else if n = 0x007 then BitVec.ofNat 64 y.checkmode.toNat
  else if n = 0x008 then s.view.fbase.setWidth 64
  else if n = 0x009 then y.quantum
  else if n = 0x00A then y.errbase
  else if n = 0x010 then BitVec.ofNat 64 (coreOf s.id)
  else if n = 0x011 then BitVec.ofNat 64 (coreOf s.id / 40)
  else if n = 0x012 then BitVec.ofNat 64 (s.id % 4)
  else if n = 0x013 then y.taskId
  else if n = 0x014 then y.launchId
  else if n = 0x015 then y.regionId
  else if n = 0x016 then s.pkg.chipId.setWidth 64
  else if n = 0x017 then y.ntasks
  else if n = 0x018 then y.args
  else if n = 0x020 then BitVec.ofNat 64 s.time
  else if n = 0x021 then BitVec.ofNat 64 c.sc
  else if n = 0x090 then y.driftThresh.setWidth 64
  else if n = 0x091 then y.driftLast
  else 0

def execSysrd (d : SReg) (num : BitVec 12) (s : State) : Out :=
  if !s.c.isSup && sysPrivileged num.toNat then .next (s.slotFault 0x0E (privVal s.bundle.slot 0x0D num.toNat))
  else .next (s.emitS 1 d (s.sysRead num))

/-- SYSWR: a counter takes its value at the clock of the write, whose events are added after it (R463); every other register takes it at n + 1. QUANTUM is
read-only to a task. -/
def execSyswr (r : SReg) (num : BitVec 12) (s : State) : Out :=
  if !s.c.isSup && sysPrivileged num.toNat then .next (s.slotFault 0x0E (privVal s.bundle.slot 0x0E num.toNat))
  else if 0x088 ≤ num.toNat ∧ num.toNat < 0x090 then
    .next (s.evWrite (num.toNat - 0x080) (s.sv r))
  else if !s.c.isSup && num == 0x009 then .next s
  else .next (s.emit 1 [.sys num (s.sv r)])

end Sys2Proof.Machine
end

