-- ==== Sys2Proof/Machine/TileMem.lean ====
section
/-! DEFINITION. Tile loads and stores, spill and fill (08_memory_access R149-R160), and the completions of loads, tile
loads and fills. -/

namespace Sys2Proof.Machine

open Sys2Proof

/-- A tile as the bundle reads it. -/
def State.tv (s : State) (t : TReg) : Tile := s.view.t.get t

/-- The mask of the active elements (R162). -/
def Tile.active (t : Tile) : Mask :=
  tabulate 16 fun i => if i.val ≤ t.rows.val then BitVec.allOnes 64 >>> (63 - t.cols.val) else 0

/-- No latent factor is attached: all four descriptors are zero, whatever DEVNF is (R225). -/
def Lat.isId (l : Lat) : Bool := l.rs == 0 && l.rb == 0 && l.cs == 0 && l.cb == 0

/-- The fault of a read of a marked tile: POISON 0x14, INVALID 0x06 (R164). -/
def Tile.markFault (t : Tile) (num : Nat) : Option (BitVec 8 × Word) :=
  match t.poison with
  | some l => some (0x14, l)
  | none => if t.invalid then some (0x06, BitVec.ofNat 64 num) else none

/-- A row's elements packed at width `w` into a number, the first lowest (R150). -/
def packRow (row : Vector Cont 64) (cols w : Nat) : Nat :=
  ((List.finRange 64).map fun j => if j.val < cols then (row.get j).toNat % 2 ^ w * 2 ^ (w * j.val) else 0).sum

/-- The containers of a row read at width `w` from its packed number. -/
def unpackRow (n w : Nat) : Vector Cont 64 := tabulate 64 fun j => BitVec.ofNat 32 (n / 2 ^ (w * j.val) % 2 ^ w)

/-- A tile access: what it names and the rule's constants. -/
structure TAccess where
  tile : Tile
  num : Nat
  ty : ElemTy
  base : Word
  pitch : Int
  load : Bool
  loc : Bool

/-- Width of an element in memory. -/
def TAccess.w (x : TAccess) : Nat := x.ty.width

/-- Bytes of a row. -/
def TAccess.len (x : TAccess) : Nat := rowLen x.tile.ncols x.w

/-- Addresses of the rows, in order. -/
def TAccess.rowsAt (x : TAccess) : List Nat := (List.range x.tile.nrows).map (rowAddr x.base x.pitch)

/-- The tile access of a syllable, as the bundle reads its operands. -/
def State.tAccess (s : State) (t : TReg) (m : TMem) (load loc : Bool) : TAccess :=
  let T := s.tv t
  ⟨T, t.val, (s.view.record m.sel T.ty).ty, s.av m.a, (s.gv m.a).pitchInt, load, loc⟩

/-- The first offset of a row at or beyond the end of scratchpad (R152). -/
def offScratch (a n : Nat) : Option Nat :=
  if 0x200000 ≤ a then some a else if 0x200000 < a + n then some 0x200000 else none

/-- Steps 1 to 5 of R152. -/
def State.tBad (s : State) (x : TAccess) : Option (BitVec 8 × Word) :=
  let sz := x.w / 8
  match (if x.load then none else x.tile.markFault x.num) with
  | some e => some e
  | none =>
    if x.load && x.ty != x.tile.ty && !x.tile.lat.isId then some (0x08, BitVec.ofNat 64 x.num)
    else if 8 ≤ x.w ∧ x.base.toNat % sz ≠ 0 then some (0x0A, x.base)
    else if 8 ≤ x.w ∧ x.pitch % sz ≠ 0 then some (0x0A, BitVec.ofInt 64 x.pitch)
    else if x.loc then (x.rowsAt.findSome? fun a => offScratch a x.len).map fun o => (0x0B, BitVec.ofNat 64 o)
    else
      (x.rowsAt.findSome? fun a =>
        s.checkSpan s.via s.c.region s.c.isSup (if x.load then .read else .write) a x.len).map fun e =>
          (e.1, BitVec.ofNat 64 e.2)

/-- The checks, the post-increment, then the effect. -/
def State.tGo (s : State) (x : TAccess) (m : TMem) (go : State → State) : State :=
  match s.tBad x with
  | some (c, v) => s.slotFault c v
  | none => if m.post then s.postInc m.a m.a go else go s

/-- Global bytes of a span that may cross pages, as a slot reads them. -/
def State.readSpan (s : State) (va : Nat) : Nat → List Byte × State
  | 0 => ([], s)
  | n + 1 =>
    let r := s.slotByte (s.paOf s.via s.c.region va .read s.c.isSup)
    let q := r.2.readSpan (va + 1) n
    (r.1 :: q.1, q.2)

/-- The rows of a load, packed, with the state after the reads. -/
def State.loadRows (s : State) (x : TAccess) (swz : Bool) : List Nat → List Nat × State
  | [] => ([], s)
  | a :: as =>
    let r := if x.loc then s.scratchBytes s.bundle.mem s.bundle.pbuf swz a x.len else s.readSpan a x.len
    let q := r.2.loadRows x swz as
    (leNat r.1 :: q.1, q.2)

/-- The containers of a load from its packed rows. -/
def rowsGrid (rows : List Nat) (w : Nat) : Grid := tabulate 16 fun i => unpackRow (rows.getD i.val 0) w

/-- The physical addresses of the bytes of a row that a load reads. -/
def State.rowAddrs (s : State) (x : TAccess) (a : Nat) : List Nat :=
  (List.range x.len).map fun k =>
    if x.loc then scratchAddr (coreOf s.id) (a + k) else s.paOf s.via s.c.region (a + k) .read s.c.isSup

/-- The first poisoned line that rows of a load touch. -/
def State.rowsPoison (s : State) (x : TAccess) : Option (BitVec 64) :=
  if s.tok.poison.isEmpty then none
  else x.rowsAt.findSome? fun a => (s.rowAddrs x a).findSome? fun pa => s.poisonIn pa 1

/-- The lines that rows of a global access touch. -/
def State.rowsLines (s : State) (x : TAccess) (acc : Access) : List Nat :=
  (x.rowsAt.flatMap fun a => s.byteLines s.via s.c.region s.c.isSup acc a x.len).eraseDups

/-- The TLBs after the rows of a global access. -/
def State.fillRows (s : State) (x : TAccess) : State := x.rowsAt.foldl (fun t a => t.fillSpan s.via s.c.region a x.len) s

/-- TLD: the tile is busy until the load completes; the bytes are those read at issue (R151; log entry 12). -/
def execTld (t : TReg) (m : TMem) (s : State) : Out :=
  s.guarded m.g fun s =>
    let x := s.tAccess t m true false
    s.tGo x m fun s =>
      let r := s.loadRows x false x.rowsAt
      let l : TileLoad :=
        ⟨t, x.ty, x.tile.active, rowsGrid r.1 x.w, x.tile.rows == 15 && x.tile.cols == 63, s.rowsPoison x,
          s.rowsLines x .read,
          let rows := x.rowsAt.map (s.rowAddrs x)
          if s.c.atomicOn rows.flatten then some (s.c.seq, rows, x.w) else none⟩
      ({ r.2 with c := { r.2.c with tloads := r.2.c.tloads ++ [l] } } : State).fillRows x

/-- TLDL: lands at n + 6, with the tile marked where it meets poisoned data (R151, R153). -/
def execTldl (t : TReg) (m : TMem) (swz : Bool) (s : State) : Out :=
  s.guarded m.g fun s =>
    let x := s.tAccess t m true true
    s.tGo x m fun s =>
      let r := s.loadRows x swz x.rowsAt
      r.2.emit 6 (.tile (.t t) x.tile.active (rowsGrid r.1 x.w) (some x.ty) none ::
        (s.rowsPoison x).toList.map fun l => .poison t l)

/-- The bytes of a row to store; where 4-bit elements end within a byte, its other nibble is kept (R150). -/
def storeBytes (n len : Nat) (half : Option Byte) : List Byte :=
  match half with
  | none => leBytes len n
  | some b => leBytes len (n % 2 ^ (8 * len - 4) + b.toNat / 16 * 2 ^ (8 * len - 4))

/-- The row ends within a byte. -/
def TAccess.half (x : TAccess) : Bool := x.w == 4 && x.tile.ncols % 2 == 1

/-- A global byte as the context last wrote or may read it, for a nibble kept. -/
def State.keptByte (s : State) (pa : Nat) : Byte × State :=
  match pbufGet s.c.pbuf pa with
  | some b => (b, s)
  | none => s.slotByte pa

/-- Global bytes stored to a span that may cross pages. -/
def State.writeSpan (s : State) (va : Nat) (bytes : List Byte) : State :=
  (cut32 va bytes).foldl (fun t e => t.slotStore (t.paOf t.via t.c.region e.1 .write t.c.isSup) e.2) s

/-- One row stored. The half of a byte that a row of an odd number of 4-bit columns keeps is the newest, in whichever view it
was written (R141; log entry 93). -/
def State.storeRow (s : State) (x : TAccess) (swz : Bool) (a n : Nat) : State :=
  let last := a + x.len - 1
  if x.loc then
    if x.half then
      let u := s.drainByte last
      u.scratchStore swz a (storeBytes n x.len (some (memGet u.mem (scratchAddr (coreOf s.id) last))))
    else s.scratchStore swz a (storeBytes n x.len none)
  else if x.half then
    let r := s.keptByte (s.paOf s.via s.c.region last .write s.c.isSup)
    r.2.writeSpan a (storeBytes n x.len (some r.1))
  else
    let pa := s.paOf s.via s.c.region a .write s.c.isSup
    if a % 4096 + x.len ≤ 4096 then s.slotStore pa (storeBytes n x.len none)
    else s.writeSpan a (storeBytes n x.len none)

/-- The rows stored in rising order, so that of overlapping rows the later wins (R150). -/
def State.storeRows (s : State) (x : TAccess) (swz : Bool) : State :=
  (List.finRange 16).foldl (fun t i =>
    if i.val < x.tile.nrows then
      t.storeRow x swz (rowAddr x.base x.pitch i.val) (packRow (x.tile.cells.get i) x.tile.ncols x.w)
    else t) s

/-- TST (R151). -/
def execTst (t : TReg) (m : TMem) (_port : Port) (s : State) : Out :=
  s.guarded m.g fun s =>
    let x := s.tAccess t m false false
    s.tGo x m fun s => (s.storeRows x false).fillRows x

/-- TSTL (R151). -/
def execTstl (t : TReg) (m : TMem) (swz : Bool) (_port : Port) (s : State) : Out :=
  s.guarded m.g fun s =>
    let x := s.tAccess t m false true
    s.tGo x m fun s => s.storeRows x swz

/-! ## The silo (R159, R160) -/

/-- The number by which a fault names a combined target. -/
def XReg.num : XReg → Nat
  | .t r => r.val
  | .c r => 32 + r.val

/-- TVAL of a silo slot beyond SILOSLOTS (R160). -/
def siloVal (slot : BitVec 6) : Word := BitVec.ofNat 64 (2 ^ 63 + 2 * 2 ^ 56 + slot.toNat)

/-- The target is an accumulator. -/
def XReg.isAcc : XReg → Bool
  | .t _ => false
  | .c _ => true

/-- SPILL (R160). -/
def execSpill (x : XReg) (slot : BitVec 6) (g : Guard) (_port : Port) (s : State) : Out :=
  s.guarded g fun s =>
    let T := s.view.xget x
    if s.c.siloSlots ≤ slot.toNat then s.slotFault 0x0C (siloVal slot)
    else if T.invalid && T.poison.isNone then s.slotFault 0x06 (BitVec.ofNat 64 (XReg.num x))
    else { s with c := { s.c with silo := s.c.silo.set (Fin.ofNat 64 slot.toNat) (some ⟨XReg.isAcc x, T⟩) } }

/-- FILL: the target is busy until the fill completes (R160). -/
def execFill (x : XReg) (slot : BitVec 6) (g : Guard) (s : State) : Out :=
  s.guarded g fun s =>
    if s.c.siloSlots ≤ slot.toNat then s.slotFault 0x0C (siloVal slot)
    else { s with c := { s.c with fills := s.c.fills ++ [⟨x, s.c.silo.get (Fin.ofNat 64 slot.toNat)⟩] } }

/-! ## Completions -/

/-- A global load delivers its value, or leaves its register busy with poison (R136, R153). -/
def Ctx.loadDone (c : Ctx) (n : Nat) (l : Load) : Ctx :=
  let c1 := { c with loads := dropAt c.loads n, spoison := c.spoison.filter fun p => p.1 != l.dst }
  match l.poison with
  | some a => if l.dst = 0 then c1 else { c1 with spoison := c1.spoison ++ [(l.dst, a)] }
  | none => { c1 with regs := c1.regs.sset l.dst l.val, unread := c1.unread.filter fun e => e.1 != l.dst }

/-- An earlier atomic of the context to the bytes of a load is outstanding: the load, which sees it, completes after it
(R277). -/
def Ctx.awaits (c : Ctx) (seq : Nat) (addrs : List Nat) : Bool :=
  c.atomics.any fun a => a.seq < seq && addrs.any fun x => a.pa ≤ x && x < a.pa + a.size

/-- The first of some lines that is poisoned, as its address (R315). -/
def State.linesPoison (s : State) (lines : List Nat) : Option (BitVec 64) :=
  (lines.find? s.poisoned).map fun l => BitVec.ofNat 64 (l * 128)

/-- GLOBAL_LOAD_COMPLETE: x the context, n the load's place among those outstanding. In stage 4 the die's L2 first
gathers a token of its lines; a line poisoned by then is met as poisoned (R136, R302, R315). -/
def execGlobalLoadComplete (s : State) : Out :=
  let x := s.move.x
  match (s.ctx x).loads[s.move.n]? with
  | none => .next s
  | some l =>
    if l.after.any fun a => (s.ctx x).awaits a.1 a.2.1 then .next s
    else
      .next (s.withLines (l2Of (coreOf x)) l.lines false .op (s.ctx x).owner fun s =>
        (s.chargeLines (s.ctx x).region l.lines).modCtx x fun c =>
          c.loadDone s.move.n { l with poison := l.poison <|> s.linesPoison l.lines })

/-- A tile load gives its elements, its type and its marks (R150, R153). -/
def Tile.loaded (t : Tile) (l : TileLoad) : Tile :=
  let u := t.write l.en l.vals (some l.ty) none
  match l.poison with
  | some a => { u with poison := some a }
  | none => u

/-- TILE_LOAD_COMPLETE: x the context, n the load's place among those outstanding (R151, R153). -/
def execTileLoadComplete (s : State) : Out :=
  let x := s.move.x
  match (s.ctx x).tloads[s.move.n]? with
  | none => .next s
  | some l =>
    if l.after.any fun a => (s.ctx x).awaits a.1 a.2.1.flatten then .next s
    else
      .next (s.withLines (l2Of (coreOf x)) l.lines false .op (s.ctx x).owner fun s =>
        let l' := { l with poison := l.poison <|> s.linesPoison l.lines }
        (s.chargeLines (s.ctx x).region l.lines).modCtx x fun c =>
          { c with
            tloads := dropAt c.tloads s.move.n
            regs := { c.regs with t := c.regs.t.set l.t ((c.regs.t.get l.t).loaded l') } })

/-- A fill gives its target the slot's contents and state; a slot with no valid tag, or of the other kind, leaves it
invalid (R160). -/
def Tile.filled (t : Tile) (x : XReg) (slot : Option SiloSlot) : Tile :=
  match slot with
  | some k => if k.isAcc = XReg.isAcc x then k.tile else { t with invalid := true, poison := none }
  | none => { t with invalid := true, poison := none }

/-- FILL_COMPLETE: x the context, n the fill's place among those outstanding (R160). -/
def execFillComplete (s : State) : Out :=
  let x := s.move.x
  match (s.ctx x).fills[s.move.n]? with
  | none => .next s
  | some f =>
    .next (s.modCtx x fun c =>
      { c with
        fills := dropAt c.fills s.move.n
        regs := c.regs.xset f.x ((c.regs.xget f.x).filled f.x f.slot) })

end Sys2Proof.Machine
end

