-- ==== Sys2Proof/Machine/Commute.lean ====
section
/-! DEFINITION. What commutes with a latent factor (R239, R240), and the checks of a V or F syllable in the order of
R171. -/

namespace Sys2Proof.Machine

open Sys2Proof

/-- A reference of a latent slot: the vector, and whether its reciprocal is meant (R225). -/
abbrev LRef := LvReg × Bool

/-- The references of a descriptor, A before B (R225). -/
def refsOf (d : BitVec 16) : List LRef :=
  if d.getLsbD 15 then
    (Fin.ofNat 16 d.toNat, d.getLsbD 8) ::
      (if d.getLsbD 10 then [(Fin.ofNat 16 (d.toNat / 16), d.getLsbD 9)] else [])
  else []

/-- The descriptor of a list of at most two references (R225). -/
def descOf (refs : List LRef) : BitVec 16 :=
  match refs with
  | [] => 0
  | [a] => BitVec.ofNat 16 (fld 1 15 + fld a.2.toNat 8 + a.1.val)
  | a :: b :: _ => BitVec.ofNat 16 (fld 1 15 + fld 1 10 + fld b.2.toNat 9 + fld a.2.toNat 8 + fld b.1.val 4 + a.1.val)

/-- What an instruction does with one latent slot: the codes of R239. `product` is the entry of TFMA, `identKeep` and
`sameKeep` those of ROWMOV, `clear` that of the fills. -/
inductive Com where
  | pass | same | cancel | join | product | neg | ident | keep | identKeep | sameKeep | clear
deriving DecidableEq, Repr

/-- The place of the first slot that differs from the first source's. -/
def diffAt (ds : List (BitVec 16)) : Option Nat := ds.findIdx? fun d => d != ds.headD 0

/-- The place of the first slot that is not identity. -/
def nonIdAt (ds : List (BitVec 16)) : Option Nat := ds.findIdx? fun d => d != 0

/-- The references of sources joined in order, or the place of the source that makes them more than two. -/
def joinRefs : Nat → List LRef → List (BitVec 16) → Except Nat (BitVec 16)
  | _, acc, [] => .ok (descOf acc)
  | i, acc, d :: ds =>
    let refs := acc ++ refsOf d
    if refs.length > 2 then .error i else joinRefs (i + 1) refs ds

/-- One slot: `own` the destination's, `ds` the sources' in order; the slot of the result, or the place of the source
that fails (R239). -/
def Com.slot (c : Com) (own : BitVec 16) (ds : List (BitVec 16)) : Except Nat (BitVec 16) :=
  let orFail := fun (bad : Option Nat) (v : BitVec 16) => match bad with
    | some i => Except.error i
    | none => Except.ok v
  match c with
  | .pass => .ok (ds.headD 0)
  | .neg => .ok (if ds.headD 0 = 0 then 0 else ds.headD 0 ^^^ 0x800)
  | .same => orFail (diffAt ds) (ds.headD 0)
  | .cancel => orFail (diffAt ds) 0
  | .join => joinRefs 0 [] ds
  | .product =>
    match joinRefs 0 [] (ds.take 2) with
    | .error i => .error i
    | .ok d => if ds.getD 2 0 = d then .ok d else .error 2
  | .ident => orFail (nonIdAt ds) 0
  | .keep => .ok own
  | .identKeep => orFail (nonIdAt ds) own
  | .sameKeep => if ds.headD 0 = own then .ok own else .error 0
  | .clear => .ok 0

/-- A row of R240: RS, RB, CS, CB. -/
structure Row where
  rs : Com
  rb : Com
  cs : Com
  cb : Com
deriving DecidableEq, Repr

/-- A row with one code throughout. -/
def Row.all (c : Com) : Row := ⟨c, c, c, c⟩

/-- The code leaves the destination's own slot as it is. -/
def Com.keeps (c : Com) : Bool := c == .keep || c == .identKeep || c == .sameKeep

/-- A row whose result is the destination's own state, kept: nothing is written to it. -/
def Row.keeps (r : Row) : Bool := r.rs.keeps && r.rb.keeps && r.cs.keeps && r.cb.keeps

/-- A slot that failed keeps the lowest place. -/
def failAt (r : Except Nat (BitVec 16)) : Option Nat :=
  match r with
  | .error i => some i
  | .ok _ => none

/-- The slot of a check that passed. -/
def slotOk (r : Except Nat (BitVec 16)) : BitVec 16 :=
  match r with
  | .ok d => d
  | .error _ => 0

/-- The check of a row: the latent slots of the result, or the number of the first source whose slot fails (R239). -/
def Row.run (r : Row) (own : Lat) (srcs : List (Nat × Lat)) : Except Nat Lat :=
  let rs := r.rs.slot own.rs (srcs.map (·.2.rs))
  let rb := r.rb.slot own.rb (srcs.map (·.2.rb))
  let cs := r.cs.slot own.cs (srcs.map (·.2.cs))
  let cb := r.cb.slot own.cb (srcs.map (·.2.cb))
  match ([failAt rs, failAt rb, failAt cs, failAt cb].filterMap id).min? with
  | some i => .error ((srcs.map (·.1)).getD i 0)
  | none => .ok ⟨slotOk rs, slotOk rb, slotOk cs, slotOk cb, own.devnf⟩

/-! ## The checks of R171 -/

/-- Step 1: the first marked tile among those read. -/
def Regs.marks (r : Regs) (ts : List XReg) : Option (BitVec 8 × Word) :=
  ts.findSome? fun x => (r.xget x).markFault (XReg.num x)

/-- Step 2: a change of type against factors that are attached (R169). -/
def Regs.typeFault (r : Regs) (dst : Option (TReg × ElemTy)) : Option (BitVec 8 × Word) :=
  match dst with
  | some (d, ty) =>
    if (r.t.get d).ty ≠ ty ∧ !(r.t.get d).lat.isId then some (0x08, BitVec.ofNat 64 d.val) else none
  | none => none

/-- Steps 1 to 3, then the rest of the syllable with the latent state of its result. -/
def State.vChecks (s : State) (reads : List XReg) (dst : Option (TReg × ElemTy)) (row : Row) (own : Lat)
    (srcs : List XReg) (go : Lat → State → State) : State :=
  match s.view.marks reads with
  | some (c, v) => s.slotFault c v
  | none =>
    match s.view.typeFault dst with
    | some (c, v) => s.slotFault c v
    | none =>
      match row.run own (srcs.map fun x => (XReg.num x, (s.view.xget x).lat)) with
      | .error n => s.slotFault 0x07 (BitVec.ofNat 64 n)
      | .ok l => go l s

/-! ## Results over a set of elements -/

/-- The elements of a set computed, each with its flags; zero outside it. -/
def gridOf (en : Mask) (f : Fin 16 → Fin 64 → BitVec 32 × Flags) : Grid × Flags :=
  let cells : Vector (Vector (BitVec 32 × Flags) 64) 16 :=
    tabulate 16 fun i => if en.get i = 0 then Vector.replicate 64 (0, 0)
      else tabulate 64 fun j => if en.at i j then f i j else (0, 0)
  (tabulate 16 fun i => tabulate 64 fun j => ((cells.get i).get j).1,
    cells.toList.foldl (fun (a : Flags) row => row.toList.foldl (fun (b : Flags) e => b ||| e.2) a) 0)

/-- Both bits. -/
def Mask.both (a b : Mask) : Mask := tabulate 16 fun i => a.get i &&& b.get i

/-- The element value of a tile through the implied record of its type (R170). -/
def Tile.src (t : Tile) (cb : Vector (BitVec 64) 32) (i : Fin 16) (j : Fin 64) : Num :=
  (Rec.implied t.ty cb).decode (Grid.at t.cells i j)

/-- Bits [w − 1 : 0] of a container. -/
def Tile.bits (t : Tile) (w : Nat) (i : Fin 16) (j : Fin 64) : BitVec 32 :=
  BitVec.ofNat 32 ((Grid.at t.cells i j).toNat % 2 ^ w)

/-- A tile result of a V, F or X syllable: its checks, then its landing with type, latent state and flags (R169). -/
def State.vTile (s : State) (lat : Nat) (td : TReg) (ty : ElemTy) (reads : List TReg) (row : Row) (srcs : List TReg)
    (en : Mask) (f : Fin 16 → Fin 64 → BitVec 32 × Flags) : State :=
  s.vChecks (reads.map .t) (some (td, ty)) row (s.tv td).lat (srcs.map .t) fun l s =>
    let r := gridOf en f
    s.emit lat [.tile (.t td) en r.1 (some ty) (if row.keeps then none else some l)] r.2

/-- A tile result of a form that names one row or one element, `here` where that lies within the active shape: elsewhere the
form writes nothing, its type neither (R179, R181, R326). -/
def State.vPart (s : State) (here : Bool) (lat : Nat) (td : TReg) (ty : ElemTy) (reads : List TReg) (row : Row)
    (srcs : List TReg) (en : Mask) (f : Fin 16 → Fin 64 → BitVec 32 × Flags) : State :=
  if here then s.vTile lat td ty reads row srcs en f
  else s.vChecks (reads.map .t) none row (s.tv td).lat (srcs.map .t) fun _ s => s.emit lat []

end Sys2Proof.Machine
end

