-- ==== Sys2Proof/Machine/Vector.lean ====
section
/-! DEFINITION. The vector instructions of V0 and V1 (09_tiles_vector R162-R188). -/

namespace Sys2Proof.Machine

open Sys2Proof

/-- The codebooks as the bundle reads them. -/
def State.books (s : State) : Vector (BitVec 64) 32 := s.view.cb

/-- The elements that a guarding mask writes: the active ones of td where the mask is 1 (R168, R170). -/
def State.elems (s : State) (t : TReg) (k : KReg) : Mask := Mask.both (s.tv t).active (s.view.kget k)

/-- An exact result with its flags, encoded through a record. -/
def encodeWith (r : Rec) (x : Num × Flags) : BitVec 32 × Flags :=
  let e := r.encode x.1
  (e.1, x.2 ||| e.2)

/-! ## Floating-point elementwise (R173-R175) -/

/-- A floating-point elementwise syllable: `f rdn i j` is the exact result of an element. -/
def State.vFloat (s : State) (td : TReg) (v : VCtl) (srcs reads : List TReg) (row : Row)
    (f : State → Bool → Fin 16 → Fin 64 → Num × Flags) : Out :=
  s.guarded ⟨v.p, false⟩ fun s =>
    let r := s.view.record v.sel (s.tv td).ty
    s.vTile 4 td r.ty reads row srcs (s.elems td v.k) fun i j => encodeWith r (f s (r.rm == .rdn) i j)

/-- An element of a source (R170). -/
def State.el (s : State) (t : TReg) (i : Fin 16) (j : Fin 64) : Num := (s.tv t).src s.books i j

/-- A syllable of two sources. -/
def State.vFloat2 (s : State) (td : TReg) (a b : TSrc) (v : VCtl) (row : Row)
    (op : Bool → Num → Num → Num × Flags) : Out :=
  s.vFloat td v [a.t, b.t] [a.t, b.t] row fun s rdn i j => op rdn (s.el a.t i j) (s.el b.t i j)

def execTadd (td : TReg) (ta tb : TSrc) (v : VCtl) (s : State) : Out :=
  s.vFloat2 td ta tb v ⟨.same, .ident, .same, .ident⟩ addOp
def execTsub (td : TReg) (ta tb : TSrc) (v : VCtl) (s : State) : Out :=
  s.vFloat2 td ta tb v ⟨.same, .cancel, .same, .cancel⟩ subOp
def execTmul (td : TReg) (ta tb : TSrc) (v : VCtl) (s : State) : Out :=
  s.vFloat2 td ta tb v ⟨.join, .ident, .join, .ident⟩ fun _ => mulOp
def execTmax (td : TReg) (ta tb : TSrc) (v : VCtl) (s : State) : Out :=
  s.vFloat2 td ta tb v ⟨.ident, .same, .ident, .same⟩ fun _ => maxOp true
def execTmin (td : TReg) (ta tb : TSrc) (v : VCtl) (s : State) : Out :=
  s.vFloat2 td ta tb v ⟨.ident, .same, .ident, .same⟩ fun _ => maxOp false
def execTfma (td : TReg) (ta tb tc : TSrc) (v : VCtl) (s : State) : Out :=
  s.vFloat td v [ta.t, tb.t, tc.t] [ta.t, tb.t, tc.t] ⟨.product, .ident, .product, .ident⟩ fun s rdn i j =>
    fmaOp rdn (s.el ta.t i j) (s.el tb.t i j) (s.el tc.t i j)
def execTadds (td : TReg) (ta : TSrc) (r : SReg) (v : VCtl) (s : State) : Out :=
  s.vFloat td v [ta.t] [ta.t] ⟨.ident, .pass, .ident, .pass⟩ fun s rdn i j => addOp rdn (s.el ta.t i j) (s.fv r)
def execTmuls (td : TReg) (ta : TSrc) (r : SReg) (v : VCtl) (s : State) : Out :=
  s.vFloat td v [ta.t] [ta.t] ⟨.pass, .ident, .pass, .ident⟩ fun s _ i j => mulOp (s.el ta.t i j) (s.fv r)
def execTfmas (td : TReg) (ta : TSrc) (r : SReg) (v : VCtl) (s : State) : Out :=
  s.vFloat td v [ta.t, td] [ta.t, td] ⟨.same, .ident, .same, .ident⟩ fun s rdn i j =>
    fmaOp rdn (s.el ta.t i j) (s.fv r) (s.el td i j)
def execTcvt (td : TReg) (ta : TSrc) (v : VCtl) (s : State) : Out :=
  s.vFloat td v [ta.t] [ta.t] (Row.all .pass) fun s _ i j => (s.el ta.t i j, 0)

/-! ## Comparison (R176) -/

/-- The relation of TCMP by its number: eq, ne, lt, le, un. -/
def tcmpRel (rel : BitVec 8) (a b : Num) : Bool × Flags :=
  if rel = 0 then cmpOp .eq a b
  else if rel = 1 then (let r := cmpOp .eq a b; (!r.1, r.2))
  else if rel = 2 then cmpOp .lt a b
  else if rel = 3 then cmpOp .le a b
  else cmpOp .un a b

/-- TCMP: both sources are read through the one record; the mask keeps its other bits. -/
def execTcmp (kd : KReg) (ta tb : TSrc) (rel : BitVec 8) (v : VCtl) (s : State) : Out :=
  s.guarded ⟨v.p, false⟩ fun s =>
    let r := s.view.record v.sel (s.tv ta.t).ty
    let en := s.elems ta.t v.k
    s.vChecks [.t ta.t, .t tb.t] none (Row.all .ident) Lat.id [.t ta.t, .t tb.t] fun _ s =>
      let g := gridOf en fun i j =>
        let c := tcmpRel rel (r.decode (Grid.at (s.tv ta.t).cells i j)) (r.decode (Grid.at (s.tv tb.t).cells i j))
        (if c.1 then 1 else 0, c.2)
      s.emit 4 [.mask kd en (Mask.ofFn fun i j => Grid.at g.1 i j == 1)] g.2

/-! ## Moves of bits (R177, R179, R182) -/

/-- A syllable that writes bits of ta, given type and width, where `pick` names the source element. -/
def State.vMove (s : State) (lat : Nat) (td : TReg) (ta : TReg) (v : VCtl) (row : Row)
    (pick : State → Fin 16 → Fin 64 → Fin 16 × Fin 64) : Out :=
  s.guarded ⟨v.p, false⟩ fun s =>
    let r := s.view.record v.sel (s.tv ta).ty
    s.vTile lat td r.ty [ta] row [ta] (s.elems td v.k) fun i j =>
      let p := pick s i j
      ((s.tv ta).bits r.ty.width p.1 p.2, 0)

def execTmov (td : TReg) (ta : TSrc) (v : VCtl) (s : State) : Out :=
  s.vMove 2 td ta.t v (Row.all .pass) fun _ i j => (i, j)

/-- TSEL: the mask selects between ta and tb (R177). -/
def execTsel (td : TReg) (ta tb : TSrc) (v : VCtl) (s : State) : Out :=
  s.guarded ⟨v.p, false⟩ fun s =>
    let r := s.view.record v.sel (s.tv ta.t).ty
    let k := s.view.kget v.k
    s.vTile 2 td r.ty [ta.t, tb.t] (Row.all .same) [ta.t, tb.t] (s.tv td).active fun i j =>
      ((s.tv (if k.at i j then ta.t else tb.t)).bits r.ty.width i j, 0)

/-- The amount of a rotation or broadcast (R182). -/
def State.rotBy (s : State) (r : SReg) (imm : BitVec 8) : Int := (s.sv r).toInt + imm.toNat

/-- FloorMod as a number (R182). -/
def floorMod (v : Int) (n : Nat) : Nat := (v % n).toNat

def execRrot (td : TReg) (ta : TSrc) (r : SReg) (imm : BitVec 8) (v : VCtl) (s : State) : Out :=
  s.vMove 6 td ta.t v ⟨.pass, .pass, .ident, .ident⟩ fun s i j =>
    let c := (s.tv td).ncols
    (i, Fin.ofNat 64 ((j.val + floorMod (s.rotBy r imm) c) % c))
def execCrot (td : TReg) (ta : TSrc) (r : SReg) (imm : BitVec 8) (v : VCtl) (s : State) : Out :=
  s.vMove 3 td ta.t v ⟨.ident, .ident, .pass, .pass⟩ fun s i j =>
    let h := (s.tv td).nrows
    (Fin.ofNat 16 ((i.val + floorMod (s.rotBy r imm) h) % h), j)
def execRbc (td : TReg) (ta : TSrc) (r : SReg) (imm : BitVec 8) (v : VCtl) (s : State) : Out :=
  s.vMove 6 td ta.t v ⟨.pass, .pass, .ident, .ident⟩ fun s i _ => (i, Fin.ofNat 64 (floorMod (s.rotBy r imm) 64))
def execCbc (td : TReg) (ta : TSrc) (r : SReg) (imm : BitVec 8) (v : VCtl) (s : State) : Out :=
  s.vMove 3 td ta.t v ⟨.ident, .ident, .pass, .pass⟩ fun s _ j => (Fin.ofNat 16 (floorMod (s.rotBy r imm) 16), j)

/-- ROWMOV: one row; nothing is written when drow lies outside td (R179). -/
def execRowmov (td : TReg) (drow : Fin 16) (ta : TSrc) (srow : Fin 16) (sel : BitVec 5) (p : PReg) (s : State) : Out :=
  s.guarded ⟨p, false⟩ fun s =>
    let r := s.view.record sel (s.tv ta.t).ty
    let en := Mask.both (s.tv td).active (tabulate 16 fun i => if i = drow then BitVec.allOnes 64 else 0)
    let here := decide (drow ≤ (s.tv td).rows)
    s.vPart here 2 td r.ty [ta.t] ⟨.identKeep, .identKeep, .sameKeep, .sameKeep⟩ [ta.t] en fun _ j =>
      ((s.tv ta.t).bits r.ty.width srow j, 0)

/-! ## Integers and signs (R178, R84) -/

/-- The range of R84: of a type that is not an integer, that of its pattern. -/
def ElemTy.patRange (t : ElemTy) : Int × Int := if t.isInt then t.range else (0, 2 ^ t.width - 1)

/-- An integer result written under R84. -/
def writeInt (r : Rec) (x : Int) : BitVec 32 :=
  let lh := ElemTy.patRange r.ty
  BitVec.ofNat 32 (intBits r.ty.width (if r.sat then clampInt lh.1 lh.2 x else x))

/-- An integer syllable: `f` gives the w-bit result from the record and the two patterns. -/
def State.vInt (s : State) (td : TReg) (ta tb : TSrc) (v : VCtl) (f : Rec → BitVec 32 → BitVec 32 → BitVec 32) : Out :=
  s.guarded ⟨v.p, false⟩ fun s =>
    let r := s.view.record v.sel (s.tv td).ty
    s.vTile 2 td r.ty [ta.t, tb.t] (Row.all .ident) [ta.t, tb.t] (s.elems td v.k) fun i j =>
      (f r ((s.tv ta.t).bits r.ty.width i j) ((s.tv tb.t).bits r.ty.width i j), 0)

/-- A syllable on the integers of the two patterns. -/
def State.vInt2 (s : State) (td : TReg) (ta tb : TSrc) (v : VCtl) (f : Int → Int → Int) : Out :=
  s.vInt td ta tb v fun r a b => writeInt r (f (r.ty.int a.toNat) (r.ty.int b.toNat))

/-- The shift amount: the low log2 w bits of tb's pattern (R178). -/
def shiftOf (r : Rec) (b : BitVec 32) : Nat := b.toNat % r.ty.width

def execTiadd (td : TReg) (ta tb : TSrc) (v : VCtl) (s : State) : Out := s.vInt2 td ta tb v fun a b => a + b
def execTisub (td : TReg) (ta tb : TSrc) (v : VCtl) (s : State) : Out := s.vInt2 td ta tb v fun a b => a - b
def execTimul (td : TReg) (ta tb : TSrc) (v : VCtl) (s : State) : Out := s.vInt2 td ta tb v fun a b => a * b
def execTimax (td : TReg) (ta tb : TSrc) (v : VCtl) (s : State) : Out :=
  s.vInt2 td ta tb v fun a b => if a < b then b else a
def execTimin (td : TReg) (ta tb : TSrc) (v : VCtl) (s : State) : Out :=
  s.vInt2 td ta tb v fun a b => if b < a then b else a
def execTand (td : TReg) (ta tb : TSrc) (v : VCtl) (s : State) : Out := s.vInt td ta tb v fun _ a b => a &&& b
def execTor (td : TReg) (ta tb : TSrc) (v : VCtl) (s : State) : Out := s.vInt td ta tb v fun _ a b => a ||| b
def execTxor (td : TReg) (ta tb : TSrc) (v : VCtl) (s : State) : Out := s.vInt td ta tb v fun _ a b => a ^^^ b
def execTshl (td : TReg) (ta tb : TSrc) (v : VCtl) (s : State) : Out :=
  s.vInt td ta tb v fun r a b => writeInt r (r.ty.int a.toNat * 2 ^ shiftOf r b)
def execTshr (td : TReg) (ta tb : TSrc) (v : VCtl) (s : State) : Out :=
  s.vInt td ta tb v fun r a b => writeInt r (r.ty.int a.toNat / 2 ^ shiftOf r b)

/-- TABS and TNEG: the typed operand is ta (R178). -/
def State.vSign (s : State) (td : TReg) (ta : TSrc) (v : VCtl) (row : Row)
    (bits : Nat → BitVec 32 → BitVec 32) (int : Int → Int) : Out :=
  s.guarded ⟨v.p, false⟩ fun s =>
    let r := s.view.record v.sel (s.tv ta.t).ty
    s.vTile 2 td r.ty [ta.t] row [ta.t] (s.elems td v.k) fun i j =>
      let a := (s.tv ta.t).bits r.ty.width i j
      (if r.ty.isInt then writeInt r (int (r.ty.int a.toNat)) else bits r.ty.width a, 0)

def execTabs (td : TReg) (ta : TSrc) (v : VCtl) (s : State) : Out :=
  s.vSign td ta v (Row.all .ident) (fun w a => BitVec.ofNat 32 (a.toNat % 2 ^ (w - 1))) fun a => if a < 0 then -a else a
def execTneg (td : TReg) (ta : TSrc) (v : VCtl) (s : State) : Out :=
  s.vSign td ta v ⟨.pass, .neg, .pass, .neg⟩ (fun w a => a ^^^ BitVec.ofNat 32 (2 ^ (w - 1))) fun a => -a

/-! ## Fills (R180, R181) -/

/-- A number or an integer written through a record: a floating-point or cb4 record takes the first, an integer record
the second, ignoring EXP (R180). -/
def fillWith (r : Rec) (x : Num) (n : Int) : BitVec 32 × Flags :=
  if r.ty.isInt then
    let lh := r.ty.range
    let c := toIntRange lh.1 lh.2 r.rm (Num.ofRat (n : Rat))
    (BitVec.ofNat 32 (intBits r.ty.width c.1), c.2)
  else r.encode x

/-- A fill of td. -/
def State.vFill (s : State) (td : TReg) (v : VCtl) (f : State → Fin 16 → Fin 64 → Num × Int) : Out :=
  s.guarded ⟨v.p, false⟩ fun s =>
    let r := s.view.record v.sel (s.tv td).ty
    s.vTile 2 td r.ty [] (Row.all .clear) [] (s.elems td v.k) fun i j =>
      let x := f s i j
      fillWith r x.1 x.2

def execTfill (td : TReg) (r : SReg) (v : VCtl) (s : State) : Out := s.vFill td v fun s _ _ => (s.fv r, (s.sv r).toInt)
def execTfilli (td : TReg) (imm : BitVec 16) (v : VCtl) (s : State) : Out :=
  s.vFill td v fun _ _ _ => (bf16Num imm, imm.toInt)
/-- TIOTA: base plus the column, the row, or 64 times the row plus the column (R180). -/
def execTiota (td : TReg) (axis : BitVec 2) (base : BitVec 14) (v : VCtl) (s : State) : Out :=
  s.vFill td v fun _ i j =>
    let n : Int := base.toInt + (if axis = 0 then j.val else if axis = 1 then i.val else 64 * i.val + j.val : Nat)
    (Num.ofRat (n : Rat), n)

/-- The element (i, j) alone, where it is active. -/
def State.oneElem (s : State) (td : TReg) (row : Fin 16) (col : Fin 64) : Mask :=
  Mask.both (s.tv td).active (tabulate 16 fun i => if i = row then BitVec.twoPow 64 col.val else 0)

/-- TSET: nothing is written when the element is not active (R181). -/
def execTset (td : TReg) (row : Fin 16) (col : Fin 64) (r : SReg) (sel : BitVec 5) (p : PReg) (s : State) : Out :=
  s.guarded ⟨p, false⟩ fun s =>
    let q := s.view.record sel (s.tv td).ty
    s.vPart ((s.tv td).active.at row col) 2 td q.ty [] (Row.all .keep) [] (s.oneElem td row col) fun _ _ =>
      fillWith q (s.fv r) (s.sv r).toInt

/-- TGET: the container is read whether or not it is active (R181). -/
def execTget (d : SReg) (ta : TSrc) (row : Fin 16) (col : Fin 64) (sel : BitVec 5) (p : PReg) (s : State) : Out :=
  s.guarded ⟨p, false⟩ fun s =>
    s.vChecks [.t ta.t] none (Row.all .ident) Lat.id [.t ta.t] fun _ s =>
      let r := s.view.record sel (s.tv ta.t).ty
      let b := Grid.at (s.tv ta.t).cells row col
      if r.ty.isInt then s.emitS 2 d (BitVec.ofInt 64 (r.ty.int b.toNat))
      else
        let e := (Rec.f32 .rne).encode (r.decode b)
        s.emitS 2 d (zext32 e.1) e.2

/-- TSHAPE (R166). -/
def execTshape (td : TReg) (rows : BitVec 4) (cols : BitVec 6) (ty : BitVec 4) (p : PReg) (s : State) : Out :=
  s.guarded ⟨p, false⟩ fun s =>
    let T := s.tv td
    let r : Fin 16 := Fin.ofNat 16 rows.toNat
    let c : Fin 64 := Fin.ofNat 64 cols.toNat
    let y := (ElemTy.ofCode ty.toNat).getD .f32
    if (r ≠ T.rows ∨ c ≠ T.cols ∨ y ≠ T.ty) ∧ !T.lat.isId then s.slotFault 0x08 (BitVec.ofNat 64 td.val)
    else s.emit 2 [.shape td r c y]

/-! ## Reductions and scans (R183, R184) -/

/-- The reductions: sum, max, min, absolute maximum, sum of squares. -/
def reduce (sub : Nat) (rdn : Bool) (xs : List Num) : Num × Flags :=
  if sub = 0 then sumMany rdn xs
  else if sub = 1 then maxMany true (.inf true) xs
  else if sub = 2 then maxMany false (.inf false) xs
  else if sub = 3 then
    let r := maxMany true (.zero false) (xs.map Num.abs)
    (r.1, r.2)
  else sumSquares rdn xs

/-- The selected elements of row `i` of a source among the first `n` columns. -/
def State.rowSel (s : State) (t : TReg) (k : KReg) (i : Fin 16) (n : Nat) : List Num :=
  ((List.finRange 64).take n).filterMap fun j => if (s.view.kget k).at i j then some (s.el t i j) else none

/-- The selected elements of column `j` of a source among its rows. -/
def State.colSel (s : State) (t : TReg) (k : KReg) (j : Fin 64) : List Num :=
  ((List.finRange 16).take (s.tv t).nrows).filterMap fun i => if (s.view.kget k).at i j then some (s.el t i j) else none

/-- The row of R240 for a reduction. -/
def redRow (row : Bool) (sub : Nat) : Row :=
  if sub = 0 then (if row then ⟨.pass, .ident, .ident, .ident⟩ else ⟨.ident, .ident, .pass, .ident⟩)
  else if sub = 4 then (if row then ⟨.join, .ident, .ident, .ident⟩ else ⟨.ident, .ident, .join, .ident⟩)
  else if sub = 3 then Row.all .ident
  else if row then ⟨.ident, .pass, .ident, .ident⟩
  else ⟨.ident, .ident, .ident, .pass⟩

/-- The sources that a reduction's row names: ta, of sums of squares ta twice (R240). -/
def redSrcs (t : TReg) (sub : Nat) : List TReg := if sub = 4 then [t, t] else [t]

def execRred (td : TReg) (ta : TSrc) (sub : BitVec 8) (v : VCtl) (s : State) : Out :=
  s.guarded ⟨v.p, false⟩ fun s =>
    let r := s.view.record v.sel (s.tv td).ty
    let h := min (s.tv ta.t).nrows (s.tv td).nrows
    let en : Mask := tabulate 16 fun i => if i.val < h then 1 else 0
    s.vTile 6 td r.ty [ta.t] (redRow true sub.toNat) (redSrcs ta.t sub.toNat) en fun i _ =>
      encodeWith r (reduce sub.toNat (r.rm == .rdn) (s.rowSel ta.t v.k i (s.tv ta.t).ncols))

def execCred (td : TReg) (ta : TSrc) (sub : BitVec 8) (v : VCtl) (s : State) : Out :=
  s.guarded ⟨v.p, false⟩ fun s =>
    let r := s.view.record v.sel (s.tv td).ty
    let w := min (s.tv ta.t).ncols (s.tv td).ncols
    let en : Mask := tabulate 16 fun i => if i.val = 0 then BitVec.allOnes 64 >>> (64 - w) else 0
    s.vTile 3 td r.ty [ta.t] (redRow false sub.toNat) (redSrcs ta.t sub.toNat) en fun _ j =>
      encodeWith r (reduce sub.toNat (r.rm == .rdn) (s.colSel ta.t v.k j))

/-- RSCAN: each element from its own prefix: inclusive, exclusive, running maximum (R184). -/
def execRscan (td : TReg) (ta : TSrc) (sub : BitVec 8) (v : VCtl) (s : State) : Out :=
  s.guarded ⟨v.p, false⟩ fun s =>
    let r := s.view.record v.sel (s.tv td).ty
    let row : Row := if sub = 2 then ⟨.ident, .pass, .ident, .ident⟩ else ⟨.pass, .ident, .ident, .ident⟩
    s.vTile 6 td r.ty [ta.t] row [ta.t] (s.tv td).active fun i j =>
      encodeWith r
        (if sub = 2 then maxMany true (.inf true) (s.rowSel ta.t v.k i (j.val + 1))
        else sumMany (r.rm == .rdn) (s.rowSel ta.t v.k i (if sub = 0 then j.val + 1 else j.val)))

/-! ## Duplicated tiles (R186) -/

/-- The four latent slots of two states are the same. -/
def Lat.same (a b : Lat) : Bool := a.rs == b.rs && a.rb == b.rb && a.cs == b.cs && a.cb == b.cb

/-- The first difference of two tiles in row order, over the active elements of the first. -/
def firstDiff (a b : Tile) (w : Nat) : Option Nat :=
  (List.finRange 16).findSome? fun i =>
    if i.val ≤ a.rows.val then
      (List.finRange 64).findSome? fun j =>
        if j.val ≤ a.cols.val then
          let d := (a.bits w i j ^^^ b.bits w i j).toNat
          if d ≠ 0 then some (fld i.val 40 + fld j.val 32 + d) else none
        else none
    else none

/-- TCHK (R186). -/
def execTchk (ta tb : TSrc) (sel : BitVec 5) (p : PReg) (s : State) : Out :=
  s.guarded ⟨p, false⟩ fun s =>
    let a := s.tv ta.t
    let b := s.tv tb.t
    match s.view.marks [.t ta.t, .t tb.t] with
    | some (c, v) => s.slotFault c v
    | none =>
      if a.rows ≠ b.rows ∨ a.cols ≠ b.cols ∨ a.ty ≠ b.ty ∨ !a.lat.same b.lat then s.slotFault 0x09 (BitVec.twoPow 64 63)
      else
        match firstDiff a b (s.view.record sel a.ty).ty.width with
        | some d => s.slotFault 0x09 (BitVec.ofNat 64 d)
        | none => s

end Sys2Proof.Machine
end

