-- ==== Sys2Proof/Machine/Latent.lean ====
section
/-! DEFINITION. Latent factors: attaching, developing and reducing (12_latent R225-R245). -/

namespace Sys2Proof.Machine

open Sys2Proof

/-- The combined target as the bundle reads it. -/
def State.xv (s : State) (x : XReg) : Tile := s.view.xget x

/-- A latent vector as the bundle reads it. -/
def State.lvv (s : State) (v : LvReg) : LatVec := s.view.lv.get v

/-! ## Developed values (R226) -/

/-- An exact reciprocal: 1/±0 = ±∞ and 1/±∞ = ±0. -/
def recip (x : Num) : Num :=
  match x with
  | .nan n s f => .nan n s f
  | .inf n => .zero n
  | .zero n => .inf n
  | .fin q => .fin (1 / q)

/-- The entries that a descriptor uses at an index. -/
def State.slotEntries (s : State) (d : BitVec 16) (idx : Fin 64) : List Num :=
  (refsOf d).map fun r => f32Num ((s.lvv r.1).e.get idx)

/-- Ref of R226: an entry or its reciprocal. -/
def State.refValue (s : State) (idx : Fin 64) (r : LRef) : Num :=
  let e := f32Num ((s.lvv r.1).e.get idx)
  if r.2 then recip e else e

/-- A product that may already be invalid. -/
def mulOpt (a : Option Num) (b : Num) : Option Num :=
  match a with
  | some x => mulNum x b
  | none => none

/-- SlotValue of a descriptor that is not identity, its entries not NaN; none for 0 × ∞ (R226). -/
def State.slotValue (s : State) (d : BitVec 16) (idx : Fin 64) : Option Num :=
  let v := (refsOf d).foldl (fun (a : Option Num) r => mulOpt a (s.refValue idx r)) (some (.fin 1))
  if d.getLsbD 11 then v.map Num.negate else v

/-- The developed value of a stored one, with the special values in the order of R226. -/
def State.develop (s : State) (l : Lat) (rdn : Bool) (x : Num) (i : Fin 16) (j : Fin 64) : Num × Flags :=
  let i64 : Fin 64 := Fin.ofNat 64 i.val
  let es := s.slotEntries l.rb i64 ++ s.slotEntries l.cb j ++ s.slotEntries l.rs i64 ++ s.slotEntries l.cs j
  let f := snanFlag (x :: es)
  if x.isNaN then (x.quiet, f)
  else if es.any Num.isNaN then (Num.default, f)
  else
    let shift := fun (d : BitVec 16) (idx : Fin 64) => if d = 0 then [] else [s.slotValue d idx]
    let terms := shift l.rb i64 ++ shift l.cb j
    let bad := terms.any Option.isNone
    let sum := if bad then none else if terms.isEmpty then some x else sumNum rdn (x :: terms.filterMap fun t => t)
    let scale := fun (a : Option Num) (d : BitVec 16) (idx : Fin 64) =>
      if d = 0 then a
      else match s.slotValue d idx with
        | some v => mulOpt a v
        | none => none
    let r := orInvalid (scale (scale sum l.rs i64) l.cs j)
    (r.1, r.2 ||| f)

/-! ## Faults of cause 0x16 (R231) -/

/-- TVAL of cause 0x16. -/
def latVal (v : LvReg) (reason : Nat) : Word := BitVec.ofNat 64 (fld v.val 8 + reason)

/-- The lowest-numbered vector of those read that can never close or has failed, and the reason (R231, R238). -/
def State.latFault (s : State) (vs : List LvReg) : Option Word :=
  (List.finRange 16).findSome? fun v =>
    if vs.contains v then
      let V := s.lvv v
      if V.isOpen && !V.closing then some (latVal v 1) else if V.err then some (latVal v 2) else none
    else none

/-- A vector that commands or a close are still to change (R231, reason 0x05). -/
def LatVec.pending (v : LatVec) : Bool := v.pend > 0 || v.closing

/-- A fault of cause 0x16, or the rest. -/
def State.latCheck (s : State) (bad : Option Word) (go : State → State) : State :=
  match bad with
  | some v => s.slotFault 0x16 v
  | none => go s

/-! ## The instructions -/

/-- The latent state with one slot replaced. -/
def Lat.setSlot (l : Lat) (k : LSlot) (d : BitVec 16) : Lat :=
  match k with
  | .rs => { l with rs := d }
  | .rb => { l with rb := d }
  | .cs => { l with cs := d }
  | .cb => { l with cb := d }

/-- A slot's descriptor. -/
def Lat.getSlot (l : Lat) (k : LSlot) : BitVec 16 :=
  match k with
  | .rs => l.rs
  | .rb => l.rb
  | .cs => l.cs
  | .cb => l.cb

/-- TLAT (R232). -/
def execTlat (x : XReg) (slot : LSlot) (a b : LvReg) (useB recipA recipB neg : Bool) (s : State) : Out :=
  let d : BitVec 16 := BitVec.ofNat 16 (fld 1 15 + fld neg.toNat 11 + fld useB.toNat 10 + fld recipB.toNat 9
    + fld recipA.toNat 8 + fld b.val 4 + a.val)
  .next (s.emit 2 [.latent x ((s.xv x).lat.setSlot slot d)])

/-- TLATC: bit 0 RS to bit 3 CB (R233). -/
def execTlatc (x : XReg) (slots : BitVec 4) (s : State) : Out :=
  let l := (s.xv x).lat
  let drop := fun (i : Nat) (d : BitVec 16) => if slots.getLsbD i then 0 else d
  .next (s.emit 2 [.latent x ⟨drop 0 l.rs, drop 1 l.rb, drop 2 l.cs, drop 3 l.cb, l.devnf⟩])

/-- TLATQ (R234). -/
def execTlatq (d : SReg) (x : XReg) (slot : LSlot) (s : State) : Out :=
  let l := (s.xv x).lat
  let desc := l.getSlot slot
  let pending := (descVecs desc).any fun v => (s.lvv v).isOpen || (s.lvv v).pending
  .next (s.emitS 2 d (BitVec.ofNat 64 (fld l.devnf.toNat 17 + fld pending.toNat 16 + desc.toNat)))

/-- The record of an accumulator's development must be f32 or i32 (R238). -/
def tdevFault (x : XReg) (ty : ElemTy) : Option (BitVec 8 × Word) :=
  match x with
  | .t _ => none
  | .c r => if ty = .f32 ∨ ty = .i32 then none else some (0x08, BitVec.ofNat 64 (32 + r.val))

/-- TDEV: every factor applied once, with one rounding (R238). -/
def execTdev (x : XReg) (_port : Port) (sel : BitVec 5) (s : State) : Out :=
  let T := s.xv x
  let r := s.view.record sel T.ty
  match s.view.marks [x] with
  | some (c, v) => .next (s.slotFault c v)
  | none =>
    match tdevFault x r.ty with
    | some (c, v) => .next (s.slotFault c v)
    | none =>
      .next (s.latCheck (s.latFault T.lat.vecs) fun s =>
        let g := gridOf T.active fun i j => encodeWith r (s.develop T.lat (r.rm == .rdn) (T.src s.books i j) i j)
        let nf := (List.finRange 16).any fun i => (List.finRange 64).any fun j =>
          T.active.at i j && ((T.src s.books i j).isNaN || (T.src s.books i j).isInf)
        s.emit 8 [.tile x T.active g.1 (some r.ty) none, .latent x ⟨0, 0, 0, 0, nf⟩] g.2)

/-- The values that entry `e` of a reduction takes in, or none where `e` lies outside the shape (R235). -/
def State.lvTerms (s : State) (T : Tile) (op : Fin 8) (e : Fin 64) : Option (List Num) :=
  if op.val < 4 then
    if e.val < T.nrows then some (((List.finRange 64).take T.ncols).map fun j => T.src s.books (Fin.ofNat 16 e.val) j)
    else none
  else if e.val < T.ncols then some (((List.finRange 16).take T.nrows).map fun i => T.src s.books i e)
  else none

/-- The exact reduction of terms, extended by an entry (R235). -/
def lvReduce (op : Nat) (xs : List Num) (old : Option Num) : Num × Flags :=
  let more := old.toList
  if op = 0 then sumMany false (xs ++ more)
  else if op = 1 then sumMany false (squares xs ++ more)
  else if op = 2 then maxMany true (.inf true) (xs ++ more)
  else maxMany true (.zero false) ((xs ++ more).map Num.abs)

/-- LVACC (R235). -/
def execLvacc (x : XReg) (_port : Port) (lv : LvReg) (op : Fin 8) (extend : Bool) (s : State) : Out :=
  .next (s.vChecks [x] none (Row.all .ident) Lat.id [x] fun _ s =>
    let V := s.lvv lv
    let bad := if extend && !V.isOpen then some (latVal lv 3) else if V.pending then some (latVal lv 5) else none
    s.latCheck bad fun s =>
      let T := s.xv x
      let cells := tabulate 64 fun e =>
        match s.lvTerms T op e with
        | some xs =>
          let r := lvReduce (op.val % 4) xs (if extend then some (f32Num (V.e.get e)) else none)
          encodeWith (Rec.f32 .rne) r
        | none => (if op.val % 4 = 2 then 0xFF800000 else 0, 0)
      let en := if extend then BitVec.ofBoolListLE ((List.ofFn fun e => (s.lvTerms T op e).isSome)) |>.setWidth 64
        else BitVec.allOnes 64
      s.emit 2 [.lv lv en (tabulate 64 fun e => (cells.get e).1) true false]
        ((List.finRange 64).foldl (fun (f : Flags) e => f ||| (cells.get e).2) 0))

/-- LVCLOSE: PEND is examined as it lands (R235). -/
def execLvclose (lv : LvReg) (r : SReg) (scale : Bool) (s : State) : Out :=
  let V := s.lvv lv
  .next (s.latCheck (if !V.isOpen || V.closing then some (latVal lv 4) else none) fun s =>
    s.emit 2 [.lvClose lv (if scale then some ((s.sv r).setWidth 32) else none)])

/-- LVMOV of a row into a vector: all 64 containers, whatever the shape (R237). -/
def execLvmovToVector (lv : LvReg) (x : XReg) (_port : Port) (row : Fin 16) (s : State) : Out :=
  .next (s.vChecks [x] none (Row.all .ident) Lat.id [x] fun _ s =>
    s.latCheck (if (s.lvv lv).pending then some (latVal lv 5) else none) fun s =>
      let cells := tabulate 64 fun j => (Rec.f32 .rne).encode ((s.xv x).src s.books row j)
      s.emit 2 [.lv lv (BitVec.allOnes 64) (tabulate 64 fun j => (cells.get j).1) false true]
        ((List.finRange 64).foldl (fun (f : Flags) j => f ||| (cells.get j).2) 0))

/-- LVMOV of a vector into a row, through the implied record; nothing is written where the row lies outside x (R237). -/
def execLvmovToRow (x : XReg) (row : Fin 16) (lv : LvReg) (s : State) : Out :=
  let T := s.xv x
  .next (s.latCheck (s.latFault [lv]) fun s =>
    let en := Mask.both T.active (tabulate 16 fun i => if i = row then BitVec.allOnes 64 else 0)
    let g := gridOf en fun _ j => (Rec.implied T.ty s.books).encode (f32Num ((s.lvv lv).e.get j))
    s.emit 2 (if row ≤ T.rows then [.tile x en g.1 (some T.ty) none] else []) g.2)

/-- LVSET (R236). -/
def execLvset (lv : LvReg) (r : SReg) (leaveOpen : Bool) (s : State) : Out :=
  .next (s.latCheck (if (s.lvv lv).pending then some (latVal lv 5) else none) fun s =>
    s.emit 2 [.lv lv (BitVec.allOnes 64) (.replicate 64 ((s.sv r).setWidth 32)) leaveOpen true])

end Sys2Proof.Machine
end

