-- ==== Sys2Proof/Machine/Matrix.lean ====
section
/-! DEFINITION. The matrix unit (11_matrix R204-R224): the issue of a Q syllable with its checks, and the execution and
completion of its operations in issue order. -/

namespace Sys2Proof.Machine

open Sys2Proof

/-! ## Types (R207) -/

/-- The accumulator type and the occupancy of a product of an A and a W type. -/
def prodType (a w : ElemTy) : Option (ElemTy × Nat) :=
  let half := fun (t : ElemTy) => t == .bf16 || t == .f16
  let quarter := fun (t : ElemTy) => t == .e4m3 || t == .e5m2
  let byte := fun (t : ElemTy) => t == .i8 || t == .n8
  if half a && half w then some (.f32, 16)
  else if quarter a && quarter w then some (.f32, 8)
  else if a == .bf16 && w == .cb4 then some (.f32, 4)
  else if byte a && byte w then some (.i32, 8)
  else if byte a && w == .i4 then some (.i32, 4)
  else none

/-- The opcode is a product (R214), an accumulating one, and one that streams its first tile. -/
def QOp.isProd (q : QOp) : Bool := 4 ≤ q.op.toNat && q.op.toNat ≤ 8
def QOp.isAcc (q : QOp) : Bool := q.op == 5 || q.op == 7 || q.op == 8
def QOp.isStream (q : QOp) : Bool := q.op == 6 || q.op == 7

/-- The accumulator of repeat k (R214). -/
def QOp.acc (q : QOp) (k : Nat) : CReg := Fin.ofNat 8 (q.cd.val + k * q.inc)

/-- The implied record of a type, as a record's content (R75). -/
def impliedWord (t : ElemTy) : BitVec 64 := BitVec.ofNat 64 t.code

/-- The A record as the operation captured it (R76). -/
def QOp.aRec (q : QOp) : Option Rec := q.arec.map fun r => Rec.ofWord r q.cb

/-- The W record, of fmtsel 0x1F the type of a plane of FORM 0 (R212). -/
def QOp.wRec (q : QOp) (p : Plane) : Option Rec :=
  if q.wImplied then (if p.packed then none else some (Rec.implied p.ty q.cb)) else q.wrec.map fun r => Rec.ofWord r q.cb

/-- The accumulator type and occupancy of a product with a plane, where its records are well formed and combine. -/
def QOp.types (q : QOp) (p : Plane) : Option (ElemTy × Nat) :=
  if (q.arec.any recBad) || (q.wrec.any recBad) then none
  else
    match q.aRec, q.wRec p with
    | some a, some w => prodType a.ty w.ty
    | _, _ => none

/-! ## The state as it stands at issue (R205) -/

/-- An accumulator written whole: its shape is fixed and both marks clear (R204, R209). -/
def Tile.accum (cells : Grid) (ty : ElemTy) (lat : Lat) : Tile := ⟨cells, 15, 63, ty, lat, false, none⟩

/-- The latent state of the product of repeat k (R221). -/
def QOp.prodLat (q : QOp) (p : Plane) (k : Nat) : Lat :=
  let rs := if k = 0 ∧ !q.isStream then (q.tiles.headD Tile.fresh).lat.rs else 0
  ⟨rs, 0, if q.op = 8 then 0 else p.cs, 0, false⟩

/-- The plane of four tiles (R212). -/
def planeOf (ts : List Tile) : Plane where
  rows := tabulate 64 fun k =>
    let row := ((ts.getD (k.val / 16) Tile.fresh).cells.get (Fin.ofNat 16 k.val)).toList
    BitVec.ofNat 2048 (row.foldr (fun (c : Cont) (n : Nat) => n * 2 ^ 32 + c.toNat) 0)
  valid := true
  packed := false
  ty := (ts.headD Tile.fresh).ty
  cs := (ts.headD Tile.fresh).lat.cs

/-- The type that MWR gives its accumulator (R215). -/
def mwrType (t : ElemTy) : ElemTy := if t.isInt then .i32 else .f32

/-- What a pending operation will have made of an accumulator's type, latent state and marks. -/
def QOp.willBe (q : QOp) (p : Plane) (k : Nat) (old : Tile) : Tile :=
  if q.op = 4 ∨ q.op = 6 then
    Tile.accum old.cells ((q.types p).elim old.ty (·.1)) { q.prodLat p k with devnf := old.lat.devnf }
  else (q.accs.find? (·.1 == q.acc k)).elim old (·.2)

/-- The type, latent state and marks of the tile that MRD or MSTAT will have written (R215, R216). -/
def QOp.tileWillBe (q : QOp) (old : Tile) : Tile :=
  if q.op = 0x0A then
    { old with
      ty := q.aRec.elim old.ty (·.ty)
      lat := (q.accs.find? (·.1 == q.cd)).elim old.lat (·.2.lat)
      invalid := false
      poison := none }
  else { old with ty := .i32 }

/-- The planes, the marks, types and latent states of the accumulators and those of the tiles written after a pending
operation, as if it ran to completion (R205). -/
def Ctx.qAhead (c : Ctx) (q : QOp) : Ctx :=
  if q.op = 1 then { c with shadow := planeOf q.tiles }
  else if q.op = 2 then { c with shadow := { Plane.fresh with valid := true, packed := true } }
  else if q.op = 3 then { c with active := c.shadow, shadow := c.active }
  else if q.isProd then
    (List.range (q.rep + 1)).foldl (fun (c : Ctx) k =>
      { c with regs := c.regs.xset (.c (q.acc k)) (q.willBe c.active k (c.regs.c.get (q.acc k))) }) c
  else if q.op = 9 then { c with regs := c.regs.xset (.c q.cd) Tile.fresh }
  else if q.op = 0x0B then
    let T := q.tiles.headD Tile.fresh
    let u := Tile.accum (c.regs.c.get q.cd).cells ((q.aRec).elim .f32 fun r => mwrType r.ty) T.lat
    { c with regs := c.regs.xset (.c q.cd) u }
  else if q.op = 0x0A ∨ q.op = 0x0C then
    { c with regs := c.regs.xset (.t q.ta) (q.tileWillBe (c.regs.t.get q.ta)) }
  else c

/-- The unit's state of the focused context as it stands at issue, with the tiles as the bundle reads them. -/
def State.qNow (s : State) : Ctx := s.c.mq.foldl Ctx.qAhead { s.c with regs := { s.c.regs with t := s.view.t } }

/-! ## Checks at issue (R218) -/

/-- Rows 1 and 2: a marked tile or accumulator. DESIGN CHOICE, log entry 90: of several, the first one marked decides, by its
POISON before its INVALID; the spec ranks the two marks within one alone. Unsafe, as that entry says. -/
def QOp.markBad (q : QOp) (c : Ctx) : Option (BitVec 8 × Word) :=
  let reads := if q.isAcc then (List.range (q.rep + 1)).map q.acc else if q.op = 0x0A then [q.cd] else []
  (((List.range q.tiles.length).zip q.tiles).findSome? fun t => t.2.markFault (q.ta.val + t.1)).or
    (reads.findSome? fun r => (c.regs.c.get r).markFault (32 + r.val))

/-- Row 4: a change of type of the tile written against factors that are attached; `t` is that tile. -/
def QOp.typeBad (q : QOp) (t : Tile) : Option (BitVec 8 × Word) :=
  let ty : Option ElemTy :=
    if q.op = 0x0C then some .i32
    else if q.op = 0x0A then (if q.arec.any recBad then none else (q.aRec).map (·.ty))
    else none
  match ty with
  | some y => if y ≠ t.ty ∧ !t.lat.isId then some (0x08, BitVec.ofNat 64 q.ta.val) else none
  | none => none

/-- Row 5: the latent rules of R221: ta, then the accumulators, then the active plane. -/
def QOp.latBad (q : QOp) (c : Ctx) : Option (BitVec 8 × Word) :=
  let fault := fun (n : Nat) => some ((0x07 : BitVec 8), BitVec.ofNat 64 n)
  if q.op = 1 then
    let cs := (q.tiles.headD Tile.fresh).lat.cs
    match (List.range 4).find? fun i =>
        let l := (q.tiles.getD i Tile.fresh).lat
        l.rs != 0 || l.rb != 0 || l.cb != 0 || l.cs != cs with
    | some i => fault (q.ta.val + i)
    | none => none
  else if q.isProd then
    let l := (q.tiles.headD Tile.fresh).lat
    if !q.isStream && (l.rb != 0 || l.cs != 0 || l.cb != 0) then fault q.ta.val
    else
      match (if q.isAcc then (List.range (q.rep + 1)).find? fun k =>
          !(c.regs.c.get (q.acc k)).lat.same (q.prodLat c.active k) else none) with
      | some k => fault (32 + (q.acc k).val)
      | none => if q.op = 8 ∧ c.active.cs ≠ 0 then fault 0x40 else none
  else none

/-- Rows 1 to 5. -/
def State.qBad (s : State) (q : QOp) : Option (BitVec 8 × Word) :=
  let c := s.qNow
  (q.markBad c).or
    ((if q.isProd && !c.active.valid then some (0x06, 0x40) else none).or
      ((q.typeBad (c.regs.t.get q.ta)).or (q.latBad c)))

/-- The checks of one streamed tile: `ew` the element width where it is known, `len` the bytes of a row. -/
def streamBad (x : Word) (pitch : Int) (ew : Option Nat) (len : Option Nat) : Option (BitVec 8 × Word) :=
  let mis := match ew with
    | some w =>
      if 8 ≤ w ∧ x.toNat % (w / 8) ≠ 0 then some ((0x0A : BitVec 8), x)
      else if 8 ≤ w ∧ pitch % (w / 8) ≠ 0 then some (0x0A, BitVec.ofInt 64 pitch)
      else none
    | none => none
  let far := match len with
    | some n => ((List.range 16).findSome? fun i => offScratch (rowAddr x pitch i) n).map fun o =>
        ((0x0B : BitVec 8), BitVec.ofNat 64 o)
    | none => none
  mis.or far

/-- Row 6: the addresses of `n` streamed tiles, with the register and descriptor after the last advance and the most
dimensions that an advance has walked. -/
def State.streamWalk (s : State) (a : AReg) (ew len : Option Nat) : Nat → Gen → Word →
    Except (BitVec 8 × Word) (List Nat × Gen × Word × Nat) × State
  | 0, g, x => (.ok ([], g, x, 0), s)
  | n + 1, g, x =>
    match streamBad x g.pitchInt ew len with
    | some e => (.error e, s)
    | none =>
      let r := s.advance g x
      match r.1 with
      | .error reason => (.error (0x0C, descVal a reason), r.2)
      | .ok d =>
        let q := r.2.streamWalk a ew len n (g.advanced d.n d.ctr d.wrap) d.y
        match q.1 with
        | .error e => (.error e, q.2)
        | .ok (as, g', x', k) => (.ok (x.toNat :: as, g', x', max d.n k), q.2)

/-! ## Issue (R206, R217) -/

/-- The resources that an operation takes: array cycles and loader cycles. A product that fails at execution holds the
array for the repeats that complete, and two cycles (R206). -/
def QOp.cycles (q : QOp) (c : Ctx) : Nat × Nat :=
  if q.isProd then
    match q.types c.active with
    | some (ty, occ) =>
      match (if q.isAcc then (List.range (q.rep + 1)).find? fun k => (c.regs.c.get (q.acc k)).ty != ty else none) with
      | some k => (k * occ + 2, 0)
      | none => ((q.rep + 1) * occ, 0)
    | none => (2, 0)
  else if q.op = 9 ∨ q.op = 0x0A ∨ q.op = 0x0B then (2, 0)
  else if q.op = 1 then (0, 4)
  else if q.op = 2 then (0, 8)
  else (0, 0)

/-- The array cycles charged to the budget and the window: those of R206 in full (R363, R453). -/
def QOp.charged (q : QOp) (c : Ctx) : Nat :=
  match (if q.isProd then q.types c.active else none) with
  | some (_, occ) => (q.rep + 1) * occ
  | none => (q.cycles c).1

/-- Array cycles charged to the region, to the core's window and to its counters. -/
def State.chargeArray (s : State) (n : Nat) : State :=
  if n = 0 then s
  else
    let used := s.windowUsed (coreOf s.id)
    let w := s.time / 1000
    let s1 := (s.charge s.c.region 2 n).modCore (coreOf s.id) fun k => { k with window := w, charged := used + n }
    s1.countEv s1.id 0x0C n

/-- The accumulators that an operation reads, as they stand at issue: of one that an earlier operation has still to write
what that will have made of its type, latent state and marks, and its elements once that has written them (R205). DESIGN
CHOICE, log entry 37: a window write that lands there meanwhile is missed, which R222 allows. -/
def State.qAccs (s : State) (q : QOp) : List (CReg × Tile) :=
  let reads := if q.isAcc then ((List.range (q.rep + 1)).map q.acc).eraseDups else if q.op = 0x0A then [q.cd] else []
  reads.map fun r => (r, s.qNow.regs.c.get r)

/-- The addresses of the 16 rows of a streamed tile. -/
def QOp.rowsOf (q : QOp) (i : Nat) : List Nat :=
  (List.range 16).map fun k => rowAddr (BitVec.ofNat 64 (q.addrs.getD i 0)) q.pitch.toInt k

/-- The values that a bundle writes to a byte of memory: one that stands there, those of its buffered stores, and that of an
atomic which has still to be performed. -/
def State.bundleWrites (s : State) (pa : Nat) : List (Option Byte) :=
  (if memGet s.mem pa = memGet s.bundle.mem pa then [] else [some (memGet s.mem pa)])
    ++ (s.c.pbuf.filter fun e => e.seq == s.c.seq && e.addr == pa).map (fun e => some e.val)
    ++ (s.c.atomics.filter fun a => a.seq == s.c.seq && a.pa ≤ pa && pa < a.pa + a.size).map fun _ => none

/-- The bundle that commits has written no memory so far. -/
def State.noWrites (s : State) : Bool :=
  s.mem == s.bundle.mem && !(s.c.pbuf.any fun e => e.seq == s.c.seq) && !(s.c.atomics.any fun a => a.seq == s.c.seq)

/-- The streamed bytes of `len` bytes a row that the operation's own bundle writes, by its stores, through the core's window
too, or by an atomic there: it reads those as they stood before the bundle (R276). -/
def State.qBefore (s : State) (q : QOp) (len : Nat) : List (Nat × Byte × Option Byte) :=
  if q.addrs.isEmpty || s.noWrites then []
  else
    ((List.range q.addrs.length).flatMap q.rowsOf).flatMap fun a => (List.range len).flatMap fun k =>
      let off := (a + k) % 0x200000
      let pa := scratchAddr (coreOf s.id) off
      (s.bundleWrites pa).map fun v => (off, memGet s.bundle.mem pa, v)

/-- The operation accepted: its resources held, its cycles charged, its destinations busy. `len` is the bytes of a row that
it streams. -/
def State.qAccept (s : State) (q : QOp) (len : Nat := 0) : State :=
  let c := s.qNow
  let h := q.cycles c
  let held := fun (n : Nat) => if n = 0 then 0 else s.pkg.tick + n * s.clk
  let s1 := s.modCore (coreOf s.id) fun k =>
    { k with
      arrayAt := if h.1 = 0 then k.arrayAt else held h.1
      loaderAt := if h.2 = 0 then k.loaderAt else held h.2 }
  let s2 := s1.chargeArray (q.charged c)
  let q' := { q with accs := s.qAccs q, before := s.qBefore q len, arrayTo := held h.1, loaderTo := held h.2 }
  { s2 with c := { s2.c with mq := s2.c.mq ++ [q'] } }

/-- A Q operation with nothing captured. -/
def State.qop (s : State) (op : BitVec 6) : QOp where
  op := op
  cd := 0
  ta := 0
  tiles := []
  arec := none
  wrec := none
  wImplied := false
  cb := s.view.cb
  rep := 0
  inc := 0
  addrs := []
  pitch := 0
  pc := s.bundle.pc
  cycle := s.c.now
  executed := false
  next := 0
  accs := []
  before := []
  arrayTo := 0
  loaderTo := 0
  stat := []
  flags := 0

/-- A Q syllable: its checks, then its acceptance (R218). -/
def State.qIssue (s : State) (p : PReg) (q : State → QOp) : Out :=
  s.guarded ⟨p, false⟩ fun s =>
    match s.qBad (q s) with
    | some (c, v) => s.slotFault c v
    | none => s.qAccept (q s)

/-- The element width that a stream's alignment takes from the A record, where it gives one (R218). -/
def QOp.streamWidth (q : QOp) : Option Nat := if q.arec.any recBad then none else (q.aRec).map (·.ty.width)

/-- A Q syllable that streams `n` tiles through register a: the checks of row 6 follow the others, and the register with
its counters lands (R210). -/
def State.qStream (s : State) (p : PReg) (a : AReg) (n : Nat) (q : State → QOp) : Out :=
  s.guarded ⟨p, false⟩ fun s =>
    let q := q s
    match s.qBad q with
    | some (c, v) => s.slotFault c v
    | none =>
      let g := s.gv a
      let len := if q.op = 2 then some 256 else q.streamWidth.map fun w => 8 * w
      let r := s.streamWalk a (if q.op = 2 then none else q.streamWidth) len n { g with ctrl := g.ctrl &&& 0x7F } (s.av a)
      match r.1 with
      | .error (c, v) => r.2.slotFault c v
      | .ok (as, g', x, k) =>
        let s1 := if n = 0 then r.2
          else r.2.emitAdv g.lat [.a a x, .ctr a k g'.ctr (g'.ctrl.getLsbD 7)]
        s1.qAccept { q with addrs := as, pitch := g.pitch } (len.getD 0)

/-- The content of a selected record, or none for 0x1F (R54). -/
def Regs.recWord (r : Regs) (sel : BitVec 5) : Option (BitVec 64) := (r.fmtIndex sel).map fun i => r.fmt.get i

/-- MLDS (R212). -/
def execMlds (ta : TSrc) (p : PReg) (s : State) : Out :=
  s.qIssue p fun s =>
    { s.qop 1 with ta := ta.t, tiles := (List.range 4).map fun i => s.tv (Fin.ofNat 32 (ta.t.val + i)) }

/-- MLDSL (R212). -/
def execMldsl (a : AReg) (p : PReg) (s : State) : Out := s.qStream p a 4 fun s => s.qop 2

/-- MSWAP (R213). -/
def execMswap (p : PReg) (s : State) : Out := s.qIssue p fun s => s.qop 3

/-- A product of a tile in a register (R214). -/
def State.prodOp (s : State) (op : BitVec 6) (cd : CReg) (ta : TSrc) (asel wsel : BitVec 5) (r : Rep) : QOp :=
  { s.qop op with
    cd := cd
    ta := ta.t
    tiles := [s.tv ta.t]
    arec := some ((s.view.recWord asel).getD (impliedWord (s.tv ta.t).ty))
    wrec := s.view.recWord wsel
    wImplied := wsel == 0x1F
    rep := r.rep.toNat
    inc := r.inc.toNat }

/-- A product of streamed tiles alone (R214). -/
def State.streamOp (s : State) (op : BitVec 6) (cd : CReg) (asel wsel : BitVec 5) (r : Rep) : QOp :=
  { s.qop op with
    cd := cd
    arec := s.view.recWord asel
    wrec := s.view.recWord wsel
    wImplied := wsel == 0x1F
    rep := r.rep.toNat
    inc := r.inc.toNat }

def execMmul (cd : CReg) (ta : TSrc) (asel wsel : BitVec 5) (r : Rep) (p : PReg) (s : State) : Out :=
  s.qStream p r.a r.rep.toNat fun s => s.prodOp 4 cd ta asel wsel r
def execMmac (cd : CReg) (ta : TSrc) (asel wsel : BitVec 5) (r : Rep) (p : PReg) (s : State) : Out :=
  s.qStream p r.a r.rep.toNat fun s => s.prodOp 5 cd ta asel wsel r
def execMmact (cd : CReg) (ta : TSrc) (asel wsel : BitVec 5) (r : Rep) (p : PReg) (s : State) : Out :=
  s.qStream p r.a r.rep.toNat fun s => s.prodOp 8 cd ta asel wsel r
def execMmull (cd : CReg) (asel wsel : BitVec 5) (r : Rep) (p : PReg) (s : State) : Out :=
  s.qStream p r.a (r.rep.toNat + 1) fun s => s.streamOp 6 cd asel wsel r
def execMmacl (cd : CReg) (asel wsel : BitVec 5) (r : Rep) (p : PReg) (s : State) : Out :=
  s.qStream p r.a (r.rep.toNat + 1) fun s => s.streamOp 7 cd asel wsel r

/-- MZERO (R215). -/
def execMzero (cd : CReg) (p : PReg) (s : State) : Out := s.qIssue p fun s => { s.qop 9 with cd := cd }

/-- MRD: 0x1F takes the accumulator's type as it stands at issue (R215). -/
def execMrd (td : TReg) (cd : CReg) (sel : BitVec 5) (p : PReg) (s : State) : Out :=
  s.qIssue p fun s =>
    { s.qop 0x0A with
      cd := cd
      ta := td
      arec := some ((s.view.recWord sel).getD (impliedWord (s.qNow.regs.c.get cd).ty)) }

/-- MWR: 0x1F takes the tile's type (R215). -/
def execMwr (cd : CReg) (ta : TSrc) (sel : BitVec 5) (p : PReg) (s : State) : Out :=
  s.qIssue p fun s =>
    { s.qop 0x0B with
      cd := cd
      ta := ta.t
      tiles := [s.tv ta.t]
      arec := some ((s.view.recWord sel).getD (impliedWord (s.tv ta.t).ty)) }

/-- Columns 3 and 4 of MSTAT. -/
def Plane.status (p : Plane) : Nat :=
  fld (p.cs != 0).toNat 8 + fld (if p.packed then 0 else p.ty.code) 4 + fld p.packed.toNat 1 + p.valid.toNat

/-- The values of MSTAT (R216). -/
def Ctx.mstat (c : Ctx) : List (BitVec 32) :=
  let bits := fun (f : Tile → Bool) => ((List.finRange 8).map fun a => if f (c.regs.c.get a) then 2 ^ a.val else 0).sum
  ([bits (·.invalid), bits (·.poison.isSome), bits (·.ty == .i32), c.active.status, c.shadow.status].map
    (BitVec.ofNat 32)) ++ [c.merrs]

/-- MSTAT (R216). -/
def execMstat (td : TReg) (p : PReg) (s : State) : Out :=
  s.qIssue p fun s => { s.qop 0x0C with ta := td, stat := s.qNow.mstat }

/-! ## Products (R208, R209) -/

/-- Element (k, j) of a plane at a width: its bits (R204). -/
def Plane.bits (p : Plane) (w : Nat) (k j : Fin 64) : BitVec 32 :=
  let row := (p.rows.get k).toNat
  BitVec.ofNat 32 (row / 2 ^ ((if p.packed then w else 32) * j.val) % 2 ^ w)

/-- An A operand: its elements' bits, and how many rows and columns take part. -/
structure AOperand where
  bits : Vector (Vector Cont 64) 16
  rows : Nat
  cols : Nat

/-- The byte of memory at a scratchpad offset for an operation: where a write of its own bundle stands there, the byte
before it; where another stands there, either (R211, R276). -/
def State.unitMem (s : State) (x off : Nat) (before : List (Nat × Byte × Option Byte)) : Byte × State :=
  let cur := memGet s.mem (scratchAddr (coreOf x) off)
  match before.find? (·.1 == off) with
  | none => (cur, s)
  | some (_, old, _) =>
    if before.any fun e => e.1 == off && e.2.2 == some cur then (old, s)
    else
      let f := s.freeBit
      (if f.1 then old else cur, f.2)

/-- A scratchpad byte that the unit reads for a context through the swizzled view: a value that a write through the linear
view, or of another agent, has replaced may be read instead of it (R141, R211). -/
def State.unitByte (s0 : State) (x off : Nat) (before : List (Nat × Byte × Option Byte)) : Byte × State :=
  let m := s0.unitMem x off before
  let s := m.2
  let c := s.ctx x
  let pa := scratchAddr (coreOf x) off
  let r := pickUnjoined off true c.unjoined s.fresh
  match r.1 with
  | some b => (b, { s with fresh := r.2.2 }.modCtx x fun c => { c with unjoined := r.2.1 })
  | none =>
    let q := pickStale pa m.1 c.stale r.2.2
    (q.1, { s with fresh := q.2.2 }.modCtx x fun c => { c with unjoined := r.2.1 }.saw x pa q.2.1)

/-- `n` bytes from an offset, as a number. -/
def State.unitBytes (s : State) (x off : Nat) (before : List (Nat × Byte × Option Byte)) : Nat → Nat × State
  | 0 => (0, s)
  | n + 1 =>
    let r := s.unitByte x off before
    let q := r.2.unitBytes x (off + 1) before n
    (r.1.toNat + 256 * q.1, q.2)

/-- The rows of `n` bytes that a streamed tile gives, by number. -/
def State.unitRows (s : State) (x : Nat) (before : List (Nat × Byte × Option Byte)) (n : Nat) : List Nat → List Nat × State
  | [] => ([], s)
  | a :: as =>
    let c := s.ctx x
    let r := if c.unjoined.isEmpty && c.stale.isEmpty && before.isEmpty then
        (memRead s.mem (scratchAddr (coreOf x) (a % 0x200000)) n, s)
      else s.unitBytes x (a % 0x200000) before n
    let q := r.2.unitRows x before n as
    (r.1 :: q.1, q.2)

/-- The A operand of repeat k: the tile in the register, or a streamed tile read through the swizzled view (R209). -/
def State.aOperand (s : State) (x : Nat) (q : QOp) (w k : Nat) : AOperand × State :=
  if k = 0 ∧ !q.isStream then
    let t := q.tiles.headD Tile.fresh
    (⟨t.cells, t.nrows, t.ncols⟩, s)
  else
    let r := s.unitRows x q.before (8 * w) (q.rowsOf (if q.isStream then k else k - 1))
    (⟨tabulate 16 fun i => unpackRow (r.1.getD i.val 0) w, 16, 64⟩, r.2)

/-- The value of a matrix operand: EXP plays no part in an integer (R208). -/
def Rec.matValue (r : Rec) (b : BitVec 32) : Num :=
  if r.ty.isInt then Num.ofRat (r.ty.int b.toNat : Rat) else r.decode b

/-- AccWrite of an f32 element: products, with the accumulator where it is added; no term is an exact +0 (R208). -/
def accFloat (avs wvs : List Num) (old : Option Num) : BitVec 32 × Flags :=
  let ps := (avs.zip wvs).map fun e => if e.1.isNaN || e.2.isNaN then none else some (mulNum e.1 e.2)
  let vals := avs ++ wvs ++ old.toList
  let bad := ps.any fun p => p == some none
  let sums := (if ps.isEmpty then [Num.zero false] else ps.filterMap fun p => p.join) ++ old.toList
  if vals.any Num.isNaN || bad then
    (0x7FC00000, snanFlag vals ||| flagIf (bad || bothInf sums) Flags.nv)
  else encodeWith (Rec.f32 .rne) (orInvalid (sumNum false sums))

/-- AccWrite of an i32 element, clamped (R208). -/
def accInt (avs wvs : List Num) (old : Option Int) : BitVec 32 × Flags :=
  let v : Int := ((avs.zip wvs).foldl (fun (a : Rat) e => a + e.1.rat * e.2.rat) 0).num + old.getD 0
  let c := clampInt (-2147483648) 2147483647 v
  (BitVec.ofInt 32 c, flagIf (c != v) Flags.of)

/-- The elements of one repeat, with the flags of the unit: NV and OF alone (R208). -/
def QOp.product (q : QOp) (op : AOperand) (p : Plane) (a w : Rec) (ty : ElemTy) (old : Tile) : Grid × Flags :=
  let r := gridOf Mask.ones fun i j =>
    let ks := if i.val < op.rows then (List.finRange 64).take op.cols else []
    let avs := ks.map fun t => a.matValue ((op.bits.get i).get t)
    let wvs := ks.map fun t => w.matValue (if q.op = 8 then p.bits w.ty.width j t else p.bits w.ty.width t j)
    let o := Grid.at old.cells i j
    if ty = .i32 then accInt avs wvs (if q.isAcc then some o.toInt else none)
    else accFloat avs wvs (if q.isAcc then some (f32Num o) else none)
  (r.1, r.2 &&& (Flags.nv ||| Flags.of))

/-! ## Errors (R219, R220) -/

/-- Reasons 0x01 to 0x04, with the offending record. -/
def QOp.execBad (q : QOp) (p : Plane) : Option (Nat × BitVec 64) :=
  if q.arec.any recBad then some (1, q.arec.getD 0)
  else if q.wrec.any recBad then some (2, q.wrec.getD 0)
  else if q.isProd && (q.arec.isNone || (q.wRec p).isNone) then some (3, 0)
  else if q.isProd && (q.types p).isNone then some (4, 0)
  else none

/-- The accumulators that an operation would still have written. -/
def QOp.dests (q : QOp) : List XReg :=
  if q.isProd then (((List.range (q.rep + 1)).drop q.next).map fun k => XReg.c (q.acc k))
  else if q.op = 9 ∨ q.op = 0x0B then [.c q.cd]
  else if q.op = 0x0A ∨ q.op = 0x0C then [.t q.ta]
  else []

/-- What dropped operations would have written becomes invalid, a plane empty; `swapped`: the number of exchanges
dropped so far is odd (R220). -/
def Ctx.qDrop (c : Ctx) (swapped : Bool) : List QOp → Ctx
  | [] => c
  | q :: qs =>
    let c1 := q.dests.foldl (fun (c : Ctx) x =>
      { c with regs := c.regs.xset x { c.regs.xget x with invalid := true } }) c
    let c2 : Ctx :=
      if q.op = 1 ∨ q.op = 2 then (if swapped then { c1 with active := Plane.fresh } else { c1 with shadow := Plane.fresh })
      else c1
    c2.qDrop (swapped != (q.op == 3)) qs

/-- The matrix error record (R220). -/
def QOp.errRecord (q : QOp) (x reason k : Nat) (rec : BitVec 64) : List Byte :=
  leBytes 4 (fld (x % 4) 22 + fld q.op.toNat 16 + fld reason 8 + 2) ++ leBytes 4 (fld (coreOf x) 16 + k)
    ++ leBytes 8 q.pc.toNat ++ leBytes 8 q.cycle ++ leBytes 8 rec.toNat

/-- The task of a context that waits in an EXIT ends with a fault of a unit; of the two units' causes that of the
matrix unit (R114). A task that another cause has ended before the wait keeps that cause (R376). -/
def Ctx.exitFault (c : Ctx) (cause : BitVec 8) : Ctx :=
  match c.mode with
  | .exiting _ f =>
    if f && !(c.waitFault && cause == 0x86) then c
    else { c with mode := .exiting (faultCode cause) true, waitFault := true }
  | _ => c

/-- An interrupt of a unit; none during the wait of an EXIT (R114). -/
def Ctx.unitIrq (c : Ctx) (cause : BitVec 8) (val : Word) : Ctx :=
  match c.mode with
  | .exiting _ _ => c.exitFault cause
  | _ => c.raiseIrq cause val

/-- The resources of a core that dropped operations hold are free (R206). -/
def Core.release (k : Core) (now : Nat) (ops : List QOp) : Core :=
  { k with
    arrayAt := if ops.any fun q => q.arrayTo == k.arrayAt then min now k.arrayAt else k.arrayAt
    loaderAt := if ops.any fun q => q.loaderTo == k.loaderAt then min now k.loaderAt else k.loaderAt }

/-- The head operation of a context fails at repeat k, its record written with tokens of the die's L2; the flags of its
repeats that have completed are not raised (R220, R318; log entry 77). -/
def State.qFail (s : State) (x : Nat) (q : QOp) (reason : Nat) (rec : BitVec 64) : State :=
  s.withWalks (l2Of (coreOf x)) (s.errWalks x 0x20) (s.errLines x 0x20) true .op (s.ctx x).owner fun s =>
    let s0 := s.modCore (coreOf x) fun k => k.release s.pkg.tick (s.ctx x).mq.tail
    let s1 := s0.modCtx x fun c => { c.qDrop false c.mq with mq := [], mhalted := true, merrs := c.merrs + 1 }
    let r := (s1.chargeErr x 0x20).errWrite x 0x20 (q.errRecord x reason q.next rec)
    r.1.modCtx x fun c => c.unitIrq 0x86 (c.sys.errbase + (if r.2 then 0x20 else 0x21))

/-! ## Execution and completion -/

/-- MATRIX_OP_EXECUTE: x the context, whose oldest operation reaches execution (R219). -/
def execMatrixOpExecute (s : State) : Out :=
  let x := s.move.x
  let c := s.ctx x
  match c.mq with
  | [] => .next s
  | q :: rest =>
    if q.executed then .next s
    else
      match q.execBad c.active with
      | some (reason, rec) => .next (s.qFail x q reason rec)
      | none => .next (s.modCtx x fun c => { c with mq := { q with executed := true } :: rest })

/-- The accumulator as an operation reads it. -/
def QOp.accNow (q : QOp) (c : Ctx) (r : CReg) : Tile := (q.accs.find? (·.1 == r)).elim (c.regs.c.get r) (·.2)

/-- A result in an accumulator: what later operations captured of it follows (R205). -/
def Ctx.accPut (c : Ctx) (r : CReg) (t : Tile) : Ctx :=
  { c with
    regs := c.regs.xset (.c r) t
    mq := c.mq.map fun q => { q with accs := q.accs.map fun e => if e.1 = r then (r, t) else e } }

/-- The head operation of a context has finished: it leaves the queue, and its flags are raised (R90). -/
def Ctx.qDone (c : Ctx) (f : Flags) : Ctx := { c with mq := c.mq.tail }.raiseFlags f

/-- One repeat of a product: reason 0x05, or its write; with the last one the operation is done (R208, R219). DEDUCED, log entry
101: the flags of all its repeats are raised then, as the operation completes (R90). -/
def State.qRepeat (s : State) (x : Nat) (q : QOp) : State :=
  let c := s.ctx x
  match q.aRec, q.wRec c.active, q.types c.active with
  | some a, some w, some (ty, _) =>
    let r := q.acc q.next
    let old := q.accNow c r
    if q.isAcc && old.ty != ty then s.qFail x q 5 0
    else
      let op := s.aOperand x q a.ty.width q.next
      let g := q.product op.1 c.active a w ty old
      let lat := if q.isAcc then old.lat else { q.prodLat c.active q.next with devnf := old.lat.devnf }
      let q' := { q with next := q.next + 1, flags := q.flags ||| g.2 }
      op.2.modCtx x fun c =>
        let c1 := ({ c with mq := q' :: c.mq.tail } : Ctx).accPut r (Tile.accum g.1 ty lat)
        if q.next = q.rep then c1.qDone q'.flags else c1
  | _, _, _ => s

/-- MRD: the accumulator encoded (R215). -/
def QOp.mrd (q : QOp) (src : Tile) (old : Tile) : Tile × Flags :=
  let r := (q.aRec).getD (Rec.f32 .rne)
  let g := gridOf Mask.ones fun i j => r.encode ((Rec.implied src.ty q.cb).decode (Grid.at src.cells i j))
  (old.write Mask.ones g.1 (some r.ty) (some src.lat), g.2 &&& (Flags.nv ||| Flags.of))

/-- MWR: the tile in an accumulator (R215). -/
def QOp.mwr (q : QOp) (old : Tile) : Tile × Flags :=
  let r := (q.aRec).getD (Rec.f32 .rne)
  let t := q.tiles.headD Tile.fresh
  let g := gridOf Mask.ones fun i j =>
    let b := Grid.at t.cells i j
    if r.ty.isInt then (BitVec.ofInt 32 (r.ty.int b.toNat), 0) else (Rec.f32 .rne).encode (r.decode b)
  (Tile.accum g.1 (mwrType r.ty) { t.lat with devnf := old.lat.devnf }, g.2 &&& (Flags.nv ||| Flags.of))

/-- MLDSL: the plane of four streamed tiles of 16 rows of 256 bytes (R212). -/
def State.streamPlane (s : State) (x : Nat) (q : QOp) : Plane × State :=
  let r := s.unitRows x q.before 256 ((List.range 4).flatMap q.rowsOf)
  (⟨tabulate 64 fun k => BitVec.ofNat 2048 (r.1.getD k.val 0), true, true, .f32, 0⟩, r.2)

/-- Row 0 of a tile as MSTAT writes it (R216). -/
def QOp.statTile (q : QOp) (old : Tile) : Tile :=
  old.write (tabulate 16 fun i => if i.val = 0 then BitVec.allOnes 64 else 0)
    (Grid.ofFn fun _ j => q.stat.getD j.val 0) (some .i32) none

/-- The write of an operation that is no product. -/
def State.qEffect (s : State) (x : Nat) (q : QOp) : State :=
  if q.op = 2 then
    let r := s.streamPlane x q
    r.2.modCtx x fun c => { c with shadow := r.1 }.qDone 0
  else s.modCtx x fun c =>
    let t := c.regs.t.get q.ta
    if q.op = 1 then { c with shadow := planeOf q.tiles }.qDone 0
    else if q.op = 3 then { c with active := c.shadow, shadow := c.active }.qDone 0
    else if q.op = 9 then (c.accPut q.cd Tile.fresh).qDone 0
    else if q.op = 0x0A then
      let r := q.mrd (q.accNow c q.cd) t
      { c with regs := c.regs.xset (.t q.ta) r.1 }.qDone r.2
    else if q.op = 0x0B then
      let r := q.mwr (c.regs.c.get q.cd)
      (c.accPut q.cd r.1).qDone r.2
    else { c with regs := c.regs.xset (.t q.ta) (q.statTile t) }.qDone 0

/-- MATRIX_OP_COMPLETE: x the context, whose oldest operation writes its next destination; with the last one it is done
(R217). -/
def execMatrixOpComplete (s : State) : Out :=
  let x := s.move.x
  match (s.ctx x).mq with
  | [] => .next s
  | q :: _ => s.when q.executed fun s => if q.isProd then s.qRepeat x q else s.qEffect x q

end Sys2Proof.Machine
end

