-- ==== Sys2Proof/Machine/Copy.lean ====
section
/-! DEFINITION. The copy engine (14_copy_engine R253-R273, 12_latent R228): commands and their queue, streams and rows,
the two phases of checks, faults, restart and cancellation. -/

namespace Sys2Proof.Machine

open Sys2Proof

/-! ## Flags of a command (R56) -/

def Cmd.pub (q : Cmd) : Bool := q.flags.getLsbD 0
def Cmd.flag (q : Cmd) : Bool := q.flags.getLsbD 1
def Cmd.latent (q : Cmd) : Bool := q.flags.getLsbD 3

/-- The command is a SEND or a SENDT (R415). -/
def Cmd.isSend (q : Cmd) : Bool := q.op == 0x38 || q.op == 0x39

/-- COPY, COPYG or COPYA. -/
def Cmd.isCopy (q : Cmd) : Bool := q.op == 0x10 || q.op == 0x11 || q.op == 0x12

/-- The record of ETYPE 0 and 1; none for i32 (R258). -/
def Cmd.etype (q : Cmd) : Option Rec :=
  if q.flags.toNat / 16 = 0 then some (Rec.f32 .rne) else if q.flags.toNat / 16 = 1 then some (Rec.bf16 .rne) else none

/-- Bytes of an element (R258). -/
def Cmd.elem (q : Cmd) : Nat := if q.flags.toNat / 16 = 1 then 2 else 4

/-- The vector of a latent command (R228). -/
def Cmd.lv (q : Cmd) : LvReg := Fin.ofNat 16 q.dstReg.toNat

/-! ## Issue (R253, R259) -/

/-- The scratchpad as the bundle reads it for the tables of a command (R130). -/
def State.captureTable (s : State) : Memory :=
  s.bundle.tpbuf.foldl (fun (m : Memory) e => if winBase ≤ e.addr then memSet m e.addr e.val else m) s.bundle.table

/-- A command of the bundle that commits, with no operands. -/
def State.bareCmd (s : State) (op : BitVec 6) : Cmd where
  op := op
  tok := 0
  flags := 0
  dstReg := 0
  srcReg := 0
  dstGen := Gen.fresh
  srcGen := Gen.fresh
  len := 0
  ctl := 0
  chip := 0
  rx := 0
  pc := s.bundle.pc
  sup := s.c.isSup
  seq := s.c.seq
  joined := s.c.joined
  table := []
  done := 0
  started := false
  finished := false
  discarded := false
  flagged := false
  pages := []
  stop := none
  tx := []
  acked := []

/-- A copy command or a send with the operands that its bundle reads (R132, R253, R415). -/
def State.command (s : State) (op : BitVec 6) (o : CopyOps) (flags : BitVec 6) : Cmd :=
  { s.bareCmd op with
    tok := o.tok
    flags := flags
    dstReg := s.av o.dst
    srcReg := s.av o.src
    dstGen := s.gv o.dst
    srcGen := s.gv o.src
    len := s.sv o.len
    ctl := if o.tok = 0 then 0 else s.sv o.tok
    chip := (s.gv o.dst).chip
    table := s.captureTable }

/-- A command enters the tail of its context's queue (R259). -/
def State.enqueue (s : State) (q : Cmd) : State := { s with c := { s.c with queue := s.c.queue ++ [q] } }

/-- A copy command is issued; a latent one counts in its vector's PEND (R228). -/
def State.issueCopy (s : State) (q : Cmd) : State :=
  let s1 := s.enqueue q
  if q.latent then
    let v := s1.c.regs.lv.get q.lv
    { s1 with c := { s1.c with regs := s1.c.regs.lvset q.lv { v with pend := v.pend + 1 } } }
  else s1

def execCopy (o : CopyOps) (flags : BitVec 6) (s : State) : Out := .next (s.issueCopy (s.command 0x10 o flags))
def execCopyg (o : CopyOps) (flags : BitVec 6) (s : State) : Out := .next (s.issueCopy (s.command 0x11 o flags))
def execCopya (o : CopyOps) (flags : BitVec 6) (s : State) : Out := .next (s.issueCopy (s.command 0x12 o flags))

/-- ENGQ (R267). -/
def execEngq (d : SReg) (s : State) : Out := .next (s.emitS 1 d s.c.engStatus)

/-! ## Streams (R254, R255, R257) -/

/-- The state in which a command reads its captured tables, for a context. -/
def State.tables (s : State) (x : Nat) (q : Cmd) : State :=
  let t := s.focus x
  { t with
    bundle := { t.bundle with table := q.table, tpbuf := [] }
    c := { t.c with unjoined := [], stale := [] } }

/-- The offset of an entry of an indirect table, whether or not it can be read. -/
def Gen.entryAt (g : Gen) (c : Nat) : Word := BitVec.ofNat 64 (g.itab.toNat + 4 * c)

/-- The address that a failed advance reports: the entry that it cannot read; for the other reasons of R129 the spec
states none. -/
def Gen.failAddr (g : Gen) (free : Word) (reason : Nat) : Word :=
  if reason = 6 then
    let i := Fin.ofNat 4 g.idim
    let old := (g.ctr.get i).toNat
    let new := if old + 1 = g.countOf i then 0 else old + 1
    if (g.entryOff new).isNone then g.entryAt new else g.entryAt old
  else free

/-- The starts of rows by advances, and the address of a row's failed check (R255). -/
def State.rowStarts (t : State) (free : Word) : Nat → Gen → Word → List Word × Option Word
  | 0, _, _ => ([], none)
  | 1, _, x => ([x], none)
  | n + 2, g, x =>
    match (t.advance g x).1 with
    | .error r => ([x], some (g.failAddr free r))
    | .ok d =>
      let rest := t.rowStarts free (n + 1) (g.advanced d.n d.ctr false) d.y
      (x :: rest.1, rest.2)

/-- The starts of the gathered rows (R257): `k` is the next row's number. -/
def State.gatherStarts (t : State) (free : Word) (g : Gen) (x : Word) (c0 : Nat) : Nat → Nat → List Word × Option Word
  | 0, _ => ([], none)
  | n + 1, k =>
    if (g.bad).isSome then ([], some free)
    else
      match g.entryOff (c0 + k) with
      | none => ([], some (g.entryAt (c0 + k)))
      | some o =>
        let rest := t.gatherStarts free g x c0 n (k + 1)
        ((x + BitVec.ofInt 64 (g.iscale.toNat * (t.tableRead o).1)) :: rest.1, rest.2)

/-- A side of a stream: whether it names the scratchpad, its rows' starts and length, and a failed check of R129. -/
structure Side where
  local' : Bool
  rows : List Word
  len : Nat
  bad : Option Word

/-- The row length of a side (R255). -/
def sideLen (g : Gen) (len : Nat) : Nat := if 0 < g.pitchInt then g.pitch.toNat else len

/-- The number of rows. -/
def rowCount (len row : Nat) : Nat := if len = 0 then 0 else (len + row - 1) / row

/-- The source side of a command. -/
def State.srcSide (t : State) (free : Word) (q : Cmd) : Side :=
  let g := q.srcGen
  let n := q.len.toNat
  let row := sideLen g n
  let r := if q.op = 0x11 then t.gatherStarts free g q.srcReg (g.ctr.get (Fin.ofNat 4 g.idim)).toNat (rowCount n row) 0
    else t.rowStarts free (rowCount n row) g q.srcReg
  ⟨q.srcReg.getLsbD 63, r.1, row, r.2⟩

/-- The destination side of a copy command. -/
def State.dstSide (t : State) (free : Word) (q : Cmd) : Side :=
  let n := q.len.toNat
  let row := sideLen q.dstGen n
  let r := t.rowStarts free (rowCount n row) q.dstGen q.dstReg
  ⟨q.dstReg.getLsbD 63, r.1, row, r.2⟩

/-- Bytes of row i of a stream. -/
def Side.rowBytes (d : Side) (total i : Nat) : Nat := min d.len (total - i * d.len)

/-- A scratchpad operand's offset: the address with bit 63 taken away (R254). -/
def localOff (a : Word) : Nat := (a - BitVec.twoPow 64 63).toNat

/-- A scratchpad operand has bits [62:21] that are not zero (R254). -/
def operandHigh (a : Word) : Option Word :=
  if a.getLsbD 63 && 0x200000 ≤ localOff a then some (BitVec.ofNat 64 (localOff a)) else none

/-- The first scratchpad offset of a side that is out of range. -/
def Side.outOfRange (d : Side) (total : Nat) : Option Word :=
  if d.local' then
    (d.rows.zipIdx).findSome? fun r =>
      (offScratch (localOff r.1) (d.rowBytes total r.2)).map (BitVec.ofNat 64)
  else none

/-- The address of a byte of a stream. -/
def Side.addr (d : Side) (b : Nat) : Word := d.rows.getD (b / d.len) 0 + BitVec.ofNat 64 (b % d.len)

/-! ## The first phase of checks (R265, R417) -/

/-- The first of some conditions that holds, with its reason and address. -/
def firstReason : List (Bool × BitVec 8 × Word) → Option (BitVec 8 × Word)
  | [] => none
  | (b, e) :: rest => if b then some e else firstReason rest

/-- Alignment: reason 0x0A. ADDR is FLAGA whole, where the spec says only that it is the faulting address (DESIGN CHOICE, log entry 104). -/
def Cmd.alignBad (q : Cmd) (free : Word) : List (Bool × BitVec 8 × Word) :=
  let n := q.len.toNat
  let e := q.elem
  [ (q.op == 0x12 && (n % e != 0 || sideLen q.srcGen n % e != 0 || (!q.latent && sideLen q.dstGen n % e != 0)), 0x0A, free),
    (q.flag && q.dstGen.flagA.toNat % 8 != 0, 0x0A, q.dstGen.flagA) ]

/-- Reasons 0x21 and 0x22. -/
def Cmd.shapeBad (q : Cmd) : List (Bool × BitVec 8 × Word) :=
  [ (2 ^ 32 ≤ q.len.toNat, 0x21, 0),
    (q.srcGen.pitchInt < 0 || (q.isSend && q.dstGen.pitch != 0) || (q.isCopy && !q.latent && q.dstGen.pitchInt < 0)
      || (q.op == 0x11 && (4 ≤ q.srcGen.idim || q.srcGen.pitch == 0)), 0x22, 0) ]

/-- Reasons 0x23 and 0x24, row by row. -/
def State.rowsBad (t : State) (free : Word) (q : Cmd) : Option (BitVec 8 × Word) :=
  let n := q.len.toNat
  let a := t.srcSide free q
  let b : Side := if q.isSend || q.latent then ⟨false, [], 1, none⟩ else t.dstSide free q
  let high := (operandHigh q.srcReg).or (if q.isSend || q.latent then none else operandHigh q.dstReg)
  ((high.or ((a.outOfRange n).or (b.outOfRange n))).map fun o => ((0x23 : BitVec 8), o)).or
    (if q.isSend && q.dstReg.getLsbD 63 then some (0x23, 0) else (a.bad.or b.bad).map fun o => (0x24, o))

/-- Reasons 0x25, 0x27 and 0x2B. -/
def Cmd.sizeBad (q : Cmd) : List (Bool × BitVec 8 × Word) :=
  [ (q.latent && q.len.toNat != (if q.op = 0x10 then 256 else 64 * q.elem), 0x25, 0),
    (q.isSend && 0x100000 < q.len.toNat, 0x27, 0),
    (q.isSend && (q.ctl.toNat / 2 ^ 47 != 0 || bitsOf q.ctl 38 2 != 0 || (q.op == 0x38 && bitsOf q.ctl 0 38 != 0)), 0x2B,
      0) ]

/-- The conditions that depend only on what was captured at issue: the lowest reason that holds. -/
def State.earlyBad (s : State) (x : Nat) (q : Cmd) (free : Word) : Option (BitVec 8 × Word) :=
  match firstReason (q.alignBad free ++ q.shapeBad) with
  | some e => some e
  | none =>
    match (s.tables x q).rowsBad free q with
    | some e => some e
    | none => firstReason q.sizeBad

/-! ## The second phase: bytes (R258, R262, R265) -/

/-- A byte as a command reads it: its context's stores that preceded it, then memory (R262). -/
def State.engByte (s : State) (x : Nat) (q : Cmd) (pa : Nat) : Byte :=
  match pbufGet ((s.ctx x).pbuf.filter fun e => e.seq ≤ q.seq) pa with
  | some b => b
  | none => s.byteAt pa

/-- A byte of plain memory that a command writes, after its context's earlier stores to it; `rmw` as part of an add. In the
own scratchpad the values that the context may still read in either view are then older than one of the command (R262). -/
def State.engWrite (s : State) (x : Nat) (q : Cmd) (pa : Nat) (b : Byte) (rmw : Bool := false) : State :=
  let s1 := (s.performOwn x pa 1 q.seq).perform none (2000 + x) q.seq pa b rmw
  if ownWindow x pa then
    s1.modCtx x fun c =>
      if c.unjoined.isEmpty then c
      else { c with unjoined := c.unjoined.map fun e =>
        if scratchAddr (coreOf x) e.off = pa then { e with overBy := q.seq :: e.overBy } else e }
  else s1

/-- Plain bytes that a command writes. -/
def State.engWrites (s : State) (x : Nat) (q : Cmd) (pa : Nat) (bytes : List Byte) (rmw : Bool := false) : State :=
  match bytes with
  | [] => s
  | b :: bs => (s.engWrite x q pa b rmw).engWrites x q (pa + 1) bs rmw

/-- The number by which a command keeps the access of a page. -/
def Access.code : Access → Nat
  | .read => 0
  | .write => 1
  | _ => 2

/-- The physical page of an address that a command has touched for an access (R265). -/
def Cmd.page (q : Cmd) (va : Nat) (acc : Access) : Option Nat :=
  (q.pages.find? fun p => p.1 == va / 4096 && p.2.1 == acc.code).map (·.2.2)

/-- The physical address of a byte for a command: a page is translated when the command first touches it (R265). -/
def State.engPa (s : State) (x : Nat) (q : Cmd) (va : Nat) (acc : Access) : Except (BitVec 8) Nat :=
  let r := (s.ctx x).region
  match q.page va acc with
  | some pfn =>
    let pa := pfn * 4096 + va % 4096
    if s.place pa == .absent then .error 0x0B
    else if !s.grant r pa acc q.sup then .error 0x0D
    else .ok pa
  | none => s.translate (some (coreOf x)) r va acc q.sup

/-- A command that has touched the page of an address. -/
def State.touch (s : State) (x : Nat) (q : Cmd) (va : Nat) (acc : Access) : Cmd :=
  match q.page va acc, s.translate (some (coreOf x)) (s.ctx x).region va acc q.sup with
  | none, .ok pa => { q with pages := (va / 4096, acc.code, pa / 4096) :: q.pages }
  | _, _ => q

/-- The virtual address of a byte of a side that is not in the scratchpad. -/
def Side.va (d : Side) (b : Nat) : Nat := (d.addr b).toNat % 2 ^ 48

/-- The physical address of a byte of a side. -/
def State.sidePa (s : State) (x : Nat) (q : Cmd) (d : Side) (acc : Access) (b : Nat) : Nat :=
  if d.local' then scratchAddr (coreOf x) (localOff (d.addr b))
  else
    match s.engPa x q (d.va b) acc with
    | .ok pa => pa
    | .error _ => 0

/-- The fault of one byte of a side that is not in the scratchpad. -/
def State.farBad (s : State) (x : Nat) (q : Cmd) (d : Side) (acc : Access) (b : Nat) : Option (BitVec 8 × Word) :=
  let i := b / d.len
  let a := BitVec.ofNat 64 (d.va b)
  match s.engPa x q (d.va b) acc with
  | .error c => some (c, a)
  | .ok pa =>
    let wr := acc != .read
    let regs := fun (off : Nat) => isRegWindow off
      && ((d.rows.getD i 0).toNat % 4 != 0 || d.rowBytes q.len.toNat i % 4 != 0)
    match s.place pa with
    | .window _ off =>
      if regs off then some (0x0A, a)
      else if wr && ((0x400000 ≤ off && off < 0x440000) || (q.op == 0x12 && isRegWindow off)) then some (0x26, a)
      else none
    | .pctl _ => if wr && q.op == 0x12 then some (0x26, a) else none
    | _ => if !wr && (s.poisonIn pa 1).isSome then some (0x14, a) else none

/-- The fault of one byte of a side. -/
def State.sideBad (s : State) (x : Nat) (q : Cmd) (d : Side) (acc : Access) (b : Nat) : Option (BitVec 8 × Word) :=
  let a := d.addr b
  if q.op == 0x12 && b % d.len == 0 && a.toNat % q.elem != 0 then
    some (0x0A, if d.local' then BitVec.ofNat 64 (localOff a) else BitVec.ofNat 64 (a.toNat % 2 ^ 48))
  else if d.local' then none
  else s.farBad x q d acc b

/-- The lower of two reasons, the source's where they are equal. -/
def lowerReason (a b : Option (BitVec 8 × Word)) : Option (BitVec 8 × Word) :=
  match a, b with
  | some u, some v => if u.1 ≤ v.1 then some u else some v
  | some u, none => some u
  | none, v => v

/-- The fault of one byte of the stream. -/
def State.byteBad (s : State) (x : Nat) (q : Cmd) (a d : Side) (b : Nat) : Option (BitVec 8 × Word) :=
  lowerReason (s.sideBad x q a .read b)
    (if q.latent || q.isSend then none else s.sideBad x q d (if q.op = 0x12 then .both else .write) b)

/-- The bytes of a stream moved together: an element, an entry of a vector, or up to an aligned 32-byte piece of the
destination within one row of both sides (R158). -/
def State.pieceLen (s : State) (x : Nat) (q : Cmd) (a d : Side) (b : Nat) : Nat :=
  let left := q.len.toNat - b
  if q.op = 0x12 then q.elem
  else if q.latent then 4
  else
    let pa := s.sidePa x q d .write b
    min (min left (32 - pa % 32)) (min (a.len - b % a.len) (d.len - b % d.len))

/-- The lines that an access to some bytes enters; `first` counts the line of its first byte. -/
def enteredLines (pa n : Nat) (first : Bool) : List Nat :=
  (List.range n).filterMap fun i => if (pa + i) % 128 = 0 ∨ (first ∧ i = 0) then some (lineOf (pa + i)) else none

/-- The destination rows cover the 4 KiB page of an address (R157). -/
def Side.wholeTile (d : Side) (total va : Nat) : Bool :=
  let page := va / 4096 * 4096
  4096 ≤ total && (List.range 1024).all fun k => (d.rows.zipIdx).any fun r =>
    let adr := r.1.toNat % 2 ^ 48
    adr ≤ page + 4 * k && page + 4 * k + 4 ≤ adr + d.rowBytes total r.2

/-- Bytes that a COPY or COPYG writes at its destination. -/
def State.putPiece (s : State) (x : Nat) (q : Cmd) (d : Side) (b pa : Nat) (bytes : List Byte) : State :=
  match s.place pa with
  | .pctl off => s.pctlStore off bytes (some (s.ctx x).region.block) (some (x, q.seq))
  | .window n off =>
    if off < 0x200000 then s.engWrites x q pa bytes
    else
      let whole := isRegWindow off && off % 0x40000 < 0x28000 && d.wholeTile q.len.toNat (d.va b)
      s.windowStore n off bytes (if whole then some (x, q.seq) else none) (some (x, q.seq))
  | _ => s.engWrites x q pa bytes

/-- The element sum of COPYA (R258): no flag is kept. -/
def Cmd.addElem (q : Cmd) (d v : BitVec 32) : BitVec 32 :=
  match q.etype with
  | some r => (r.encode (addOp false (r.decode d) (r.decode v)).1).1
  | none => BitVec.ofInt 32 (clampInt (-2 ^ 31) (2 ^ 31 - 1) (d.toInt + v.toInt))

/-- An entry of a vector after a source element (R228). -/
def Cmd.addEntry (q : Cmd) (e v : BitVec 32) : BitVec 32 :=
  if q.op = 0x10 then v
  else
    let x := match q.etype with
      | some r => r.decode v
      | none => Num.ofRat v.toInt
    ((Rec.f32 .rne).encode (addOp false (f32Num e) x).1).1

/-- A piece of the stream takes effect at its destination. -/
def State.movePiece (s : State) (x : Nat) (q : Cmd) (a d : Side) (b n : Nat) : State :=
  let bytes := (List.range n).map fun i => s.engByte x q (s.sidePa x q a .read (b + i))
  if q.latent then
    s.modCtx x fun c =>
      let v := c.regs.lv.get q.lv
      let j := Fin.ofNat 64 (b / n)
      { c with regs := c.regs.lvset q.lv { v with e := v.e.set j (q.addEntry (v.e.get j) (BitVec.ofNat 32 (leNat bytes))) } }
  else
    let acc : Access := if q.op = 0x12 then .both else .write
    let pa := s.sidePa x q d acc b
    if q.op = 0x12 then
      let s1 := s.performOwn x pa n q.seq
      let old := leNat ((List.range n).map fun i => s1.byteAt (pa + i))
      let sum := q.addElem (BitVec.ofNat 32 old) (BitVec.ofNat 32 (leNat bytes))
      let line := lineOf pa
      let s2 := if s1.tokened line then s1.countHome (s1.homeOf line) 0x0202 (some (s1.ctx x).region) else s1
      s2.engWrites x q pa (leBytes n sum.toNat) true
    else s.putPiece x q d b pa bytes

/-- The access of a command to its destination. -/
def Cmd.dstAccess (q : Cmd) : Access := if q.op = 0x12 then .both else .write

/-- The virtual addresses of a piece, each with its access: of every byte of the source, which may have a row for each,
and of the destination. -/
def pieceVas (q : Cmd) (a d : Side) (b n : Nat) : List (Nat × Access) :=
  (if a.local' then [] else (List.range n).map fun i => (a.va (b + i), Access.read))
    ++ (if d.local' || q.latent then [] else [(d.va b, q.dstAccess)])

/-- A command with the pages of some addresses touched. -/
def State.touchAll (s : State) (x : Nat) (q : Cmd) (vas : List (Nat × Access)) : Cmd :=
  vas.foldl (fun h e => s.touch x h e.1 e.2) q

/-- The lines of the walks that a command makes for the pages of some addresses that it has not touched (R300). -/
def State.newWalks (s : State) (x : Nat) (q : Cmd) (vas : List (Nat × Access)) : List Nat :=
  (vas.flatMap fun e =>
    if (q.page e.1 e.2).isSome then [] else s.walkLines (some (coreOf x)) (s.ctx x).region e.1).eraseDups

/-- The head of a queue with the pages of some addresses touched: the core's TLBs hold them, the walks are charged, and the
reads of the walks have been had (R265, R300, R363). -/
def State.touchHead (s : State) (x : Nat) (q : Cmd) (vas : List (Nat × Access)) : State :=
  let walks := s.newWalks x q vas
  let r := (s.ctx x).region
  let s1 := vas.foldl (fun t e => t.fill (some (coreOf x)) r e.1) s
  ((s1.chargeReads r walks).needMet (l2Of (coreOf x)) walks false).modHead x fun h => { h with pages := (s.touchAll x q vas).pages }

/-- The lines of plain memory that a piece reads and writes, those of each of its bytes: a source may have a row for each;
an add reads a line that it writes where it writes it. -/
def State.pieceLines (s : State) (x : Nat) (q : Cmd) (a d : Side) (b n : Nat) : List Nat × List Nat :=
  let rd := if a.local' then []
    else ((List.range n).map fun i => lineOf (s.sidePa x q a .read (b + i))).eraseDups
  let wr := if d.local' || q.latent then [] else [lineOf (s.sidePa x q d q.dstAccess b)]
  (if q.op = 0x12 then rd.filter fun l => !wr.contains l else rd, wr)

/-- The agent that writes a line for a command: the die's L2, and for the adds of COPYA the line's home (R258, R263). -/
def State.writer (s : State) (x : Nat) (q : Cmd) (line : Nat) : Agent :=
  if q.op = 0x12 then s.homeOf line else l2Of (coreOf x)

/-- The first line of some to read and to write whose tokens are missing: the agent, the line and whether it writes. -/
def State.pieceMissing (s : State) (x : Nat) (q : Cmd) (lines : List Nat × List Nat) : Option (Agent × Nat × Bool) :=
  let l2 := l2Of (coreOf x)
  match s.missing l2 lines.1 false with
  | some l => some (l2, l, false)
  | none => (lines.2.find? fun l => !s.canUse (s.writer x q l) l true).map fun l => (s.writer x q l, l, true)

/-- The accesses of a piece to its lines have been had. -/
def State.pieceMet (s : State) (x : Nat) (q : Cmd) (lines : List Nat × List Nat) : State :=
  lines.2.foldl (fun t l => (t.needMet (t.writer x q l) [l] true).markDirty (t.writer x q l) [l])
    (s.needMet (l2Of (coreOf x)) lines.1 false)

/-- HBM lines of a piece charged to the region (R363). -/
def State.chargePiece (s : State) (x : Nat) (q : Cmd) (a d : Side) (b n : Nat) : State :=
  let r := (s.ctx x).region
  if r.budgets.isEmpty then s
  else
    let rd := if a.local' then [] else enteredLines (s.sidePa x q a .read b) n (b % a.len == 0)
    let wr := if d.local' || q.latent then [] else enteredLines (s.sidePa x q d .write b) n (b % d.len == 0)
    s.chargeLines r (rd ++ wr)

/-- `n` bytes of a piece moved at the stream's byte b, or the need recorded of a token that is missing. -/
def State.movedPiece (s : State) (x : Nat) (q : Cmd) (a d : Side) (b n : Nat) : Bool × State :=
  let lines := s.pieceLines x q a d b n
  match s.pieceMissing x q lines with
  | some (who, l, write) => (false, s.addNeed who l write (.engine x) (s.ctx x).owner)
  | none =>
    (true, (((s.chargePiece x q a d b n).movePiece x q a d b n).pieceMet x q lines).modHead x fun h => { h with done := b + n })

/-- Two bytes of a stream stand side by side in an aligned 32 bytes of a register window, which is read or lands at one
boundary (R158). -/
def State.oneBoundary (s : State) (p q : Nat) : Bool :=
  p + 1 == q && q % 32 != 0 && (match s.place q with
    | .window _ off => isRegWindow off
    | _ => false)

/-- The piece at the stream's byte b belongs to the boundary of the byte before it, on either side: a step does not end between
the two. -/
def State.sticks (s : State) (x : Nat) (q : Cmd) (a d : Side) (b : Nat) : Bool :=
  0 < b && (s.oneBoundary (s.sidePa x q a .read (b - 1)) (s.sidePa x q a .read b)
    || (q.op != 0x12 && !q.latent && s.oneBoundary (s.sidePa x q d .write (b - 1)) (s.sidePa x q d .write b)))

/-- The pieces that move in one step with the piece at byte b, as their places in the stream. -/
def State.together (s : State) (x : Nat) (q : Cmd) (a d : Side) : Nat → Nat → List Nat
  | 0, _ => []
  | fuel + 1, b =>
    let next := b + max 1 (s.pieceLen x q a d b)
    b :: (if next < q.len.toNat && s.sticks x q a d next then s.together x q a d fuel next else [])

/-- The first token that pieces which move together lack, of their walks or of their lines: the agent, the line and whether it
writes. -/
def State.togetherMissing (s : State) (x : Nat) (q : Cmd) (a d : Side) : List Nat → Option (Agent × Nat × Bool)
  | [] => none
  | b :: bs =>
    let n := s.pieceLen x q a d b
    let vas := pieceVas q a d b n
    match s.missing (l2Of (coreOf x)) (s.newWalks x q vas) false with
    | some l => some (l2Of (coreOf x), l, false)
    | none =>
      match (List.range n).find? fun i => (s.byteBad x q a d (b + i)).isSome with
      | some i => if i = 0 ∨ q.op = 0x12 ∨ q.latent then none else s.pieceMissing x q (s.pieceLines x q a d b i)
      | none =>
        match s.pieceMissing x q (s.pieceLines x q a d b n) with
        | some m => some m
        | none => s.togetherMissing x (s.touchAll x q vas) a d bs

/-- Moves `left` pieces and those that go with the last, `fuel` at most, until the stream ends, a byte faults or tokens are
missing. DESIGN CHOICE, log entry 103: of a latent entry one of whose source bytes fails nothing is written. -/
def State.moveStream (s : State) (x : Nat) (q0 : Cmd) (a d : Side) : Nat → Nat → Nat → State
  | 0, _, _ => s
  | fuel + 1, left, b =>
    let more := s.sticks x q0 a d b
    if q0.len.toNat ≤ b || (left == 0 && !more) then s
    else
      match (if more then none else s.togetherMissing x q0 a d (s.together x q0 a d 64 b)) with
      | some (who, l, write) => s.addNeed who l write (.engine x) (s.ctx x).owner
      | none =>
      let vas := pieceVas q0 a d b (s.pieceLen x q0 a d b)
      match s.missing (l2Of (coreOf x)) (s.newWalks x q0 vas) false with
      | some l => s.addNeed (l2Of (coreOf x)) l false (.engine x) (s.ctx x).owner
      | none =>
        let q := s.touchAll x q0 vas
        let s0 := s.touchHead x q0 vas
        let n := s0.pieceLen x q a d b
        match (List.range n).findSome? fun i => (s0.byteBad x q a d (b + i)).map fun e => (i, e) with
        | some (i, e) =>
          let k := if q.op = 0x12 ∨ q.latent then 0 else i
          let r := if k = 0 then (true, s0) else s0.movedPiece x q a d b k
          if r.1 then r.2.modHead x fun h => { h with done := b + k, stop := some e } else r.2
        | none =>
          let r := s0.movedPiece x q a d b n
          if r.1 then r.2.moveStream x q a d fuel (left - 1) (b + n) else r.2

/-- The conditions at FLAGA, met after the last byte (R263, R265). -/
def State.flagBad (s : State) (x : Nat) (q : Cmd) : Option (BitVec 8 × Word) :=
  let va := q.dstGen.flagA.toNat % 2 ^ 48
  match s.engPa x q va .write with
  | .error c => some (c, BitVec.ofNat 64 va)
  | .ok pa =>
    match s.place pa with
    | .window _ off => if 0x400000 ≤ off ∧ off < 0x440000 then some (0x26, BitVec.ofNat 64 va) else none
    | _ => none

/-- The address of a command's flag, with its access. -/
def Cmd.flagVas (q : Cmd) : List (Nat × Access) := [(q.dstGen.flagA.toNat % 2 ^ 48, .write)]

/-- The stream has ended: FLAGA's page is touched and its conditions are checked, where the command has a flag; then the
command is done but for its completion (R265). -/
def State.endStream (s : State) (x : Nat) : State :=
  match (s.ctx x).queue with
  | [] => s
  | q :: _ =>
    if q.stop.isSome ∨ q.done < q.len.toNat then s
    else if q.flag then
      match s.missing (l2Of (coreOf x)) (s.newWalks x q q.flagVas) false with
      | some l => s.addNeed (l2Of (coreOf x)) l false (.engine x) (s.ctx x).owner
      | none =>
        (s.touchHead x q q.flagVas).modHead x fun h =>
          match s.flagBad x q with
          | some e => { h with stop := some e }
          | none => { h with finished := true }
    else s.modHead x fun h => { h with finished := true }

/-- A latent instruction's write to a vector, issued before a command, has not landed (R228). -/
def Ctx.lvPending (c : Ctx) (q : Cmd) : Bool :=
  let hit := fun (l : Landing) => l.seq < q.seq && l.writes.any fun w => w.touches.contains (Src.lv q.lv)
  c.flight.any hit || c.aside.any fun a => a.flight.any hit

/-- COPY_COMMAND_EXECUTE: x the context, n the pieces that it moves (0: all that are left), with those that share a boundary of a
register window with the last of them (R158). The head of the queue is
checked, then streams its bytes (R265). -/
def execCopyCommandExecute (s : State) : Out :=
  let x := s.move.x
  let c := s.ctx x
  match c.queue with
  | [] => .next s
  | q :: _ =>
    if c.halted || q.finished || q.stop.isSome || !q.isCopy || (q.latent && c.lvPending q)
      || (!q.started && s.exhausted c.region 0) then .next s
    else
      let free := Config.freeWord s.fresh
      match (if q.started then none else s.earlyBad x q free) with
      | some e => .next ({ s with fresh := s.fresh + 1 }.modHead x fun h => { h with stop := some e })
      | none =>
        let t := s.tables x q
        let a := t.srcSide free q
        let d : Side := if q.latent then ⟨true, [], 1, none⟩ else t.dstSide free q
        let s1 := s.modHead x fun h => { h with started := true }
        let left := if s.move.n = 0 then q.len.toNat else s.move.n
        .next ((s1.moveStream x q a d q.len.toNat left q.done).endStream x)

/-! ## Completion (R260-R263) -/

/-- A status word (R260). -/
def statusWord (err : Bool) (reason bytes : Nat) : Word := BitVec.ofNat 64 (fld err.toNat 63 + fld reason 40 + bytes)

/-- A vector loses one of its commands; where none is left, a deferred close takes place (R228, R235). -/
def LatVec.commandDone (v : LatVec) (err : Bool) : LatVec :=
  let w := { v with pend := v.pend - 1, err := v.err || err }
  if w.pend = 0 ∧ w.closing then w.closeNow w.scale else w

/-- A command ends with a status: its vector, whose deferred close raises no flag (R235, R258), then its token; it leaves the
queue's head. -/
def Ctx.endCommand (c : Ctx) (q : Cmd) (err : Bool) (word : Word) : Ctx :=
  let c1 : Ctx :=
    if q.latent && q.isCopy then
      let v := c.regs.lv.get q.lv
      { c with regs := c.regs.lvset q.lv (v.commandDone err) }
    else c
  { c1 with
    queue := c1.queue.tail
    regs := c1.regs.sset q.tok word
    unread := (c1.unread.filter fun e => e.1 != q.tok) ++ (if q.tok = 0 then [] else [(q.tok, q.seq)]) }

/-- The physical address of a command's flag, whose page it has touched; its conditions hold (R265). -/
def State.flagPa (s : State) (x : Nat) (q : Cmd) : Nat :=
  match s.engPa x q (q.dstGen.flagA.toNat % 2 ^ 48) .write with
  | .ok pa => pa
  | .error _ => 0

/-- The bytes of a command's flag value. -/
def Cmd.flagBytes (q : Cmd) : List Byte := leBytes 8 q.dstGen.flagV.toNat

/-- A flag written to plain memory. -/
def State.plainFlag (s : State) (x : Nat) (q : Cmd) (pa : Nat) : State :=
  ((s.engWrites x q pa q.flagBytes).pubBytes pa 8 (2000 + x) q.seq Pub.atPkg).release
    ⟨pa, 8, 1, coreOf x, 4001, 0, 2000 + x, [q.seq], []⟩

/-- The bytes of a 64-bit value stored at a command's flag address as a release at pkg scope of the command's writes
(R263). -/
def State.writeFlag (s : State) (x : Nat) (q : Cmd) : State :=
  match s.place (s.flagPa x q) with
  | .pctl off => s.pctlStore off q.flagBytes (some (s.ctx x).region.block) (some (x, q.seq))
  | .window n off =>
    if off < 0x200000 then s.plainFlag x q (s.flagPa x q) else s.windowStore n off q.flagBytes none (some (x, q.seq))
  | _ => s.plainFlag x q (s.flagPa x q)

/-- The status of a command that has done all it does (R157, R260, R415). -/
def Cmd.success (q : Cmd) : Word :=
  if q.op = 0x39 then 0 else if q.discarded then statusWord true 0x2E q.len.toNat else statusWord false 0 q.len.toNat

/-- The writes of a command published at pkg scope where it asks for it (R263). -/
def State.pubCommand (s : State) (x : Nat) (q : Cmd) : State :=
  if (q.pub || q.flag) && q.isCopy then s.raisePub Pub.atPkg fun e => e.src == 2000 + x && e.seq == q.seq else s

/-- A command that has done all it does leaves its queue, its token written. -/
def State.finish (s : State) (x : Nat) (q : Cmd) : State :=
  let s1 := if q.isCopy then s.countEv x 0x0F q.len.toNat else s
  (s1.modCtx x fun c => c.endCommand q q.discarded q.success).dropAsker (.engine x)

/-- COPY_COMMAND_COMPLETE: x the context, whose head command has done its work; its writes to register windows have landed, and
those to package control have taken effect. Its
writes are published and its flag written as it asks, then its token is written; a flag in a register window or in package
control is stored first, and the token is written by a later step, once the flag has landed (R260-R263). A condition at
FLAGA that holds by then stops the command (R265). -/
def execCopyCommandComplete (s : State) : Out :=
  let x := s.move.x
  let c := s.ctx x
  match c.queue with
  | [] => .next s
  | q :: _ =>
    if c.halted || !q.finished || s.wwrites.any (·.src == some (x, q.seq)) || s.stepsOf (x, q.seq) then .next s
    else if q.flag && q.isCopy && !q.flagged then
      match s.flagBad x q with
      | some e => .next (s.modHead x fun h => { h with finished := false, stop := some e })
      | none =>
        let pa := s.flagPa x q
        .next (s.withLines (l2Of (coreOf x)) [lineOf pa] true (.engine x) c.owner fun s =>
          let s1 := ((s.chargeLines c.region [lineOf pa]).pubCommand x q).writeFlag x q
          if plainPlace (s.place pa) then s1.finish x q else s1.modHead x fun h => { h with flagged := true })
    else .next ((s.pubCommand x q).finish x q)

/-! ## Faults, restart and cancellation (R266, R268) -/

/-- Every command of a halted queue completes with an error (R268). -/
def Ctx.cancelAll (c : Ctx) : List Cmd → Bool → Ctx
  | [], _ => { c with halted := false }
  | q :: rest, head =>
    let word := if head then statusWord true ((q.stop.map (·.1.toNat)).getD 0) q.done else statusWord true 0x30 0
    (c.endCommand q true word).cancelAll rest false

/-- The record of a copy fault (R266). -/
def Cmd.errRecord (q : Cmd) (x : Nat) (reason : BitVec 8) (adr : Word) : List Byte :=
  leBytes 4 (fld (x % 4) 22 + fld q.op.toNat 16 + fld reason.toNat 8 + 1) ++ leBytes 4 (fld (coreOf x) 16 + q.tok.val)
    ++ leBytes 8 q.pc.toNat ++ leBytes 8 adr.toNat ++ leBytes 8 q.done

/-- COPY_ENGINE_FAULT: x the context, whose head command has stopped: the queue halts, the record is written and 0x82
raised; in an EXIT the queue is cancelled and the task ends with a fault (R114, R266). -/
def execCopyEngineFault (s : State) : Out :=
  let x := s.move.x
  let c := s.ctx x
  match c.queue with
  | [] => .next s
  | q :: _ =>
    match q.stop with
    | none => .next s
    | some (reason, adr) =>
      if c.halted then .next s
      else
        .next (s.withWalks (l2Of (coreOf x)) (s.errWalks x 0) (s.errLines x 0) true (.engine x) c.owner fun s =>
          let r := (((s.chargeErr x 0).dropAsker (.engine x)).modCtx x fun c => { c with halted := true }).errWrite x 0 (q.errRecord x reason adr)
          r.1.modCtx x fun c =>
            let c1 := c.unitIrq 0x82 (c.sys.errbase + (if r.2 then 0 else 1))
            match c1.mode with
            | .exiting _ _ => c1.cancelAll c1.queue true
            | _ => c1)

/-- A halted command goes on from byte DONE (R268, R417). -/
def Ctx.resumeQueue (c : Ctx) : Ctx :=
  { c with
    halted := false
    queue := match c.queue with
      | [] => []
      | q :: rest => { q with stop := none, tx := [], acked := [], pages := [] } :: rest }

/-- ENGRS and ENGRS.cancel: privileged, on a context of the core bound to a task of the region (R268). -/
def State.engrs (s : State) (k : BitVec 2) (go : Ctx → Ctx) : Out :=
  let x := 4 * coreOf s.id + k.toNat
  let c := s.ctx x
  if !s.c.isSup then .next (s.slotFault 0x0E (BitVec.ofNat 64 (fld s.bundle.slot 8 + 0x14)))
  else if c.task.isNone || c.region.id != s.c.region.id then
    .next (s.slotFault 0x0C (BitVec.ofNat 64 (2 ^ 63 + 3 * 2 ^ 56 + k.toNat)))
  else .next (if c.halted then s.modCtx x go else s)

def execEngrs (ctx : BitVec 2) (s : State) : Out := s.engrs ctx Ctx.resumeQueue
def execEngrsCancel (ctx : BitVec 2) (s : State) : Out := s.engrs ctx fun c => c.cancelAll c.queue true

end Sys2Proof.Machine
end

