-- ==== Sys2Proof/Machine/Order.lean ====
section
/-! DEFINITION. Ordering and synchronisation (15_ordering R274-R292): PHASE, VJOIN, atomics, waits on memory and events,
the early drain of a phase buffer, and writes into core windows landing (R155-R158). -/

namespace Sys2Proof.Machine

open Sys2Proof

/-! ## PHASE and VJOIN (R284, R285) -/

def execPhase (scope : BitVec 2) (s : State) : Out := .next { s with c := { s.c with phase := some (scope, s.c.joined) } }
def execVjoin (s : State) : Out := .next { s with c := { s.c with vjoin := true } }

/-- PHASE_COMPLETE: x the context. It publishes, then refreshes, at one instant, and its order wait ends (R282). -/
def execPhaseComplete (s : State) : Out :=
  let x := s.move.x
  let n := (s.ctx x).seq
  match (s.ctx x).phase with
  | none => .next s
  | some (scope, joined) =>
    if !s.canPublish x n then .next s
    else
      .next (s.withLines (l2Of (coreOf x)) (s.bufferLines x n) true .op (s.ctx x).owner fun s =>
        ((s.publish x (Pub.upTo (coreOf x) scope) n joined).refresh x scope).modCtx x fun c => { c with phase := none })

/-- The stores of a context's phase buffer to its own core's scratchpad, made through the core's window, performed. -/
def State.performWindow (s : State) (x : Nat) : State :=
  let c := s.ctx x
  if c.pbuf.any fun e => ownWindow x e.addr then
    (s.performAll x (c.pbuf.filter fun e => ownWindow x e.addr)).modCtx x fun c =>
      { c with pbuf := c.pbuf.filter fun e => !ownWindow x e.addr }
  else s

/-- VJOIN_COMPLETE: x the context, whose scratchpad writes both views then show, an atomic's among them once it has been
performed (R285). -/
def execVjoinComplete (s : State) : Out :=
  let x := s.move.x
  s.when ((s.ctx x).vjoin && !(s.ctx x).windowAtomic x) fun s => (s.performWindow x).modCtx x fun c => { c with vjoin := false, unjoined := [] }

/-! ## Atomics (R286-R288, R291) -/

/-- The rights that an atomic needs (R288). -/
def atomicAccess (op : BitVec 4) : Access := if op = 0xA then .read else if op = 0xB then .write else .both

/-- An atomic that has passed its checks is outstanding; a release publishes before it is performed (R278). -/
def State.issueAtomic (s : State) (a : Atomic) : State := { s with c := { s.c with atomics := s.c.atomics ++ [a] } }

/-- AMO (R286). -/
def execAmo (d : SReg) (a : AReg) (r : SReg) (op : BitVec 4) (size order scope : BitVec 2) (s : State) : Out :=
  let n := sizeBytes size
  match s.checkAtomic (s.av a) n (atomicAccess op) with
  | .error (c, v) => .next (s.slotFault c v)
  | .ok pa =>
    .next ((s.fillSpan s.via s.c.region (s.av a).toNat n).issueAtomic
      { dst := if d = 0 ∨ op = 0xB then none else some d
        op := op
        size := n
        pa := pa
        v := s.sv r
        expect := s.sv d
        acquire := if order.getLsbD 0 then some scope else none
        release := if 2 ≤ order.toNat then some (scope, s.c.joined) else none
        published := false
        lines := [lineOf pa]
        seq := s.c.seq })

/-- EVSIG: a release, then COUNT + 1 at the home (R291). -/
def execEvsig (a : AReg) (scope : BitVec 2) (s : State) : Out :=
  match s.checkAtomic (s.av a) 16 .both with
  | .error (c, v) => .next (s.slotFault c v)
  | .ok pa =>
    .next ((s.fillSpan s.via s.c.region (s.av a).toNat 16).issueAtomic
      ⟨none, 0, 8, pa, 1, 0, none, some (scope, s.c.joined), false, [lineOf pa], s.c.seq⟩)

/-- NewValue of R286, on values of 8 × n bits. -/
def newValue (op : BitVec 4) (n : Nat) (old v expect : Nat) : Nat :=
  let m := 2 ^ (8 * n)
  let sgn := fun (x : Nat) => if m / 2 ≤ x then (x : Int) - m else x
  match op.toNat with
  | 0 => (old + v) % m
  | 1 => if sgn v < sgn old then v else old
  | 2 => if sgn old < sgn v then v else old
  | 3 => min old v
  | 4 => max old v
  | 5 => old &&& v
  | 6 => old ||| v
  | 7 => old ^^^ v
  | 8 => v
  | 9 => if old = expect then v else old
  | 0xA => old
  | _ => v

/-- The register of an atomic takes the old value, or stays busy with poison (R153, R286, R288). -/
def Ctx.atomicDone (c : Ctx) (a : Atomic) (old : Word) (poison : Option (BitVec 64)) : Ctx :=
  match a.dst with
  | none => c
  | some d =>
    let c1 := { c with spoison := c.spoison.filter fun p => p.1 != d }
    match poison with
    | some l => { c1 with spoison := c1.spoison ++ [(d, l)] }
    | none => { c1 with regs := c1.regs.sset d old, unread := c1.unread.filter fun e => e.1 != d }

/-- An operation of the matrix unit once an atomic to bytes that it streams has been performed: the values that those of its
own bundle's have written are known (R276). -/
def QOp.atomicWrote (q : QOp) (x : Nat) (a : Atomic) (new : Nat) : QOp :=
  { q with before := q.before.map fun e =>
    let pa := scratchAddr (coreOf x) e.1
    if e.2.2.isNone ∧ a.pa ≤ pa ∧ pa < a.pa + a.size then
      (e.1, e.2.1, some (BitVec.ofNat 8 (new / 256 ^ (pa - a.pa))))
    else e }

/-- A write of an atomic to the own scratchpad, through the core's window, is one through the linear view (R139, R141). -/
def Ctx.viewAtomic (c : Ctx) (x : Nat) (a : Atomic) (old new : Nat) : Ctx :=
  { c with unjoined := ((leBytes a.size old).zip (leBytes a.size new)).zipIdx.foldl (fun l e =>
    viewWrite l false (a.pa + e.2 - scratchAddr (coreOf x) 0) e.1.1 e.1.2) c.unjoined }

/-- What an atomic's read has shown its context: no older value of the bytes any more (R277), and with an acquire what it
synchronises with (R280, R281). A plain store reads nothing. -/
def State.atomicRead (s : State) (x : Nat) (a : Atomic) : State :=
  let s1 := if a.op = 0xB then s else s.caughtUp x a.pa a.size
  match a.acquire with
  | some scope => s1.acquireAt x a.pa a.size scope
  | none => s1

/-- The old value of an atomic's target, read after the context's earlier stores to it, and its new value written. A store of
the atomic's own bundle counts as earlier (log entry 91). -/
def State.atomicWrite (s : State) (x : Nat) (a : Atomic) : State × Nat :=
  let s1 := (s.performOwn x a.pa a.size a.seq).atomicRead x a
  let m := 2 ^ (8 * a.size)
  let old := memRead s1.mem a.pa a.size
  let new := newValue a.op a.size old (a.v.toNat % m) (a.expect.toNat % m)
  let s2 := if a.op = 0xA then s1
    else s1.performBytes (some x) x a.seq a.pa (leBytes a.size new) (a.op != 0xB)
  let s3 := if ownWindow x a.pa then
      s2.modCtx x fun c => { c.viewAtomic x a old (if a.op = 0xA then old else new) with mq := c.mq.map fun q => q.atomicWrote x a new }
    else s2
  (s3, old)

/-- The bytes that a load has read, once an earlier atomic of its context has written some of them: those take the atomic's
value, or a store's between the two (R277). -/
def seeAtomic (m : Memory) (pb : List PStore) (a : Atomic) (seq : Nat) (addrs : List Nat) (old : List Byte) : List Byte :=
  (addrs.zip old).map fun e =>
    if a.seq < seq ∧ a.pa ≤ e.1 ∧ e.1 < a.pa + a.size then
      (pbufGet (pb.filter fun p => p.seq < seq) e.1).getD (memGet m e.1)
    else e.2

/-- A load that is outstanding sees an atomic. -/
def Load.sees (l : Load) (m : Memory) (pb : List PStore) (a : Atomic) : Load :=
  match l.after with
  | none => l
  | some (seq, addrs, sign) =>
    { l with val := loadValue (seeAtomic m pb a seq addrs (leBytes addrs.length l.val.toNat)) sign }

/-- A tile load that is outstanding sees an atomic. -/
def TileLoad.sees (l : TileLoad) (m : Memory) (pb : List PStore) (a : Atomic) : TileLoad :=
  match l.after with
  | none => l
  | some (seq, rows, w) =>
    { l with vals := tabulate 16 fun i =>
      match rows[i.val]? with
      | none => l.vals.get i
      | some addrs =>
        let old := leBytes addrs.length (packRow (l.vals.get i) 64 w)
        unpackRow (leNat (seeAtomic m pb a seq addrs old)) w }

/-- The loads of a context that are outstanding see an atomic that has been performed. -/
def Ctx.seeAtomic (c : Ctx) (m : Memory) (a : Atomic) : Ctx :=
  { c with loads := c.loads.map fun l => l.sees m c.pbuf a, tloads := c.tloads.map fun l => l.sees m c.pbuf a }

/-- The write of a release of a context, which an acquire may synchronise with (R281). -/
def Atomic.rel (a : Atomic) (x : Nat) : List Rel :=
  match a.release with
  | some (scope, joined) => if a.op = 0xA then [] else [⟨a.pa, a.size, scope, coreOf x, x, a.seq, 2000 + x, joined, []⟩]
  | none => []

/-- An atomic performed at the home, which holds every token of the line in stage 4; an acquire refreshes and its order
wait ends (R286, R299). -/
def State.atomicAtHome (s : State) (x n : Nat) (a : Atomic) : State :=
  let home := s.homeOf (lineOf a.pa)
  s.withLines home a.lines true .op (s.ctx x).owner fun s =>
    let poison := s.poisonIn a.pa a.size
    let s0 := (s.chargeLines (s.ctx x).region a.lines).countHome home 0x0202 (some (s.ctx x).region)
    let r := if poison.isSome then ((match a.acquire with
        | some scope => s0.refresh x scope
        | none => s0), 0)
      else s0.atomicWrite x a
    let s1 := r.1.modCtx x fun c =>
      ({ c with atomics := dropAt c.atomics n }.seeAtomic r.1.mem a).atomicDone a (BitVec.ofNat 64 r.2) poison
    if poison.isSome then s1 else { s1 with rels := s1.rels ++ a.rel x }

/-- The publication of a release, before its atomic is performed (R278, R286). -/
def State.releasePub (s : State) (x n : Nat) (a : Atomic) (scope : BitVec 2) (joined : List Nat) : State :=
  (s.publish x (Pub.only (coreOf x) scope) a.seq joined).modCtx x fun c =>
    { c with atomics := setAt c.atomics n { a with published := true } }

/-- An atomic issued before another is outstanding at some of its bytes: the context's writes to them keep its order
(R277). -/
def Ctx.atomicHeld (c : Ctx) (n : Nat) (a : Atomic) : Bool :=
  (c.atomics.take n).any fun b => b.pa < a.pa + a.size && a.pa < b.pa + b.size

/-- ATOMIC_PERFORMED: x the context, n the atomic's place among those outstanding; an earlier one of the context to some of
its bytes goes first. A release publishes, its die's L2 holding
every token of what it writes, then the home performs the atomic (R286, R299, R308). -/
def execAtomicPerformed (s : State) : Out :=
  let x := s.move.x
  let n := s.move.n
  match (s.ctx x).atomics[n]? with
  | none => .next s
  | some a =>
    match (if a.published then none else a.release) with
    | none => if (s.ctx x).atomicHeld n a then .next s else .next (s.atomicAtHome x n a)
    | some (scope, joined) =>
      let l2 := l2Of (coreOf x)
      let lines := s.bufferLines x a.seq
      if (s.ctx x).atomicHeld n a || !s.canPublish x a.seq then .next s
      else
        match s.missing l2 lines true with
        | some l => .next (s.addNeed l2 l true .op (s.ctx x).owner)
        | none =>
          .next ((((s.releasePub x n a scope joined).needMet l2 lines true).markDirty l2 lines).atomicAtHome x n
            { a with published := true })

/-! ## Waits (R289, R292) -/

/-- The watched bytes as they stood when the bundle issued. -/
def State.watched (s : State) (pa n : Nat) : Nat :=
  ({ s with mem := s.bundle.mem, c := { s.c with pbuf := s.bundle.pbuf } } : State).watch pa n

/-- The acquire of a wait that has ended: the context has seen the watched bytes, and refreshes; where it has read a store
of its own, no release is synchronised with (R281). -/
def State.acquire (s : State) (pa n : Nat) (scope : BitVec 2) : State :=
  let s1 := s.caughtUp s.id pa n
  if s.bundle.pbuf.any fun e => pa ≤ e.addr && e.addr < pa + n then s1.refresh s.id scope
  else s1.acquireAt s.id pa n scope

/-- WAITM: its bundle issues once the condition holds, or poison is met (R288, R289). -/
def execWaitm (d : SReg) (a : AReg) (_r : SReg) (_cond : BitVec 4) (size scope : BitVec 2) (s : State) : Out :=
  let n := sizeBytes size
  match s.checkAtomic (s.av a) n .read with
  | .error (c, v) => .next (s.slotFault c v)
  | .ok pa =>
    match s.poisonIn pa n with
    | some l => .next (s.slotFault 0x14 l)
    | none =>
      let s1 := ((s.fillSpan s.via s.c.region (s.av a).toNat n).chargeReads s.c.region [lineOf pa]).acquire pa n scope
      .next (s1.emitS 1 d (BitVec.ofNat 64 (s.watched pa n)))

/-- EVWAIT: its bundle issues once the event is signalled, or poison is met (R288, R292). -/
def execEvwait (a : AReg) (scope : BitVec 2) (s : State) : Out :=
  match s.checkAtomic (s.av a) 16 .read with
  | .error (c, v) => .next (s.slotFault c v)
  | .ok pa =>
    match s.poisonIn pa 16 with
    | some l => .next (s.slotFault 0x14 l)
    | none =>
      .next (((s.fillSpan s.via s.c.region (s.av a).toNat 16).chargeReads s.c.region [lineOf pa]).acquire pa 16 scope)

/-! ## A store becomes visible (R278) -/

/-- STORE_BECOMES_VISIBLE: x the context, n the place of the store's byte in its phase buffer; an earlier store or atomic of
the context to the same byte goes first. -/
def execStoreBecomesVisible (s : State) : Out :=
  let x := s.move.x
  let pb := (s.ctx x).pbuf
  match pb[s.move.n]? with
  | none => .next s
  | some e =>
    if ((pb.take s.move.n).any fun d => d.addr == e.addr) || (s.ctx x).storeHeld e then .next s
    else
      .next (s.withLines (l2Of (coreOf x)) [lineOf e.addr] true .op (s.ctx x).owner fun s =>
        ((s.chargeLines (s.ctx x).region [lineOf e.addr]).performOne x e).modCtx x fun c =>
          { c with pbuf := dropAt c.pbuf s.move.n })

/-! ## Core windows (R155-R158) -/

/-- A 32-bit container or entry with one byte replaced. -/
def setContByte (v : BitVec 32) (i : Nat) (b : Byte) : BitVec 32 :=
  (v &&& ~~~((0xFF : BitVec 32) <<< (8 * (i % 4)))) ||| (b.setWidth 32 <<< (8 * (i % 4)))

/-- A 64-bit register with one byte replaced. -/
def setWordByte (v : Word) (i : Nat) (b : Byte) : Word :=
  (v &&& ~~~((0xFF : Word) <<< (8 * (i % 8)))) ||| (b.setWidth 64 <<< (8 * (i % 8)))

/-- A grid with one byte of container (i, j) replaced. -/
def Grid.setByte (g : Grid) (o : Nat) (b : Byte) : Grid :=
  let i := Fin.ofNat 16 (o / 256)
  let j := Fin.ofNat 64 (o / 4)
  g.set i ((g.get i).set j (setContByte (Grid.at g i j) o b))

/-- A byte written at an offset from a context's base in its core's window (R155-R157). -/
def Ctx.windowPut (c : Ctx) (o : Nat) (b : Byte) : Ctx :=
  if o < 0x20000 then
    let t := Fin.ofNat 32 (o / 0x1000)
    let T := c.regs.t.get t
    if c.asleep (.t t) then c
    else { c with regs := { c.regs with t := c.regs.t.set t { T with cells := Grid.setByte T.cells o b } } }
  else if o < 0x28000 then
    let k := Fin.ofNat 8 (o / 0x1000)
    let T := c.regs.c.get k
    { c with regs := { c.regs with c := c.regs.c.set k { T with cells := Grid.setByte T.cells o b } } }
  else if o < 0x29000 then
    let l := Fin.ofNat 16 (o / 256)
    let j := Fin.ofNat 64 (o / 4)
    let v := c.regs.lv.get l
    { c with regs := c.regs.lvset l { v with e := v.e.set j (setContByte (v.e.get j) o b) } }
  else if o < 0x29200 then
    let r : SReg := Fin.ofNat 64 (o / 8)
    { c with regs := c.regs.sset r (setWordByte (c.regs.sget r) o b) }
  else if o < 0x29280 then
    let r : AReg := Fin.ofNat 16 (o / 8)
    { c with regs := { c.regs with a := c.regs.a.set r (setWordByte (c.regs.a.get r) o b) } }
  else if o < 0x29288 then
    { c with regs := { c.regs with p := (setWordByte (c.regs.p.setWidth 64) o b).setWidth 16 ||| 1 } }
  else c

/-- Bytes written from an offset upwards. -/
def Ctx.windowPuts (c : Ctx) (o : Nat) : List Byte → Ctx
  | [] => c
  | b :: bs => (c.windowPut o b).windowPuts (o + 1) bs

/-- Both marks of the tile or accumulator at an offset cleared (R157, R164). -/
def Ctx.clearMarks (c : Ctx) (o : Nat) : Ctx :=
  if o < 0x20000 then
    let t := Fin.ofNat 32 (o / 0x1000)
    if c.asleep (.t t) then c
    else { c with regs := { c.regs with t := c.regs.t.set t { c.regs.t.get t with invalid := false, poison := none } } }
  else
    let k := Fin.ofNat 8 (o / 0x1000)
    { c with regs := { c.regs with c := c.regs.c.set k { c.regs.c.get k with invalid := false, poison := none } } }

/-- The offset from the context's base of a window write. -/
def WinWrite.rel (w : WinWrite) : Nat := (w.off - 0x200000) % 0x40000

/-- Two pieces of writes to the same aligned 32 bytes of one context. -/
def WinWrite.clash (w v : WinWrite) : Bool := w.x == v.x && w.off / 32 == v.off / 32

/-- The containers of its tile that a piece covers. -/
def WinWrite.covers (w : WinWrite) : BitVec 1024 :=
  (List.range w.bytes.length).foldl (fun (m : BitVec 1024) i => m ||| BitVec.twoPow 1024 ((w.rel + i) / 4 % 1024)) 0

/-- The record of the whole write that a piece belongs to. -/
def Whole.of (k : Whole) (w : WinWrite) (name : Nat × Nat) : Bool :=
  k.x == w.x && k.place == w.rel / 0x1000 && k.name == name

/-- A piece of a write of all containers has landed: with the last of them the marks of the tile clear (R157, R164). -/
def State.wholeLanded (s : State) (w : WinWrite) (name : Nat × Nat) : State :=
  let old := ((s.wholes.find? fun k => k.of w name).map (·.landed)).getD 0
  let now := old ||| w.covers
  let rest := s.wholes.filter fun k => !k.of w name
  if now = BitVec.allOnes 1024 then { s with wholes := rest }.modCtx w.x fun c => c.clearMarks w.rel
  else { s with wholes := ⟨w.x, w.rel / 0x1000, name, now⟩ :: rest }

/-- A piece of a write of all containers has been discarded: the write no longer clears a mark. -/
def State.dropWhole (s : State) (w : WinWrite) : State :=
  { s with wholes := s.wholes.filter fun k => !w.whole.any (k.of w) }

/-- The number by which the writes of a saved task are known, and of its engine commands. -/
def savedSrc (b : Bound) (engine : Bool) : Nat := 1000000 + 2 * (b.launch * 2 ^ 32 + b.index) + engine.toNat

/-- A copy command, of a context or of a saved task, one write of which has been discarded (R157, R260). -/
def State.markDiscarded (s : State) (src : Nat × Nat) : State :=
  let mark := fun (c : Ctx) => { c with queue := c.queue.map fun q =>
    if q.seq = src.2 then { q with discarded := true } else q }
  if src.1 < 1280 then s.modCtx src.1 mark
  else if src.1 < 1000000 then s
  else s.mapSaved fun c => if c.task.any fun b => savedSrc b false == src.1 then mark c else c

/-- The context takes writes into its window: it is bound to a task whose region is granted the core (R157). -/
def Ctx.takesWrites (c : Ctx) (core : Nat) : Bool := c.task.any fun b => b.region.windows.getLsbD core

/-- CORE_WINDOW_WRITE: n the piece's place among the writes on their way; of two to the same aligned 32 bytes the one sent
first lands first (log entry 76). It lands at a boundary of its target, after what is due there; a target with no task of a
granted region discards it (R157, R158). -/
def execCoreWindowWrite (s : State) : Out :=
  match s.wwrites[s.move.n]? with
  | none => .next s
  | some w =>
    if (s.wwrites.take s.move.n).any w.clash then .next s
    else
      let s1 : State := { s with wwrites := dropAt s.wwrites s.move.n }
      if !(s.ctx w.x).takesWrites (coreOf w.x) then
        .next (w.src.elim (s1.dropWhole w) (s1.dropWhole w).markDiscarded)
      else
        let s2 := ((s1.focus w.x).landNow.focus s1.id).modCtx w.x fun c => c.windowPuts w.rel w.bytes
        .next (w.whole.elim s2 (s2.wholeLanded w))

end Sys2Proof.Machine
end

