-- ==== Sys2Proof/Machine/Tasks.lean ====
section
/-! DEFINITION. Regions, command queues and launches (19_tasks R343-R355, R487): region control blocks, the packets that the
command processor starts, posting from a program, and the end of a launch. -/

namespace Sys2Proof.Machine

open Sys2Proof

/-! ## Region control blocks (R343-R345) -/

/-- A field of a region block: `w` bits from bit `lo` of the word at an offset, as last published at sys scope (R345). -/
def State.blockField (s : State) (block off lo w : Nat) : Nat := s.sysMem (block + off) 8 / 2 ^ lo % 2 ^ w

/-- Every reserved field of a block is zero, and bit 0 of HANDLER is 0. -/
def State.blockClean (s : State) (block : Nat) : Bool :=
  let z := fun (off lo w : Nat) => s.blockField block off lo w == 0
  z 0x00 48 16 && z 0x00 43 5 && z 0x00 20 4 && z 0x08 48 16 && z 0x10 48 16 && z 0x18 48 16 && z 0x20 48 16 && z 0x20 0 12
    && z 0x28 48 16 && z 0x28 0 1 && z 0x30 48 16 && z 0x30 0 6 && z 0x38 24 40 && z 0xA0 32 32 && z 0xB0 32 32
    && (List.range 9).all fun i => z (0xB8 + 8 * i) 0 64

/-- A region's own fields, as a root has them. -/
def State.ownRegion (s : State) (block : Nat) : Region :=
  let f := s.blockField block
  let q := f 0xA8 0 32
  { block := block
    id := BitVec.ofNat 16 (f 0x00 0 16)
    domain := BitVec.ofNat 8 (f 0x00 24 8)
    notify := f 0x00 19 1 == 1
    prio := BitVec.ofNat 3 (f 0x00 16 3)
    ptroot := f 0x20 0 48
    handler := BitVec.ofNat 48 (f 0x28 0 48)
    errArea := BitVec.ofNat 48 (f 0x30 0 48)
    errMax := f 0x38 0 16
    arrive := f 0x38 23 1 == 1
    silo := min 64 (f 0x38 16 7)
    chain := [(block, f 0x38 0 16)]
    coreset := BitVec.ofNat 320 (s.sysMem (block + 0x40) 40)
    windows := BitVec.ofNat 320 (s.sysMem (block + 0x68) 40)
    budgets := [block]
    ageLimit := if f 0xA8 32 32 = 0 then 1000 else f 0xA8 32 32
    quantum := if q = 0 then 4096 else max 64 q
    collTimeout := if f 0xB0 0 32 = 0 then 1000 else f 0xB0 0 32 }

/-- MAXCTX of a region. -/
def Region.maxCtx (r : Region) : Nat := (r.chain.head?.map (·.2)).getD 0

/-- A region under its parent, by its INHERIT bits (R344). -/
def Region.under (o p : Region) (inh : Nat) : Region :=
  let b := fun (i : Nat) => inh.testBit i
  { o with
    prio := if b 0 then p.prio else o.prio
    domain := if b 1 then p.domain else o.domain
    handler := if b 1 then p.handler else o.handler
    ptroot := if b 2 then p.ptroot else o.ptroot
    errArea := if b 3 then p.errArea else o.errArea
    errMax := if b 3 then p.errMax else if b 4 then p.maxCtx else o.errMax
    chain := (o.block, if b 4 then p.maxCtx else o.maxCtx) :: p.chain
    silo := if b 4 then p.silo else o.silo
    coreset := if b 5 then p.coreset else o.coreset
    windows := if b 6 then p.windows else o.windows
    arrive := if b 6 then p.arrive else o.arrive
    budgets := if b 7 then p.budgets else o.block :: p.budgets
    quantum := if b 8 then p.quantum else o.quantum
    ageLimit := if b 8 then p.ageLimit else o.ageLimit
    collTimeout := if b 9 then p.collTimeout else o.collTimeout
    notify := if b 10 then p.notify else o.notify }

/-- A child stays within its parent (R345). -/
def Region.within (c p : Region) : Bool :=
  c.coreset &&& ~~~p.coreset == 0 && c.windows &&& ~~~p.windows == 0 && c.maxCtx ≤ p.maxCtx && c.silo ≤ p.silo
    && c.prio ≤ p.prio

/-- The effective region of a block, its tree checked; `fuel` bounds the levels (R345). -/
def State.effRegion (s : State) : Nat → Nat → Option Region
  | 0, _ => none
  | fuel + 1, block =>
    if block % 256 ≠ 0 ∨ s.place block ≠ .hbm ∨ !s.blockClean block then none
    else
      let inh := s.blockField block 0 32 16
      let parent := s.blockField block 0x08 0 48
      let own := s.ownRegion block
      if parent = 0 then (if inh = 0 then some own else none)
      else
        match s.effRegion fuel parent with
        | none => none
        | some p =>
          let e := own.under p inh
          if e.within p then some e else none

/-- REGION_ID of a block. -/
def State.blockId (s : State) (block : Nat) : BitVec 16 := BitVec.ofNat 16 (s.blockField block 0 0 16)

/-- The region that a packet names, if its tree is valid and its REGION_ID and its ancestors' are their own (R345). -/
def State.regionAt (s : State) (block : Nat) : Option Region :=
  match s.effRegion 8 block with
  | none => none
  | some r =>
    if r.chain.any fun b => s.sched.launches.any fun l => l.region.block != b.1 && l.region.id == s.blockId b.1 then none
    else some r

/-- A block and those after it by NEXTSIB; `fuel` bounds them. -/
def State.siblings (s : State) : Nat → Nat → List Nat
  | 0, _ => []
  | fuel + 1, block => if block = 0 then [] else block :: s.siblings fuel (s.blockField block 0x18 0 48)

/-- The REGION_IDs of a block and of its descendants, by FIRSTCHILD and NEXTSIB: so many levels, and of siblings as many as
there are REGION_IDs (R343, R345). -/
def State.treeIds (s : State) : Nat → Nat → List (BitVec 16)
  | 0, _ => []
  | level + 1, block =>
    s.blockId block :: (s.siblings 65536 (s.blockField block 0x10 0 48)).flatMap fun b => s.treeIds level b

/-! ## Virtual addresses of a packet (R350) -/

/-- Bytes at a virtual address of a region, read as a supervisor; none where a page is not translatable. -/
def State.virtRead (s : State) (r : Region) : Nat → Nat → Nat → Option (List Byte)
  | 0, _, _ => some []
  | fuel + 1, va, n =>
    if n = 0 then some []
    else
      let k := min n (4096 - va % 4096)
      match s.translate none r (va % 2 ^ 48) .read true with
      | .error _ => none
      | .ok pa => (s.virtRead r fuel (va + k) (n - k)).map fun rest => s.bytesAt pa k ++ rest

/-- A 64-bit word of some bytes. -/
def wordAt (bytes : List Byte) (i : Nat) : Nat := leNat ((bytes.drop (8 * i)).take 8)

/-- An event's physical address: 0 for none; the inner none where it is misaligned or does not translate to memory that
atomics reach (R287, R350; log entry 48). -/
def State.eventPa (s : State) (r : Region) (va : Nat) (acc : Access) : Option Nat :=
  if va = 0 then some 0
  else if va % 16 ≠ 0 then none
  else
    match s.translate none r va acc true with
    | .ok pa => if plainPlace (s.place pa) then some pa else none
    | .error _ => none

/-- The header of a sheaf image: SHEAF_ID and COUNT, where it passes R29 and the whole image translates. -/
def State.sheafHead (s : State) (r : Region) (va : Nat) : Option (BitVec 64 × Nat) :=
  match s.virtRead r 2 va 64 with
  | none => none
  | some h =>
    let n := leNat ((h.drop 6).take 2)
    if leNat (h.take 4) ≠ 0x53464B01 ∨ leNat ((h.drop 4).take 2) ≠ 1 ∨ n = 0 ∨ 4096 < n ∨ (h.drop 16).any (· != 0) then none
    else if (s.virtRead r 64 va (64 + 48 * n)).isNone then none
    else some (BitVec.ofNat 64 (wordAt h 1), n)

/-! ## Events of the command processor (R291, R487) -/

/-- The line of an event, whose home performs the signal once it holds every token of it (R291, R299); none of no event. -/
def eventLines (pa : Nat) : List Nat := if pa = 0 then [] else [lineOf pa]

/-- An event is signalled, in error if `err`, by an atomic at its home that is a release at sys scope of the command
processor's writes and counts for a region; on a poisoned line nothing is performed (R291, R465, R466). -/
def State.signalEvent (s0 : State) (r : Option Region) (pa : Nat) (err : Bool) : State :=
  if pa = 0 ∨ (s0.poisonIn pa 16).isSome then s0
  else
    let s := s0.countHome (s0.homeOf (lineOf pa)) 0x0202 r
    let s1 := s.agentWrite Pub.atSys 0 pa (leBytes 8 (memRead s.mem pa 8 + 1)) true
    let s2 := if err then s1.agentWrite Pub.atSys 0 (pa + 8) (leBytes 8 (memRead s1.mem (pa + 8) 8 ||| 2 ^ 63)) true else s1
    s2.release ⟨pa, 16, 2, noCore, 4000, 0, 4000, [], []⟩

/-- Bytes that the command processor writes at a physical address, at the line's home, published at sys scope (R301; log entry
48). -/
def State.cpWrite (s : State) (pa : Nat) (bytes : List Byte) : State := s.placeWrite Pub.atSys pa bytes

/-- An event is signalled under R290; no event counts as signalled. -/
def State.eventSet (s : State) (pa : Nat) : Bool :=
  pa == 0 || signalled (memRead s.mem pa 8) (memRead s.mem (pa + 8) 8)

/-! ## Launches -/

/-- A launch by its id. -/
def State.launchOf (s : State) (id : Nat) : Option Launch := s.sched.launches.find? (·.id == id)

/-- A launch changed. -/
def State.modLaunch (s : State) (id : Nat) (f : Launch → Launch) : State :=
  { s with sched := { s.sched with launches := s.sched.launches.map fun l => if l.id = id then f l else l } }

/-- A launch whose tasks never bound are lost (R353). -/
def Launch.loseUnbound (l : Launch) : Launch :=
  let waiting := fun (t : Task) => match t.st with
    | .waiting _ _ => true
    | _ => false
  let n := if l.tile then (l.tasks.filter waiting).length else l.count - l.fresh
  { l with
    err := true
    ended := l.ended + n
    bad := l.bad + n
    fresh := l.count
    tasks := l.tasks.filter fun t => !waiting t }

/-- A fault domain fails (R353). -/
def State.failDomain (s : State) (d : BitVec 8) : State :=
  { s with sched := { s.sched with launches := s.sched.launches.map fun l =>
    if l.region.domain = d then l.loseUnbound else l } }

/-- A task of a launch has ended, with its exit code; `fault` fails its domain (R353, R376). Which non-zero code a launch
keeps is free. -/
def State.taskEnded (s : State) (b : Bound) (code : BitVec 26) (fault : Bool) : State :=
  let s1 := s.took.modLaunch b.launch fun l =>
    { l with
      tasks := l.tasks.filter fun t => t.index != b.index
      ended := l.ended + 1
      bad := if code = 0 then l.bad else l.bad + 1
      code := if l.code = 0 then code else if code != 0 && Config.freeBit s.fresh then code else l.code
      err := l.err || code != 0 }
  if fault then s1.failDomain b.region.domain else s1

/-- What becomes ready as its waits and counts are met is noted with the time; a poisoned wait loses the launch's tasks
(R356, R357, R487). -/
def Launch.noteReady (s : State) (l : Launch) : Launch :=
  let bad := fun (pa : Nat) => pa != 0 && (s.poisonIn pa 16).isSome
  if l.readyAt.isNone && (bad l.wait0 || bad l.wait1) then l.loseUnbound
  else if s.eventSet l.wait0 && s.eventSet l.wait1 then
    { l with
      readyAt := some (l.readyAt.getD s.time)
      tasks := l.tasks.map fun t => match t.st with
        | .waiting dep r => if dep = 0 then { t with st := .waiting dep (some (r.getD s.time)) } else t
        | _ => t }
  else l

/-- Readiness noted for every launch. -/
def State.noteReady (s : State) : State :=
  { s with sched := { s.sched with launches := s.sched.launches.map (Launch.noteReady s) } }

/-! ## Queues (R346-R352) -/

/-- The address of an entry of a queue. -/
def Queue.entry (q : Queue) (i : Nat) : Nat := q.base.toNat + 64 + 64 * (i % 2 ^ q.log2)

/-- The line of a queue's header, at whose home the command processor writes READ and ERROR (R301, R347; log entry 48). -/
def State.headLines (s : State) (q : Fin 64) : List Nat := [lineOf (s.sched.queues.get q).base.toNat]

/-- An entry of a queue has completed. -/
def State.entryDone (s : State) (q : Fin 64) (i : Nat) : State := s.modQueue q fun k => { k with live := k.live.filter (· != i) }

/-- READ of a queue written. -/
def State.setRead (s : State) (q : Fin 64) (i : Nat) : State :=
  s.cpWrite ((s.sched.queues.get q).base.toNat + 8) (leBytes 8 i)

/-- An entry starts; `stays` if it does not complete at once. -/
def State.startEntry (s : State) (q : Fin 64) (i : Nat) (stays : Bool) : State :=
  ((s.setRead q (i + 1)).dropAsker (.queue q.val)).modQueue q fun k => if stays then { k with live := k.live ++ [i] } else k

/-- A queue halts with a reason: ERROR written and its interrupt raised (R352). -/
def State.haltQueue (s : State) (q : Fin 64) (reason ty : Nat) : State :=
  let k := s.sched.queues.get q
  let s1 := (s.dropAsker (.queue q.val)).modQueue q fun k => { k with halted := true }
  (s1.cpWrite (k.base.toNat + 0x10) (leBytes 8 (fld 1 63 + fld reason 8 + ty))).msi k.fn q.val

/-- The command processor starts entries: in stage 1 before GO, and in stage 4 (R445, R449). -/
def State.cpRuns (s : State) : Bool := s.pkg.stage == 4 || (s.pkg.stage == 1 && !s.pkg.go)

/-- A packet as an entry holds it: its eight words. -/
structure Packet8 where
  q : Fin 64
  index : Nat
  words : List Nat

/-- Word k of a packet. -/
def Packet8.w (p : Packet8) (k : Nat) : Nat := p.words.getD k 0

/-- TYPE, FENCE, STATUS, PARENT and COUNT of R349. -/
def Packet8.ty (p : Packet8) : Nat := p.w 0 % 256
def Packet8.fence (p : Packet8) : Bool := (p.w 0).testBit 8
def Packet8.status (p : Packet8) : Bool := (p.w 0).testBit 9
def Packet8.parent (p : Packet8) : Nat := p.w 0 / 2 ^ 16 % 2 ^ 16
def Packet8.count (p : Packet8) : Nat := p.w 0 / 2 ^ 32

/-- The next entry of a queue that may start: the queue is served, running, of the active function and not empty, its
header and the entry are present, and a fence is met (R18, R346-R348, R442; log entry 48). -/
def State.nextEntry (s : State) (q : Fin 64) : Option Packet8 :=
  let k := s.sched.queues.get q
  let i := s.queueIdx k
  if !k.en || k.halted || k.fn != s.pkg.fn || !s.cpRuns || i.1 == i.2 then none
  else if s.place k.base.toNat == .absent || s.place (k.entry i.2) == .absent then none
  else
    let a := k.entry i.2
    let p : Packet8 := ⟨q, i.2, (List.range 8).map fun j => s.wordOf (a + 8 * j)⟩
    if p.fence && !k.live.isEmpty then none else some p

/-- A step of the command processor on a queue's next entry, if it has the type; an entry of an unassigned type halts its
queue (R349, R352). It reads the entry and writes the header at their homes, which first gather the tokens that they lack
(R301; log entry 48). -/
def State.packetStep (s : State) (ty : Nat) (go : Packet8 → State) : Out :=
  let q := Fin.ofNat 64 s.move.x
  match s.nextEntry q with
  | none => .next s
  | some p =>
    if p.ty = ty ∨ p.ty = 0 ∨ 7 < p.ty then
      .next (s.atHomes [lineOf ((s.sched.queues.get q).entry p.index)] false (.queue q.val) none fun _ =>
        s.atHomes (s.headLines q) true (.queue q.val) none fun _ => if p.ty = ty then go p else s.haltQueue q 0x01 p.ty)
    else .next s

/-- Reserved bits above a 48-bit address. -/
def highBits (w : Nat) : Bool := 2 ^ 48 ≤ w

/-- The first reason that a list of conditions gives. -/
def packetReason : List (Bool × Nat) → Option Nat
  | [] => none
  | (b, r) :: rest => if b then some r else packetReason rest

/-- The common words of a packet that starts no tasks have a reserved field that is not zero. DESIGN CHOICE, log entry 105: so
counts a COUNT or a STATUS that is not zero, for which R352 names no reason. -/
def Packet8.plainBad (p : Packet8) : Bool := p.count != 0 || p.status || p.w 0 / 2 ^ 10 % 64 != 0

/-- A packet's PARENT is not zero in a host queue, or names no live launch: reason 0x06 (R352). -/
def State.parentBad (s : State) (p : Packet8) : Bool :=
  p.parent != 0 && (!(s.sched.queues.get p.q).dev || (s.launchOf p.parent).isNone)

/-- The reason that a packet of no operands fails for (R352). -/
def State.bareBad (s : State) (p : Packet8) : Option Nat :=
  packetReason [(p.plainBad || (p.words.drop 2).any (· != 0), 1), (s.parentBad p, 6)]

/-- A packet with its checks, lowest reason first; `go` where it has none. -/
def State.checked (s : State) (p : Packet8) (bad : Option Nat) (go : State → State) : State :=
  match bad with
  | some r => s.haltQueue p.q r p.ty
  | none => go s

/-! ## Types without tasks (R348) -/

/-- NOP_PACKET: x the queue (R348). -/
def execNopPacket (s : State) : Out :=
  s.packetStep 7 fun p =>
    s.checked p (s.bareBad p) fun s => s.startEntry p.q p.index false

/-- BARRIER_PACKET: x the queue; it starts when every earlier entry has completed (R348). -/
def execBarrierPacket (s : State) : Out :=
  s.packetStep 6 fun p =>
    if (s.sched.queues.get p.q).live.isEmpty then
      s.checked p (s.bareBad p) fun s => s.startEntry p.q p.index false
    else s

/-- The checks of EVSIGNAL and EVWAIT: the reason, or the event's address. -/
def State.eventPacket (s : State) (p : Packet8) (acc : Access) : Except Nat Nat :=
  if p.plainBad || highBits (p.w 1) || highBits (p.w 2) || (p.words.drop 3).any (· != 0) then .error 1
  else
    match s.regionAt (p.w 1) with
    | none => .error 2
    | some r =>
      match s.eventPa r (p.w 2) acc with
      | none => .error 4
      | some pa => if s.parentBad p then .error 6 else .ok pa

/-- EVSIGNAL: x the queue (R348). -/
def execEvsignal (s : State) : Out :=
  s.packetStep 4 fun p =>
    match s.eventPacket p .both with
    | .error r => s.haltQueue p.q r p.ty
    | .ok pa => s.atHomes (eventLines pa) true (.queue p.q.val) (s.regionAt (p.w 1)) fun s => (s.signalEvent (s.regionAt (p.w 1)) pa false).startEntry p.q p.index false

/-- EVWAIT_PACKET: x the queue; it starts when its event is signalled, and a poisoned event halts the queue (R348,
R487). -/
def execEvwaitPacket (s : State) : Out :=
  s.packetStep 5 fun p =>
    match s.eventPacket p .read with
    | .error r => s.haltQueue p.q r p.ty
    | .ok pa =>
      if pa ≠ 0 ∧ (s.poisonIn pa 16).isSome then s.haltQueue p.q 7 p.ty
      else if s.eventSet pa then s.startEntry p.q p.index false
      else s

/-! ## LAUNCH and TILETASKS (R348-R351) -/

/-- The common fields of a packet of tasks: its reserved fields, region, sheaf, ENTRY, SIGNAL, COUNT and PARENT. `extra1` and
`extra4` add the type's own conditions of reasons 1 and 4. DESIGN CHOICE, log entry 33: no alignment is asked of SHEAF, ARGS and
WAIT beyond what the spec states. -/
def State.tasksBad (s : State) (p : Packet8) (r : Option Region) (extra1 : Bool) (extra4 : Region → Bool) (most : Nat) :
    Option Nat :=
  let sheaf := r.bind fun r => s.sheafHead r (p.w 2)
  packetReason
    [ (p.w 0 / 2 ^ 10 % 64 != 0 || highBits (p.w 1) || highBits (p.w 2) || highBits (p.w 3) || highBits (p.w 4)
        || highBits (p.w 7) || extra1, 1),
      (r.isNone, 2),
      (sheaf.isNone, 3),
      (p.w 3 % 2 == 1 || (r.any fun r => extra4 r || (s.eventPa r (p.w 7) .both).isNone), 4),
      (p.count == 0 || most < p.count, 5),
      (s.parentBad p, 6) ]

/-- A launch id that no launch has: 1 to 65,535; beyond that it is free (R349, R351, log entry 67). -/
def State.freeId (s : State) : Nat :=
  (((List.range 4097).map fun k => ((Config.freeWord s.fresh).toNat + k) % 65535 + 1).find? fun i =>
    (s.launchOf i).isNone).getD 1

/-- A launch as its packet starts it. -/
def State.newLaunch (s : State) (p : Packet8) (r : Region) : Launch where
  id := s.freeId
  tile := p.ty == 2
  region := r
  queue := p.q
  entry := p.index
  count := p.count
  sheaf := p.w 2
  sheafId := ((s.sheafHead r (p.w 2)).map (·.1)).getD 0
  entryPc := BitVec.ofNat 48 (p.w 3)
  args := BitVec.ofNat 64 (p.w 4)
  wait0 := if p.ty = 1 then (s.eventPa r (p.w 5) .read).getD 0 else 0
  wait1 := if p.ty = 1 then (s.eventPa r (p.w 6) .read).getD 0 else 0
  signal := (s.eventPa r (p.w 7) .both).getD 0
  status := p.status
  parent := p.parent
  baseId := if p.ty = 2 then BitVec.ofNat 14 (p.w 5) else 0
  fresh := 0
  readyAt := none
  tasks := []
  ended := 0
  bad := 0
  code := 0
  err := false

/-- The budgets of a region's blocks read as its launch starts; those of a block that another launch uses stand for the
period (R345). -/
def State.readBudgets (s : State) (r : Region) : State :=
  let used := s.sched.launches.flatMap fun l => l.region.budgets
  let new := r.budgets.filter fun b => !used.contains b
  if new.isEmpty then s
  else
    { s with pkg := { s.pkg with
      budgets := (s.pkg.budgets.filter fun e => !new.contains e.1) ++ new.map s.blockBudgets } }

/-- A launch takes its slot. -/
def State.startLaunch (s : State) (p : Packet8) (l : Launch) : State :=
  let t := s.rolled.readBudgets l.region
  let s1 : State := { t.took with sched := { t.sched with launches := t.sched.launches ++ [l] } }
  (s1.startEntry p.q p.index true).noteReady

/-- LAUNCH: x the queue; the entry starts when it is valid and one of the 4,096 launch slots is free (R348). -/
def execLaunch (s : State) : Out :=
  s.packetStep 1 fun p =>
    let r := s.regionAt (p.w 1)
    let bad := s.tasksBad p r (highBits (p.w 5) || highBits (p.w 6)) (fun r =>
      (s.virtRead r 1 (p.w 4) 1).isNone || (s.eventPa r (p.w 5) .read).isNone || (s.eventPa r (p.w 6) .read).isNone)
      (2 ^ 32 - 1)
    s.checked p bad fun s =>
      match r with
      | some r => if s.sched.launches.length < 4096 then s.startLaunch p (s.newLaunch p r) else s
      | none => s

/-- Two ranges of tile-task ids meet. -/
def idsMeet (a n b m : Nat) : Bool := (b + 16384 - a) % 16384 < n || (a + 16384 - b) % 16384 < m

/-- A tile task from its descriptor: DEPCOUNT and its argument address (R350, R355). -/
def tileTask (table : List Byte) (i : Nat) : Task where
  index := i
  arg := BitVec.ofNat 64 (wordAt table (2 * i + 1))
  st := .waiting (BitVec.ofNat 32 (wordAt table (2 * i))) none

/-- TILETASKS: x the queue; it starts as LAUNCH does, once its ids are free (R348, R355). -/
def execTiletasks (s : State) : Out :=
  s.packetStep 2 fun p =>
    let r := s.regionAt (p.w 1)
    let table := r.bind fun r => s.virtRead r 66 (p.w 4) (16 * min p.count 16384)
    let bad := s.tasksBad p r (p.w 5 / 2 ^ 14 != 0 || p.w 6 != 0) (fun _ => p.w 4 % 16 != 0 || table.isNone) 16384
    s.checked p bad fun s =>
      let busy := s.sched.launches.any fun l => l.tile && idsMeet l.baseId.toNat l.count (p.w 5) p.count
      match r, table with
      | some r, some t =>
        if busy || 4096 ≤ s.sched.launches.length then s
        else s.startLaunch p { s.newLaunch p r with tasks := (List.range p.count).map (tileTask t) }
      | _, _ => s

/-- A child of a launch has been posted and has not started: an entry of a device queue, halted or not, names it as PARENT. It
is complete only once it has run, or SKIP has completed it (R352, R353). -/
def State.postedChild (s : State) (id : Nat) : Bool :=
  (List.finRange 64).any fun q =>
    let k := s.sched.queues.get q
    k.dev &&
      (let i := s.queueIdx k
       (List.range (min (2 ^ k.log2) ((i.1 + 2 ^ 64 - i.2) % 2 ^ 64))).any fun j =>
         let w := s.wordOf (k.entry (i.2 + j))
         (w % 256 == 1 || w % 256 == 2) && w / 2 ^ 16 % 2 ^ 16 == id)

/-- A launch has no child left that is not complete (R353). -/
def State.childless (s : State) (id : Nat) : Bool := !(s.sched.launches.any (·.parent == id)) && !s.postedChild id

/-- The address of a launch's status word (R353). -/
def Launch.statusVa (l : Launch) : Nat := (l.args.toNat + 2 ^ 48 - 8) % 2 ^ 48

/-- A launch's status word is written as a supervisor write through the region's page tables; it is dropped where that faults
(R353). -/
def State.statusDropped (s : State) (l : Launch) : Bool :=
  l.status && (s.checkSpan none l.region true .write l.statusVa 8).isSome

/-- The counters and armed sends of a region with no launch left are discarded (R419). -/
def State.dropRegion (s : State) (id : BitVec 16) : State :=
  if s.sched.launches.any fun k => k.region.id == id then s
  else
    let lost := s.fab.armed.filter fun a => a.region == id
    let s1 : State := { s with fab := { s.fab with
      armed := s.fab.armed.filter fun a => a.region != id
      rx := s.fab.rx.filter fun e => e.1 != id } }.dropAsker (.armed id)
    lost.foldl (fun t _ => t.fabError none ⟨id, s.pkg.chipId, 8, 0, 0, 0, 0⟩) s1

/-- The bytes of a launch's status word (R353). -/
def Launch.statusBytes (l : Launch) (err : Bool) : List Byte :=
  leBytes 8 (fld err.toNat 63 + fld l.code.toNat 32 + l.bad % 2 ^ 32)

/-- The status word written, at the homes of its lines (log entry 97). -/
def State.writeStatus (s : State) (l : Launch) : State :=
  if l.status && !s.statusDropped l then s.spanWrite Pub.atSys none l.region l.statusVa (l.statusBytes l.err) else s

/-- The lines whose homes hold every token as a launch completes: of its status word, and of its event. -/
def State.completeLines (s : State) (l : Launch) : List Nat :=
  (if l.status && !s.statusDropped l then s.byteLines none l.region true .write l.statusVa 8 else []) ++ eventLines l.signal

/-- The completion of a launch: its status word, a publication, its signal, and its slot freed (R353). -/
def State.completeLaunch (s : State) (l : Launch) : State :=
  let err := l.err || s.statusDropped l
  let s2 := (s.writeStatus l).signalEvent (some l.region) l.signal err
  let s3 := if err then s2.modLaunch l.parent fun p => { p with err := true } else s2
  let rest := s3.sched.launches.filter fun k => k.id != l.id
  (({ s3 with sched := { s3.sched with launches := rest } } : State).entryDone l.queue l.entry).dropRegion l.region.id

/-- LAUNCH_COMPLETE: x the launch's id, whose tasks have ended and whose children are complete, once the homes of its status
word and its event hold the tokens of their lines (R353). -/
def execLaunchComplete (s : State) : Out :=
  match s.launchOf s.move.x with
  | none => .next s
  | some l =>
    if l.ended < l.count || !s.childless l.id then .next s
    else .next (s.atHomes (s.completeLines l) true .op (some l.region) fun s => s.completeLaunch l)

/-! ## QCTL (R346, R352) -/

/-- ERROR cleared and the queue running again. -/
def State.unhalt (s : State) (q : Fin 64) : State :=
  (s.modQueue q fun k => { k with halted := false }).cpWrite ((s.sched.queues.get q).base.toNat + 0x10) (leBytes 8 0)

/-- The halted entry of a queue is discarded, and one with a parent completes with ERR for that (R352). DESIGN CHOICE, log
entry 106: the PARENT of an entry in a host queue, which reason 0x06 refuses, names no parent. -/
def State.skipEntry (s : State) (q : Fin 64) : State :=
  let k := s.sched.queues.get q
  let i := (s.queueIdx k).2
  let parent := s.wordOf (k.entry i) / 2 ^ 16 % 2 ^ 16
  let s1 := if k.dev ∧ parent ≠ 0 then s.modLaunch parent fun l => { l with err := true } else s
  (s1.setRead q (i + 1)).unhalt q

/-- RETRY or SKIP of a halted queue takes effect once the home of its header holds its line's tokens; until then it is kept
(R301; log entry 48). -/
def State.queueCmd (s : State) (q : Fin 64) (skip : Bool) : State :=
  match s.homeMissing (s.headLines q) true with
  | some l =>
    { s.addNeed (s.homeOf l) l true (.queue q.val) none with sched := { s.sched with
      cmds := if s.sched.cmds.any (·.1 == q) then s.sched.cmds else s.sched.cmds ++ [(q, skip)] } }
  | none =>
    let t := if !(s.sched.queues.get q).halted then s else if skip then s.skipEntry q else s.unhalt q
    let u := (t.homesMet (s.headLines q) true).dropAsker (.queue q.val)
    { u with sched := { u.sched with cmds := u.sched.cmds.filter (·.1 != q) } }

/-- The commands kept for queues go on (R352). -/
def State.queueCmds (s : State) : State := s.sched.cmds.foldl (fun t e => t.queueCmd e.1 e.2) s

/-- A step of QCTL on a halted queue; none after a package fault, nor while an earlier one waits (R447). -/
def State.qctl (s : State) (skip : Bool) : Out :=
  let q := Fin.ofNat 64 s.move.x
  s.when ((s.sched.queues.get q).halted && s.pkg.stage != 0xE && !s.sched.cmds.any (·.1 == q)) fun s => s.queueCmd q skip

/-- QCTL_RETRY: x the queue; a halted entry may start again (R346, R352). -/
def execQctlRetry (s : State) : Out := s.qctl false

/-- QCTL_SKIP: x the queue; the halted entry is discarded (R346, R352). -/
def execQctlSkip (s : State) : Out := s.qctl true

/-! ## Posting from a program (R354) -/

/-- QPOST: the packet is read from the scratchpad, then posted at the queue's home as a release at pkg scope; its bundle
issued once there was room and the homes held the tokens of the lines written. A queue at an address that is not present faults 0x0B (R18). -/
def execQpost (r : SReg) (queue : BitVec 18) (s : State) : Out :=
  let n := Fin.ofNat 64 queue.toNat
  let q := s.sched.queues.get n
  let off := s.sv r
  let rd := s.scratchBytes s.bundle.mem s.bundle.pbuf false (off.toNat % 2 ^ 21) 64
  let ty := (rd.1.headD 0).toNat
  match s.qpostBad q off ty with
  | some k => .next (s.slotFault 0x15 (BitVec.ofNat 64 (fld n.val 8 + k)))
  | none =>
    match s.queueAbsent q with
    | some a => .next (s.slotFault 0x0B (BitVec.ofNat 64 a))
    | none =>
      let id := leBytes 2 s.c.sys.launchId.toNat
      let bytes := if ty = 1 ∨ ty = 2 then rd.1.take 2 ++ id ++ rd.1.drop 4 else rd.1
      let s1 := (rd.2.publishAll s.id (Pub.only (coreOf s.id) 1)).markDirty (l2Of (coreOf s.id)) (rd.2.bufferLines s.id rd.2.c.seq)
      let w := (s1.queueIdx q).1
      .next (((s1.chargeReads s1.c.region [lineOf (q.entry w), lineOf q.base.toNat]).placeWrite Pub.atSys (q.entry w) bytes).placeWrite Pub.atSys q.base.toNat (leBytes 8 (w + 1)))

/-! ## Tile-task arrivals (R355) -/

/-- `n` subtracted from the count of the live tile task with an id, unless it would fall below 0. -/
def State.arriveTile (s : State) (id n : Nat) : State :=
  ({ s with sched := { s.sched with launches := s.sched.launches.map fun l =>
    if l.tile then
      { l with tasks := l.tasks.map fun t => match t.st with
        | .waiting dep r =>
          if (l.baseId.toNat + t.index) % 16384 = id ∧ n ≤ dep.toNat then { t with st := .waiting (dep - BitVec.ofNat 32 n) r }
          else t
        | _ => t }
    else l } } : State).noteReady

/-- TT_ARRIVE: val the value stored, line the bits that the store covers; it is a 64-bit store (R355). -/
def execTtArrive (s : State) : Out :=
  let v := s.move.val
  s.when (s.move.line == 2 ^ 64 - 1) fun s =>
    s.arriveTile (bitsOf v 0 14) (if bitsOf v 16 16 = 0 then 1 else bitsOf v 16 16)

/-! ## Registers of package control -/

/-- REGISTER_WRITE: n the register's offset, val and line the value and the bits written (R5). -/
def execRegisterWrite (s : State) : Out := .next (s.setReg s.move.n s.move.val (BitVec.ofNat 64 s.move.line))

/-- TLBI_GO: flag and line the region block of the supervisor that wrote it, whose region or a descendant the command must
name. The invalidation takes REGION, VA and COUNT as they stand at GO, and COUNT is used (R146-R148). -/
def execTlbiGo (s : State) : Out :=
  s.when (!s.pkg.tlbiBusy && (!s.move.flag || (s.treeIds 8 s.move.line).contains s.pkg.tlbiRegion)) fun s =>
    { s with pkg := { s.pkg with
      tlbiBusy := true
      tlbiNow := (s.pkg.tlbiRegion, s.pkg.tlbiVa, s.pkg.tlbiCount)
      tlbiCount := 0 } }

/-- A translation that an invalidation of a region names: its pages from `first`, or all of the region where the count is
0 (R146). -/
def Tlb.named (t : Tlb) (now : BitVec 16 × BitVec 48 × BitVec 32) : Bool :=
  let first := now.2.1.toNat / 4096
  t.region == now.1 && (now.2.2 == 0 || (first < t.vpn + t.pages && t.vpn < first + now.2.2.toNat))

/-- TLB_INVALIDATION_DONE: no TLB of a core or of a die holds a translation of the named pages, and BUSY reads 0 (R147). -/
def execTlbInvalidationDone (s : State) : Out :=
  let keep := fun (l : List Tlb) => l.filter fun t => !t.named s.pkg.tlbiNow
  s.when s.pkg.tlbiBusy fun s =>
    { s with
      cores := s.cores.map fun e => (e.1, { e.2 with tlb := keep e.2.tlb })
      pkg := { s.pkg with tlbs := tabulate 8 fun d => keep (s.pkg.tlbs.get d), tlbiBusy := false } }

end Sys2Proof.Machine
end

