-- ==== Sys2Proof/Machine/Tree.lean ====
section
/-! DEFINITION. The token tree (17_token_tree R319-R334). -/

namespace Sys2Proof.Machine

open Sys2Proof

/-- A node's index among the 64. -/
abbrev NodeIx := Fin 64

/-- A node's parent. -/
def Tree.par (t : Tree) (n : NodeIx) : NodeIx := Fin.ofNat 64 (Vector.get t n).parent.toNat

/-- A node is part of the tree. -/
def Tree.ok (t : Tree) (n : NodeIx) : Bool := (Vector.get t n).valid

/-- The chain of a node by its parents, the node first, node 0 last where it is reached; `fuel` bounds it. -/
def Tree.chain (t : Tree) : Nat → NodeIx → List NodeIx
  | 0, n => [n]
  | f + 1, n => if n = 0 then [n] else n :: Tree.chain t f (Tree.par t n)

/-- The chain of a node reaches node 0 through valid nodes (R320). -/
def Tree.reaches (t : Tree) (n : NodeIx) : Bool :=
  let c := Tree.chain t 63 n
  c.contains 0 && c.all (Tree.ok t)

/-- Ancestor-or-self (R319). -/
def Tree.anc (t : Tree) (a q : NodeIx) : Bool :=
  Tree.ok t a && Tree.ok t q && (Tree.chain t 63 q).contains a

/-- The tree with every depth derived (R319). -/
def Tree.derive (t : Tree) : Tree :=
  tabulate 64 fun n =>
    { Vector.get t n with depth := if Tree.ok t n then BitVec.ofNat 6 ((Tree.chain t 63 n).length - 1) else 0 }

/-- TVAL of cause 0x13 (R322). -/
def treeVal (node reason : Nat) : Word := BitVec.ofNat 64 (fld node 8 + reason)

/-- Reasons 0x01 and 0x02 of a tree: the lowest reason and, within it, the lowest node (R322). -/
def Tree.bad (t : Tree) : Option Word :=
  match (List.finRange 64).find? fun n => Tree.ok t n && !Tree.ok t (Tree.par t n) with
  | some n => some (treeVal n.val 1)
  | none =>
    match (List.finRange 64).find? fun n => Tree.ok t n && !Tree.reaches t n with
    | some n => some (treeVal n.val 2)
    | none => none

/-- A tree is well formed: node 0 is valid with PARENT 0, and the chain of every valid node reaches it (R320). -/
def Tree.wellFormed (t : Tree) : Bool :=
  Tree.ok t 0 && (Vector.get t 0).parent == 0 && (Tree.bad t).isNone

/-- A tree after a write of its nodes from outside its instructions: its depths are derived, and a write that would leave it
ill-formed changes nothing (R319, R320). -/
def Tree.written (old new : Tree) : Tree := if Tree.wellFormed (Tree.derive new) then Tree.derive new else old

/-- The lowest invalid index. -/
def Tree.free (t : Tree) : Option NodeIx := (List.finRange 64).find? fun n => !Tree.ok t n

/-- A tree fault, or the rest. -/
def State.treeCheck (s : State) (bad : Option Word) (go : State → State) : State :=
  match bad with
  | some v => s.slotFault 0x13 v
  | none => go s

/-- TREECLR (R323). -/
def execTreeclr (p : PReg) (s : State) : Out := s.guarded ⟨p, false⟩ fun s => s.emit 3 [.tree Tree.fresh]

/-- The tree that TREESET reads from a row; node 0 stays the root (R323). -/
def Tree.ofRow (t : Tree) (row : Vector Cont 64) : Tree :=
  Tree.derive (tabulate 64 fun j =>
    let n := Vector.get t j
    let c := row.get j
    if j = 0 then ⟨0, true, 0, n.token, false⟩
    else if c.getLsbD 31 then ⟨0, false, 0, 0, false⟩
    else ⟨c.setWidth 6, true, 0, n.token, false⟩)

/-- TREESET (R323). -/
def execTreeset (ta : TSrc) (row : Fin 16) (p : PReg) (s : State) : Out :=
  s.guarded ⟨p, false⟩ fun s =>
    s.vChecks [.t ta.t] none (Row.all .ident) Lat.id [.t ta.t] fun _ s =>
      let cells := (s.tv ta.t).cells.get row
      let t := Tree.ofRow s.view.tree cells
      s.treeCheck ((Tree.bad t).or (if cells.get 0 = 0 then none else some (treeVal 0 3))) fun s => s.emit 4 [.tree t]

/-- TREEADD: the lowest invalid index joins under the parent (R324). -/
def execTreeadd (r : SReg) (parent : Fin 64) (p : PReg) (s : State) : Out :=
  s.guarded ⟨p, false⟩ fun s =>
    let t := s.view.tree
    match Tree.free t with
    | none => s.slotFault 0x13 (treeVal 63 4)
    | some n =>
      if !Tree.ok t parent then s.slotFault 0x13 (treeVal n.val 1)
      else
        s.emit 3 [.tree (Tree.derive (Vector.set t n ⟨BitVec.ofNat 6 parent.val, true, 0, (s.sv r).setWidth 32, false⟩))]

/-- Node 16 b + i. -/
def blockNode (b : Fin 4) (i : Fin 16) : NodeIx := Fin.ofNat 64 (16 * b.val + i.val)

/-- TREEMASK (R325). -/
def execTreemask (kd : KReg) (blk : Fin 4) (p : PReg) (s : State) : Out :=
  s.guarded ⟨p, false⟩ fun s =>
    s.emit 3 [.mask kd Mask.ones (Mask.ofFn fun i j => Tree.anc s.view.tree j (blockNode blk i))]

/-- TREEBIAS raises no flag (R325). -/
def execTreebias (td : TReg) (blk : Fin 4) (p : PReg) (s : State) : Out :=
  s.guarded ⟨p, false⟩ fun s =>
    let T := s.tv td
    let bad := if T.ty = .f32 ∨ T.ty = .bf16 ∨ T.ty = .f16 ∨ T.ty = .e5m2 then none else some (treeVal 0 6)
    s.treeCheck bad fun s =>
      s.vTile 4 td T.ty [] (Row.all .clear) [] T.active fun i j =>
        (((Rec.implied T.ty s.books).encode
          (if Tree.anc s.view.tree j (blockNode blk i) then .zero false else .inf true)).1, 0)

/-- Elements of one row of a tile's active shape. -/
def Tile.rowMask (t : Tile) (r : Nat) : Mask :=
  Mask.both t.active (tabulate 16 fun i => if i.val = r then BitVec.allOnes 64 else 0)

/-- TREEPOS: positions of the valid nodes; nothing is written where the row lies outside td (R326). -/
def execTreepos (td : TReg) (r : SReg) (row : Fin 16) (p : PReg) (s : State) : Out :=
  s.guarded ⟨p, false⟩ fun s =>
    let T := s.tv td
    let t := s.view.tree
    let en := Mask.both (T.rowMask row.val) (Mask.ofFn fun _ j => Tree.ok t j)
    s.vPart (decide (row ≤ T.rows)) 3 td T.ty [] (Row.all .keep) [] en fun _ j =>
      (Rec.implied T.ty s.books).encode
        (Num.ofRat (((s.sv r).toInt + (Vector.get t j).depth.toNat : Int) : Rat))

/-- The tree that keeps a path alone, renumbered (R327). -/
def Tree.pruned (t : Tree) (path : List NodeIx) : Tree :=
  tabulate 64 fun d =>
    match path[d.val]? with
    | some o => ⟨BitVec.ofNat 6 (d.val - 1), true, BitVec.ofNat 6 d.val, (Vector.get t o).token, true⟩
    | none => ⟨0, false, 0, 0, false⟩

/-- TREEPRUNE (R327). -/
def execTreeprune (td : TReg) (r : SReg) (row : Fin 16) (p : PReg) (s : State) : Out :=
  s.guarded ⟨p, false⟩ fun s =>
    let t := s.view.tree
    let T := s.tv td
    let l := s.sv r
    let leaf : NodeIx := Fin.ofNat 64 l.toNat
    let bad : Option Word :=
      if 64 ≤ l.toNat ∨ !Tree.ok t leaf then some (treeVal leaf.val 5)
      else if T.ty ≠ .i32 then some (treeVal 0 6)
      else if row = 15 then some (treeVal 0 7)
      else none
    s.treeCheck bad fun s =>
      let path := (Tree.chain t 63 leaf).reverse
      let en := tabulate 16 fun i => (T.rowMask row.val).get i ||| (T.rowMask (row.val + 1)).get i
      let vals := Grid.ofFn fun i j =>
        if i = row then BitVec.ofNat 32 ((path.idxOf? j).getD 0x3F)
        else BitVec.ofNat 32 ((path[j.val]?).elim 0x3F (·.val))
      s.emit 6 ([.tree (Tree.pruned t path), .tile (.t td) en vals (some .i32) none]
        ++ if r = 0 then [] else [.s r (BitVec.ofNat 64 path.length)])

/-- TREERD: parent, depth, token, flags (R328). -/
def execTreerd (d : SReg) (node : Fin 64) (field : Fin 4) (p : PReg) (s : State) : Out :=
  s.guarded ⟨p, false⟩ fun s =>
    let n := Vector.get s.view.tree node
    s.emitS 3 d
      (if field = 0 then n.parent.setWidth 64
      else if field = 1 then n.depth.setWidth 64
      else if field = 2 then n.token.setWidth 64
      else BitVec.ofNat 64 (n.valid.toNat + 2 * n.acc.toNat))

end Sys2Proof.Machine
end

