-- ==== Sys2Proof/Machine/Sched.lean ====
section
/-! DEFINITION. The scheduler and the selector of a core (19_tasks R356-R363, 20_traps R376-R387): binding, the end of a
task, pre-emption, saving and resuming, the switch among contexts, and the steps of a context's own issue. -/

namespace Sys2Proof.Machine

open Sys2Proof

/-! ## Which task runs where (R356) -/

/-- A context takes no task now: bound, on a core that is not present, or on a die being reset. -/
def State.freeCtx (s : State) (x : Nat) : Bool :=
  (s.ctx x).task.isNone && s.coreHere (coreOf x) && !s.pkg.resetting.getLsbD (coreOf x / 40) && s.pkg.stage != 0xE

/-- The tasks bound to contexts. -/
def State.boundTasks (s : State) : List (Nat × Bound) := s.allCtx.filterMap fun e => e.2.task.map fun b => (e.1, b)

/-- Every task that a launch holds: bound or saved. -/
def State.heldTasks (s : State) : List Bound :=
  s.boundTasks.map (·.2) ++ s.sched.launches.flatMap fun l => l.tasks.filterMap fun t => match t.st with
    | .saved c _ => c.task
    | _ => none

/-- The region and its ancestors hold fewer contexts than their MAXCTX. -/
def State.underMax (s : State) (r : Region) : Bool :=
  r.chain.all fun b => (s.boundTasks.filter fun e => e.2.region.chain.any fun d => d.1 == b.1).length < b.2

/-- The lowest error slot that no other task with the error area holds, within the area (R359). -/
def State.errSlot (s : State) (r : Region) : Option Nat :=
  (List.range r.errMax).find? fun e => !s.heldTasks.any fun b => b.region.errArea == r.errArea && b.eslot == e

/-- The sheaves of a core that bound contexts use. -/
def State.usedSheaves (s : State) (core : Nat) : List Sheaf :=
  (s.core core).sheaves.filter fun h => s.boundTasks.any fun e => coreOf e.1 == core && e.2.sheaf == (h.image, h.id)

/-- Two sheaves overlap in a bundle store. -/
def sheavesMeet (b n c m : Nat) : Bool := b < c + m && c < b + n

/-- A sheaf is on a core, or fits into what its bundle store has left (R30): if anywhere, then at the start or after a
sheaf in use. -/
def State.sheafFits (s : State) (core image : Nat) (id : BitVec 64) (count : Nat) : Bool :=
  let used := s.usedSheaves core
  ((s.core core).sheaves.any fun h => h.image == image && h.id == id) ||
    (0 :: used.map fun h => h.base + h.count).any fun b =>
      b + count ≤ 4096 && !used.any fun h => sheavesMeet b count h.base h.count

/-- A base at which some entries meet none of the sheaves given; which of them is free (R30, log entry 67). -/
def State.baseBeside (s : State) (count : Nat) (l : List Sheaf) : Option Nat :=
  ((List.range 4096).map fun k => ((Config.freeWord s.fresh).toNat + k) % 4096).find? fun b =>
    b + count ≤ 4096 && !l.any fun h => sheavesMeet b count h.base h.count

/-- The base at which a sheaf is loaded into a bundle store: beside every sheaf there, else over those that no bound context
uses, which it evicts (R30). -/
def State.freeBase (s : State) (core count : Nat) : Option Nat :=
  match s.baseBeside count (s.core core).sheaves with
  | some b => some b
  | none => s.baseBeside count (s.usedSheaves core)

/-- A sheaf's entries loaded into a bundle store; the sheaves that it evicts go (R29, R30). -/
def State.loadSheaf (s : State) (r : Region) (core image : Nat) (id : BitVec 64) (base count : Nat) : State :=
  let bytes := ((s.virtRead r 64 (image + 64) (48 * count)).getD [])
  let s1 : State := { s with mem := (List.range count).foldl (fun m e =>
    memPut m (entryAddr core (base + e)) ((bytes.drop (48 * e)).take 48)) s.mem }
  s1.modCore core fun k =>
    { k with sheaves := ⟨image, id, base, count⟩ :: k.sheaves.filter fun h => !sheavesMeet base count h.base h.count }

/-- A ready task: its launch's place and id, its index, whether it was saved, and its ready time. -/
structure Ready where
  order : Nat
  launch : Launch
  index : Nat
  saved : Bool
  since : Nat

/-- The effective priority of a ready task (R356). -/
def State.priority (s : State) (t : Ready) : Nat :=
  min 7 (t.launch.region.prio.toNat + (s.time - t.since) / (1000 * t.launch.region.ageLimit))

/-- A ready task goes before another: by priority, ready time, launch and index (R356). -/
def State.goesBefore (s : State) (a b : Ready) : Bool :=
  let p := s.priority a
  let q := s.priority b
  if p ≠ q then q < p
  else if a.since ≠ b.since then a.since < b.since
  else if a.order ≠ b.order then a.order < b.order
  else a.index ≤ b.index

/-- The ready tasks of a launch (R356). -/
def Launch.ready (l : Launch) (order : Nat) : List Ready :=
  let kept := l.tasks.filterMap fun t => match t.st with
    | .saved _ since => some ⟨order, l, t.index, true, since⟩
    | .waiting dep r =>
      match r, l.readyAt with
      | some since, some _ => if dep = 0 then some ⟨order, l, t.index, false, since⟩ else none
      | _, _ => none
    | .bound _ => none
  match l.readyAt with
  | some since => if !l.tile && l.fresh < l.count then kept ++ [⟨order, l, l.fresh, false, since⟩] else kept
  | none => kept

/-- A ready task inserted in the order of R356. -/
def State.insertReady (s : State) (t : Ready) : List Ready → List Ready
  | [] => [t]
  | u :: us => if s.goesBefore t u then t :: u :: us else u :: s.insertReady t us

/-- The ready tasks, the first to be bound first. -/
def State.readyTasks (s : State) : List Ready :=
  (s.sched.launches.zipIdx.flatMap fun e => e.1.ready e.2).foldl (fun acc t => s.insertReady t acc) []

/-- COUNT of a launch's sheaf as its image gives it. -/
def State.sheafCount (s : State) (l : Launch) : Nat := ((s.sheafHead l.region l.sheaf).map (·.2)).getD 0

/-- A ready task is held by its region alone: MAXCTX or the lack of an error slot. -/
def State.regionHolds (s : State) (t : Ready) : Bool :=
  !s.underMax t.launch.region || (!t.saved && (s.errSlot t.launch.region).isNone)

/-- A context is eligible for a ready task (R356). -/
def State.eligible (s : State) (t : Ready) (x : Nat) : Bool :=
  let r := t.launch.region
  s.freeCtx x && r.coreset.getLsbD (coreOf x) && !s.regionHolds t
    && s.sheafFits (coreOf x) t.launch.sheaf t.launch.sheafId (s.sheafCount t.launch)

/-- The ready task that the scheduler gives to a context: the first that is eligible for it, no earlier one being eligible
for any context. -/
def State.taskFor (s : State) (x : Nat) : List Ready → Option Ready
  | [] => none
  | t :: ts =>
    if s.eligible t x then some t
    else if (List.range 1280).any (s.eligible t) then none
    else s.taskFor x ts

/-! ## Binding (R358) -/

/-- The state of a newly bound task. -/
def State.newCtx (s : State) (x : Nat) (l : Launch) (b : Bound) (arg : Word) (base count : Nat) : Ctx :=
  let old := s.ctx x
  let r := l.region
  { Ctx.fresh with
    task := some b
    pc := l.entryPc
    wbase := base
    wsize := count
    siloSlots := r.silo
    seq := old.seq
    sys := { Sys.fresh with
      tvec := r.handler
      quantum := BitVec.ofNat 64 r.quantum
      errbase := BitVec.ofNat 64 (r.errArea.toNat + 64 * b.eslot)
      taskId := BitVec.ofNat 64 b.index
      launchId := BitVec.ofNat 64 l.id
      regionId := r.id.setWidth 64
      ntasks := BitVec.ofNat 64 l.count
      args := arg } }

/-- The context is placed; a core that no bound context holds is its to issue on, and it is the focus where the focused
context has no task. A task that resumes there has been switched out (R460). -/
def State.seat (s : State) (x : Nat) (c : Ctx) (again : Bool) : State :=
  let s1 := s.setCtx x c
  let core := coreOf x
  let s2 := if (s1.ctx (4 * core + (s1.core core).holder.val)).task.isSome then s1
    else s1.modCore core fun k => { k with holder := Fin.ofNat 4 x, held := 0, switched := again, paidTo := max k.paidTo s1.pkg.tick }
  if s2.c.task.isNone then s2.focus x else s2

/-- A launch's task is bound to a context. -/
def Launch.bindTask (l : Launch) (index : Nat) (arg : Word) (x : Nat) : Launch :=
  let t : Task := ⟨index, arg, .bound x⟩
  if l.tasks.any (·.index == index) then { l with tasks := l.tasks.map fun u => if u.index = index then t else u }
  else { l with tasks := l.tasks ++ [t], fresh := index + 1 }

/-- A task whose image fails its check at a later load counts as exited with code 0x200_1500 (R29); so does one whose image
no longer translates then, of which the spec does not speak (log entry 81). -/
def State.imageFailed (s : State) (t : Ready) : State :=
  let l := t.launch
  let s1 := if l.tile || t.saved then s else s.modLaunch l.id fun l => { l with fresh := t.index + 1 }
  s1.taskEnded ⟨l.id, t.index, l.region, 0, 0, (0, 0)⟩ 0x2001500 false

/-- The task's sheaf stands on the core, loaded if need be; its base and COUNT. -/
def State.withSheaf (s : State) (t : Ready) (x : Nat) : Option (State × Nat × Nat) :=
  let l := t.launch
  let core := coreOf x
  match (s.core core).sheaves.find? fun h => h.image == l.sheaf && h.id == l.sheafId with
  | some h => some (s, h.base, h.count)
  | none =>
    match s.sheafHead l.region l.sheaf with
    | none => none
    | some (_, n) =>
      (s.freeBase core n).map fun b => (s.took.loadSheaf l.region core l.sheaf l.sheafId b n, b, n)

/-- The lines of the image that a ready task's core loads as it takes the task; none where it has the sheaf, or where nothing
depends on them. -/
def State.imageLines (s : State) (t : Ready) (x : Nat) : List Nat :=
  let l := t.launch
  let r := l.region
  if ((s.core (coreOf x)).sheaves.any fun h => h.image == l.sheaf && h.id == l.sheafId) || !(s.coherent || !r.budgets.isEmpty)
  then []
  else
    match s.sheafHead r l.sheaf with
    | none => []
    | some (_, n) => s.byteLines none r true .read l.sheaf (64 + 48 * n)

/-- A context takes a ready task once the L2 of its die holds a token of each line of the image that its core loads, which are
charged to the region (R363; log entry 97). -/
def State.withImage (s : State) (t : Ready) (x : Nat) (go : State → State) : State :=
  let l2 := l2Of (coreOf x)
  let lines := s.imageLines t x
  let r := t.launch.region
  match s.missing l2 lines false with
  | some l => s.addNeed l2 l false .bind (some r)
  | none => ((go (s.chargeReads r lines)).needMet l2 lines false).dropAsker .bind

/-- TASK_BIND: x the context, which takes the ready task of highest effective priority that has never been bound (R356,
R358). -/
def execTaskBind (s0 : State) : Out :=
  let s := s0.noteReady
  let x := s.move.x
  match s.taskFor x s.readyTasks with
  | none => .next s
  | some t =>
    if t.saved then .next s
    else
      .next (s.withImage t x fun s =>
        match s.withSheaf t x with
        | none => s.imageFailed t
        | some (s1, base, count) =>
          let l := t.launch
          let arg := if l.tile then ((l.tasks.find? (·.index == t.index)).map (·.arg)).getD 0 else l.args
          let b : Bound := ⟨l.id, t.index, l.region, (s1.errSlot l.region).getD 0, s1.time, (l.sheaf, l.sheafId)⟩
          (s1.modLaunch l.id fun l => l.bindTask t.index arg x).seat x (s1.newCtx x l b arg base count) false)

/-! ## The end of a task (R114, R376) -/

/-- EN cleared on the core counters that a context owns (R463). -/
def State.stopCounters (s : State) (x : Nat) : State :=
  if (alGet s.cores (coreOf x)).isNone then s
  else s.modCore (coreOf x) fun k =>
    { k with evsel := tabulate 8 fun n =>
      let e := k.evsel.get n
      if bitsOf e 36 2 = x % 4 then e &&& ~~~(BitVec.twoPow 64 39) else e }

/-- The context as it is left when its task has gone. -/
def State.vacate (s : State) (x : Nat) : State :=
  s.modCtx x fun c => { Ctx.fresh with seq := c.seq, timecmp := c.timecmp }

/-- No operation with hidden latency is outstanding. -/
def Ctx.drained (c : Ctx) : Bool := c.loads.isEmpty && c.tloads.isEmpty && c.fills.isEmpty && c.atomics.isEmpty && c.mq.isEmpty

/-- The cycles until every result in flight has landed. -/
def Ctx.drainCycles (c : Ctx) : Nat := (c.flight.map (·.due)).foldl (fun (m : Nat) d => max m (d - c.now)) 0

/-- The results of a context that are in flight, those that a trap has set aside among them, land on its core; what they would
leave in the context goes with it (R114, R376). -/
def State.exitLand (s : State) (x : Nat) : State :=
  let t := s.focus x
  (((t.c.aside.map (·.flight)).getD [] ++ t.c.flight).foldl State.landCounters t).focus s.id

/-- TASK_EXIT_RELEASE: x the context, whose EXIT has committed and whose operations have completed. Its results land, it
publishes at sys scope, and it releases the context, the silo and the sheaf window; a queue found halted is cancelled,
and the task ends with a fault (R114, R376). -/
def execTaskExitRelease (s : State) : Out :=
  let x := s.move.x
  let c := s.ctx x
  match c.mode, c.task with
  | .exiting code fault, some b =>
    if c.halted then .next (s.modCtx x fun c => (c.exitFault 0x82).cancelAll c.queue true)
    else if !c.drained || !c.queue.isEmpty || !s.canPublish x c.seq then .next s
    else
      .next (s.withLines (l2Of (coreOf x)) (s.bufferLines x c.seq) true .op c.owner fun s =>
        let s1 := ((((s.wait c.drainCycles).catchUp (coreOf x)).exitLand x).publishAll x (Pub.upTo (coreOf x) 2)).clocksOver
        ((s1.stopCounters x).taskEnded b code fault).vacate x)
  | _, _ => .next s

/-! ## Pre-emption (R357, R384-R386) -/

/-- A ready task held only because no free context of its core set can take its sheaf. -/
def State.wantsRoom (s : State) (t : Ready) : Bool := !s.regionHolds t && !(List.range 1280).any (s.eligible t)

/-- The bound task that is pre-empted for a ready one: on its core set, of lower PRIO, the lowest, then the most recently
bound (R357). -/
def State.victim (s : State) (t : Ready) : Option Nat :=
  let r := t.launch.region
  let c := s.boundTasks.filter fun e => r.coreset.getLsbD (coreOf e.1) && e.2.region.prio < r.prio
    && (s.ctx e.1).mode == .run && !(s.ctx e.1).preemptReq
  (c.foldl (fun (best : Option (Nat × Bound)) e => match best with
    | none => some e
    | some d =>
      if e.2.region.prio < d.2.region.prio ∨ (e.2.region.prio = d.2.region.prio ∧ d.2.boundAt < e.2.boundAt) then some e
      else some d) none).map (·.1)

/-- A task's place would serve a ready one that wants room: on its core set and of lower PRIO (R357). -/
def Ready.servedBy (t : Ready) (e : Nat × Bound) : Bool :=
  t.launch.region.coreset.getLsbD (coreOf e.1) && e.2.region.prio < t.launch.region.prio

/-- The first of some tasks whose place serves a ready one taken out, if there is one. -/
def takeServer (t : Ready) : List (Nat × Bound) → Option (List (Nat × Bound))
  | [] => none
  | e :: es => if t.servedBy e then some es else (takeServer t es).map (e :: ·)

/-- The ready tasks for which no task is being pre-empted yet, one for each (R357). -/
def unserved : List Ready → List (Nat × Bound) → List Ready
  | [], _ => []
  | t :: ts, l =>
    match takeServer t l with
    | some rest => unserved ts rest
    | none => t :: unserved ts l

/-- A ready task with those behind it of a LAUNCH, whose tasks become ready together and bind in order: as many as there are
contexts count here (R356, R357). -/
def Ready.withNext (t : Ready) : List Ready :=
  let l := t.launch
  if l.tile || t.saved then [t]
  else (List.range (min 1280 (l.count - t.index))).map fun k => { t with index := t.index + k }

/-- PREEMPT_REQUEST: x the context whose task the scheduler pre-empts, for a ready task for which it pre-empts none yet
(R357). -/
def execPreemptRequest (s0 : State) : Out :=
  let s := s0.noteReady
  let x := s.move.x
  let going := s.boundTasks.filter fun e => (s.ctx e.1).preemptReq || (s.ctx e.1).mode == .preempting
  if (unserved ((s.readyTasks.filter s.wantsRoom).flatMap Ready.withNext) going).any fun t => s.victim t == some x then
    .next (s.modCtx x fun c => { c with preemptReq := true })
  else .next s

/-- PREEMPTION: x the context, which takes the request at a boundary where no debug stop is due, and stops issuing (R379,
R384). -/
def execPreemption (s : State) : Out :=
  let t := (s.focus s.move.x).settle
  if t.c.task.isSome && t.c.mode == .run && t.due == .preempt then
    .next ((t.stopForSave.dropAsker (.bundle s.move.x)).focus s.id) else .next s

/-- A table of a command or of the held set, its scratchpad bytes moved from one core to another. -/
def moveTable (m : Memory) (a b : Nat) : Memory :=
  (m.filter fun e => scratchAddr a 0 ≤ e.1 && e.1 < scratchAddr a 0x200000).map fun e =>
    (scratchAddr b (e.1 - scratchAddr a 0), e.2)

/-- The tags of a loop buffer without the bundles stored for them (R111, R385). -/
def LoopBuf.untagged (l : LoopBuf) : LoopBuf := { l with tagged := l.tagged.map fun e => (e.1, Option.none) }

/-- A context as its save area holds it: the tags of its loop buffers and not the bundles (R385). -/
def Ctx.untagged (c : Ctx) : Ctx :=
  { c with lbuf := c.lbuf.untagged, aside := c.aside.map fun a => { a with lbuf := a.lbuf.untagged } }

/-- A captured table with the stores of the context's phase buffer in it: a save publishes them. -/
def ownStores (m : Memory) (pb : List PStore) : Memory := pb.foldl (fun m e => memSet m e.addr e.val) m

/-- A context's captured tables moved from one core to another. -/
def Ctx.moveTables (c : Ctx) (a b : Nat) : Ctx :=
  { c with
    held := c.held.map fun h => { h with table := moveTable (ownStores h.table h.pbuf) a b, pbuf := [] }
    queue := c.queue.map fun q => { q with table := moveTable q.table a b } }

/-- The writers of older values, of releases and of writes on their way renamed. -/
def State.renameSrc (s : State) (f : Nat → Nat) : State :=
  let stale := fun (e : Stale) => { e with src := f e.src }
  let rel := fun (r : Rel) => { r with src := f r.src, eng := f r.eng }
  let write := fun (w : WinWrite) => { w with src := w.src.map fun k => (f k.1, k.2) }
  let step := fun (e : Instr × Move) => (e.1, { e.2 with src := e.2.src.map fun k => (f k.1, k.2) })
  let s1 : State := { s with
    unsys := s.unsys.map stale, rels := s.rels.map rel, wwrites := s.wwrites.map write, agenda := s.agenda.map step }
  s1.mapCtx fun _ c =>
    let c1 := if c.old.1.isEmpty then c else { c with old := (c.old.1.map stale, c.old.2) }
    if c1.stale.isEmpty then c1 else { c1 with stale := c1.stale.map stale }

/-- CONTEXT_SAVE: x the context, which has drained: it publishes at pkg scope, its state is saved, and it releases the
context and the silo (R384, R385). -/
def execContextSave (s : State) : Out :=
  let x := s.move.x
  let c := s.ctx x
  match c.mode, c.task with
  | .preempting, some b =>
    if !c.drained || !(c.queue.isEmpty || c.halted) || c.phase.isSome || !s.canPublish x c.seq then .next s
    else
      .next (s.withLines (l2Of (coreOf x)) (s.bufferLines x c.seq) true .op c.owner fun s =>
        let s1 := (s.publishAll x (Pub.upTo (coreOf x) 1)).renameSrc fun k =>
          if k = x then savedSrc b false else if k = 2000 + x then savedSrc b true else k
        let saved := ({ s1.ctx x with mode := .run, stale := [], unjoined := [], old := ([], []), slept := s1.mem, vjoin := false
                                      preemptReq := false, debugReq := false } : Ctx).untagged.moveTables (coreOf x) 0
        let s2 := s1.clocksOver.modLaunch b.launch fun l =>
          { l with tasks := l.tasks.map fun t =>
            if t.index = b.index then { t with st := .saved saved s.time } else t }
        (s2.stopCounters x).vacate x)
  | _, _ => .next s

/-- The code words that have changed while a task was saved, as they stood when it was (R28). -/
def changedCode (m n : Memory) : List OldCode :=
  ((((m ++ n).map fun e => e.1 / 2 * 2).eraseDups).filter fun a => memRead m a 2 != memRead n a 2).map fun a =>
    ⟨a, BitVec.ofNat 16 (memRead m a 2), 0, 0⟩

/-- RESUME: x the context, which takes the ready task of highest effective priority, one that was pre-empted (R356,
R386). -/
def execResume (s0 : State) : Out :=
  let s := s0.noteReady
  let x := s.move.x
  match s.taskFor x s.readyTasks with
  | none => .next s
  | some t =>
    let saved := (t.launch.tasks.find? (·.index == t.index)).bind fun u => match u.st with
      | .saved c _ => some c
      | _ => none
    match saved with
    | none => .next s
    | some c =>
      .next (s.withImage t x fun s =>
        match s.withSheaf t x, c.task with
        | some (s1, base, count), some b =>
          let old := s1.ctx x
          let c1 : Ctx := { c.moveTables 0 (coreOf x) with
            task := some { b with boundAt := s1.time }
            wbase := base
            wsize := count
            timecmp := old.timecmp
            noticed := c.noticed && s1.pkg.period == s0.pkg.period
            code := c.code ++ changedCode c.slept s1.mem
            slept := []
            seq := max c.seq old.seq }
          let s2 := s1.renameSrc fun k => if k = savedSrc b false then x else if k = savedSrc b true then 2000 + x else k
          (s2.modLaunch t.launch.id fun l =>
            { l with tasks := l.tasks.map fun u => if u.index = t.index then { u with st := .bound x } else u }).seat x c1 true
        | _, _ => s.imageFailed t)

/-! ## The selector (R360, R361) -/

/-- The context that holds a core. -/
def State.holderOf (s : State) (core : Nat) : Nat := 4 * core + (s.core core).holder.val

/-- The core switches to its next ready context, if it has one. -/
def State.switchNext (s : State) : State :=
  match s.nextReady with
  | some y => s.switchTo y
  | none => s

/-- A context has met a wait for as long as the core needs to switch from it (R360). -/
def Ctx.waitSwitches (c : Ctx) (w : Wait) : Bool :=
  w.switchAfter.any fun n => n ≤ (if c.waitCause = BitVec.ofNat 8 w.cause then c.waitRun else 0)

/-- CONTEXT_SWITCH: x the core, whose holder meets a wait that switches, or cannot issue (R360). -/
def execContextSwitch (s : State) : Out :=
  let t := s.focus (s.holderOf s.move.x)
  if t.c.task.isNone || t.c.mode != .run then .next (if t.nextReady.isSome then t.switchNext else s)
  else
    match t.tryIssue with
    | .wait w _ => if t.c.waitSwitches w && t.nextReady.isSome then .next t.switchNext else .next s
    | _ => .next s

/-- The focused context is within a stall from which its core does not switch: of the matrix unit, fetch, slew or shaping. It
may carry the context past its quantum (R360, R362). -/
def State.midStall (s : State) : Bool :=
  s.c.waitRun != 0 && match s.tryIssue with
    | .wait w _ => w.switchAfter.isNone && s.c.waitCause == BitVec.ofNat 8 w.cause
    | _ => false

/-- The focused context has held its core for its quantum, with another context ready: the core switches at its boundary
(R361). -/
def State.expired (s : State) : Bool :=
  s.c.sys.quantum.toNat ≤ (s.core (coreOf s.id)).held && s.nextReady.isSome && !s.midStall

/-- QUANTUM_EXPIRY: x the core, whose holder has held it for its quantum, with another context ready (R361). -/
def execQuantumExpiry (s : State) : Out :=
  let t := s.focus (s.holderOf s.move.x)
  if t.expired then .next t.switchNext else .next s

/-! ## A context's own steps -/

/-- An attempt of the holder of a core at its boundary: with another context ready the core switches where the quantum is
over, the context cannot issue, or its wait switches (R360-R362); else something goes before the bundle, the bundle waits a
clock cycle, or it opens (R34, R35, R43). -/
def State.attempt (s : State) : State :=
  if (s.c.mode != .run && s.nextReady.isSome) || s.expired then s.switchNext
  else
    match s.tryIssue with
    | .instead t => t.dropAsker (.bundle s.id)
    | .wait w t => if s.c.waitSwitches w && s.nextReady.isSome then t.switchNext else t.stallClock w
    | .opened t => t.dropAsker (.bundle s.id)

/-- ISSUE_BUNDLE: x the context, which holds its core or finds it held by none that is bound, and what is due takes effect
(R43). One that finds it so has waited, switched out (R460). -/
def execIssueBundle (s : State) : Out :=
  let x := s.move.x
  let core := coreOf x
  let h := s.holderOf core
  if s.pkg.stage = 0xE ∨ (s.ctx x).task.isNone then .next s
  else if h ≠ x ∧ (s.ctx h).task.isSome then .next s
  else
    let s1 := if h = x then s else s.modCore core fun k => { k with holder := Fin.ofNat 4 x, held := 0, switched := true, paidTo := max k.paidTo s.pkg.tick }
    .next (s1.focus x).attempt

/-- EXPOSED_RESULT_LANDING: x the context; the results that are due by the schedule time that it has reached land (R36,
R37). -/
def execExposedResultLanding (s : State) : Out := .next (s.reach s.move.x)

/-- TAKE_INTERRUPT: x the context, which holds its core, at a task-mode boundary where an interrupt is due before anything
else (R377, R379). -/
def execTakeInterrupt (s : State) : Out :=
  let t := (s.focus s.move.x).settle
  if t.c.task.isSome && t.c.mode == .run && s.holderOf (coreOf s.move.x) == s.move.x && t.due == .irq then
    .next (t.interrupt.dropAsker (.bundle s.move.x))
  else .next s

/-- CLUSTER_WAKE: x the context, n the cluster, whose wake is due (R115). -/
def execClusterWake (s : State) : Out := .next (s.modCtx s.move.x fun c => c.wakeDue (Fin.ofNat 4 s.move.n))

/-- DEBUG_REQUEST: x the context, to be stopped at its next boundary (R387). -/
def execDebugRequest (s : State) : Out :=
  s.when (s.ctx s.move.x).task.isSome fun s => s.modCtx s.move.x fun c => { c with debugReq := true }

/-- Registers that Watia has written, their tree left well formed (R320). -/
def Regs.edited (old new : Regs) : Regs := { new with tree := Tree.written old.tree new.tree }

/-- A result in flight that Watia has written, a tree in it left well formed (R320). -/
def Landing.edited (old : Tree) (l : Landing) : Landing :=
  { l with writes := l.writes.map fun w => match w with
    | .tree t => .tree (Tree.written old t)
    | w => w }

/-- What Watia has written into a stopped context (R387): every tree among it is left well formed, with its depths derived
(R319, R320). -/
def Ctx.edited (c : Ctx) (e : Option Edit) : Ctx :=
  match e with
  | some e =>
    let flight := fun (l : List Landing) => l.map (Landing.edited c.regs.tree)
    { c with
      regs := c.regs.edited e.regs
      sys := e.sys
      pc := e.pc
      active := e.active
      shadow := e.shadow
      silo := e.silo
      held := e.held.map fun h => { h with regs := c.regs.edited h.regs }
      aside := e.aside.map fun a => { a with flight := flight a.flight }
      flight := flight e.flight
      lbuf := e.lbuf
      pbuf := e.pbuf
      clusters := e.clusters }
  | none => c

/-- DEBUG_RELEASE: x the context, edit what Watia has written into it while it was stopped; it issues again, its next
attempt matches no breakpoint, and the stop is the last wait of its next bundle (R387, R460, R461). -/
def execDebugRelease (s : State) : Out :=
  match (s.ctx s.move.x).mode with
  | .debug _ =>
    .next (s.modCtx s.move.x fun c =>
      { c.edited s.move.edit with mode := .run, bpSkip := true, waitCause := 0x0B, waitRun := 0 })
  | _ => .next s

/-! ## Time (R363, R378) -/

/-- TIME brought forward to a value in ns. -/
def State.untilTime (s : State) (t : Nat) : State := s.until (6 * (t - s.pkg.timeAdj))

/-- BUDGET_PERIOD: the next 10 µs period begins. Budgets are read again, and the excess of the last is carried over, up to
one budget (R363). -/
def execBudgetPeriod (s : State) : Out := .next (s.untilTime ((s.pkg.period + 1) * 10000)).rolled

/-- TIMECMP_MATCH: x the context whose TIMECMP is reached: 0x81 is raised, and TIMECMP returns to 0 (R378). -/
def execTimecmpMatch (s : State) : Out :=
  let x := s.move.x
  let cmp := (s.ctx x).timecmp
  s.when (cmp != 0) fun s =>
    let s1 := s.untilTime cmp.toNat
    s1.modCtx x fun c => { c.raiseIrq 0x81 (BitVec.ofNat 64 s1.time) with timecmp := 0 }

/-- NOTIFY: x the context, val the value written (R378). -/
def execNotify (s : State) : Out := .next (s.modCtx s.move.x fun c => c.raiseIrq 0x84 s.move.val)

end Sys2Proof.Machine
end

