-- ==== Sys2Proof/Machine/Fabric.lean ====
section
/-! DEFINITION. The fabric (23_fabric R407-R432): sends and triggered sends, receive counters, packets that arrive,
reduction, collectives, pod barriers and ports. -/

namespace Sys2Proof.Machine

open Sys2Proof

/-! ## Issue (R415, R420) -/

def execSend (o : CopyOps) (flags : BitVec 6) (s : State) : Out := .next (s.enqueue (s.command 0x38 o flags))
def execSendt (o : CopyOps) (flags : BitVec 6) (s : State) : Out := .next (s.enqueue (s.command 0x39 o flags))
def execRxset (r : SReg) (rx : BitVec 6) (s : State) : Out :=
  .next (s.enqueue { s.bareCmd 0x3A with ctl := s.sv r, rx := rx })
def execRpost (r : SReg) (chip : BitVec 12) (rx : BitVec 6) (s : State) : Out :=
  .next (s.enqueue { s.bareCmd 0x3C with ctl := s.sv r, chip := chip, rx := rx })

/-- FBAR (R429): the bundle has issued, so the generation is released, and the arrival of the task, or of its handler, is
over; a barrier that the region may not use, when its bundle first tries to issue, faults. -/
def execFbar (b : BitVec 8) (s : State) : Out :=
  if s.c.barrierDone b || s.barrierOk b then .next ({ s with c := s.c.setArrival none }.refresh s.id 2)
  else .next (s.slotFault 0x0C (BitVec.ofNat 64 (2 ^ 63 + 4 * 2 ^ 56 + b.toNat)))

/-! ## Packets of a send (R416) -/

/-- The packets of a send, at least one. -/
def Cmd.packets (q : Cmd) : Nat := max 1 ((q.len.toNat + 4095) / 4096)

/-- The number of the next packet to send. -/
def Cmd.nextPacket (q : Cmd) : Nat :=
  (q.tx.map (·.index) ++ q.acked).foldl (fun (m : Nat) i => max m (i + 1)) (q.done / 4096)

/-- The counter that a send asks for. -/
def Cmd.rxWanted (q : Cmd) : Option (BitVec 6) := if q.ctl.getLsbD 46 then some (q.ctl.extractLsb' 40 6) else none

/-- A packet of a send, where the route table has a route for its chip. -/
def State.sendPacket (s : State) (q : Cmd) (region : BitVec 16) (i : Nat) (bytes : List Byte) (tag : BitVec 32) :
    Option Packet :=
  (s.routeTo q.chip q.rxWanted).map fun route =>
    { Packet.blank with
      last := i + 1 == q.packets
      region := region
      dstChip := q.chip
      srcChip := s.pkg.chipId
      dst := q.dstReg.setWidth 48 + BitVec.ofNat 48 (4096 * i)
      route := route
      seq := tag
      flagEn := q.flag
      flagA := if q.flag then q.dstGen.flagA.setWidth 48 else 0
      flagV := if q.flag then q.dstGen.flagV else 0
      payload := bytes }

/-- The first fault of the source bytes of a packet. -/
def State.sourceBad (s : State) (x : Nat) (q : Cmd) (a : Side) (b n : Nat) : Option (BitVec 8 × Word) :=
  (List.range n).findSome? fun k => s.sideBad x q a .read (b + k)

/-- The source bytes of a packet. -/
def State.sourceBytes (s : State) (x : Nat) (q : Cmd) (a : Side) (b n : Nat) : List Byte :=
  (List.range n).map fun k => s.engByte x q (s.sidePa x q a .read (b + k))

/-- The places of a packet's bytes at which a row or a page begins. -/
def Side.starts (a : Side) (b n : Nat) : List Nat :=
  if a.local' then []
  else (List.range n).filter fun i => i = 0 ∨ (b + i) % a.len = 0 ∨ a.va (b + i) % 4096 = 0

/-- A command with the pages of a packet's source touched (R265). -/
def State.touchSource (s : State) (x : Nat) (q : Cmd) (a : Side) (b n : Nat) : Cmd :=
  (a.starts b n).foldl (fun q i => s.touch x q (a.va (b + i)) .read) q

/-- The TLBs of the core with those pages. -/
def State.fillSource (s : State) (x : Nat) (a : Side) (b n : Nat) : State :=
  (a.starts b n).foldl (fun t i => t.fill (some (coreOf x)) (t.ctx x).region (a.va (b + i))) s

/-- The lines that the walks of those pages read. -/
def State.sourceWalks (s : State) (x : Nat) (q : Cmd) (a : Side) (b n : Nat) : List Nat :=
  (a.starts b n).flatMap fun i =>
    if (q.page (a.va (b + i)) .read).isSome then [] else s.walkLines (some (coreOf x)) (s.ctx x).region (a.va (b + i))

/-- The reads of those walks have been had, and are charged (R300, R303, R363). -/
def State.walked (s : State) (x : Nat) (q : Cmd) (a : Side) (b n : Nat) : State :=
  let walks := s.sourceWalks x q a b n
  (s.chargeReads (s.ctx x).region walks).needMet (l2Of (coreOf x)) walks false

/-- The lines of the source of a packet. -/
def State.sourceLines (s : State) (x : Nat) (q : Cmd) (a : Side) (b n : Nat) : List Nat :=
  ((List.range n).map fun k => lineOf (s.sidePa x q a .read (b + k))).eraseDups

/-- The head command of a queue stops with a reason. -/
def State.stopHead (s : State) (x : Nat) (e : BitVec 8 × Word) : State := s.modHead x fun h => { h with stop := some e }

/-- A packet of the head command leaves, its tag noted. -/
def State.launchPacket (s : State) (x i : Nat) (p : Packet) : State :=
  (s.took.modHead x fun h => { h with tx := h.tx ++ [⟨i, p.seq, s.time⟩] }).sendPkt p

/-- The head command of a context's queue that has an opcode and may move. -/
def Ctx.headFor (c : Ctx) (op : BitVec 6) : Option Cmd :=
  match c.queue with
  | [] => none
  | q :: _ => if c.halted || q.finished || q.stop.isSome || q.op != op then none else some q

/-- A packet of a send, its pages translated. The LAST one leaves once every other has been acknowledged; a byte that cannot
be read stops the send once the packets before it have been. The source is read at the homes of its lines (R432). -/
def State.transmitFrom (s : State) (x : Nat) (q : Cmd) (a : Side) (i : Nat) : State :=
  let b := 4096 * i
  let n := min 4096 (q.len.toNat - b)
  let r := (s.ctx x).region
  let stop := fun (e : BitVec 8 × Word) => if q.tx.isEmpty then s.stopHead x e else s
  match s.sourceBad x q a b n with
  | some e => stop e
  | none =>
    s.atHomes (s.sourceLines x q a b n) false (.engine x) (some r) fun s =>
      match s.sendPacket q r.id i (s.sourceBytes x q a b n) (s.newTag []) with
      | none => stop (0x28, 0)
      | some p => ((s.charge r 1 n).chargeLines r (s.sourceLines x q a b n)).launchPacket x i p

/-- The next packet of a send, whose pages the core translates first. -/
def State.transmitNext (s : State) (x : Nat) (q : Cmd) (free : Word) : State :=
  let i := q.nextPacket
  let b := 4096 * i
  let n := min 4096 (q.len.toNat - b)
  if q.packets ≤ i ∨ (i + 1 = q.packets ∧ !q.tx.isEmpty) then s
  else
    let a := (s.tables x q).srcSide free q
    match s.missing (l2Of (coreOf x)) (s.sourceWalks x q a b n) false with
    | some l => s.addNeed (l2Of (coreOf x)) l false (.engine x) (s.ctx x).owner
    | none =>
      let q1 := s.touchSource x q a b n
      (((s.walked x q a b n).fillSource x a b n).modHead x fun h => { h with pages := q1.pages }).transmitFrom x q1 a i

/-- A region's sends wait for the next budget period: its HBM or its fabric budget is exhausted (R363). -/
def State.sendThrottled (s : State) (r : Region) : Bool := s.exhausted r 0 || s.exhausted r 1

/-- SEND_TRANSMIT: x the context, whose head SEND is checked, then sends its next packet (R416, R417). -/
def execSendTransmit (s : State) : Out :=
  let x := s.move.x
  match (s.ctx x).headFor 0x38 with
  | none => .next s
  | some q =>
    let free := Config.freeWord s.fresh
    if !q.started && s.sendThrottled (s.ctx x).region then .next s
    else
      match (if q.started then none else s.earlyBad x q free) with
      | some e => .next ({ s with fresh := s.fresh + 1 }.stopHead x e)
      | none => .next ((s.modHead x fun h => { h with started := true }).transmitNext x q free)

/-! ## Triggered sends and receive counters (R418, R419) -/

/-- The trigger of an armed send has been reached. -/
def State.isDue (s : State) (a : Armed) : Bool :=
  a.cmd.ctl.extractLsb' 0 32 ≤ s.rxOf a.region (a.cmd.ctl.extractLsb' 32 6)

/-- The region of a launch in progress with an id (R412). -/
def State.regionById (s : State) (id : BitVec 16) : Option Region :=
  (s.sched.launches.find? fun l => l.region.id == id).map (·.region)

/-- The machine as a fired send reads it: a context of its core in its region, with no stores of its own. -/
def State.asReader (s : State) (x : Nat) (r : Region) : State :=
  s.modCtx x fun c => { c with task := some ⟨0, 0, r, 0, 0, (0, 0)⟩, pbuf := [] }

/-- A fired send that fails is dropped and logged (R418). -/
def State.armedError (s : State) (region : BitVec 16) : State := s.fabError none ⟨region, s.pkg.chipId, 8, 0, 0, 0, 0⟩

/-- A packet of a fired send leaves. -/
def Fired.sendFirst (f : Fired) (s : State) : Fired × State :=
  match f.pkts with
  | [] => (f, s)
  | p :: rest => ({ f with pkts := rest, tx := f.tx ++ [⟨0, p.seq, s.time⟩] }, s.sendPkt p)

/-- Every packet of a fired send but the LAST leaves; the LAST once none is unacknowledged. -/
def Fired.pump (s : State) : Nat → Fired → Fired × State
  | 0, f => (f, s)
  | n + 1, f =>
    match f.pkts with
    | [] => (f, s)
    | _ :: rest =>
      if rest.isEmpty ∧ !f.tx.isEmpty then (f, s)
      else
        let r := f.sendFirst s
        Fired.pump r.2 n r.1

/-- A fired send in transmission, until all its packets are acknowledged. -/
def State.putFired (s : State) (f : Fired) : State :=
  let r := Fired.pump s (f.pkts.length + 1) f
  if r.1.pkts.isEmpty ∧ r.1.tx.isEmpty then r.2
  else { r.2 with fab := { r.2.fab with fired := r.2.fab.fired ++ [r.1] } }

/-- The packets of a send whose source has been read, with tags of their own; `used` are those given so far. -/
def State.cutSend (s : State) (q : Cmd) (region : BitVec 16) : Nat → List (BitVec 32) → List Byte → Nat →
    Option (List Packet) × State
  | 0, _, _, _ => (some [], s)
  | n + 1, used, bytes, i =>
    match s.sendPacket q region i (bytes.take 4096) (s.newTag used) with
    | none => (none, s)
    | some p =>
      let r := s.took.cutSend q region n (p.seq :: used) (bytes.drop 4096) (i + 1)
      (r.1.map fun ps => p :: ps, r.2)

/-- An armed send fires: it reads its source, and transmits (R418). -/
def State.fire (s : State) (a : Armed) : State :=
  match s.regionById a.region with
  | none => s.armedError a.region
  | some r =>
    let x := 4 * a.core
    let q := a.cmd
    let n := q.len.toNat
    let t := s.asReader x r
    let side := (t.tables x q).srcSide 0 q
    if (t.sourceBad x q side 0 n).isSome then s.armedError a.region
    else
      let k := s.cutSend q a.region q.packets [] (t.sourceBytes x q side 0 n) 0
      match k.1 with
      | none => s.armedError a.region
      | some ps => ((k.2.charge r 1 n).chargeLines r (t.sourceLines x q side 0 n)).putFired ⟨a.region, ps, []⟩

/-- The lines of HBM, of the second tier and of windows that an armed send reads as it fires; none where it fails. -/
def State.fireLines (s : State) (a : Armed) : List Nat :=
  match s.regionById a.region with
  | none => []
  | some r =>
    let x := 4 * a.core
    let t := s.asReader x r
    let side := (t.tables x a.cmd).srcSide 0 a.cmd
    if (t.sourceBad x a.cmd side 0 a.cmd.len.toNat).isSome then [] else t.sourceLines x a.cmd side 0 a.cmd.len.toNat

/-- The lines that the walks of a fired send read, through the L2 of its core's die (R300, R309). -/
def State.fireWalks (s : State) (a : Armed) : List Nat :=
  match s.regionById a.region with
  | none => []
  | some r =>
    let x := 4 * a.core
    let t := s.asReader x r
    t.sourceWalks x a.cmd ((t.tables x a.cmd).srcSide 0 a.cmd) 0 a.cmd.len.toNat

/-- Some armed sends fire in order, each once its die's L2 can make its walks and the homes of its source can read it; one
that waits holds those behind it (R309, R418, R432; log entry 51). -/
def State.fireList (s : State) : List Armed → State
  | [] => s
  | a :: rest =>
    let l2 := l2Of a.core
    let walks := s.fireWalks a
    let lines := s.fireLines a
    let r := s.regionById a.region
    match s.missing l2 walks false, s.homeMissing lines false with
    | some l, _ => s.addNeed l2 l false (.armed a.region) r
    | none, some l => s.addNeed (s.homeOf l) l false (.armed a.region) r
    | none, none =>
      let s1 : State := { s with fab := { s.fab with armed := s.fab.armed.erase a } }
      let s2 := r.elim s1 fun r => s1.chargeReads r walks
      ((((s2.fire a).needMet l2 walks false).homesMet lines false).dropAsker (.armed a.region)).fireList rest

/-- The armed sends that have come due are marked, and those marked fire in arming order (R418). -/
def State.fireDue (s : State) : State :=
  if s.fab.armed.isEmpty then s
  else
    let armed := s.fab.armed.map fun a => { a with due := a.due || s.isDue a }
    ({ s with fab := { s.fab with armed := armed } } : State).fireList (armed.filter (·.due))

/-- A receive counter incremented. -/
def State.bumpRx (s : State) (region : BitVec 16) (n : BitVec 6) (k : BitVec 32) : State :=
  (s.rxSet region n (s.rxOf region n + k)).fireDue

/-- SENDT_ARM: x the context, whose head SENDT publishes, is checked and is armed (R418). -/
def execSendtArm (s : State) : Out :=
  let x := s.move.x
  match (s.ctx x).headFor 0x39 with
  | none => .next s
  | some q =>
    let r := (s.ctx x).region
    if s.sendThrottled r || !s.canPublish x q.seq then .next s
    else
      .next (s.withLines (l2Of (coreOf x)) (s.bufferLines x q.seq) true (.engine x) (s.ctx x).owner fun s =>
        let s1 := s.publish x (Pub.only (coreOf x) 1) q.seq q.joined
        let free := Config.freeWord s1.fresh
        match s1.earlyBad x q free with
        | some e => { s1 with fresh := s1.fresh + 1 }.stopHead x e
        | none =>
          if 256 ≤ (s1.fab.armed.filter fun a => a.region == r.id).length then s1
          else
            let s2 := s1.modCtx x fun c => c.endCommand q false q.success
            ({ s2 with fab := { s2.fab with armed := s2.fab.armed ++ [⟨r.id, q, coreOf x, false⟩] } } : State).fireDue)

/-- RXSET_PERFORM: x the context, whose head RXSET sets its counter (R420). -/
def execRxsetPerform (s : State) : Out :=
  let x := s.move.x
  match (s.ctx x).headFor 0x3A with
  | none => .next s
  | some q =>
    if s.exhausted (s.ctx x).region 0 then .next s
    else .next (((s.rxSet (s.ctx x).region.id q.rx (q.ctl.setWidth 32)).modCtx x fun c => c.endCommand q false 0).fireDue)

/-- RPOST_PERFORM: x the context, whose head RPOST publishes, then increments its counter here or sends a packet (R420). -/
def execRpostPerform (s : State) : Out :=
  let x := s.move.x
  match (s.ctx x).headFor 0x3C with
  | none => .next s
  | some q =>
    if !q.tx.isEmpty || s.exhausted (s.ctx x).region 0 || !s.canPublish x q.seq then .next s
    else
      .next (s.withLines (l2Of (coreOf x)) (s.bufferLines x q.seq) true (.engine x) (s.ctx x).owner fun s =>
        let s1 := s.publish x (Pub.only (coreOf x) 2) q.seq q.joined
        let id := (s1.ctx x).region.id
        let k := q.ctl.setWidth 32
        if q.chip = s1.pkg.chipId then (s1.modCtx x fun c => c.endCommand q false 0).bumpRx id q.rx k
        else
          match s1.routeTo q.chip (some q.rx) with
          | none => s1.stopHead x (0x28, 0)
          | some route =>
            s1.launchPacket x 0 { Packet.blank with
              region := id
              dstChip := q.chip
              srcChip := s1.pkg.chipId
              kind := 1
              route := route
              seq := s1.newTag []
              flagV := k.setWidth 64 })

/-! ## Packets that arrive (R409-R411) -/

/-- A header field breaks R409 or R413, or the packet has made more than eight hops. -/
def Packet.badHead (p : Packet) : Bool :=
  !p.zeros || p.version != 1 || 6 < p.kind.toNat || 4096 < p.payload.length || (p.kind != 0 && !p.payload.isEmpty)
    || 8 < p.route.length || 8 < p.hops || 2 < p.redType.toNat || 2 < p.redOp.toNat
    || (p.flagEn && p.flagA.toNat % 8 != 0)

/-- The reason for which the entry that a packet pops drops it (R410, R411). Reduction is for data, and only packets of
KIND 0 and 1 are delivered. -/
def State.entryBad (s : State) (p : Packet) (e : BitVec 16) (rest : List (BitVec 16)) : Option (BitVec 8) :=
  let op := entOp e
  let arg := entArg e
  let terminal := op = 0 ∨ op = 3 ∨ op = 5
  if 5 < op ∨ (op ≠ 2 ∧ op ≠ 3 ∧ arg ≠ 0) ∨ (op = 2 ∧ (arg = 0 ∨ p.kind ≠ 0)) ∨ (op = 3 ∧ 64 ≤ arg.toNat)
      ∨ (op = 5 ∧ !p.payload.isEmpty) ∨ (2 ≤ p.kind.toNat ∧ 1 < op) ∨ (¬ terminal ∧ rest.isEmpty) then some 2
  else if terminal ∧ (!rest.isEmpty ∨ p.dstChip ≠ s.pkg.chipId) then some 4
  else if ¬ terminal ∧ !s.portUp (entPort e) then some 3
  else none

/-- The packet that a step names is taken from its port, or from those within the package. -/
def State.takePkt (s : State) : Option State :=
  match s.move.port with
  | none =>
    if s.fab.loop.contains s.move.pkt then some { s with fab := { s.fab with loop := s.fab.loop.erase s.move.pkt } }
    else none
  | some p => if s.pkg.ports.getLsbD p.val then some (s.countFab (some p) 0x0301) else none

/-- A step on a packet that pops its next entry: a packet that breaks the rules is dropped, one that is not for this step
stays. `lines`: those that homes must hold to write first. -/
def State.receive (s : State) (want : Packet → Nat → Bool) (lines : State → Packet → List Nat)
    (go : State → Packet → BitVec 16 → State) : Out :=
  let p := s.move.pkt
  match s.takePkt with
  | none => .next s
  | some s1 =>
    match p.route with
    | [] => .next (s1.dropPkt s.move.port p (if p.badHead then 1 else 2))
    | e :: rest =>
      match (if p.badHead then some 1 else s.entryBad p e rest) with
      | some r => .next (s1.dropPkt s.move.port p r)
      | none =>
        if want p (entOp e) then
          match s.homeMissing (lines s p) true with
          | some l => .next (s.addNeed (s.homeOf l) l true (if s.move.port.isSome then .outside else .op) (s.regionById p.region))
          | none => .next ((go s1 { p with route := rest } e).homesMet (lines s p) true)
        else .next s

/-- A packet emitted on a port. -/
def State.emitOn (s : State) (port : BitVec 4) (p : Packet) : State :=
  ({ s with fab := { s.fab with out := s.fab.out ++ [(port, { p with hops := p.hops + 1 })] } } : State).countFab
    (some (Fin.ofNat 16 port.toNat)) 0x0300

/-- ROUTE_FORWARD: port and pkt the packet (R411). -/
def execRouteForward (s : State) : Out :=
  s.receive (fun _ op => op == 1) (fun _ _ => []) fun s p e => s.emitOn (entPort e) p

/-! ## Delivery (R412) -/

/-- What a delivery writes: its payload and, with its LAST packet, its flag. -/
def Packet.spans (p : Packet) : List (Nat × List Byte) :=
  (if p.payload.isEmpty then [] else [(p.dst.toNat, p.payload)]) ++
    if p.flagEn && p.last then [(p.flagA.toNat, leBytes 8 p.flagV.toNat)] else []

/-- What a delivery translates first, of every packet: DST and its payload's bytes, and FLAGA (R412); a counter packet, whose
DST is 0, names no address there (R413; log entry 82). -/
def Packet.targets (p : Packet) : List (Nat × Nat) :=
  (if p.kind = 1 then [] else [(p.dst.toNat, p.payload.length)]) ++ if p.flagEn then [(p.flagA.toNat, 8)] else []

/-- The first address at which a delivery faults. -/
def State.deliverBad (s : State) (r : Region) (p : Packet) : Option Nat :=
  p.targets.findSome? fun e => (s.checkSpan none r false .write e.1 e.2).map (·.2)

/-- The lines that a delivery writes. -/
def State.deliverLines (s : State) (p : Packet) : List Nat :=
  match s.regionById p.region with
  | none => []
  | some r =>
    if (s.deliverBad r p).isSome then []
    else
      (p.spans.flatMap fun e =>
        (List.range e.2.length).map fun i => lineOf (s.paOf none r (e.1 + i) .write false)).eraseDups

/-- The number of a packet's writes: one for those of a send, which its flag releases together (R412). -/
def Packet.flow (p : Packet) : Nat :=
  1 + p.srcChip.toNat + 2 ^ 12 * (p.region.toNat + 2 ^ 16 * (p.flagA.toNat + 2 ^ 48 * p.flagV.toNat))

/-- Bytes written at a virtual address of a region by a delivery, published at pkg scope, page by page. -/
def State.putAgent (s : State) (r : Region) (seq : Nat) : Nat → Nat → List Byte → State
  | 0, _, _ => s
  | fuel + 1, va, bytes =>
    if bytes.isEmpty then s
    else
      let n := min bytes.length (4096 - va % 4096)
      let pa := s.paOf none r va .write false
      let piece := bytes.take n
      let s1 := match s.place pa with
        | .pctl off => s.pctlStore off piece (some r.block)
        | .window core off =>
          if off < 0x200000 then s.agentWrite Pub.atPkg seq pa piece
          else
            s.took.windowStore core off piece
              (if off % 0x40000 < 0x28000 && n == 4096 then some (4000, s.fresh) else none)
        | _ => s.agentWrite Pub.atPkg seq pa piece
      s1.putAgent r seq fuel (va + n) (bytes.drop n)

/-- The flag of a delivery stored as a release at pkg scope of what its send has delivered (R281, R412). -/
def State.putFlag (s : State) (r : Region) (p : Packet) : State :=
  let pa := s.paOf none r p.flagA.toNat .write false
  let s1 := s.putAgent r p.flow 3 p.flagA.toNat (leBytes 8 p.flagV.toNat)
  if plainPlace (s.place pa) then s1.release ⟨pa, 8, 1, noCore, 4001, 0, 4000, [p.flow], []⟩ else s1

/-- A packet delivered: payload, counter, flag and acknowledgement, or a refusal; and whether it was delivered. -/
def State.deliver (s : State) (port : Option (Fin 16)) (p : Packet) (rx : Option (BitVec 6)) (ack : Bool) : Bool × State :=
  match s.regionById p.region with
  | none => (false, (s.fabError port (p.error port 5)).refuse port p 0x29 0)
  | some r =>
    match s.deliverBad r p with
    | some a => (false, (s.fabError port (p.error port 6)).refuse port p 0x2A (BitVec.ofNat 48 a))
    | none =>
      let s0 := s.chargeLines r (s.deliverLines p)
      let s1 := if p.payload.isEmpty then s0 else s0.putAgent r p.flow 3 p.dst.toNat p.payload
      let s2 := match rx with
        | some n => s1.bumpRx p.region n (if p.kind = 1 then p.flagV.setWidth 32 else if p.last then 1 else 0)
        | none => s1
      let s3 := if p.flagEn && p.last then s2.putFlag r p else s2
      (true, if ack then s3.ackPkt p else s3)

/-- Data and counter packets whose popped entry has an op. -/
def dataOp (op : Nat) (p : Packet) (k : Nat) : Bool := p.kind.toNat ≤ 1 && k == op

/-- ROUTE_DELIVER: port and pkt the packet (R412). -/
def execRouteDeliver (s : State) : Out :=
  s.receive (dataOp 0) State.deliverLines fun t p _ => (t.deliver s.move.port p none true).2

/-- ROUTE_DELIVER_COUNTER: port and pkt the packet (R412). -/
def execRouteDeliverCounter (s : State) : Out :=
  s.receive (dataOp 3) State.deliverLines fun t p e => (t.deliver s.move.port p (some (e.setWidth 6)) true).2

/-- ROUTE_DELIVER_FORWARD: port and pkt the packet; what is not delivered is not forwarded (R412). -/
def execRouteDeliverForward (s : State) : Out :=
  s.receive (dataOp 4) State.deliverLines fun t p e =>
    let r := t.deliver s.move.port p none false
    if r.1 then r.2.emitOn (entPort e) p else r.2

/-- ROUTE_TILE_ARRIVAL: port and pkt the packet (R355, R410). -/
def execRouteTileArrival (s : State) : Out :=
  s.receive (dataOp 5) (fun _ _ => []) fun t p _ => (t.arriveTile (p.dst.toNat % 2 ^ 14) 1).ackPkt p

/-! ## Reduction (R423-R425) -/

/-- Bytes of an element of a reduction. -/
def redSize (ty : BitVec 4) : Nat := if ty = 1 then 2 else 4

/-- One combined element, from the contributions' bits; any NaN gives the default NaN (R423). -/
def combineElem (ty op : BitVec 4) (vs : List Nat) : Nat :=
  if ty = 2 then
    let xs := vs.map fun v => (BitVec.ofNat 32 v).toInt
    let y := match xs with
      | [] => 0
      | x :: rest =>
        if op = 0 then clampInt (-2 ^ 31) (2 ^ 31 - 1) xs.sum
        else if op = 1 then rest.foldl min x
        else rest.foldl max x
    (BitVec.ofInt 32 y).toNat
  else
    let r := if ty = 1 then Rec.bf16 .rne else Rec.f32 .rne
    let xs := vs.map fun v => r.decode (BitVec.ofNat 32 v)
    let y := if xs.any Num.isNaN then Num.default
      else if op = 0 then (sumMany false xs).1 else (maxMany (op != 1) Num.default xs).1
    (r.encode y).1.toNat

/-- The combined payload of some contributions. -/
def combine (parts : List Packet) : List Byte :=
  match parts with
  | [] => []
  | p :: _ =>
    let k := redSize p.redType
    (List.range (p.payload.length / k)).flatMap fun j =>
      leBytes k (combineElem p.redType p.redOp (parts.map fun c => leNat ((c.payload.drop (k * j)).take k)))

/-- A contribution that does not match the first of its chunk, or is not in whole elements. -/
def mismatched (p : Packet) (first : Option Packet) : Bool :=
  p.payload.length % redSize p.redType != 0 || first.any fun f =>
    f.region != p.region || f.dst != p.dst || f.payload.length != p.payload.length || f.redOp != p.redOp
      || f.redType != p.redType || f.route != p.route

/-- The staging of a chunk at this chip. -/
def State.stageOf (s : State) (collid seq : BitVec 32) : Option Stage :=
  s.fab.stages.find? fun g => g.collid == collid && g.seq == seq

/-- Stages without a chunk's. -/
def State.dropStage (s : State) (collid seq : BitVec 32) : State :=
  { s with fab := { s.fab with stages := s.fab.stages.filter fun g => !(g.collid == collid && g.seq == seq) } }

/-- A chunk's staging changed. -/
def State.modStage (s : State) (collid seq : BitVec 32) (f : Stage → Stage) : State :=
  { s with fab := { s.fab with stages := s.fab.stages.map fun g => if g.collid = collid ∧ g.seq = seq then f g else g } }

/-- A hop's window for a collective and a source. -/
def State.windowOf (s : State) (collid : BitVec 32) (src : BitVec 12) : Window :=
  (s.fab.windows.find? fun w => w.collid == collid && w.src == src).getD ⟨collid, src, 0, 0⟩

/-- That window replaced. -/
def State.setWindow (s : State) (w : Window) : State :=
  { s with fab := { s.fab with windows := w :: s.fab.windows.filter fun v => !(v.collid == w.collid && v.src == w.src) } }

/-- A window whose base advances past the chunks forwarded: those with a bit set and no staging that still gathers. -/
def Window.advance (s : State) : Nat → Window → Window
  | 0, w => w
  | n + 1, w =>
    let gathering := (s.stageOf w.collid (BitVec.ofNat 32 w.base)).any fun g => !g.sent
    if w.bits.getLsbD 0 && !gathering then Window.advance s n { w with base := w.base + 1, bits := w.bits >>> 1 } else w

/-- A chunk's combined packet, which leaves as this chip's own. -/
def Stage.result (g : Stage) (chip : BitVec 12) : Packet :=
  { g.parts.headD Packet.blank with srcChip := chip, payload := combine g.parts }

/-- The combined chunk forwarded, or sent again; where its port is not connected it is dropped, with a record and a refusal
to this chip, its source (R411). -/
def State.forwardStage (s : State) (g : Stage) : State :=
  let p := g.result s.pkg.chipId
  let s1 := s.modStage g.collid g.seq fun h => { h with sent := true, leaseTo := s.time }
  if s.portUp g.port then s1.emitOn g.port p else s1.dropBuilt (s.builtFor g.port) p 3

/-- A contribution is accepted into a staging; with the last one the chunk is forwarded and the windows advance. -/
def State.contribute (s : State) (p : Packet) (g : Stage) : State :=
  let w := s.windowOf p.collid p.srcChip
  let s1 := s.setWindow { w with bits := w.bits ||| BitVec.twoPow 1024 (p.seq.toNat - w.base) }
  let g' : Stage := { g with parts := g.parts ++ [p] }
  let s2 := s1.modStage g.collid g.seq fun _ => g'
  if g'.parts.length < g.need then s2
  else
    let s3 := s2.forwardStage g'
    g'.parts.foldl (fun (t : State) c => t.setWindow (Window.advance t 1024 (t.windowOf c.collid c.srcChip))) s3

/-- A contribution at a reduce hop (R423-R425). Whether a new chunk finds staging space is the hop's. -/
def State.reduceAt (s : State) (port : Option (Fin 16)) (p : Packet) (e : BitVec 16) : State :=
  let w := s.windowOf p.collid p.srcChip
  let stage := s.stageOf p.collid p.seq
  let seq := p.seq.toNat
  let staged := stage.any fun g => g.parts.any fun c => c.srcChip == p.srcChip
  if mismatched p (stage.bind fun g => g.parts.head?) ∨ w.base + 1024 ≤ seq then s.fabError port (p.error port 7)
  else if staged then s.countFab port 0x0302
  else if seq < w.base ∨ w.bits.getLsbD (seq - w.base) then (s.countFab port 0x0302).ackPkt p
  else
    match stage with
    | some g => s.contribute p g
    | none =>
      let f := s.freeBit
      if f.1 then
        let g : Stage := ⟨p.collid, p.seq, (entArg e).toNat, entPort e, [], s.time + 100000, false⟩
        { f.2 with fab := { f.2.fab with stages := f.2.fab.stages ++ [g] } }.contribute p g
      else f.2.refuse port p 0x2C 0

/-- ROUTE_REDUCE: port and pkt the contribution (R423). -/
def execRouteReduce (s : State) : Out :=
  s.receive (dataOp 2) (fun _ _ => []) fun t p e => t.reduceAt s.move.port p e

/-- STAGING_LEASE_EXPIRY: x and n the collective and chunk, whose lease ends short of N (R425). -/
def execStagingLeaseExpiry (s : State) : Out :=
  match s.stageOf (BitVec.ofNat 32 s.move.x) (BitVec.ofNat 32 s.move.n) with
  | none => .next s
  | some g =>
    s.when (!g.sent) fun s =>
      let s1 := ((s.untilTime g.leaseTo).dropStage g.collid g.seq).countFab (s.builtFor g.port) 0x0303
      g.parts.foldl (fun (t : State) p =>
        let w := t.windowOf p.collid p.srcChip
        (t.setWindow { w with bits := w.bits &&& ~~~BitVec.twoPow 1024 (p.seq.toNat - w.base) }).answer p 6 0 0) s1

/-! ## Collectives (R424, R426, R427) -/

/-- A collective in progress that this chip sends. -/
def State.collOf (s : State) (id : BitVec 32) : Option Coll := s.fab.colls.find? (·.collid == id)

/-- A collective changed. -/
def State.modColl (s : State) (id : BitVec 32) (f : Coll → Coll) : State :=
  { s with fab := { s.fab with colls := s.fab.colls.map fun c => if c.collid = id then f c else c } }

/-- A chunk transmitted, or transmitted again. -/
def State.sendChunk (s : State) (p : Packet) : State :=
  (s.modColl p.collid fun c =>
    { c with chunks := c.chunks.map fun k => if k.1.seq = p.seq then (k.1, s.time + 1) else k }).sendPkt p

/-- Chunks not sent yet leave, with at most 1,024 unacknowledged (R424). -/
def State.pumpColl (s : State) (id : BitVec 32) : State :=
  match s.collOf id with
  | none => s
  | some c =>
    let flying := (c.chunks.filter fun k => k.2 != 0).length
    ((c.chunks.filter fun k => k.2 == 0).take (1024 - flying)).foldl (fun (t : State) k => t.sendChunk k.1) s

/-- A collective ends: its event signalled, and its entry completed. -/
def State.endColl (s : State) (c : Coll) (err : Bool) : State :=
  ({ s with fab := { s.fab with colls := s.fab.colls.filter fun d => d.collid != c.collid } }.signalEvent (some c.region) c.event err).entryDone
    c.queue c.entry

/-- A chunk of this chip's sent again: a source's, or a reduce hop's combined one. -/
def State.resendChunk (s : State) (id seq : BitVec 32) : State :=
  match (s.stageOf id seq).filter (·.sent) with
  | some g => (s.countFab (s.builtFor g.port) 0x0305).forwardStage g
  | none =>
    match (s.collOf id).bind fun c => c.chunks.find? fun k => k.1.seq == seq && k.2 != 0 with
    | some k => (s.countFab (s.builder k.1) 0x0305).sendChunk k.1
    | none => s

/-- Bytes at a virtual address of a region, as the newest writes left them; none where a page is not translatable. -/
def State.newestBytes (s : State) (r : Region) (va n : Nat) : Option (List Byte) :=
  (List.range n).foldr (fun i rest => rest.bind fun bs =>
    match s.translate none r ((va + i) % 2 ^ 48) .read true with
    | .ok pa => some (s.byteAt pa :: bs)
    | .error _ => none) (some [])

/-- The lines of those bytes. -/
def State.newestLines (s : State) (r : Region) (va n : Nat) : List Nat :=
  (s.byteLines none r true .read va n).eraseDups

/-- The route entries of a COLLECTIVE packet. -/
def Packet8.route (p : Packet8) : List (BitVec 16) :=
  (routeWords (BitVec.ofNat 64 (p.w 5)) (BitVec.ofNat 64 (p.w 6))).take (p.w 7 / 2 ^ 56 % 16)

/-- NROUTE, REDOP and REDTYPE of a COLLECTIVE packet. -/
def Packet8.nroute (p : Packet8) : Nat := p.w 7 / 2 ^ 56 % 16
def Packet8.redOp (p : Packet8) : Nat := p.w 7 / 2 ^ 52 % 16
def Packet8.redType (p : Packet8) : Nat := p.w 7 / 2 ^ 48 % 16

/-- A COLLECTIVE packet that breaks R426. -/
def Packet8.collBad (p : Packet8) : Bool :=
  p.plainBad || highBits (p.w 1) || highBits (p.w 2) || highBits (p.w 3) || p.w 4 / 2 ^ 32 == 0 || p.w 7 / 2 ^ 60 != 0
    || p.nroute == 0 || 8 < p.nroute || 2 < p.redOp || 2 < p.redType
    || ((p.route.any fun e => entOp e == 2) && p.w 4 % 2 ^ 32 % redSize (BitVec.ofNat 4 p.redType) != 0)

/-- The chunks of a collective: `dst` is the chip that pops the terminal entry. -/
def Packet8.chunks (p : Packet8) (r : Region) (chip dst : BitVec 12) (bytes : List Byte) : List (Packet × Nat) :=
  (List.range ((bytes.length + 4095) / 4096)).map fun i =>
    ({ Packet.blank with
       last := true
       region := r.id
       dstChip := dst
       srcChip := chip
       dst := BitVec.ofNat 48 (p.w 3)
       route := p.route
       seq := BitVec.ofNat 32 i
       collid := BitVec.ofNat 32 (p.w 4 / 2 ^ 32)
       redType := BitVec.ofNat 4 p.redType
       redOp := BitVec.ofNat 4 p.redOp
       payload := (bytes.drop (4096 * i)).take 4096 }, 0)

/-- A COLLECTIVE starts with what it has read. The terminal chip follows from its route and the pod's links (R413; log entry
55). -/
def State.startColl (s : State) (p : Packet8) (r : Region) (bytes : List Byte) (event : Nat) : State :=
  let dst := if p.nroute = 1 then s.pkg.chipId else Config.routeEnd s.pkg.chipId (p.route.dropLast.map entPort)
  let poison := fun (k : Packet × Nat) => (List.range k.1.payload.length).any fun i =>
    (s.poisonIn (s.paOf none r (p.w 2 + 4096 * k.1.seq.toNat + i) .read true) 1).isSome
  let chunks := p.chunks r s.pkg.chipId dst bytes
  let c : Coll := ⟨BitVec.ofNat 32 (p.w 4 / 2 ^ 32), p.q, p.index, r, event, s.time, chunks.filter fun k => !poison k,
    chunks.any poison⟩
  let s1 : State := { s with fab := { s.fab with colls := s.fab.colls ++ [c] } }
  let s2 := s1.startEntry p.q p.index true
  if c.chunks.isEmpty && !c.poisoned then s2.endColl c false else s2.pumpColl c.collid

/-- COLLECTIVE: x the queue; the entry starts with fewer than 16 in progress, its source read at the homes of its lines; one
of no data signals its event at once, whose home holds the tokens of its line (R426, R427, R432). -/
def execCollective (s : State) : Out :=
  s.packetStep 3 fun p =>
    let r := s.regionAt (p.w 1)
    let n := p.w 4 % 2 ^ 32
    let ev := p.w 7 % 2 ^ 48
    let bytes := r.bind fun r => s.newestBytes r (p.w 2) n
    let event := r.bind fun r => s.eventPa r ev .both
    s.checked p (packetReason [(p.collBad, 1), (r.isNone, 2), (bytes.isNone || event.isNone, 4),
      (s.parentBad p, 6)]) fun s =>
      match r, bytes, event with
      | some r, some bytes, some event =>
        if 16 ≤ s.fab.colls.length then s
        else
          let lines := if n = 0 then eventLines event else []
          match s.homeMissing lines true with
          | some l => s.addNeed (s.homeOf l) l true (.queue p.q.val) (some r)
          | none =>
            s.atHomes (s.newestLines r (p.w 2) n) false (.queue p.q.val) (some r) fun s => (s.startColl p r bytes event).homesMet lines true
      | _, _, _ => s

/-- CHUNK_RETRANSMIT_TIMEOUT: x and n the collective and chunk, 200 µs after its last transmission (R424). -/
def execChunkRetransmitTimeout (s : State) : Out :=
  let id := BitVec.ofNat 32 s.move.x
  let seq := BitVec.ofNat 32 s.move.n
  let sent : Option Nat := match (s.stageOf id seq).filter (·.sent) with
    | some g => some g.leaseTo
    | none =>
      ((s.collOf id).bind fun c => c.chunks.find? fun k => k.1.seq == seq && k.2 != 0).map fun k => k.2 - 1
  match sent with
  | none => .next s
  | some t => .next ((s.untilTime (t + 200000)).resendChunk id seq)

/-- COLLECTIVE_TIMEOUT: x the collective, whose COLL_TIMEOUT has passed: its event signalled in error, its chunks and the
chip's staging for it given up (R427). -/
def execCollectiveTimeout (s : State) : Out :=
  match s.collOf (BitVec.ofNat 32 s.move.x) with
  | none => .next s
  | some c =>
    .next ((s.untilTime (c.startAt + c.region.collTimeout * 1000000)).atHomes (eventLines c.event) true .op (some c.region) fun s =>
      let s1 := s.endColl c true
      { s1 with fab := { s1.fab with
        stages := s1.fab.stages.filter fun g => g.collid != c.collid
        windows := s1.fab.windows.filter fun w => w.collid != c.collid } })

/-! ## Answers (R413, R416, R417) -/

/-- The context whose head command has a packet with a tag in flight. -/
def State.txOwner (s : State) (tag : BitVec 32) : Option Nat :=
  (s.allCtx.find? fun e => match e.2.queue with
    | q :: _ => q.tx.any fun t => t.tag == tag
    | [] => false).map (·.1)

/-- The number of the first packet at or after one that is not acknowledged. -/
def inOrder (acked : List Nat) : Nat → Nat → Nat
  | 0, i => i
  | n + 1, i => if acked.contains i then inOrder acked n (i + 1) else i

/-- A command after an acknowledgement. -/
def Cmd.acknowledge (q : Cmd) (tag : BitVec 32) : Cmd :=
  let acked := q.acked ++ (q.tx.filter fun t => t.tag == tag).map (·.index)
  let i := inOrder acked acked.length (q.done / 4096)
  { q with
    tx := q.tx.filter fun t => t.tag != tag
    acked := acked
    done := if q.isSend then min q.len.toNat (4096 * i) else q.done
    finished := q.packets ≤ i || !q.isSend }

/-- A fired send that has a packet in flight with a tag is changed, and goes on or is given up. -/
def State.firedAnswer (s : State) (tag : BitVec 32) (ok : Bool) : State :=
  let mine := fun (f : Fired) => f.tx.any fun t => t.tag == tag
  match s.fab.fired.find? mine with
  | none => s
  | some f =>
    let s1 : State := { s with fab := { s.fab with fired := s.fab.fired.filter fun g => !mine g } }
    if ok then s1.putFired { f with tx := f.tx.filter fun t => t.tag != tag } else s1.armedError f.region

/-- A packet of a send is answered, or gives up waiting: acknowledged, or stopped with a reason. -/
def State.sendAnswer (s : State) (tag : BitVec 32) (bad : Option (BitVec 8 × Word)) : State :=
  match s.txOwner tag with
  | some x => s.modHead x fun q => match bad with
    | none => q.acknowledge tag
    | some e => { q with tx := [], stop := some e }
  | none => s.firedAnswer tag bad.isNone

/-- A chunk of a collective is acknowledged: a reduce hop acknowledges its contributors, a source goes on. -/
def State.chunkDone (s : State) (id seq : BitVec 32) : State :=
  match (s.stageOf id seq).filter (·.sent) with
  | some g => g.parts.foldl State.ackPkt (s.dropStage id seq)
  | none =>
    let s1 := s.modColl id fun c => { c with chunks := c.chunks.filter fun k => k.1.seq != seq }
    match s1.collOf id with
    | none => s1
    | some c => if c.chunks.isEmpty && !c.poisoned then s1.endColl c false else s1.pumpColl id

/-- A control packet that ends its route here. -/
def controlOp (kind : Nat) (p : Packet) (op : Nat) : Bool := p.kind.toNat == kind && op == 0

/-- The line of the event that an acknowledgement signals: that of a collective whose last chunk it answers. -/
def State.ackLines (s : State) (p : Packet) : List Nat :=
  if p.collid = 0 ∨ ((s.stageOf p.collid p.seq).filter (·.sent)).isSome then []
  else
    match s.collOf p.collid with
    | some c => if (c.chunks.all fun k => k.1.seq == p.seq) && !c.poisoned then eventLines c.event else []
    | none => []

/-- ACKNOWLEDGEMENT: port and pkt the packet (R413, R416, R423). -/
def execAcknowledgement (s : State) : Out :=
  s.receive (controlOp 4) State.ackLines fun t p _ =>
    if p.collid = 0 then t.sendAnswer p.seq none else t.chunkDone p.collid p.seq

/-- REFUSAL: port and pkt the packet (R413, R417, R424). -/
def execRefusal (s : State) : Out :=
  s.receive (controlOp 5) (fun _ _ => []) fun t p _ =>
    if p.collid = 0 then t.sendAnswer p.seq (some (p.flagV.setWidth 8, if p.flagV = 0x2A then p.flagA.setWidth 64 else 0))
    else if p.flagV = 0x2C then t.resendChunk p.collid p.seq
    else t

/-- LAPSE_NOTICE: port and pkt the packet (R424). -/
def execLapseNotice (s : State) : Out :=
  s.receive (controlOp 6) (fun _ _ => []) fun t p _ => t.resendChunk p.collid p.seq

/-- SEND_ACK_TIMEOUT: x the transfer tag, 1 ms after its packet left (R417). -/
def execSendAckTimeout (s : State) : Out :=
  let tag := BitVec.ofNat 32 s.move.x
  let txs := (s.allCtx.flatMap fun e => match e.2.queue with
    | q :: _ => q.tx
    | [] => []) ++ s.fab.fired.flatMap (·.tx)
  match txs.find? fun t => t.tag == tag with
  | none => .next s
  | some t => .next ((s.untilTime (t.sentAt + 1000000)).sendAnswer tag (some (0x2D, 0)))

/-! ## Pod barriers (R429, R430) -/

/-- BARRIER_ARRIVAL: port and pkt the packet; with NCHIP + 1 of them the root sends its releases (R429). -/
def execBarrierArrival (s : State) : Out :=
  s.receive (controlOp 2) (fun _ _ => []) fun t p _ =>
    let b := p.dst.toNat % 256
    let k := t.barrierOf b
    let chips := k.chips ++ [p.srcChip]
    if chips.length < k.nchip.toNat + 1 then t.modBarrier b fun k => { k with chips := chips }
    else
      let s1 := t.modBarrier b fun k => { k with chips := [] }
      chips.eraseDups.foldl (fun (u : State) c =>
        u.sendControl { Packet.blank with
          region := k.region
          dstChip := c
          kind := 3
          dst := BitVec.ofNat 48 b
          seq := p.seq
          flagA := k.stagger.setWidth 48
          flagV := BitVec.ofNat 64 (t.time + 4000) }) s1

/-- The contexts that wait at a barrier's generation are released, those of saved tasks too, and the cores of the bound ones
ramp (R386, R430, R453). -/
def State.releaseBarrier (s : State) (b : Nat) (gen : BitVec 32) : State :=
  let mine := fun (w : BarWait) => w.bar.toNat == b && w.gen == gen
  let hit := fun (c : Ctx) => c.barrier.any mine || c.supBarrier.any mine
  let free := fun (w : BarWait) => if mine w then { w with released := true } else w
  let cores := ((s.allCtx.filter fun e => hit e.2).map fun e => coreOf e.1).eraseDups
  let go := fun (c : Ctx) =>
    if hit c then { c with barrier := c.barrier.map free, supBarrier := c.supBarrier.map free } else c
  let s2 := ((s.mapSaved go).mapCtx fun _ c => go c).modBarrier b fun k => { k with release := k.release.filter fun e => e.2 != gen }
  if s.pkg.rampEn then cores.foldl (fun (t : State) n => t.modCore n fun c => { c with ramp := some (s.time / 1000) }) s2
  else s2

/-- BARRIER_RELEASE: port and pkt the packet. A release of the generation that this chip has arrived for is applied: GEN
moves on and the contexts' release is set, or made at once where it comes late (R413, R430). -/
def execBarrierRelease (s : State) : Out :=
  s.receive (controlOp 3) (fun _ _ => []) fun t p _ =>
    let b := p.dst.toNat % 256
    let k := t.barrierOf b
    if p.seq = k.gen ∧ k.localN ≤ k.arrived ∧ k.arrived ≠ 0 then
      let at0 := p.flagV.toNat + k.rank.toNat % 16 * min 10000 (p.flagA.toNat % 2 ^ 14)
      let s1 := t.modBarrier b fun k => { k with gen := k.gen + 1, arrived := 0, release := k.release ++ [(at0, k.gen)] }
      if t.time < p.flagV.toNat then s1 else (s1.countFab s.move.port 0x0306).releaseBarrier b k.gen
    else t

/-- BARRIER_RELEASE_INSTANT: x the barrier, n the place among its releases of one that comes, up to 200 ns after its formula
(R430). -/
def execBarrierReleaseInstant (s : State) : Out :=
  match (s.barrierOf (s.move.x % 256)).release[s.move.n]? with
  | none => .next s
  | some (at0, gen) =>
    let d := (Config.freeWord s.fresh).toNat % 201
    .next (({ s with fresh := s.fresh + 1 }.untilTime (at0 + d)).releaseBarrier (s.move.x % 256) gen)

/-! ## Ports (R408) -/

/-- PORT_FAILURE: x the port, which goes down; n the newest packets emitted on it that are lost whole. -/
def execPortFailure (s : State) : Out :=
  let p := Fin.ofNat 16 s.move.x
  s.when (s.pkg.ports.getLsbD p.val) fun s =>
    let mine := fun (e : BitVec 4 × Packet) => e.1.toNat == p.val
    let keep := (s.fab.out.filter mine).length - s.move.n
    let out := s.fab.out.foldl (fun (acc : List (BitVec 4 × Packet)) e =>
      if mine e && keep ≤ (acc.filter mine).length then acc else acc ++ [e]) []
    { s with
      pkg := { s.pkg with ports := s.pkg.ports &&& ~~~BitVec.twoPow 16 p.val }
      fab := { s.fab with out := out } }.fabError (some p) ⟨0, 0, 9, BitVec.ofNat 4 p.val, 0, 0, 0⟩

/-- PORT_RETRAINED: x the port, which Watia has trained again. -/
def execPortRetrained (s : State) : Out :=
  let p := Fin.ofNat 16 s.move.x
  s.when (s.pkg.stage == 4 && (p.val < 8 || s.pkg.pd1)) fun s =>
    { s with pkg := { s.pkg with ports := s.pkg.ports ||| BitVec.twoPow 16 p.val } }

end Sys2Proof.Machine
end

