-- ==== Sys2Proof/Machine/Host.lean ====
section
/-! DEFINITION. Start-up, package faults, alignment of TIME, functions and the power controls (25_host_power R441-R454,
26_monitors R467). -/

namespace Sys2Proof.Machine

open Sys2Proof

/-! ## Functions (R442, R467) -/

/-- A die counter that is switched with the function. -/
def switched (e : Nat × DCtr) : Bool := e.1 < 256 && bitsOf e.2.cfg 60 2 == 2

/-- A function has a queue with entries waiting. -/
def State.fnWaits (s : State) (f : Nat) : Bool :=
  (List.finRange 64).any fun q =>
    let k := s.sched.queues.get q
    let i := s.queueIdx k
    k.fn == f && k.en && i.1 != i.2

/-- The CORESET of a root region. -/
def State.rootCores (s : State) (root : Nat) : BitVec 320 := BitVec.ofNat 320 (memRead s.mem (root + 0x40) 40)

/-- An assignment that Watia may make: functions 1 to 16, each once, their queues disjoint and the CORESETs of their roots
disjoint (R442). -/
def State.fnsOk (s : State) (l : List FnAssign) : Bool :=
  (l.all fun a => 1 ≤ a.fn && a.fn ≤ 16) && decide ((l.map (·.fn)).Nodup) && decide ((l.flatMap (·.queues)).Nodup)
    && decide (l.Pairwise fun a b => s.rootCores a.root &&& s.rootCores b.root = 0)

/-- Watia assigns queues and root regions to the virtual functions; the queues left are the physical function's (R442). -/
def State.assignFns (s : State) (fns : Option (List FnAssign)) : State :=
  match fns with
  | none => s
  | some l =>
    if s.fnsOk l then
      { s with
        sched := { s.sched with queues := tabulate 64 fun q =>
          { s.sched.queues.get q with fn := ((l.find? fun a => a.queues.contains q).map (·.fn)).getD 0 } }
        pkg := { s.pkg with fnRoots := l.map fun a => (a.fn, a.root) } }
    else s

/-- WORLD_SWITCH: x the function that becomes active, 1 ms after the last change, with entries waiting. The images of the
switched counters are saved and loaded (R442, R467). fns: what Watia assigns to the functions, in effect first (log entry 98). -/
def execWorldSwitch (s0 : State) : Out :=
  let s := s0.assignFns s0.move.fns
  let f := s.move.x
  s.when (f != s.pkg.fn && s.functions.contains f && s.fnWaits f) fun s =>
    let s1 := s.untilTime (s.pkg.fnSince + 1000000)
    let kept := s1.pkg.dctrs.filter fun e => !switched e && (e.2.cfg != 0 || e.2.cnt != 0)
    let mine := ((alGet s1.pkg.images f).getD []).filter fun e => !kept.any fun k => k.1 == e.1
    { s1 with pkg := { s1.pkg with
      images := alSet s1.pkg.images s1.pkg.fn (s1.pkg.dctrs.filter switched)
      dctrs := mine ++ kept
      fn := f
      fnSince := s1.time } }

/-! ## Reset, start-up and package faults (R444-R449) -/

/-- The start-up stage changes, which raises vector 66 (R443). -/
def State.toStage (s : State) (stage : BitVec 4) (reason : BitVec 8) : State :=
  ({ s with pkg := { s.pkg with stage := stage, reason := reason } } : State).msiAll 66

/-- The reason for which Watia runs nothing, if its firmware fails a check (R444). -/
def Firmware.bad (fw : Firmware) : Option (BitVec 8) :=
  if !fw.ecdsa then some 1 else if !fw.lms then some 2 else if fw.svn < fw.minSvn then some 3 else none

/-- The package after its reset, with a firmware image: safelight, or nothing but PF0 (R444, R445). -/
def Pkg.afterReset (fw : Firmware) : Pkg :=
  { Pkg.fresh with
    cdMask := if fw.bad.isSome then 0 else Pkg.fresh.cdMask
    hbmBytes := if fw.bad.isSome then 0 else Pkg.fresh.hbmBytes
    svn := fw.svn
    part := if fw.module then 1 else 0
    fusedChip := fw.fusedChip
    chipId := fw.fusedChip
    startChip := fw.fusedChip
    stage := if fw.bad.isSome then 0xF else 1
    reason := fw.bad.getD 0 }

/-- PACKAGE_RESET: fw what Watia finds. Everything is as after reset; safelight starts, or nothing runs (R444, R445). -/
def execPackageReset (s : State) : Out := .next { State.reset with pkg := Pkg.afterReset s.move.fw, fresh := s.fresh }

/-- STARTCTL_GO: GO written in stage 1 ends safelight (R445, R449). -/
def execStartctlGo (s : State) : Out := s.when (s.pkg.stage == 1) fun s => { s with pkg := { s.pkg with go := true } }

/-- The bits set in a mask of dies. -/
def diesIn (m : BitVec 8) : Nat := ((List.range 8).filter fun i => m.getLsbD i).length

/-- A stage cannot be completed: CD0, PD0 or every memory-side die is out (R445). -/
def Trained.fails (t : Trained) (md : BitVec 8) : Bool := !t.cdMask.getLsbD 0 || !t.pd0 || (t.mdMask &&& md) == 0

/-- TIME as it stands on entry to stage 4: aligned to the pod, and never set back (R450). -/
def Pkg.aligned (p : Pkg) (pod : Option Nat) : Nat :=
  p.timeAdj + (match pod with
    | some t => t - (p.tick / 6 + p.timeAdj)
    | none => 0)

/-- The ports that training has found, of the port dies present (R446). -/
def Pkg.portsOf (p : Pkg) (t : Trained) : BitVec 16 := if p.pd1 then t.ports else t.ports &&& 0xFF

/-- The package on entry to stage 4: units and capacities recomputed, clocks at 2 GHz, the chip id in force (R445, R446,
R449, R450). -/
def Pkg.full (p : Pkg) (t : Trained) : Pkg :=
  let md := p.mdMask &&& t.mdMask
  { p with
    clock := 2000
    mdMask := md
    hbmBytes := diesIn md * 2 ^ 36
    tier0 := if p.pd1 then min t.tier0 (2 ^ 41) else 0
    tier1 := if p.pd1 then min t.tier1 (2 ^ 41) else 0
    ports := p.portsOf t
    chipId := p.startChip
    timeAdj := p.aligned (if p.portsOf t = 0 then none else t.podTime) }

/-- STAGE_ADVANCE: trained what training found. Stage 1 ends after GO with no launch in progress, stage 2 with its links
trained and stage 3 with its memories; dies that fail are left out (R445, R446). fns: what Watia assigns to the functions as
stage 4 begins (R442). -/
def execStageAdvance (s : State) : Out :=
  let t := s.move.trained
  if s.pkg.stage = 1 then
    if s.pkg.go && s.sched.launches.isEmpty then .next (s.toStage 2 0) else .next s
  else if s.pkg.stage = 2 then
    if t.fails 0xFF then .next (s.toStage 0xF 0x10)
    else .next (({ s with pkg := { s.pkg with cdMask := t.cdMask, mdMask := t.mdMask, pd1 := t.pd1 } } : State).toStage 3 0)
  else if s.pkg.stage = 3 then
    if t.fails s.pkg.mdMask then .next (s.toStage 0xF 0x10)
    else .next ((({ s with pkg := s.pkg.full t } : State).assignFns s.move.fns).toStage 4 0)
  else .next s

/-- PACKAGE_FAULT: n the reason. Issue stops on every core, every queue halts, and the fault is recorded (R447). -/
def execPackageFault (s : State) : Out :=
  s.when (s.pkg.stage.toNat ≤ 4) fun s =>
    ({ s with sched := { s.sched with queues := tabulate 64 fun q =>
      { s.sched.queues.get q with halted := true } } } : State).toStage 0xE (BitVec.ofNat 8 s.move.n)

/-- POD_TIME_REALIGN: n the ns that pass, val the TIME of the chip to align to at their end. TIME moves on by that many, to
within 100 parts per million (R450). -/
def execPodTimeRealign (s : State) : Out :=
  s.when (s.pkg.ports != 0) fun s =>
    let n := s.move.n
    let most := n / 10000
    s.untilTime (max (s.time + n - most) (min (s.time + n + most) s.move.val.toNat))

/-! ## Power (R451-R453) -/

/-- RATE as it acts, in tenths of an ampere per 100 ns (R451). -/
def Pkg.rate (p : Pkg) : Nat := min (max 10 p.slewRate.toNat) (if p.part = 1 then 400 else 1000)

/-- SLEW_INTERVAL: n the current that the activity of every unit asks for, in tenths of an ampere. The estimate rises by at
most RATE, and falls by no more, as idle activity fills the difference (R452). -/
def execSlewInterval (s : State) : Out :=
  let s1 := s.untilTime ((s.time / 100 + 1) * 100)
  let e := s1.pkg.slewEstimate
  let r := s1.pkg.rate
  .next { s1 with pkg := { s1.pkg with
    slewLimit := e + r
    slewEstimate := max (e - r) (min (e + r) s.move.n) } }

/-- SHAPING_WINDOW: x the core, whose next window opens with no cycles charged; a ramp whose cap has reached CAP ends
(R453). -/
def execShapingWindow (s : State) : Out :=
  let s1 := s.untilTime ((s.time / 1000 + 1) * 1000)
  let w := s1.time / 1000
  let cap := s1.capValue
  .next (s1.modCore s.move.x fun k =>
    { k with
      window := w
      charged := 0
      ramp := match k.ramp with
        | some w0 => if cap ≤ s1.pkg.rampBase.toNat + (w - w0) * s1.pkg.rampStep.toNat then none else some w0
        | none => none })

end Sys2Proof.Machine
end

