-- ==== Sys2Proof/Machine/Monitors.lean ====
section
/-! DEFINITION. Trace rings and the wraps of counters (26_monitors R456-R466). -/

namespace Sys2Proof.Machine

open Sys2Proof

/-- TRACE_FIFO_DRAIN: x the die, whose oldest record leaves the FIFO for ring 0, at the home of its place, which first gathers
the tokens that it lacks; one that finds the ring disabled or full is lost (R456, R458; log entry 97). -/
def execTraceFifoDrain (s : State) : Out :=
  let d := s.move.x % 8
  match (s.pkg.traces.get (Fin.ofNat 8 d)).fifo with
  | [] => .next s
  | r :: rest =>
    .next (s.atHomes (s.ringLines d false) true (.ring d false) none fun s =>
      ((s.modTrace d fun t => { t with fifo := rest }).ringPut d false r).dropAsker (.ring d false))

/-- RING_RECONFIGURE: n the offset of an RBASE or RSIZE, val and line the value and the bits written. HEAD and TAIL are
reset (R458). -/
def execRingReconfigure (s : State) : Out :=
  let off := s.move.n
  let m := BitVec.ofNat 64 s.move.line
  let v := (s.pctlReg off &&& ~~~m) ||| (s.move.val &&& m)
  let d := (off - 0x30000) / 0x100
  let one := off / 0x40 % 4 == 1
  .next ((s.dropAsker (.ring d one)).modRing d one fun r =>
    { r with
      base := if off / 8 % 8 = 0 then v.setWidth 48 &&& 0xFFFFFFFFF000 else r.base
      log2n := if off / 8 % 8 = 0 then r.log2n else v.setWidth 5
      head := 0
      tail := 0 })

/-- COUNTER_WRAP: x the core, n the counter, at its last value. The clock of the events that it has counted ends, and it passes to
0 (R463); where it has counted none, and counts the misses of the context that holds the core, that context has one (R464; log
entry 38). -/
def execCounterWrap (s : State) : Out :=
  let n := Fin.ofNat 8 s.move.n
  let k := s.core s.move.x
  let x := 4 * s.move.x + k.holder.val
  let mine := fun (e : Counted) => e.core == s.move.x && e.ctr == n && 0 < e.n
  let ev := (k.evsel.get n).toNat % 2 ^ 16
  s.when ((k.evcnt.get n).toNat == 2 ^ 48 - 1) fun s =>
    let s1 := if !s.pkg.counted.any mine ∧ (ev = 0x0D ∨ ev = 0x0E) ∧ (s.ctx x).task.isSome then s.countIn x ev 1 n else s
    if s1.pkg.counted.any mine then (s1.until (s1.pkg.tick + 1)).countFlush else s1

/-- A region whose accesses a counter of a die admits: of the launches in progress, or none at all (R466). -/
def State.admitted (s : State) (cfg : BitVec 64) : Option (Option Region) :=
  (none :: s.sched.launches.map fun l => some l.region).find? (s.admits cfg)

/-- DIE_COUNTER_WRAP: n the counter, 0 to 255 of the dies and 256 to 287 of the fabric, at its last value: of the hits, misses and
lines of HBM that the accesses of a region may cause it counts one more, if it counts those of that region (R465, R466; log
entry 38). Every other event is counted, and wraps its counter, as it happens. -/
def execDieCounterWrap (s : State) : Out :=
  let d := s.dctr s.move.n
  let ev := d.cfg.toNat % 2 ^ 16
  let free := (s.move.n < 128 ∧ (ev = 0x100 ∨ ev = 0x101)) ∨ (128 ≤ s.move.n ∧ s.move.n < 256 ∧ (ev = 0x200 ∨ ev = 0x201))
  s.when (free && d.cnt.toNat % 2 ^ 48 == 2 ^ 48 - 1) fun s =>
    match s.admitted d.cfg with
    | some r => s.countOne ev 1 r s.move.n
    | none => s

end Sys2Proof.Machine
end

