-- ==== Sys2Proof/Machine/Sfu.lean ====
section
/-! DEFINITION. The special-function unit of the F slot (10_crossbar_sfu R197-R200). A function's exact value is
enclosed between two rationals, which are narrowed until both round alike; where they do not at the last precision, a
free value decides (log entry 7). -/

namespace Sys2Proof.Machine

open Sys2Proof

/-! ## Enclosures in fixed point: integers scaled by 2^p -/

/-- Bounds of ln 2 (the series of 1/(n 2^n)). -/
def ln2Bounds (p : Nat) : Int × Int :=
  let n := p + 8
  let s := (List.range n).foldl (fun (a : Nat) i => a + 2 ^ p / ((i + 1) * 2 ^ (i + 1))) 0
  (s, s + n + 2)

/-- Terms of the exponential series at a scaled argument below 1, each rounded down or up; the sum with 1. -/
def expSeries (p : Nat) (t : Int) (up : Bool) : Int :=
  let one : Int := 2 ^ p
  let n := p / 2 + 24
  let r := (List.range n).foldl (fun (a : Int × Int) (i : Nat) =>
    let d : Int := ((i : Int) + 1) * one
    let m := a.2 * t
    let term := if up then -((-m) / d) else m / d
    (a.1 + term, term)) (one, one)
  if up then r.1 + 2 else r.1

/-- floor(r × 2^p). -/
def fixDown (p : Nat) (r : Rat) : Int := (r * pow2 p).floor
/-- ceil(r × 2^p). -/
def fixUp (p : Nat) (r : Rat) : Int := -((-(r * pow2 p)).floor)

/-- The rational of a fixed-point number. -/
def unfix (p : Nat) (v : Int) : Rat := (v : Rat) * pow2 (-p)

/-- Bounds of e^r × 2^−k as rationals, given r − k ln 2 within 0 to 1, with k. -/
def expBounds (p : Nat) (r : Rat) : Rat × Rat :=
  let l := ln2Bounds (p + 16)
  let k : Int := (r / unfix (p + 16) l.2).floor
  let tl := fixDown p (r - (if 0 ≤ k then k * unfix (p + 16) l.2 else k * unfix (p + 16) l.1))
  let th := fixUp p (r - (if 0 ≤ k then k * unfix (p + 16) l.1 else k * unfix (p + 16) l.2))
  (unfix p (expSeries p (if tl < 0 then 0 else tl) false) * pow2 k, unfix p (expSeries p th true) * pow2 k)

/-- Bounds of 2^r: of the fraction by the exponential of its product with ln 2. -/
def exp2Bounds (p : Nat) (r : Rat) : Rat × Rat :=
  let k := r.floor
  let l := ln2Bounds (p + 16)
  let f := r - k
  (unfix p (expSeries p (fixDown p (f * unfix (p + 16) l.1)) false) * pow2 k,
    unfix p (expSeries p (fixUp p (f * unfix (p + 16) l.2)) true) * pow2 k)

/-- Bounds of ln m for m from 1 to 2, scaled: twice the inverse hyperbolic tangent of (m − 1)/(m + 1). -/
def lnBounds (p : Nat) (m : Rat) : Int × Int :=
  let z := (m - 1) / (m + 1)
  let zl := fixDown p z
  let zh := fixUp p z
  let one : Int := 2 ^ p
  let n := p / 3 + 8
  let lo := (List.range n).foldl (fun (a : Int × Int) (i : Nat) =>
    (a.1 + a.2 / (2 * (i : Int) + 1), a.2 * (zl * zl / one) / one)) (0, zl)
  let hi := (List.range n).foldl (fun (a : Int × Int) (i : Nat) =>
    (a.1 + (-((-a.2) / (2 * (i : Int) + 1))), -((-(a.2 * (-((-(zh * zh)) / one)))) / one))) (0, zh)
  (2 * lo.1, 2 * (hi.1 + hi.2 + 2))

/-- Bounds of log2 of a positive rational. -/
def log2Bounds (p : Nat) (r : Rat) : Rat × Rat :=
  let e := ratLog2 r
  let l := ln2Bounds p
  let b := lnBounds p (r * pow2 (-e))
  ((e : Rat) + (b.1 : Rat) / (l.2 : Rat), (e : Rat) + (b.2 : Rat) / (l.1 : Rat))

/-- Bounds of the square root of a positive rational, scaled by an even power so that its integer part has at least p
bits. -/
def sqrtBounds (p : Nat) (r : Rat) : Rat × Rat :=
  let h : Int := p - ratLog2 r / 2
  let n := (r * pow2 (2 * h)).floor.toNat
  let q := Nat.sqrt n
  ((q : Rat) * pow2 (-h), ((q : Rat) + 1) * pow2 (-h))

/-- The inverse tangent of 1/x, scaled, within n + 1 units. -/
def atanInv (p x : Nat) : Int :=
  let n := p / 4 + 8
  ((List.range n).foldl (fun (a : Int × Nat) i =>
    let t : Int := (a.2 / (2 * i + 1) : Nat)
    (if i % 2 = 0 then a.1 + t else a.1 - t, a.2 / (x * x))) (0, 2 ^ p / x)).1

/-- Bounds of π (Machin's formula). -/
def piBounds (p : Nat) : Rat × Rat :=
  let v := 16 * atanInv (p + 16) 5 - 4 * atanInv (p + 16) 239
  let e : Int := 40 * ((p : Int) + 48)
  (unfix (p + 16) (v - e), unfix (p + 16) (v + e))

/-- The sine (`odd`) or cosine series at a scaled argument of magnitude below 1, within n + 2 units. -/
def trigSeries (p : Nat) (t : Int) (odd : Bool) : Int :=
  let one : Int := 2 ^ p
  let n := p / 4 + 16
  let b : Int := if odd then 1 else 0
  ((List.range n).foldl (fun (a : Int × Int) (i : Nat) =>
    let d : Int := (2 * (i : Int) + 1 + b) * (2 * (i : Int) + 2 + b)
    (a.1 + a.2, -(a.2 * t / one * t / one / d))) (0, if odd then t else one)).1

/-- Bounds of the sine of an angle; with `quarter` added to the quadrant, of the cosine. -/
def sinBounds (p : Nat) (r : Rat) (quarter : Int) : Rat × Rat :=
  let big : Nat := (ratLog2 (if r < 0 then -r else r)).toNat
  let pi := piBounds (p + big + 8)
  let half := pi.1 / 2
  let k : Int := (r / half + 1/2).floor
  let tl := if 0 ≤ k then r - k * (pi.2 / 2) else r - k * (pi.1 / 2)
  let th := if 0 ≤ k then r - k * (pi.1 / 2) else r - k * (pi.2 / 2)
  let w := fixUp p (th - tl) + 2 * ((p : Int) / 4 + 24)
  let q := ((k + quarter) % 4).toNat
  let v := trigSeries p (fixDown p tl) (q % 2 == 0)
  let y := if q < 2 then v else -v
  (unfix p (y - w), unfix p (y + w))

/-! ## The functions -/

/-- A rational that is the square of one: its root. -/
def ratRoot (q : Rat) : Option Rat :=
  let n := Nat.sqrt q.num.natAbs
  let d := Nat.sqrt q.den
  if n * n = q.num.natAbs ∧ d * d = q.den then some ((n : Rat) / (d : Rat)) else none

/-- 2^k, brought within what no destination tells apart: beyond every range and below every spacing. -/
def pow2Clamped (k : Int) : Rat := pow2 (clampInt (-1000) 1000 k)

/-- The value of a function where it is exact or a special case (R198), with its flags; none where it is irrational. -/
def sfuExact (op : Nat) (a : Num) : Option (Num × Flags) :=
  let one := Num.fin 1
  let bad := (Num.default, Flags.nv)
  match a with
  | .nan _ sig _ => some (a.quiet, flagIf sig Flags.nv)
  | .inf n =>
    if op = 1 ∨ op = 8 then some (if n then .zero false else .inf false, 0)
    else if op = 2 ∨ op = 5 then some (if n then bad else (.inf false, 0))
    else if op = 3 then some (.zero n, 0)
    else if op = 4 then some (if n then bad else (.zero false, 0))
    else if op = 6 then some (.fin (if n then -1 else 1), 0)
    else if op = 7 then some (if n then .zero false else one, 0)
    else some bad
  | .zero n =>
    if op = 1 ∨ op = 8 ∨ op = 10 then some (one, 0)
    else if op = 2 then some (.inf true, Flags.dz)
    else if op = 3 ∨ op = 4 then some (.inf n, Flags.dz)
    else if op = 7 then some (.fin (1 / 2), 0)
    else some (.zero n, 0)
  | .fin q =>
    if op = 1 then (if q.den = 1 then some (.fin (pow2Clamped q.num), 0) else none)
    else if op = 2 then
      if q < 0 then some bad
      else if pow2 (ratLog2 q) = q then some (Num.ofRat (ratLog2 q : Rat), 0)
      else none
    else if op = 3 then some (.fin (1 / q), 0)
    else if op = 4 ∨ op = 5 then
      if q < 0 then some bad
      else (ratRoot q).map fun r => (.fin (if op = 4 then 1 / r else r), 0)
    else none

/-- Bounds of an irrational value at a precision. Arguments beyond ±700 of the exponentials give bounds that no
destination tells apart from the value. -/
def sfuBounds (op p : Nat) (q : Rat) : Rat × Rat :=
  let tiny := (pow2 (-1100), pow2 (-1000))
  let huge := (pow2 1000, pow2 1100)
  let near1 := (1 - pow2 (-1000), 1 - pow2 (-1100))
  if op = 1 then (if q < -1000 then tiny else if 1000 < q then huge else exp2Bounds p q)
  else if op = 8 then (if q < -700 then tiny else if 700 < q then huge else expBounds p q)
  else if op = 2 then log2Bounds p q
  else if op = 4 then
    let b := sqrtBounds p q
    (1 / b.2, 1 / b.1)
  else if op = 5 then sqrtBounds p q
  else if op = 6 then
    let f := fun (e : Rat) => (e - 1) / (e + 1)
    if 350 < q then near1
    else if q < -350 then (-near1.2, -near1.1)
    else
      let b := expBounds p (2 * q)
      (f b.1, f b.2)
  else if op = 7 then
    if 700 < q then near1
    else if q < -700 then tiny
    else
      let b := expBounds p q
      (b.1 / (1 + b.1), b.2 / (1 + b.2))
  else if op = 9 then sinBounds p q 0
  else sinBounds p q 1

/-- The encoding of a bound as that of an irrational beside it: inexact, and underflow where an exact subnormal would
raise none; an integer beyond its type's range is invalid alone (R83). -/
def encodeBound (r : Rec) (q : Rat) : BitVec 32 × Flags :=
  let e := r.encode (Num.ofRat q)
  let sub : Bool := match r.ty.fmt with
    | some f => decide ((if q < 0 then -q else q) * pow2 (-r.e) < pow2 f.emin)
    | none => false
  (e.1, e.2 ||| flagIf (e.2 &&& Flags.nv == 0) Flags.nx ||| flagIf (e.2 == 0 && sub) Flags.uf)

/-- The encoding of an irrational value: at the first precision at which both bounds encode alike, the precision doubled as
often as it takes. After 64 doublings, 2^70 bits, beyond the known bounds of how near such a value can lie to a rational
number of this size, which side it lies on is left free (log entry 7). -/
def sfuRound (op : Nat) (r : Rec) (q : Rat) : Nat → Nat → BitVec 32 × Flags
  | left, p =>
    let b := sfuBounds op p q
    let lo := encodeBound r b.1
    let hi := encodeBound r b.2
    if lo = hi then lo
    else
      match left with
      | 0 => if Config.sfuAbove op q.num q.den then hi else lo
      | n + 1 => sfuRound op r q n (2 * p)

/-- The precision tried first: more for an argument near zero, whose image may lie closer to a representable value. -/
def sfuPrecision (q : Rat) : Nat := 96 + 3 * (-(ratLog2 (if q < 0 then -q else q))).toNat

/-- Encode(Func(op, a), Rec), with the flags of both (R197). -/
def sfu (op : Nat) (r : Rec) (a : Num) : BitVec 32 × Flags :=
  match sfuExact op a with
  | some x => encodeWith r x
  | none => sfuRound op r a.rat 64 (sfuPrecision a.rat)

/-- An F syllable: its latency is 20 (R199). -/
def State.fTile (s : State) (op : Nat) (td : TReg) (ta : TSrc) (v : VCtl) : Out :=
  s.guarded ⟨v.p, false⟩ fun s =>
    let r := s.view.record v.sel (s.tv td).ty
    s.vTile 20 td r.ty [ta.t] (Row.all .ident) [ta.t] (s.elems td v.k) fun i j => sfu op r (s.el ta.t i j)

def execFexp2 (td : TReg) (ta : TSrc) (v : VCtl) (s : State) : Out := s.fTile 1 td ta v
def execFlog2 (td : TReg) (ta : TSrc) (v : VCtl) (s : State) : Out := s.fTile 2 td ta v
def execFrcp (td : TReg) (ta : TSrc) (v : VCtl) (s : State) : Out := s.fTile 3 td ta v
def execFrsqrt (td : TReg) (ta : TSrc) (v : VCtl) (s : State) : Out := s.fTile 4 td ta v
def execFsqrt (td : TReg) (ta : TSrc) (v : VCtl) (s : State) : Out := s.fTile 5 td ta v
def execFtanh (td : TReg) (ta : TSrc) (v : VCtl) (s : State) : Out := s.fTile 6 td ta v
def execFsigm (td : TReg) (ta : TSrc) (v : VCtl) (s : State) : Out := s.fTile 7 td ta v
def execFexp (td : TReg) (ta : TSrc) (v : VCtl) (s : State) : Out := s.fTile 8 td ta v
def execFsin (td : TReg) (ta : TSrc) (v : VCtl) (s : State) : Out := s.fTile 9 td ta v
def execFcos (td : TReg) (ta : TSrc) (v : VCtl) (s : State) : Out := s.fTile 10 td ta v

end Sys2Proof.Machine
end

