-- ==== Sys2Proof/Machine/Tokens.lean ====
section
/-! DEFINITION. Token coherence (16_token_coherence R300-R317): requests, messages, persistent tables, evictions and
recalls, the host proxy, errors, and the reset and loss of compute dies. The bytes themselves stand in one memory; tokens
say when an agent may read or write a line. -/

namespace Sys2Proof.Machine

open Sys2Proof

/-! ## Holdings and messages (R301) -/

/-- The holders of a line; all at the home where it has no tag (R309). -/
def State.lineTok (s : State) (line : Nat) : LineTok :=
  (s.tok.lines.find? (·.line == line)).getD ⟨line, [⟨s.homeOf line, 16, true, true, false⟩]⟩

/-- What an agent holds of a line set; the tag goes once the home holds all 16 (R309), and the count of bytes written of a
poisoned line starts again, as its tokens have moved (R315). -/
def State.setHold (s : State) (line : Nat) (h : Hold) : State :=
  let l := s.lineTok line
  let holds := h :: l.holds.filter fun k => k.who != h.who && k.count != 0
  let rest := s.tok.lines.filter fun k => k.line != line
  let home := holds.any fun k => k.who == s.homeOf line && k.count == 16
  { s with tok := { s.tok with
    lines := if home then rest else ⟨line, holds⟩ :: rest
    poison := s.tok.poison.map fun p => if p.1 = line then (line, 0) else p } }

/-- A message is sent. -/
def State.sendTok (s : State) (m : TokMsg) : State := { s with tok := { s.tok with msgs := s.tok.msgs ++ [m] } }

/-- An agent sends all its tokens of a line, with the data if the owner token is among them. -/
def State.giveAll (s : State) (who dst : Agent) (line : Nat) : State :=
  let h := s.holdOf who line
  if h.count = 0 ∨ who = dst then s
  else (s.setHold line ⟨who, 0, false, false, false⟩).sendTok ⟨dst, line, h.count, h.owner, h.owner, h.dirty⟩

/-- An agent sends one non-owner token with the data, and keeps the owner token. -/
def State.giveOne (s : State) (who dst : Agent) (line : Nat) : State :=
  let h := s.holdOf who line
  (s.setHold line { h with count := h.count - 1 }).sendTok ⟨dst, line, 1, false, true, false⟩

/-- An agent's need of a line. -/
def State.needOf (s : State) (who : Agent) (line : Nat) : Option Need :=
  s.tok.needs.find? fun n => n.who == who && n.line == line

/-- An agent's need of a line changed. -/
def State.modNeed (s : State) (who : Agent) (line : Nat) (f : Need → Need) : State :=
  { s with tok := { s.tok with needs := s.tok.needs.map fun n => if n.who = who ∧ n.line = line then f n else n } }

/-! ## Transient requests (R302, R303) -/

/-- The proxy cannot give a line up before the host has given up its copy, or its own data before the host has sent it: it
asks the host (R310). -/
def State.askHost (s : State) (line : Nat) : Option State :=
  if s.tok.hostCached.contains line then
    some { s with tok := { s.tok with bisnp := if s.tok.bisnp.contains line then s.tok.bisnp else line :: s.tok.bisnp } }
  else if hostLine ≤ line ∧ !(s.tok.hostHeld.any fun h => h.1 == line) then
    some { s with tok := { s.tok with
      hostAsked := if s.tok.hostAsked.contains line then s.tok.hostAsked else line :: s.tok.hostAsked } }
  else none

/-- An agent gathers a line by an active persistent request: it keeps every token until it has had its access (R305). -/
def State.gathers (s : State) (a : Agent) (line : Nat) : Bool :=
  s.tok.table.any fun e => e.who == a && e.line == line && e.active && !e.closing

/-- The answer of an agent to a transient request of another, by what it holds (R302). -/
def State.answerNeed (s : State) (who peer : Agent) (line : Nat) (write : Bool) : State :=
  let h := s.holdOf peer line
  let s1 := s.modNeed who line fun n => { n with answered := peer :: n.answered }
  if s.gathers peer line then s1
  else if write then s1.giveAll peer who line
  else if h.owner ∧ 1 < h.count then s1.giveOne peer who line
  else if h.owner then s1.giveAll peer who line
  else s1

/-- A transient request of one kind reaches an agent. -/
def State.transient (s : State) (write : Bool) : Out :=
  let who := s.move.who
  let peer := s.move.peer
  let line := s.move.line
  match s.needOf who line with
  | none => .next s
  | some n =>
    if n.write != write || n.persistent || n.answered.contains peer || who == peer || s.recovering line
      || !s.agents.contains peer then .next s
    else
      let h := s.holdOf peer line
      let asks := peer == .proxy && h.count != 0 && !s.gathers peer line
        && (write || (h.owner && (h.count == 1 || hostLine ≤ line)))
      match (if asks then s.askHost line else none) with
      | some t => .next t
      | none => .next (s.answerNeed who peer line write)

/-- TRANSIENT_READ_REQUEST: who the requester, peer the agent that the request reaches, line (R302). -/
def execTransientReadRequest (s : State) : Out := s.transient false

/-- TRANSIENT_WRITE_REQUEST: who the requester, peer the agent that the request reaches, line (R302). -/
def execTransientWriteRequest (s : State) : Out := s.transient true

/-- The persistent request that an agent forwards a line's tokens to: it has seen the activation and not the
deactivation (R304-R306). In recovery every token goes to its home (R314). -/
def State.activeFor (s : State) (a : Agent) (line : Nat) : Option PEntry :=
  if s.recovering line then none
  else s.tok.table.find? fun e => e.line == line && e.active && e.seen.contains a && (!e.closing || e.unacked.contains a)
    && s.agents.contains e.who

/-- A home that has seen the activation of a persistent request for a line of its own, and has tokens of it again, sends them
to the requester (R305). -/
def State.serve (s : State) (line : Nat) : State :=
  match s.activeFor (s.homeOf line) line with
  | some e => s.giveAll (s.homeOf line) e.who line
  | none => s

/-- TOKEN_ARRIVAL: n the message. Its tokens are kept, forwarded or sent to the home (R305, R306, R314). -/
def execTokenArrival (s : State) : Out :=
  match s.tok.msgs[s.move.n]? with
  | none => .next s
  | some m =>
    let home := s.homeOf m.line
    let s1 : State := ({ s with tok := { s.tok with msgs := dropAt s.tok.msgs s.move.n } } : State).countL2 m.dst 0x0102
      ((s.needOf m.dst m.line).bind (·.region)) m.count
    let keep := fun (_ : Unit) =>
      let h := s1.holdOf m.dst m.line
      s1.setHold m.line
        { h with
          count := h.count + m.count
          owner := h.owner || m.owner
          valid := h.valid || m.data
          dirty := (h.dirty || m.dirty) && m.dst != home }
    match s1.activeFor m.dst m.line with
    | some e => .next (if e.who = m.dst then keep () else s1.sendTok { m with dst := e.who })
    | none =>
      let frame := m.dst == home ||
        (!s.recovering m.line && ((s1.holdOf m.dst m.line).count != 0 || (s1.needOf m.dst m.line).isSome))
      .next (if frame then keep () else s1.sendTok { m with dst := home })

/-- TRANSIENT_ATTEMPT_TIMEOUT: who the requester, line. An attempt that has not succeeded fails 2 µs after it was sent;
after two the requester goes persistent (R303). -/
def execTransientAttemptTimeout (s : State) : Out :=
  let who := s.move.who
  let line := s.move.line
  match s.needOf who line with
  | none => .next s
  | some n =>
    if n.persistent || s.canUse who line n.write then .next s
    else
      let s1 := (s.untilTime (n.sentAt + 2000)).countL2 who 0x0103 n.region
      if 1 ≤ n.failed then .next ((s1.countL2 who 0x0104 n.region).modNeed who line fun k => { k with failed := 2, persistent := true })
      else .next (s1.modNeed who line fun k => { k with failed := 1, answered := [], sentAt := s1.time })

/-! ## Persistent requests (R304, R305) -/

/-- A requester's share of a home's table (R304). -/
def share (home who : Agent) : Nat :=
  if who = home then 10
  else match who with
    | .cd _ | .proxy => 6
    | _ => 0

/-- The entries of a home's table that a requester uses. -/
def State.entriesOf (s : State) (home who : Agent) : List PEntry :=
  s.tok.table.filter fun e => e.home == home && e.who == who

/-- The lowest number of a home's table that no entry uses. -/
def State.freeEntry (s : State) (home : Agent) : Nat :=
  ((List.range 64).find? fun k => !s.tok.table.any fun e => e.home == home && e.entry == k).getD 0

/-- PERSISTENT_REQUEST: who the requester, line. It enters the home's table when the requester has an entry free, and is
active at once where no earlier request for the line is in the table (R303, R304). -/
def execPersistentRequest (s : State) : Out :=
  let who := s.move.who
  let line := s.move.line
  let home := s.homeOf line
  match s.needOf who line with
  | none => .next s
  | some n =>
    if share home who ≤ (s.entriesOf home who).length || (s.entriesOf home who).any (·.line == line) || s.recovering line
    then .next s
    else
      let first := !s.tok.table.any fun e => e.line == line
      let s1 := if n.persistent then s else s.countL2 who 0x0104 n.region
      let s2 := if first then s1.countHome home 0x0203 n.region else s1
      let e : PEntry := ⟨home, s.freeEntry home, who, line, s.tok.epoch, first, [], false, [], s.tok.order⟩
      .next (({ s2 with tok := { s2.tok with
        table := s2.tok.table ++ [e]
        epoch := s2.tok.epoch + 1
        order := s2.tok.order + 1 } } : State).modNeed who line fun k => { k with persistent := true })

/-- A home's entry by its number. -/
def State.entryOf (s : State) (home : Agent) (n : Nat) : Option PEntry :=
  s.tok.table.find? fun e => e.home == home && e.entry == n

/-- A home's entry changed. -/
def State.modEntry (s : State) (home : Agent) (n : Nat) (f : PEntry → PEntry) : State :=
  { s with tok := { s.tok with table := s.tok.table.map fun e => if e.home = home ∧ e.entry = n then f e else e } }

/-- PERSISTENT_ACTIVATION: who the agent that sees it, peer the home, n the entry. The agent sends the requester all its
tokens of the line; one that has seen the deactivation ignores it (R304, R305). -/
def execPersistentActivation (s : State) : Out :=
  let a := s.move.who
  match s.entryOf s.move.peer s.move.n with
  | none => .next s
  | some e =>
    if !e.active || e.seen.contains a || (e.closing && !e.unacked.contains a) || !s.agents.contains a
      || !s.agents.contains e.who || s.recovering e.line then .next s
    else
      match (if a == .proxy && e.who != .proxy && (s.holdOf a e.line).count != 0 then s.askHost e.line else none) with
      | some t => .next t
      | none => .next ((s.modEntry e.home e.entry fun k => { k with seen := a :: k.seen }).giveAll a e.who e.line)

/-- PERSISTENT_DEACTIVATION: who an agent, peer the home, n the entry. The requester, with all 16 tokens and its access had, ends
its request; each agent that then sees the deactivation stops forwarding and acknowledges (R304, R305). flag: the packet at a
port, or the access of the host, for which alone the line was asked for, has gone. -/
def execPersistentDeactivation (s : State) : Out :=
  let a := s.move.who
  match s.entryOf s.move.peer s.move.n with
  | none => .next s
  | some e =>
    if e.closing then .next (s.modEntry e.home e.entry fun k => { k with unacked := k.unacked.filter (· != a) })
    else if a = e.who ∧ e.active ∧ (s.holdOf a e.line).count = 16 ∧ 
        (s.needOf a e.line).all (fun n => n.met || (s.move.flag && n.asked.all (· == .outside))) then
      let s1 := s.modEntry e.home e.entry fun k => { k with closing := true, unacked := s.agents }
      .next { s1 with tok := { s1.tok with needs := s1.tok.needs.filter fun n => !(n.who == a && n.line == e.line) } }
    else .next s

/-- The request for a line that reached its home first among those waiting becomes active. -/
def State.activateNext (s : State) (line : Nat) : State :=
  match s.tok.table.find? fun e => e.line == line with
  | none => s
  | some e => if e.active then s
    else
      (s.modEntry e.home e.entry fun k => { k with active := true }).countHome e.home 0x0203
        ((s.needOf e.who e.line).bind (·.region))

/-- DEACTIVATION_ACK: peer the home, n the entry, whose deactivation every agent has acknowledged (R304). -/
def execDeactivationAck (s : State) : Out :=
  match s.entryOf s.move.peer s.move.n with
  | none => .next s
  | some e =>
    if !e.closing || !e.unacked.isEmpty then .next s
    else
      .next (({ s with tok := { s.tok with
        table := s.tok.table.filter fun k => !(k.home == e.home && k.entry == e.entry) } } : State).activateNext e.line)

/-! ## Evictions and recalls (R306, R309) -/

/-- LINE_EVICTION: who the agent, line, x the context for whose access it makes room. It sends all its tokens to the home; the
proxy keeps those of a line that the host caches (R306, R310, R466). -/
def execLineEviction (s : State) : Out :=
  let a := s.move.who
  let line := s.move.line
  let h := s.holdOf a line
  s.when (h.count != 0 && (s.needOf a line).isNone && !(a == .proxy && s.tok.hostCached.contains line)) fun s =>
    (if h.owner then s.countL2 a 0x0105 (s.ctx s.move.x).owner else s).giveAll a (s.homeOf line) line

/-- TAG_RECALL: line, which its home recalls with a persistent request of its own, for no access (R309). -/
def execTagRecall (s : State) : Out :=
  let line := s.move.line
  let home := s.homeOf line
  s.when ((s.holdOf home line).count != 16 && (s.needOf home line).isNone) fun s =>
    ((s.countHome home 0x0205 none).addNeed home line true .op none).modNeed home line fun n => { n with persistent := true, met := true }

/-! ## The host (R283, R310, R441) -/

/-- The host reaches HDM: in safelight, and from stage 4 on. While links and memories train it has nothing, and nothing where
Watia runs nothing (R444, R445). -/
def State.hdmOn (s : State) : Bool := s.pkg.stage == 1 || s.fullOn

/-- The device address of a host address within HDM. -/
def State.hdm (s : State) (h n : Nat) : Option Nat :=
  if s.hdmOn ∧ s.pkg.hdmBase ≤ h ∧ h + n ≤ s.pkg.hdmBase + s.pkg.hbmBytes ∧ 0 < n then some (h - s.pkg.hdmBase) else none

/-- The lines of some bytes. -/
def linesOf (pa n : Nat) : List Nat := ((List.range n).map fun i => lineOf (pa + i)).eraseDups

/-- A virtual function that does not answer: in stage 0xF only PF0 is up (R444). -/
def State.fnDead (s : State) (fn : Nat) : Bool := fn != 0 && s.pkg.stage == 0xF

/-- An access of the host to package control through BAR0 that its grant refuses completes as an unsupported request
(R148). -/
def State.unsupported (s : State) : State := { s with pkg := { s.pkg with hostUr := true } }

/-- A read of the host through BAR0 (R148, R441, R442). -/
def State.barRead (s : State) (fn off n : Nat) : State :=
  if s.fnDead fn || s.hostRefused fn off n false then s.unsupported
  else { s with pkg := { s.pkg with hostData := s.hostBytes fn off n, hostPoison := false, hostUr := false } }

/-- A write of the host through BAR0 (R148, R441, R442). -/
def State.barWrite (s : State) (fn off : Nat) (bytes : List Byte) : State :=
  if s.fnDead fn || s.hostRefused fn off bytes.length true then s.unsupported
  else ({ s with pkg := { s.pkg with hostUr := false } } : State).hostStore fn off bytes

/-- HOST_READ: n the host address, x the bytes; flag, whether the host keeps the lines in its caches. The data is returned
with the poison indication (R310, R315). val, where it is not 0: one more than the function through whose BAR0 the host reads
package control at offset n (R441, R442). -/
def execHostRead (s : State) : Out :=
  if s.move.val ≠ 0 then .next (s.barRead (s.move.val.toNat - 1) s.move.n s.move.x)
  else
  match s.hdm s.move.n s.move.x with
  | none => .next s
  | some pa =>
    let lines := linesOf pa s.move.x
    .next (s.withLines .proxy lines false .outside none fun s =>
      { s with
        pkg := { s.pkg with
          hostData := (List.range s.move.x).map fun i => s.byteAt (pa + i)
          hostPoison := (s.poisonIn pa s.move.x).isSome
          hostUr := false }
        tok := if s.move.flag then
            { s.tok with hostCached := (lines.filter fun l => !s.tok.hostCached.contains l) ++ s.tok.hostCached }
          else s.tok })

/-- HOST_WRITE: n the host address and the bytes, written with all 16 tokens and published at sys scope (R283, R310); val as in
HOST_READ. flag: the host programs n as the base of its HDM decoder (R441; log entry 111). -/
def execHostWrite (s : State) : Out :=
  if s.move.flag then .next { s with pkg := { s.pkg with hdmBase := s.move.n } }
  else if s.move.val ≠ 0 then .next (s.barWrite (s.move.val.toNat - 1) s.move.n s.move.bytes)
  else
  match s.hdm s.move.n s.move.bytes.length with
  | none => .next s
  | some pa => .next (s.withLines .proxy (linesOf pa s.move.bytes.length) true .outside none fun s => s.hostWrite pa s.move.bytes)

/-- The proxy holds every token of a line, or needs none: the host may then have written the line in its caches (R301,
R310). -/
def State.proxyOwns (s : State) (line : Nat) : Bool :=
  !s.coherent || !s.tokened line || (s.holdOf .proxy line).count == 16

/-- HOST_BISNP_RESPONSE: line, which the host has given up; bytes the dirty data that it returns, if the proxy held every token
for it: the host has no data to return of a line that it only reads (R310). In recovery the proxy then returns the line's
tokens to its home (R314). -/
def execHostBisnpResponse (s : State) : Out :=
  let line := s.move.line
  s.when (s.tok.bisnp.contains line) fun s =>
    let s1 := if s.move.bytes.isEmpty || !s.proxyOwns line then s
      else (s.hostWrite (line * 128) (s.move.bytes.take 128)).markDirty .proxy [line]
    let s2 : State := { s1 with tok := { s1.tok with
      bisnp := s1.tok.bisnp.filter (· != line)
      hostCached := s1.tok.hostCached.filter (· != line) } }
    if s2.recovering line then s2.giveAll .proxy (s2.homeOf line) line else s2

/-- HOST_SNOOP: line of host memory, which the proxy answers once it holds all 16 tokens: the host has the line's bytes, with
their poison if it is poisoned, and the device no copy (R310, R315). -/
def execHostSnoop (s : State) : Out :=
  let line := s.move.line
  s.when (hostLine ≤ line) fun s =>
    s.withLines .proxy [line] true .outside none fun s =>
      { s with
        pkg := { s.pkg with
          hostData := ((s.tok.hostHeld.find? fun h => h.1 == line).map (·.2)).getD []
          hostPoison := s.poisoned line }
        tok := { s.tok with
          hostHeld := s.tok.hostHeld.filter fun h => h.1 != line
          poison := s.tok.poison.filter fun p => p.1 != line } }

/-- HOST_CXL_CACHE_RESPONSE: line of host memory that the proxy asked for, and its bytes (R310). -/
def execHostCxlCacheResponse (s : State) : Out :=
  let line := s.move.line
  s.when (s.tok.hostAsked.contains line) fun s =>
    { s with tok := { s.tok with
      hostAsked := s.tok.hostAsked.filter (· != line)
      hostHeld := (line, s.move.bytes.take 128) :: s.tok.hostHeld } }

/-! ## Errors and poison (R311, R315) -/

/-- A line regenerated as poison at its home, with all 16 tokens there: no other agent, and not the host, has a copy left, and
what the proxy holds of host memory is zeros (log entry 83). A persistent request that is active then draws the tokens
(R305). -/
def State.regenerate (s : State) (line : Nat) : State :=
  let home := s.homeOf line
  let k := homeNumber home
  let s1 : State := { s with tok := { s.tok with
    lines := s.tok.lines.filter fun l => l.line != line
    msgs := s.tok.msgs.filter fun m => m.line != line
    hostCached := s.tok.hostCached.filter (· != line)
    bisnp := s.tok.bisnp.filter (· != line)
    hostHeld := if hostLine ≤ line then (line, List.replicate 128 0) :: s.tok.hostHeld.filter fun h => h.1 != line
      else s.tok.hostHeld
    poison := s.tok.poison.filter fun p => p.1 != line } }
  let s2 := s1.performBytes none 4001 0 (line * 128) (List.replicate 128 0)
  let h := s2.tok.homes.get k
  (({ s2 with tok := { s2.tok with
    poison := (line, 0) :: s2.tok.poison
    homes := s2.tok.homes.set k { h with poisoned := h.poisoned + 1 } } } : State).countHome home 0x0204 none).serve line

/-- TOKEN_ECC_ERROR: who the agent, line, flag whether the error can be corrected (R311). -/
def execTokenEccError (s : State) : Out :=
  if s.move.flag then
    .next ({ s with tok := { s.tok with corrected := s.tok.corrected + 1 } }.countL2 s.move.who 0x0106 none)
  else s.when (s.tokened s.move.line) fun s => s.regenerate s.move.line

/-! ## Compute dies (R313, R314) -/

/-- The contexts of a die that hold a task. -/
def State.dieTasks (s : State) (d : Nat) : List (Nat × Bound) := s.boundTasks.filter fun e => coreOf e.1 / 40 == d

/-- An agent's needs end, and its persistent requests: those waiting leave their tables, an active one is deactivated and
leaves once every agent has acknowledged that (R304, R313, R314). -/
def State.withdraw (s : State) (a : Agent) : State :=
  let ends := fun (e : PEntry) => if e.who = a ∧ !e.closing then { e with closing := true, unacked := s.agents } else e
  { s with tok := { s.tok with
    needs := s.tok.needs.filter (·.who != a)
    table := (s.tok.table.filter fun e => e.who != a || e.active).map ends } }

/-- An agent sends every token that it holds to the homes. -/
def State.returnAll (s : State) (a : Agent) : State :=
  s.tok.lines.foldl (fun (t : State) l => t.giveAll a (t.homeOf l.line) l.line) s

/-- GRACEFUL_DIE_RESET: x the die. Its contexts are to be pre-empted; once they have gone, it withdraws its requests and
returns its tokens (R313). -/
def execGracefulDieReset (s : State) : Out :=
  let d := s.move.x % 8
  let a := Agent.cd (Fin.ofNat 8 d)
  if !s.agents.contains a then .next s
  else
    let s1 : State := { s with pkg := { s.pkg with resetting := s.pkg.resetting ||| BitVec.twoPow 8 d } }
    if (s1.dieTasks d).isEmpty then .next ((s1.withdraw a).returnAll a)
    else
      .next (s1.mapCtx fun x c => if c.task.isSome ∧ coreOf x / 40 = d then { c with preemptReq := true } else c)

/-- The bytes of the windows of a die's cores are as after power-on. -/
def clearWindows (m : Memory) (d : Nat) : Memory :=
  m.filter fun c => !(scratchAddr (40 * d) 0 ≤ c.1 && c.1 < scratchAddr (40 * d + 40) 0)

/-- DIE_REJOIN: x the die being reset, whose tokens every home has and whose requests have left the tables: it resets, and
rejoins with none (R313). -/
def execDieRejoin (s : State) : Out :=
  let d := s.move.x % 8
  let a := Agent.cd (Fin.ofNat 8 d)
  let busy := !(s.dieTasks d).isEmpty || (s.tok.lines.any fun l => l.holds.any fun h => h.who == a && h.count != 0)
    || !s.tok.msgs.isEmpty || (s.tok.needs.any fun n => n.who == a) || s.tok.table.any fun e => e.who == a
  s.when (s.pkg.resetting.getLsbD d && !busy) fun s =>
    { s with
      mem := clearWindows s.mem d
      cores := s.cores.filter fun c => c.1 / 40 != d
      pkg := { s.pkg with
        resetting := s.pkg.resetting &&& ~~~BitVec.twoPow 8 d
        tlbs := s.pkg.tlbs.set (Fin.ofNat 8 d) [] } }

/-- A task that is lost (R314, R353). -/
def State.loseTask (s : State) (b : Bound) : State :=
  s.modLaunch b.launch fun l =>
    { l with tasks := l.tasks.filter fun t => t.index != b.index, ended := l.ended + 1, bad := l.bad + 1, err := true }

/-- Every home that runs sets RECOVERING. -/
def State.setRecovering (s : State) : State :=
  let homes := tabulate 10 fun h =>
    let k := s.tok.homes.get h
    if s.agents.contains (homeAgent h.val) then { k with recovering := true } else k
  { s with tok := { s.tok with homes := homes } }

/-- An agent returns what it holds in recovery; the proxy first takes back the lines that the host caches. -/
def State.recoverFrom (s : State) (a : Agent) : State :=
  s.tok.lines.foldl (fun (t : State) l =>
    match (if a == .proxy && (t.holdOf a l.line).count != 0 && t.tok.hostCached.contains l.line then t.askHost l.line
      else none) with
    | some u => u
    | none => t.giveAll a (t.homeOf l.line) l.line) s

/-- DIE_LOST: x the die that no longer answers. Its tasks are lost, its requests leave the tables, every home recovers and
every other agent returns its tokens; vector 65 is raised (R314, R443). -/
def execDieLost (s : State) : Out :=
  let d := s.move.x % 8
  let a := Agent.cd (Fin.ofNat 8 d)
  if !s.agents.contains a then .next s
  else
    let tasks := s.dieTasks d
    let s1 := tasks.foldl (fun (t : State) e => (t.loseTask e.2).vacate e.1) s
    let s2 : State := { s1 with
      pkg := { s1.pkg with
        lost := s1.pkg.lost ||| BitVec.twoPow 8 d
        resetting := s1.pkg.resetting &&& ~~~BitVec.twoPow 8 d }
      tok := { s1.tok with
        lines := s1.tok.lines.map fun l => { l with holds := l.holds.filter fun h => h.who != a }
        msgs := s1.tok.msgs.filter fun m => m.dst != a
        table := s1.tok.table.map fun e =>
          { e with seen := e.seen.filter (· != a), unacked := e.unacked.filter (· != a) } } }
    let s3 := (s2.withdraw a).setRecovering
    .next ((s3.agents.foldl State.recoverFrom s3).msiAll 65)

/-- TOKEN_RECOVERY_REGENERATE: who the home, to which every other agent has returned its tokens, and whose table has no request
of a lost die left: the lines that are short become poison, tags are freed and RECOVERING clears. The requests that are active
then draw the tokens (R305, R314). -/
def execTokenRecoveryRegenerate (s : State) : Out :=
  let home := s.move.who
  let k := homeNumber home
  let mine := fun (line : Nat) => s.homeOf line == home
  let away := (s.tok.msgs.any fun m => mine m.line)
    || (s.tok.lines.any fun l => mine l.line && l.holds.any fun h => h.who != home && h.count != 0)
    || s.tok.table.any fun e => e.home == home && !s.agents.contains e.who
  let h := s.tok.homes.get k
  s.when (h.recovering && homeAgent k.val == home && !away) fun s =>
    let short := (s.tok.lines.filter fun l => mine l.line).map (·.line)
    let s1 := short.foldl State.regenerate s
    let g := s1.tok.homes.get k
    let s2 : State := { s1 with tok := { s1.tok with homes := s1.tok.homes.set k { g with recovering := false } } }
    (((s2.tok.table.filter fun e => e.home == home).map (·.line)).eraseDups.foldl State.serve s2).msiAll 65

end Sys2Proof.Machine
end

