-- ==== Sys2Proof/Machine/Xbar.lean ====
section
/-! DEFINITION. The lane crossbar of the X slot (10_crossbar_sfu R189-R196). -/

namespace Sys2Proof.Machine

open Sys2Proof

/-- An X syllable that writes td: bits of ta, with ta's type; the latency is 3 (R191, R192). -/
def State.xTile (s : State) (td ta : TReg) (row : Row) (en : Mask) (pick : Fin 16 → Fin 64 → Fin 16 × Fin 64) : Out :=
  let T := s.tv ta
  .next (s.vTile 3 td T.ty [ta] row [ta] en fun i j =>
    let p := pick i j
    (T.bits T.ty.width p.1 p.2, 0))

/-- The row of R192 for the maps that keep rows. -/
def rowsPass : Row := ⟨.pass, .pass, .ident, .ident⟩

/-- The source column that a pattern routes to a destination column (R193). DESIGN CHOICE, log entry 102: of several, which R41
lets through in a resumed slot alone, the lowest. -/
def routeOf (pat : Vector (BitVec 7) 64) (d : Nat) : Option (Fin 64) :=
  (List.finRange 64).find? fun j => !(pat.get j).getLsbD 6 && (pat.get j).toNat % 64 == d

/-- XPERM: the columns reached by the pattern as it stands at issue (R193). -/
def execXperm (td : TReg) (ta : TSrc) (xp : Fin 4) (s : State) : Out :=
  let pat := s.view.xp.get xp
  let reached : BitVec 64 := (List.range 64).foldl (fun (m : BitVec 64) d =>
    if (routeOf pat d).isSome then m ||| BitVec.twoPow 64 d else m) 0
  s.xTile td ta.t rowsPass (Mask.both (s.tv td).active (tabulate 16 fun _ => reached)) fun i j =>
    (i, (routeOf pat j.val).getD j)

/-- XPLD: a pattern from the stored bits of a row; its latency is 3 (R191, R193). -/
def execXpld (xp : Fin 4) (ta : TSrc) (row : Fin 16) (s : State) : Out :=
  match s.view.marks [.t ta.t] with
  | some (c, v) => .next (s.slotFault c v)
  | none => .next (s.emit 3 [.xp xp (tabulate 64 fun j => (Grid.at (s.tv ta.t).cells row j).setWidth 7)])

/-- The map of XSHUF: reverse, interleave, deinterleave, butterfly (R194). -/
def shufMap (kind k : BitVec 3) (j : Nat) : Nat :=
  if kind = 0 then 63 - j
  else if kind = 1 then (if j % 2 = 0 then j / 2 else 32 + (j - 1) / 2)
  else if kind = 2 then (if j < 32 then 2 * j else 2 * (j - 32) + 1)
  else Nat.xor j (2 ^ k.toNat)

def execXshuf (td : TReg) (ta : TSrc) (kind k : BitVec 3) (s : State) : Out :=
  s.xTile td ta.t rowsPass (s.tv td).active fun i j => (i, Fin.ofNat 64 (shufMap kind k j.val))

def execXbrev (td : TReg) (ta : TSrc) (s : State) : Out :=
  s.xTile td ta.t rowsPass (s.tv td).active fun i j => (i, Fin.ofNat 64 (bitRev j.val 6))

/-- XTRN: within blocks of 16 columns (R193). -/
def execXtrn (td : TReg) (ta : TSrc) (s : State) : Out :=
  s.xTile td ta.t (Row.all .ident) (s.tv td).active fun i j =>
    (Fin.ofNat 16 (j.val % 16), Fin.ofNat 64 (16 * (j.val / 16) + i.val))

end Sys2Proof.Machine
end

