-- ==== Sys2Proof/Machine/Dispatch.lean ====
section
/-! DEFINITION. One arm per constructor of Instr: a direct call of its meaning. -/

namespace Sys2Proof.Machine

open Sys2Proof

def exec (i : Instr) (s : State) : Host.Outcome State Fault Refusal :=
  match i with
  | .br g off => Sys2Proof.Machine.execBr g off s
  | .call off => Sys2Proof.Machine.execCall off s
  | .bri r => Sys2Proof.Machine.execBri r s
  | .ret => Sys2Proof.Machine.execRet s
  | .loopImm count len => Sys2Proof.Machine.execLoopImm count len s
  | .loopReg r len => Sys2Proof.Machine.execLoopReg r len s
  | .loopx => Sys2Proof.Machine.execLoopx s
  | .lbuf n => Sys2Proof.Machine.execLbuf n s
  | .marker e => Sys2Proof.Machine.execMarker e s
  | .yield => Sys2Proof.Machine.execYield s
  | .exit code => Sys2Proof.Machine.execExit code s
  | .trap code => Sys2Proof.Machine.execTrap code s
  | .eret => Sys2Proof.Machine.execEret s
  | .sysrd r num => Sys2Proof.Machine.execSysrd r num s
  | .syswr r num => Sys2Proof.Machine.execSyswr r num s
  | .rfmode mask => Sys2Proof.Machine.execRfmode mask s
  | .fmtbase b => Sys2Proof.Machine.execFmtbase b s
  | .bkpt code => Sys2Proof.Machine.execBkpt code s
  | .trace r kind => Sys2Proof.Machine.execTrace r kind s
  | .add d a b g => Sys2Proof.Machine.execAdd d a b g s
  | .sub d a b g => Sys2Proof.Machine.execSub d a b g s
  | .mul d a b g => Sys2Proof.Machine.execMul d a b g s
  | .mulh d a b g => Sys2Proof.Machine.execMulh d a b g s
  | .mulhn d a b g => Sys2Proof.Machine.execMulhn d a b g s
  | .div d a b g => Sys2Proof.Machine.execDiv d a b g s
  | .divn d a b g => Sys2Proof.Machine.execDivn d a b g s
  | .rem d a b g => Sys2Proof.Machine.execRem d a b g s
  | .remn d a b g => Sys2Proof.Machine.execRemn d a b g s
  | .and d a b g => Sys2Proof.Machine.execAnd d a b g s
  | .or d a b g => Sys2Proof.Machine.execOr d a b g s
  | .xor d a b g => Sys2Proof.Machine.execXor d a b g s
  | .shl d a b g => Sys2Proof.Machine.execShl d a b g s
  | .shr d a b g => Sys2Proof.Machine.execShr d a b g s
  | .sra d a b g => Sys2Proof.Machine.execSra d a b g s
  | .min d a b g => Sys2Proof.Machine.execMin d a b g s
  | .max d a b g => Sys2Proof.Machine.execMax d a b g s
  | .minn d a b g => Sys2Proof.Machine.execMinn d a b g s
  | .maxn d a b g => Sys2Proof.Machine.execMaxn d a b g s
  | .clz d a g => Sys2Proof.Machine.execClz d a g s
  | .popc d a g => Sys2Proof.Machine.execPopc d a g s
  | .sel d a b g => Sys2Proof.Machine.execSel d a b g s
  | .addi d a imm => Sys2Proof.Machine.execAddi d a imm s
  | .andi d a imm => Sys2Proof.Machine.execAndi d a imm s
  | .ori d a imm => Sys2Proof.Machine.execOri d a imm s
  | .xori d a imm => Sys2Proof.Machine.execXori d a imm s
  | .shli d a amt => Sys2Proof.Machine.execShli d a amt s
  | .shri d a amt => Sys2Proof.Machine.execShri d a amt s
  | .srai d a amt => Sys2Proof.Machine.execSrai d a amt s
  | .muli d a imm => Sys2Proof.Machine.execMuli d a imm s
  | .movi d imm => Sys2Proof.Machine.execMovi d imm s
  | .movk d q v => Sys2Proof.Machine.execMovk d q v s
  | .cmpeq pd a b g alt => Sys2Proof.Machine.execCmpeq pd a b g alt s
  | .cmplt pd a b g alt => Sys2Proof.Machine.execCmplt pd a b g alt s
  | .cmpltn pd a b g alt => Sys2Proof.Machine.execCmpltn pd a b g alt s
  | .pand pd pa pb g na nb => Sys2Proof.Machine.execPand pd pa pb g na nb s
  | .por pd pa pb g na nb => Sys2Proof.Machine.execPor pd pa pb g na nb s
  | .pxor pd pa pb g na nb => Sys2Proof.Machine.execPxor pd pa pb g na nb s
  | .pmov pd pa g na => Sys2Proof.Machine.execPmov pd pa g na s
  | .fadd d a b g rm => Sys2Proof.Machine.execFadd d a b g rm s
  | .fsub d a b g rm => Sys2Proof.Machine.execFsub d a b g rm s
  | .fmul d a b g rm => Sys2Proof.Machine.execFmul d a b g rm s
  | .ffma d a b g rm => Sys2Proof.Machine.execFfma d a b g rm s
  | .fmin d a b g => Sys2Proof.Machine.execFmin d a b g s
  | .fmax d a b g => Sys2Proof.Machine.execFmax d a b g s
  | .fcvti d a g rm => Sys2Proof.Machine.execFcvti d a g rm s
  | .fcvtf d a g rm => Sys2Proof.Machine.execFcvtf d a g rm s
  | .fcmp d a b g rel => Sys2Proof.Machine.execFcmp d a b g rel s
  | .fcvtb d a g rm => Sys2Proof.Machine.execFcvtb d a g rm s
  | .movli d lvl g => Sys2Proof.Machine.execMovli d lvl g s
  | .dchk a b g => Sys2Proof.Machine.execDchk a b g s
  | .amov ad aa g => Sys2Proof.Machine.execAmov ad aa g s
  | .aadd ad aa r g => Sys2Proof.Machine.execAadd ad aa r g s
  | .aaddi ad imm => Sys2Proof.Machine.execAaddi ad imm s
  | .ainc ad aa g => Sys2Proof.Machine.execAinc ad aa g s
  | .agset ad r fld g => Sys2Proof.Machine.execAgset ad r fld g s
  | .agrd r aa fld g => Sys2Proof.Machine.execAgrd r aa fld g s
  | .aidx ad aa r g => Sys2Proof.Machine.execAidx ad aa r g s
  | .ard r aa g => Sys2Proof.Machine.execArd r aa g s
  | .ld r m sign => Sys2Proof.Machine.execLd r m sign s
  | .st m r => Sys2Proof.Machine.execSt m r s
  | .pref m => Sys2Proof.Machine.execPref m s
  | .tld t m => Sys2Proof.Machine.execTld t m s
  | .tst t m port => Sys2Proof.Machine.execTst t m port s
  | .tldl t m swz => Sys2Proof.Machine.execTldl t m swz s
  | .tstl t m swz port => Sys2Proof.Machine.execTstl t m swz port s
  | .spill x slot g port => Sys2Proof.Machine.execSpill x slot g port s
  | .fill x slot g => Sys2Proof.Machine.execFill x slot g s
  | .copy o flags => Sys2Proof.Machine.execCopy o flags s
  | .copyg o flags => Sys2Proof.Machine.execCopyg o flags s
  | .copya o flags => Sys2Proof.Machine.execCopya o flags s
  | .engq r => Sys2Proof.Machine.execEngq r s
  | .engrs ctx => Sys2Proof.Machine.execEngrs ctx s
  | .engrsCancel ctx => Sys2Proof.Machine.execEngrsCancel ctx s
  | .phase scope => Sys2Proof.Machine.execPhase scope s
  | .vjoin => Sys2Proof.Machine.execVjoin s
  | .amo d a r op size order scope => Sys2Proof.Machine.execAmo d a r op size order scope s
  | .waitm d a r cond size scope => Sys2Proof.Machine.execWaitm d a r cond size scope s
  | .qpost r queue => Sys2Proof.Machine.execQpost r queue s
  | .evsig a scope => Sys2Proof.Machine.execEvsig a scope s
  | .evwait a scope => Sys2Proof.Machine.execEvwait a scope s
  | .send o flags => Sys2Proof.Machine.execSend o flags s
  | .sendt o flags => Sys2Proof.Machine.execSendt o flags s
  | .rxset r rx => Sys2Proof.Machine.execRxset r rx s
  | .fbar b => Sys2Proof.Machine.execFbar b s
  | .rpost r chip rx => Sys2Proof.Machine.execRpost r chip rx s
  | .tadd td ta tb v => Sys2Proof.Machine.execTadd td ta tb v s
  | .tsub td ta tb v => Sys2Proof.Machine.execTsub td ta tb v s
  | .tmul td ta tb v => Sys2Proof.Machine.execTmul td ta tb v s
  | .tfma td ta tb tc v => Sys2Proof.Machine.execTfma td ta tb tc v s
  | .tmax td ta tb v => Sys2Proof.Machine.execTmax td ta tb v s
  | .tmin td ta tb v => Sys2Proof.Machine.execTmin td ta tb v s
  | .tabs td ta v => Sys2Proof.Machine.execTabs td ta v s
  | .tneg td ta v => Sys2Proof.Machine.execTneg td ta v s
  | .tadds td ta r v => Sys2Proof.Machine.execTadds td ta r v s
  | .tmuls td ta r v => Sys2Proof.Machine.execTmuls td ta r v s
  | .tfmas td ta r v => Sys2Proof.Machine.execTfmas td ta r v s
  | .tcmp kd ta tb rel v => Sys2Proof.Machine.execTcmp kd ta tb rel v s
  | .tsel td ta tb v => Sys2Proof.Machine.execTsel td ta tb v s
  | .tcvt td ta v => Sys2Proof.Machine.execTcvt td ta v s
  | .tiadd td ta tb v => Sys2Proof.Machine.execTiadd td ta tb v s
  | .tisub td ta tb v => Sys2Proof.Machine.execTisub td ta tb v s
  | .timul td ta tb v => Sys2Proof.Machine.execTimul td ta tb v s
  | .tand td ta tb v => Sys2Proof.Machine.execTand td ta tb v s
  | .tor td ta tb v => Sys2Proof.Machine.execTor td ta tb v s
  | .txor td ta tb v => Sys2Proof.Machine.execTxor td ta tb v s
  | .tshl td ta tb v => Sys2Proof.Machine.execTshl td ta tb v s
  | .tshr td ta tb v => Sys2Proof.Machine.execTshr td ta tb v s
  | .timax td ta tb v => Sys2Proof.Machine.execTimax td ta tb v s
  | .timin td ta tb v => Sys2Proof.Machine.execTimin td ta tb v s
  | .tmov td ta v => Sys2Proof.Machine.execTmov td ta v s
  | .tfill td r v => Sys2Proof.Machine.execTfill td r v s
  | .tfilli td imm v => Sys2Proof.Machine.execTfilli td imm v s
  | .tiota td axis base v => Sys2Proof.Machine.execTiota td axis base v s
  | .tshape td rows cols ty p => Sys2Proof.Machine.execTshape td rows cols ty p s
  | .rowmov td drow ta srow sel p => Sys2Proof.Machine.execRowmov td drow ta srow sel p s
  | .tget r ta row col sel p => Sys2Proof.Machine.execTget r ta row col sel p s
  | .tset td row col r sel p => Sys2Proof.Machine.execTset td row col r sel p s
  | .rrot td ta r imm v => Sys2Proof.Machine.execRrot td ta r imm v s
  | .crot td ta r imm v => Sys2Proof.Machine.execCrot td ta r imm v s
  | .rbc td ta r imm v => Sys2Proof.Machine.execRbc td ta r imm v s
  | .cbc td ta r imm v => Sys2Proof.Machine.execCbc td ta r imm v s
  | .rred td ta sub v => Sys2Proof.Machine.execRred td ta sub v s
  | .cred td ta sub v => Sys2Proof.Machine.execCred td ta sub v s
  | .rscan td ta sub v => Sys2Proof.Machine.execRscan td ta sub v s
  | .tchk ta tb sel p => Sys2Proof.Machine.execTchk ta tb sel p s
  | .tlat x slot a b useB recipA recipB neg => Sys2Proof.Machine.execTlat x slot a b useB recipA recipB neg s
  | .tlatc x slots => Sys2Proof.Machine.execTlatc x slots s
  | .tdev x port sel => Sys2Proof.Machine.execTdev x port sel s
  | .lvacc x port lv op extend => Sys2Proof.Machine.execLvacc x port lv op extend s
  | .lvclose lv r scale => Sys2Proof.Machine.execLvclose lv r scale s
  | .lvmovToVector lv x port row => Sys2Proof.Machine.execLvmovToVector lv x port row s
  | .lvmovToRow x row lv => Sys2Proof.Machine.execLvmovToRow x row lv s
  | .lvset lv r leaveOpen => Sys2Proof.Machine.execLvset lv r leaveOpen s
  | .tlatq r x slot => Sys2Proof.Machine.execTlatq r x slot s
  | .treeclr p => Sys2Proof.Machine.execTreeclr p s
  | .treeset ta row p => Sys2Proof.Machine.execTreeset ta row p s
  | .treeadd r parent p => Sys2Proof.Machine.execTreeadd r parent p s
  | .treemask kd blk p => Sys2Proof.Machine.execTreemask kd blk p s
  | .treebias td blk p => Sys2Proof.Machine.execTreebias td blk p s
  | .treepos td r row p => Sys2Proof.Machine.execTreepos td r row p s
  | .treeprune td r row p => Sys2Proof.Machine.execTreeprune td r row p s
  | .treerd r node fld p => Sys2Proof.Machine.execTreerd r node fld p s
  | .fexp2 td ta v => Sys2Proof.Machine.execFexp2 td ta v s
  | .flog2 td ta v => Sys2Proof.Machine.execFlog2 td ta v s
  | .frcp td ta v => Sys2Proof.Machine.execFrcp td ta v s
  | .frsqrt td ta v => Sys2Proof.Machine.execFrsqrt td ta v s
  | .fsqrt td ta v => Sys2Proof.Machine.execFsqrt td ta v s
  | .ftanh td ta v => Sys2Proof.Machine.execFtanh td ta v s
  | .fsigm td ta v => Sys2Proof.Machine.execFsigm td ta v s
  | .fexp td ta v => Sys2Proof.Machine.execFexp td ta v s
  | .fsin td ta v => Sys2Proof.Machine.execFsin td ta v s
  | .fcos td ta v => Sys2Proof.Machine.execFcos td ta v s
  | .xperm td ta xp => Sys2Proof.Machine.execXperm td ta xp s
  | .xpld xp ta row => Sys2Proof.Machine.execXpld xp ta row s
  | .xshuf td ta kind k => Sys2Proof.Machine.execXshuf td ta kind k s
  | .xbrev td ta => Sys2Proof.Machine.execXbrev td ta s
  | .xtrn td ta => Sys2Proof.Machine.execXtrn td ta s
  | .mlds ta p => Sys2Proof.Machine.execMlds ta p s
  | .mldsl a p => Sys2Proof.Machine.execMldsl a p s
  | .mswap p => Sys2Proof.Machine.execMswap p s
  | .mmul cd ta asel wsel r p => Sys2Proof.Machine.execMmul cd ta asel wsel r p s
  | .mmac cd ta asel wsel r p => Sys2Proof.Machine.execMmac cd ta asel wsel r p s
  | .mmull cd asel wsel r p => Sys2Proof.Machine.execMmull cd asel wsel r p s
  | .mmacl cd asel wsel r p => Sys2Proof.Machine.execMmacl cd asel wsel r p s
  | .mmact cd ta asel wsel r p => Sys2Proof.Machine.execMmact cd ta asel wsel r p s
  | .mzero cd p => Sys2Proof.Machine.execMzero cd p s
  | .mrd td cd sel p => Sys2Proof.Machine.execMrd td cd sel p s
  | .mwr cd ta sel p => Sys2Proof.Machine.execMwr cd ta sel p s
  | .mstat td p => Sys2Proof.Machine.execMstat td p s
  | .issueBundle => Sys2Proof.Machine.execIssueBundle s
  | .exposedResultLanding => Sys2Proof.Machine.execExposedResultLanding s
  | .takeInterrupt => Sys2Proof.Machine.execTakeInterrupt s
  | .contextSwitch => Sys2Proof.Machine.execContextSwitch s
  | .quantumExpiry => Sys2Proof.Machine.execQuantumExpiry s
  | .clusterWake => Sys2Proof.Machine.execClusterWake s
  | .debugRequest => Sys2Proof.Machine.execDebugRequest s
  | .debugRelease => Sys2Proof.Machine.execDebugRelease s
  | .globalLoadComplete => Sys2Proof.Machine.execGlobalLoadComplete s
  | .tileLoadComplete => Sys2Proof.Machine.execTileLoadComplete s
  | .fillComplete => Sys2Proof.Machine.execFillComplete s
  | .atomicPerformed => Sys2Proof.Machine.execAtomicPerformed s
  | .phaseComplete => Sys2Proof.Machine.execPhaseComplete s
  | .vjoinComplete => Sys2Proof.Machine.execVjoinComplete s
  | .coreWindowWrite => Sys2Proof.Machine.execCoreWindowWrite s
  | .matrixOpExecute => Sys2Proof.Machine.execMatrixOpExecute s
  | .matrixOpComplete => Sys2Proof.Machine.execMatrixOpComplete s
  | .copyCommandExecute => Sys2Proof.Machine.execCopyCommandExecute s
  | .copyEngineFault => Sys2Proof.Machine.execCopyEngineFault s
  | .copyCommandComplete => Sys2Proof.Machine.execCopyCommandComplete s
  | .sendTransmit => Sys2Proof.Machine.execSendTransmit s
  | .sendtArm => Sys2Proof.Machine.execSendtArm s
  | .rxsetPerform => Sys2Proof.Machine.execRxsetPerform s
  | .rpostPerform => Sys2Proof.Machine.execRpostPerform s
  | .taskExitRelease => Sys2Proof.Machine.execTaskExitRelease s
  | .preemptRequest => Sys2Proof.Machine.execPreemptRequest s
  | .preemption => Sys2Proof.Machine.execPreemption s
  | .contextSave => Sys2Proof.Machine.execContextSave s
  | .resume => Sys2Proof.Machine.execResume s
  | .taskBind => Sys2Proof.Machine.execTaskBind s
  | .launch => Sys2Proof.Machine.execLaunch s
  | .tiletasks => Sys2Proof.Machine.execTiletasks s
  | .collective => Sys2Proof.Machine.execCollective s
  | .evsignal => Sys2Proof.Machine.execEvsignal s
  | .evwaitPacket => Sys2Proof.Machine.execEvwaitPacket s
  | .barrierPacket => Sys2Proof.Machine.execBarrierPacket s
  | .nopPacket => Sys2Proof.Machine.execNopPacket s
  | .launchComplete => Sys2Proof.Machine.execLaunchComplete s
  | .qctlRetry => Sys2Proof.Machine.execQctlRetry s
  | .qctlSkip => Sys2Proof.Machine.execQctlSkip s
  | .tlbiGo => Sys2Proof.Machine.execTlbiGo s
  | .tlbInvalidationDone => Sys2Proof.Machine.execTlbInvalidationDone s
  | .ttArrive => Sys2Proof.Machine.execTtArrive s
  | .budgetPeriod => Sys2Proof.Machine.execBudgetPeriod s
  | .timecmpMatch => Sys2Proof.Machine.execTimecmpMatch s
  | .notify => Sys2Proof.Machine.execNotify s
  | .registerWrite => Sys2Proof.Machine.execRegisterWrite s
  | .transientReadRequest => Sys2Proof.Machine.execTransientReadRequest s
  | .transientWriteRequest => Sys2Proof.Machine.execTransientWriteRequest s
  | .tokenArrival => Sys2Proof.Machine.execTokenArrival s
  | .transientAttemptTimeout => Sys2Proof.Machine.execTransientAttemptTimeout s
  | .persistentRequest => Sys2Proof.Machine.execPersistentRequest s
  | .persistentActivation => Sys2Proof.Machine.execPersistentActivation s
  | .persistentDeactivation => Sys2Proof.Machine.execPersistentDeactivation s
  | .deactivationAck => Sys2Proof.Machine.execDeactivationAck s
  | .lineEviction => Sys2Proof.Machine.execLineEviction s
  | .tagRecall => Sys2Proof.Machine.execTagRecall s
  | .hostRead => Sys2Proof.Machine.execHostRead s
  | .hostWrite => Sys2Proof.Machine.execHostWrite s
  | .hostBisnpResponse => Sys2Proof.Machine.execHostBisnpResponse s
  | .hostSnoop => Sys2Proof.Machine.execHostSnoop s
  | .tokenEccError => Sys2Proof.Machine.execTokenEccError s
  | .gracefulDieReset => Sys2Proof.Machine.execGracefulDieReset s
  | .dieLost => Sys2Proof.Machine.execDieLost s
  | .tokenRecoveryRegenerate => Sys2Proof.Machine.execTokenRecoveryRegenerate s
  | .packageFault => Sys2Proof.Machine.execPackageFault s
  | .routeDeliver => Sys2Proof.Machine.execRouteDeliver s
  | .routeForward => Sys2Proof.Machine.execRouteForward s
  | .routeReduce => Sys2Proof.Machine.execRouteReduce s
  | .routeDeliverCounter => Sys2Proof.Machine.execRouteDeliverCounter s
  | .routeDeliverForward => Sys2Proof.Machine.execRouteDeliverForward s
  | .routeTileArrival => Sys2Proof.Machine.execRouteTileArrival s
  | .acknowledgement => Sys2Proof.Machine.execAcknowledgement s
  | .refusal => Sys2Proof.Machine.execRefusal s
  | .lapseNotice => Sys2Proof.Machine.execLapseNotice s
  | .barrierArrival => Sys2Proof.Machine.execBarrierArrival s
  | .barrierRelease => Sys2Proof.Machine.execBarrierRelease s
  | .barrierReleaseInstant => Sys2Proof.Machine.execBarrierReleaseInstant s
  | .sendAckTimeout => Sys2Proof.Machine.execSendAckTimeout s
  | .chunkRetransmitTimeout => Sys2Proof.Machine.execChunkRetransmitTimeout s
  | .stagingLeaseExpiry => Sys2Proof.Machine.execStagingLeaseExpiry s
  | .collectiveTimeout => Sys2Proof.Machine.execCollectiveTimeout s
  | .portFailure => Sys2Proof.Machine.execPortFailure s
  | .packageReset => Sys2Proof.Machine.execPackageReset s
  | .startctlGo => Sys2Proof.Machine.execStartctlGo s
  | .stageAdvance => Sys2Proof.Machine.execStageAdvance s
  | .podTimeRealign => Sys2Proof.Machine.execPodTimeRealign s
  | .worldSwitch => Sys2Proof.Machine.execWorldSwitch s
  | .slewInterval => Sys2Proof.Machine.execSlewInterval s
  | .shapingWindow => Sys2Proof.Machine.execShapingWindow s
  | .traceFifoDrain => Sys2Proof.Machine.execTraceFifoDrain s
  | .ringReconfigure => Sys2Proof.Machine.execRingReconfigure s
  | .counterWrap => Sys2Proof.Machine.execCounterWrap s
  | .dieCounterWrap => Sys2Proof.Machine.execDieCounterWrap s
  | .portRetrained => Sys2Proof.Machine.execPortRetrained s
  | .hostCxlCacheResponse => Sys2Proof.Machine.execHostCxlCacheResponse s
  | .dieRejoin => Sys2Proof.Machine.execDieRejoin s
  | .storeBecomesVisible => Sys2Proof.Machine.execStoreBecomesVisible s

end Sys2Proof.Machine
end

