-- ==== Sys2Proof/Machine/Next.lean ====
section
/-! DEFINITION. Which agent moves when the agenda names none, and the load of a one-bundle program from outside the
machine (log entry 11). -/

namespace Sys2Proof.Machine

open Sys2Proof

/-- What follows every step: clock cycles that have passed are charged to the contexts that hold cores, and what awaits the end of
a clock goes on (R457, R463, R464); where a budget period has begun budgets are read (R345), what has become ready is noted with the
time (R356), the commands kept for queues go on (R352), and armed sends that are due go on waiting
for their sources' tokens, or fire (R418, R432). -/
def State.after (s : State) : State :=
  let p := (s.cores.foldl (fun t e => t.catchUp e.1) s).clocksOver
  let q := if p.sched.cmds.isEmpty then p else p.queueCmds
  let t := if q.sched.launches.isEmpty then q else q.rolled.noteReady
  if t.fab.armed.any (·.due) then t.fireDue else t

/-- What goes before every step but the issue of a bundle, which sees to its own: the results that a context has reached land
(R36). -/
def State.before (s : State) (i : Instr) : State :=
  if i = .issueBundle then s else s.allCtx.foldl (fun t e => t.reach e.1) s

/-- The operands of a step about a context. -/
def Move.ctx (x n : Nat) : Move := { Move.none with x := x, n := n }

/-- The step of a matrix operation at the head of its queue. -/
def mqMove (x : Nat) (q : QOp) : Instr × Move :=
  (if q.executed then .matrixOpComplete else .matrixOpExecute, Move.ctx x 0)

/-- The step of a copy or fabric command at the head of its queue. -/
def queueMove (x : Nat) (c : Cmd) : Instr × Move :=
  let i : Instr :=
    if c.stop.isSome then .copyEngineFault
    else if c.finished then .copyCommandComplete
    else if c.op = 0x38 then .sendTransmit
    else if c.op = 0x39 then .sendtArm
    else if c.op = 0x3A then .rxsetPerform
    else if c.op = 0x3C then .rpostPerform
    else .copyCommandExecute
  (i, Move.ctx x 0)

/-- A step of an operation that a context has outstanding, if it has any. -/
def Ctx.outstanding (c : Ctx) (x : Nat) : Option (Instr × Move) :=
  if !c.atomics.isEmpty then some (.atomicPerformed, Move.ctx x 0)
  else if !c.loads.isEmpty then some (.globalLoadComplete, Move.ctx x 0)
  else if !c.tloads.isEmpty then some (.tileLoadComplete, Move.ctx x 0)
  else if !c.fills.isEmpty then some (.fillComplete, Move.ctx x 0)
  else if c.phase.isSome then some (.phaseComplete, Move.ctx x 0)
  else if c.vjoin then some (.vjoinComplete, Move.ctx x 0)
  else
    match c.mq, c.queue with
    | q :: _, _ => some (mqMove x q)
    | [], q :: _ => if c.halted then none else some (queueMove x q)
    | [], [] => none

/-- The step of the token protocol for a need of an agent. -/
def State.needMove (s : State) (n : Need) : Instr × Move :=
  let m : Move := { Move.none with who := n.who, peer := s.homeOf n.line, line := n.line }
  if s.recovering n.line then (.tokenRecoveryRegenerate, { m with who := s.homeOf n.line })
  else if n.persistent then
    match s.tok.table.find? fun e => e.line == n.line with
    | none => (.persistentRequest, m)
    | some e =>
      let k : Move := { m with peer := e.home, n := e.entry }
      if !e.active then (.deactivationAck, k)
      else if e.closing then
        match e.unacked with
        | a :: _ => (.persistentDeactivation, { k with who := a })
        | [] => (.deactivationAck, k)
      else
        match s.agents.find? fun a => !e.seen.contains a with
        | some a => (.persistentActivation, { k with who := a })
        | none => (.persistentDeactivation, { k with who := e.who })
  else
    match s.agents.find? fun a => a != n.who && !n.answered.contains a with
    | some a => (if n.write then .transientWriteRequest else .transientReadRequest, { m with peer := a })
    | none => (.transientAttemptTimeout, m)

/-- A step of the token protocol, where some agent waits for tokens. -/
def State.tokenMove (s : State) : Option (Instr × Move) :=
  if s.tok.needs.isEmpty then none
  else if !s.tok.msgs.isEmpty then some (.tokenArrival, Move.none)
  else (s.tok.needs.find? fun n => n.met || !s.canUse n.who n.line n.write).map s.needMove

/-- The step of a packet within the package, by what it pops. -/
def packetMove (p : Packet) : Instr × Move :=
  let op := (p.route.head?.map entOp).getD 0
  let i : Instr :=
    if p.kind = 2 then .barrierArrival
    else if p.kind = 3 then .barrierRelease
    else if p.kind = 4 then .acknowledgement
    else if p.kind = 5 then .refusal
    else if p.kind = 6 then .lapseNotice
    else if op = 3 then .routeDeliverCounter
    else if op = 5 then .routeTileArrival
    else .routeDeliver
  (i, { Move.none with pkt := p })

/-- A step that moves on what the focused context waits for, if there is any: a packet within the package, tokens, a
window write, an operation of its own, or the release of its barrier. -/
def State.progress (s : State) : Option (Instr × Move) :=
  match s.fab.loop with
  | p :: _ => some (packetMove p)
  | [] =>
    match s.tokenMove with
    | some m => some m
    | none =>
      if !s.wwrites.isEmpty then some (.coreWindowWrite, Move.none)
      else
        match s.c.outstanding s.id with
        | some m => some m
        | none => s.c.arrival.bind fun w =>
          if w.released then none else (s.barrierOf w.bar.toNat).release.head?.map fun _ => (.barrierReleaseInstant, Move.ctx w.bar.toNat 0)

/-- With an empty agenda the focused context issues its next bundle; where that bundle waits, or the context drains, a
step that moves on what it waits for moves instead, once its first clock cycle of waiting has come. -/
def State.defaultMove (s : State) : Instr × Move :=
  let issue := (Instr.issueBundle, Move.ctx s.id 0)
  match s.c.mode with
  | .run =>
    match s.tryIssue with
    | .wait _ _ => if s.pkg.tick < (s.core (coreOf s.id)).readyAt then issue else s.progress.getD issue
    | _ => issue
  | .exiting _ _ => s.progress.getD (.taskExitRelease, Move.ctx s.id 0)
  | .preempting => s.progress.getD (.contextSave, Move.ctx s.id 0)
  | .debug _ => (.debugRelease, Move.ctx s.id 0)

/-- Where the program loaded from outside stands: its virtual and physical address. -/
def loadPc : VAddr := 0x400000

/-- The region of the program loaded from outside: its page tables begin at 0x1000. -/
def loadRegion : Region :=
  { Region.none with ptroot := 0x1000, coreset := 1, quantum := 4096, errMax := 1 }

/-- The task of the program loaded from outside. -/
def loadTask : Bound := ⟨0, 0, loadRegion, 0, 0, (0, 0)⟩

/-- Page tables that map the 2 MiB page at 0x400000 onto itself for reads, writes and fetch (R143, R144). -/
def loadTables (m : Memory) : Memory :=
  memWrite (memWrite (memWrite m 0x1000 8 0x2001) 0x2000 8 0x3001) 0x3010 8 0x40001F

/-- A literal bundle of one syllable placed as the next thing that the focused context fetches, by a load from outside
the machine: a task bound, its page tables and code in memory, and nothing that goes before a bundle pending. -/
def State.load (s : State) (k : SlotKind) (w : Nat) : State :=
  let code := (0xFFFF :: bundleOf k w).flatMap fun x => leBytes 2 x
  { s with
    agenda := []
    bundle := Bundle.none
    mem := memPut (loadTables s.mem) loadPc.toNat code
    cores := s.cores.map fun e => (e.1, { e.2 with tlb := [] })
    pkg := { s.pkg with tlbs := tabulate 8 fun _ => [] }
    c := { s.c with
      task := some loadTask
      mode := .run
      pc := loadPc
      lbuf := LoopBuf.none
      ipend := []
      debugReq := false
      preemptReq := false
      bpSkip := true
      sys := { s.c.sys with slotv := false } } }

/-- The state with a table word's instruction placed where step fetches next. -/
def State.loadWord (s : State) (nbits w : Nat) : State :=
  match kindOfTableWord nbits w with
  | some (k, _) => s.load k w
  | none => s

end Sys2Proof.Machine
end

