-- ==== Sys2Proof/Machine/Step.lean ====
section
/-! DEFINITION. One step of the machine: the agent that the agenda names next moves. A bundle issues and commits its
slots in one step, in the order of R33. -/

namespace Sys2Proof.Machine

open Sys2Proof

/-- The slots of the open bundle commit in order; a fault of one closes the bundle (R33, R372). -/
def commitSlots : List (Nat × Instr) → State → Host.Outcome State Fault Refusal
  | [], s => .next (if s.bundle.isOpen then s.closeBundle else s)
  | (b, i) :: rest, s =>
    if s.bundle.isOpen then
      let u : State := { s with bundle := { s.bundle with slot := b, slots := rest } }
      match u.firstRead b with
      | some t => .next t
      | none =>
        match exec i u with
        | .next t => commitSlots rest t
        | .fault f => .fault f
        | .refused r => .refused r
    else .next s

/-- A step that has gone on to a next state, with what follows every step. -/
def followed : Host.Outcome State Fault Refusal → Host.Outcome State Fault Refusal
  | .next t => .next t.after
  | o => o

/-- A step of one agent, with what goes before it and the commit of the bundle that it opens. -/
def runMove (i : Instr) (s : State) : Host.Outcome State Fault Refusal :=
  match exec i (s.before i) with
  | .next t => followed (commitSlots t.bundle.slots t)
  | .fault f => .fault f
  | .refused r => .refused r

/-- The step: the first entry of the agenda, or the default move. -/
def step (s : State) : Host.Outcome State Fault Refusal :=
  match s.agenda with
  | (i, m) :: rest => runMove i { s with agenda := rest, move := m }
  | [] => runMove s.defaultMove.1 { s with move := s.defaultMove.2 }

/-- The state with the instruction of a table word placed where step fetches its next instruction. -/
def State.withFetchWord (s : State) (nbits w : Nat) : State := s.loadWord nbits w

end Sys2Proof.Machine
end

