-- ==== Sys2Proof/Safety.lean ====
section
/-! DEFINITION. What claims about runs speak of: the invariant of the machine between steps, and the shapes in which they
say what an instruction leaves behind. -/

namespace Sys2Proof.Machine

open Sys2Proof

/-- What holds between steps: memory is in its canonical form, and no bundle is open. -/
def State.Inv (s : State) : Prop := Memory.wf s.mem = true ∧ s.bundle.isOpen = false

/-- The results in flight are in the order in which they land (R37). -/
def InOrder (ls : List Landing) : Prop := ls.Pairwise fun a b => a.before b = true

/-- The state with one more exposed result in flight, of the slot that commits: `lat` schedule cycles from issue. Nothing
else of the state is changed. -/
def State.withResult (s : State) (lat : Nat) (ws : List Write) (f : Flags) : State :=
  { s with c := { s.c with flight := insertLanding ⟨s.c.now + lat, s.bundle.slot, s.c.seq, ws, f⟩ s.c.flight } }

/-- The state with an advance in flight (R131): the advanced address goes to ad, and to the descriptor of ag the counters of
the dimensions that it walked. A result in flight from another bundle that would advance the register at the same schedule
cycle gives way (R125). -/
def State.withAdvance (s : State) (lat : Nat) (ad ag : AReg) (d : Adv) : State :=
  let l : Landing := ⟨s.c.now + lat, s.bundle.slot, s.c.seq, [.a ad d.y, .ctr ag d.n d.ctr d.wrap], 0⟩
  { s with c := { s.c with flight := insertLanding l (s.c.flight.map fun k => k.yieldTo l) } }

/-- The boundary at which the focused context tries to issue: its core is free, the events of the clocks before have entered
their counters, and what is due has landed (R36, R463). -/
def State.boundary (s : State) : State := (s.until (s.core (coreOf s.id)).readyAt).countFlush.settle

/-- What a scalar result writes: nothing for s0 (R92). -/
def sWrite (d : SReg) (v : Word) : List Write := if d = 0 then [] else [.s d v]

/-- What a predicate result writes: nothing for p0 (R93). -/
def pWrite (d : PReg) (v : Bool) : List Write := if d = 0 then [] else [.p d v]

/-- What a V, F or X syllable with a tile result does where its guard is true, in the order of R171. `reads` are the tiles
it reads, `srcs` those that the row of R240 speaks of, `en` the elements it writes, `f` the container and the flags of each.
A marked tile, a change of type against attached factors, and factors that do not commute fault its slot. Otherwise one
result is in flight and nothing else has changed: the containers of `en`, the type, the latent state that the row gives
(none where the destination keeps its own), and each flag that an element of `en` raises. -/
def TileOutcome (s : State) (o : Out) (lat : Nat) (td : TReg) (ty : ElemTy) (reads : List TReg) (row : Row)
    (srcs : List TReg) (en : Mask) (f : Fin 16 → Fin 64 → BitVec 32 × Flags) : Prop :=
  let own := s.view.t.get td
  let marked := s.view.marks (reads.map .t)
  let clash := own.ty ≠ ty ∧ own.lat.isId = false
  let latent := row.run own.lat (srcs.map fun t => (t.val, (s.view.t.get t).lat))
  (∀ c v, marked = some (c, v) → o = .next (s.slotFault c v)) ∧
  (marked = none → clash → o = .next (s.slotFault 0x08 (BitVec.ofNat 64 td.val))) ∧
  (marked = none → ¬clash → ∀ n, latent = .error n → o = .next (s.slotFault 0x07 (BitVec.ofNat 64 n))) ∧
  (marked = none → ¬clash → ∀ l, latent = .ok l →
    ∃ (cells : Grid) (fl : Flags),
      o = .next (s.withResult lat [.tile (.t td) en cells (some ty) (if row.keeps then none else some l)] fl) ∧
      (∀ i j, en.at i j = true → cells.at i j = (f i j).1) ∧
      (∀ n < 5, fl.getLsbD n = true ↔ ∃ i j, en.at i j = true ∧ (f i j).2.getLsbD n = true))

/-- What a form does that writes one row or one element of its tile (R179, R181, R326): `TileOutcome` where that lies within
the active shape, and else nothing: no container, no type and no latent state of the tile is written. -/
def PartOutcome (s : State) (o : Out) (here : Prop) (lat : Nat) (td : TReg) (ty : ElemTy) (reads : List TReg) (row : Row)
    (srcs : List TReg) (en : Mask) (f : Fin 16 → Fin 64 → BitVec 32 × Flags) : Prop :=
  let marked := s.view.marks (reads.map .t)
  let latent := row.run (s.view.t.get td).lat (srcs.map fun t => (t.val, (s.view.t.get t).lat))
  (here → TileOutcome s o lat td ty reads row srcs en f) ∧
  (¬here → (∀ c v, marked = some (c, v) → o = .next (s.slotFault c v)) ∧
    (marked = none → (∀ n, latent = .error n → o = .next (s.slotFault 0x07 (BitVec.ofNat 64 n))) ∧
      ∀ l, latent = .ok l → o = .next (s.withResult lat [] 0)))

/-- All that counting events may change of a state: the counted events of the clock, the cores' counters, and the pending
interrupts of contexts, which a full counter raises (R463, R464). -/
def OnlyCounts (s t : State) : Prop :=
  t = { s with c := t.c, others := t.others, cores := t.cores, pkg := { s.pkg with counted := t.pkg.counted } } ∧
  (∀ x, t.ctx x = { s.ctx x with ipend := (t.ctx x).ipend }) ∧
  ∀ n, t.core n = { s.core n with evsel := (t.core n).evsel, evcnt := (t.core n).evcnt }

/-- No byte has an older value that the focused context may still read, and its phase buffer was empty as the bundle
issued: its reads give what memory held then. -/
def State.Quiet (s : State) : Prop := s.c.stale = [] ∧ s.c.unjoined = [] ∧ s.bundle.pbuf = [] ∧ s.bundle.tpbuf = []

/-- All that reads may change of a state: which older values the focused context may still read, and the count of the free
values taken (R141, R277, R280). -/
def OnlyReads (s t : State) : Prop :=
  t = { s with c := { s.c with stale := t.c.stale, unjoined := t.c.unjoined }, fresh := t.fresh }

/-- All that performed stores may change of a state: memory, the bytes written of poisoned lines, which older values the
contexts, and readers of region blocks, may still read, which older code they may still fetch, and which releases an acquire
may meet (R28, R277, R281, R315, R345). -/
def OnlyStores (s t : State) : Prop :=
  t = { s with
    c := t.c, others := t.others, mem := t.mem, tok := { s.tok with poison := t.tok.poison }, rels := t.rels, unsys := t.unsys } ∧
  ∀ x, t.ctx x = { s.ctx x with stale := (t.ctx x).stale, unjoined := (t.ctx x).unjoined, code := (t.ctx x).code }

/-- All that translating addresses may change of a state: which translations the TLBs hold (R142). -/
def OnlyTlbs (s t : State) : Prop :=
  t = { s with cores := t.cores, pkg := { s.pkg with tlbs := t.pkg.tlbs } } ∧
  ∀ n, t.core n = { s.core n with tlb := (t.core n).tlb }

/-- All that stores through the scratchpad may change of a state: what performed stores may, and of the phase buffer the
stores that the context made before to some of the bytes through its own window, which are performed first (R277). -/
def OnlyLocalStores (s t : State) : Prop := OnlyStores s { t with c := { t.c with pbuf := s.c.pbuf } }

/-- All that homes may change of a state as an access made there ends: the needs of tokens and the persistent requests that
it fulfils (R303, R305). -/
def OnlyNeeds (s t : State) : Prop := t = { s with tok := { s.tok with needs := t.tok.needs, table := t.tok.table } }

/-- The state once an access through `a` has made its post-increment, if it has one: the advanced address and counters are
in flight (R131). -/
def State.Posted (s : State) (a : AReg) (post : Bool) (t : State) : Prop :=
  (post = false ∧ t = s) ∨
  (post = true ∧ ∃ d u, s.advance (s.gv a) (s.av a) = (.ok d, u) ∧
    t = u.withAdvance (if (s.gv a).idim ≤ 3 then 6 else 1) a a d)

/-- TVAL of a descriptor fault (R129). -/
def descTval (a : AReg) (reason : Nat) : Word := BitVec.ofNat 64 (0x8100000000000000 + 256 * a.val + reason)

/-- A context but for what accesses of others count and begin: the interrupts that a full counter raises (R465), and
whether a budget notice of the period has been given (R363). -/
def Ctx.Like (c d : Ctx) : Prop := d = { c with ipend := d.ipend, noticed := d.noticed }

/-- The package but for what an access to memory charges and counts: budgets and their period (R363), the counted events of the
clock (R463), the counters of the dies (R465). -/
def Pkg.charged (p q : Pkg) : Pkg :=
  { p with period := q.period, used := q.used, budgets := q.budgets, counted := q.counted, dctrs := q.dctrs }

/-- The launches but for what a new budget period changes: no saved context has had its notice (R363). -/
def State.LaunchesLike (s t : State) : Prop :=
  t.sched = s.sched ∨ t.sched = (s.mapSaved fun c => { c with noticed := false }).sched

/-- All that an operation of one context may change as it completes, beside that context: what it charges and counts, and
the needs of tokens and persistent requests that its access ends (R303, R305). -/
def OnlyContext (x : Nat) (s t : State) : Prop :=
  t = { s with
    c := t.c
    others := t.others
    sched := t.sched
    pkg := s.pkg.charged t.pkg
    tok := { s.tok with needs := t.tok.needs, table := t.tok.table } } ∧
  s.LaunchesLike t ∧ ∀ y, y ≠ x → (s.ctx y).Like (t.ctx y)

/-- All that reads of its scratchpad by the matrix unit for a context may change of a state: which older values that context
may still read (R141, R211, R280), and the free values drawn. -/
def OnlySeen (x : Nat) (s t : State) : Prop :=
  t = { s with c := t.c, others := t.others, fresh := t.fresh } ∧
  t.ctx x = { s.ctx x with stale := (t.ctx x).stale, unjoined := (t.ctx x).unjoined } ∧ ∀ y, y ≠ x → t.ctx y = s.ctx y

/-- All that a wait on memory that has ended may change of a state: which translations the TLBs hold, what its read is charged
(R363), and which older values its own context may still read (R280, R289). -/
def OnlyWaited (s t : State) : Prop :=
  t = { s with
    c := t.c
    others := t.others
    cores := t.cores
    sched := t.sched
    pkg := { s.pkg.charged t.pkg with tlbs := t.pkg.tlbs } } ∧
  s.LaunchesLike t ∧ Ctx.Like { s.c with stale := t.c.stale, unjoined := t.c.unjoined } t.c ∧
  (∀ y, y ≠ s.id → (s.ctx y).Like (t.ctx y)) ∧ ∀ n, t.core n = { s.core n with tlb := (t.core n).tlb }

/-- A Q operation accepted (R206, R217): it joins the context's operations, with the accumulators that it reads, the bytes that
its own bundle writes, none where that has written no memory (R276), and how long it holds its resource; and beside it only the core's array and
loader, what is charged for it and the counters may have changed. -/
def Accepted (s : State) (q : QOp) (t : State) : Prop :=
  (∃ q' : QOp, t.c.mq = s.c.mq ++ [q'] ∧
    q' = { q with accs := q'.accs, before := q'.before, arrayTo := q'.arrayTo, loaderTo := q'.loaderTo } ∧
    (∀ e ∈ q'.accs, e.2 = s.qNow.regs.c.get e.1) ∧ (s.noWrites = true → q'.before = [])) ∧
  t = { s with
    c := t.c
    others := t.others
    cores := t.cores
    sched := t.sched
    pkg := { s.pkg with period := t.pkg.period, used := t.pkg.used, budgets := t.pkg.budgets, counted := t.pkg.counted } } ∧
  s.LaunchesLike t ∧
  (∀ x, (s.ctx x).Like { t.ctx x with mq := (s.ctx x).mq } ∧ (x ≠ s.id → (t.ctx x).mq = (s.ctx x).mq)) ∧
  ∀ n, t.core n = { s.core n with
    arrayAt := (t.core n).arrayAt
    loaderAt := (t.core n).loaderAt
    window := (t.core n).window
    charged := (t.core n).charged
    evsel := (t.core n).evsel
    evcnt := (t.core n).evcnt }

/-- Memory after the stores of a phase buffer numbered up to `n` have been performed in order (R278). -/
def afterStores (m : Memory) (pb : List PStore) (n : Nat) : Memory :=
  (pb.filter fun e => e.seq ≤ n).foldl (fun m e => memSet m e.addr e.val) m

/-- All that performing and publishing stores of context x may change (R277, R278): memory and the bytes written of poisoned
lines, the tokens that the agents hold of what they write (R301), which older values may still be read and which releases
an acquire may meet, and what the stores charge and count; of another context only the older values and older code that it
may read (R28). -/
def Published (x : Nat) (s t : State) : Prop :=
  t = { s with
    c := t.c
    others := t.others
    mem := t.mem
    sched := t.sched
    tok := { s.tok with lines := t.tok.lines, needs := t.tok.needs, table := t.tok.table, poison := t.tok.poison }
    rels := t.rels
    unsys := t.unsys
    pkg := s.pkg.charged t.pkg } ∧
  s.LaunchesLike t ∧ ∀ y, y ≠ x → Ctx.Like { s.ctx y with stale := (t.ctx y).stale, code := (t.ctx y).code } (t.ctx y)

/-- Memory `n` is memory `m` with a little-endian number of `k` bytes at an address, and no other byte changed. -/
def Wrote (m n : Memory) (pa k v : Nat) : Prop :=
  memRead n pa k = v % 2 ^ (8 * k) ∧ ∀ a, (a < pa ∨ pa + k ≤ a) → memGet n a = memGet m a

/-- All that a step of the command processor may change beside what it writes: the queues and launches, and the needs of tokens
and the persistent requests that its accesses end (R301, R303, R305). -/
def OnlySched (s t : State) : Prop :=
  OnlyStores { s with sched := t.sched, tok := { s.tok with needs := t.tok.needs, table := t.tok.table } } t

/-- Entry i of queue q has started (R347, R348): READ is i + 1, and the entry stays live where it does not complete at
once. What the queues and launches have become aside, only performed stores have changed the state. -/
def Started (s : State) (q : Fin 64) (i : Nat) (stays : Bool) (t : State) : Prop :=
  OnlySched s t ∧
  Wrote s.mem t.mem ((s.sched.queues.get q).base.toNat + 8) 8 (i + 1) ∧
  ∀ n, t.sched.queues.get n = if n = q ∧ stays then { s.sched.queues.get q with live := (s.sched.queues.get q).live ++ [i] }
    else s.sched.queues.get n

/-- Queue q has halted on an entry of a type with a reason (R347, R352): ERROR names them, its interrupt is raised, and
READ stays at the entry. -/
def Halted (s : State) (q : Fin 64) (reason ty : Nat) (t : State) : Prop :=
  let k := s.sched.queues.get q
  OnlySched { s with pkg := { s.pkg with msix := s.pkg.msix ++ [(k.fn, q.val)] } } t ∧
  t.sched = { s.sched with queues := t.sched.queues } ∧
  Wrote s.mem t.mem (k.base.toNat + 0x10) 8 (2 ^ 63 + 256 * reason + ty) ∧
  ∀ n, t.sched.queues.get n = if n = q then { k with halted := true } else s.sched.queues.get n

/-- Memory m once the event at a physical address has been signalled (R291): COUNT is one more, and `err` sets ERR in its
second word; no event, or one on a poisoned line (R487), changes nothing. -/
def SignalledIn (s : State) (pa : Nat) (err : Bool) (m : Memory) : Prop :=
  (pa = 0 ∨ s.poisonIn pa 16 ≠ none → m = s.mem) ∧
  (pa ≠ 0 → s.poisonIn pa 16 = none →
    memRead m pa 8 = (memRead s.mem pa 8 + 1) % 2 ^ 64 ∧
    memRead m (pa + 8) 8 = (if err then memRead s.mem (pa + 8) 8 ||| 2 ^ 63 else memRead s.mem (pa + 8) 8) ∧
    ∀ a, (a < pa ∨ pa + 16 ≤ a) → memGet m a = memGet s.mem a)

/-- All that counting the events of dies may change of a state: their counters, and the pending interrupts of contexts, which a
full counter raises (R465). -/
def OnlyDieCounts (s t : State) : Prop :=
  t = { s with c := t.c, others := t.others, pkg := { s.pkg with dctrs := t.pkg.dctrs } } ∧
  ∀ x, t.ctx x = { s.ctx x with ipend := (t.ctx x).ipend }

/-- An event has been signalled, and its home has counted that (R465); else only performed stores have changed the state. -/
def Signalled (s : State) (pa : Nat) (err : Bool) (t : State) : Prop :=
  (∃ u, OnlyDieCounts s u ∧ OnlyStores u t) ∧ SignalledIn s pa err t.mem

/-- An arrival of n for tile task id (R355): the count of a live one falls by n unless it would fall below 0, and no other
count, task or launch changes; launches whose waits the spec calls met are spoken of. -/
def Arrived (s : State) (id n : Nat) (t : State) : Prop :=
  t.sched.queues = s.sched.queues ∧
  ∀ l ∈ s.sched.launches, l.tile = true → l.wait0 = 0 → l.wait1 = 0 → ∃ m ∈ t.sched.launches, m.id = l.id ∧
    m.tasks.map (fun e => (e.index, e.arg)) = l.tasks.map (fun e => (e.index, e.arg)) ∧
    ∀ (j i : Nat) (a : Word) (dep : BitVec 32) (since : Option Nat), l.tasks[j]? = some (⟨i, a, .waiting dep since⟩ : Task) →
      ∃ since', m.tasks[j]? = some (⟨i, a, .waiting
        (if (l.baseId.toNat + i) % 16384 = id ∧ n ≤ dep.toNat then dep - BitVec.ofNat 32 n else dep) since'⟩ : Task)

/-- An agent has sent another all its tokens of a line, with the data where the owner token is among them (R302, R305,
R306); it had none, or sends none to itself, and then nothing has been sent. No other line is touched. -/
def Gave (s : State) (who dst : Agent) (line : Nat) (t : State) : Prop :=
  let h := s.holdOf who line
  (h.count = 0 ∨ who = dst → t.tok.msgs = s.tok.msgs ∧ t.tok.lines = s.tok.lines) ∧
  (h.count ≠ 0 → who ≠ dst →
    t.tok.msgs = s.tok.msgs ++ [⟨dst, line, h.count, h.owner, h.owner, h.dirty⟩] ∧ (t.holdOf who line).count = 0) ∧
  ∀ a l, l ≠ line → t.holdOf a l = s.holdOf a l

/-- The rows of a stream start at an address and at those that advances of its descriptor give from there (R255). -/
def RowsBy (t : State) : Gen → Word → List Word → Prop
  | _, _, [] => True
  | _, x, [r] => r = x
  | g, x, r :: rest => r = x ∧ ∃ d u, t.advance g x = (.ok d, u) ∧ RowsBy t (g.advanced d.n d.ctr false) d.y rest

/-- Wherever a line's holders are recorded, its home does not hold all 16 tokens: the tag would be free (R309). -/
def State.Tagged (s : State) (line : Nat) : Prop :=
  ∀ l ∈ s.tok.lines, l.line = line → ∀ h ∈ l.holds, h.who = s.homeOf line → h.count ≠ 16

end Sys2Proof.Machine
end

