-- ==== Sys2Proof/Certificates/Slice0/Obligations.lean ====
section
/-! DEFINITION. The statements for the provers, from the numbered rules of the spec. In all of them `s` is the state in
which the slot that commits runs: `s.view` holds the registers as its bundle reads them (R36). -/

open Sys2Proof Sys2Proof.Machine

/-! ## Scalar instructions -/

/-- R95, R100: every SR integer instruction whose guard is true lands the result of the table, at its latency, and changes
nothing else; no flag is raised. MULH and MULHN are the high half of the exact product; the divisions have their two
corners; CLZ and POPC are said by the number itself. -/
def Obligations.IntegerResults : Prop :=
  ∀ (d a b : SReg) (g : Guard) (s : State), s.view.guard g = true →
    let x := s.view.sget a
    let y := s.view.sget b
    let r := fun (lat : Nat) (v : Word) => (.next (s.withResult lat (sWrite d v) 0) : Out)
    exec (.add d a b g) s = r 1 (BitVec.ofNat 64 (x.toNat + y.toNat)) ∧
    exec (.sub d a b g) s = r 1 (BitVec.ofInt 64 (x.toInt - y.toInt)) ∧
    exec (.mul d a b g) s = r 3 (BitVec.ofInt 64 (x.toInt * y.toInt)) ∧
    exec (.mulh d a b g) s = r 3 (BitVec.ofInt 64 (x.toInt * y.toInt / 2 ^ 64)) ∧
    exec (.mulhn d a b g) s = r 3 (BitVec.ofNat 64 (x.toNat * y.toNat / 2 ^ 64)) ∧
    exec (.div d a b g) s = r 12 (if y.toNat = 0 then 0xFFFFFFFFFFFFFFFF else BitVec.ofInt 64 (x.toInt.tdiv y.toInt)) ∧
    exec (.divn d a b g) s = r 12 (if y.toNat = 0 then 0xFFFFFFFFFFFFFFFF else BitVec.ofNat 64 (x.toNat / y.toNat)) ∧
    exec (.rem d a b g) s = r 12 (if y.toNat = 0 then x else BitVec.ofInt 64 (x.toInt.tmod y.toInt)) ∧
    exec (.remn d a b g) s = r 12 (BitVec.ofNat 64 (x.toNat % y.toNat)) ∧
    (∃ v : Word, exec (.and d a b g) s = r 1 v ∧ ∀ i, v.getLsbD i = (x.getLsbD i && y.getLsbD i)) ∧
    (∃ v : Word, exec (.or d a b g) s = r 1 v ∧ ∀ i, v.getLsbD i = (x.getLsbD i || y.getLsbD i)) ∧
    (∃ v : Word, exec (.xor d a b g) s = r 1 v ∧ ∀ i, v.getLsbD i = (x.getLsbD i != y.getLsbD i)) ∧
    exec (.shl d a b g) s = r 1 (BitVec.ofNat 64 (x.toNat * 2 ^ (y.toNat % 64))) ∧
    exec (.shr d a b g) s = r 1 (BitVec.ofNat 64 (x.toNat / 2 ^ (y.toNat % 64))) ∧
    exec (.sra d a b g) s = r 1 (BitVec.ofInt 64 (x.toInt / 2 ^ (y.toNat % 64))) ∧
    exec (.min d a b g) s = r 1 (BitVec.ofInt 64 (min x.toInt y.toInt)) ∧
    exec (.max d a b g) s = r 1 (BitVec.ofInt 64 (max x.toInt y.toInt)) ∧
    exec (.minn d a b g) s = r 1 (BitVec.ofNat 64 (min x.toNat y.toNat)) ∧
    exec (.maxn d a b g) s = r 1 (BitVec.ofNat 64 (max x.toNat y.toNat)) ∧
    (∃ n : Nat, exec (.clz d a g) s = r 1 (BitVec.ofNat 64 n) ∧ n ≤ 64 ∧ x.toNat < 2 ^ (64 - n) ∧
      (n < 64 → 2 ^ (63 - n) ≤ x.toNat)) ∧
    exec (.popc d a g) s = r 1 (BitVec.ofNat 64 ((List.range 64).map fun i => x.toNat / 2 ^ i % 2).sum)

/-- R96 to R98, R100: SEL, the immediate forms, MOVI and MOVK land their results and change nothing else, for every
operand; MOVK keeps the 48 bits that it does not name. -/
def Obligations.ImmediateAndSelectResults : Prop :=
  ∀ (d a b : SReg) (g : Guard) (imm : BitVec 13) (amt : BitVec 6) (k : BitVec 19) (q : BitVec 2) (v : BitVec 16)
    (s : State),
    let x := s.view.sget a
    let r := fun (lat : Nat) (v : Word) => (.next (s.withResult lat (sWrite d v) 0) : Out)
    exec (.sel d a b g) s = r 1 (if s.view.pget g.p != g.n then x else s.view.sget b) ∧
    exec (.addi d a imm) s = r 1 (BitVec.ofInt 64 (x.toInt + imm.toInt)) ∧
    (∃ w : Word, exec (.andi d a imm) s = r 1 w ∧
      ∀ i < 64, w.getLsbD i = (x.getLsbD i && imm.getLsbD (min i 12))) ∧
    (∃ w : Word, exec (.ori d a imm) s = r 1 w ∧
      ∀ i < 64, w.getLsbD i = (x.getLsbD i || imm.getLsbD (min i 12))) ∧
    (∃ w : Word, exec (.xori d a imm) s = r 1 w ∧
      ∀ i < 64, w.getLsbD i = (x.getLsbD i != imm.getLsbD (min i 12))) ∧
    exec (.shli d a amt) s = r 1 (BitVec.ofNat 64 (x.toNat * 2 ^ amt.toNat)) ∧
    exec (.shri d a amt) s = r 1 (BitVec.ofNat 64 (x.toNat / 2 ^ amt.toNat)) ∧
    exec (.srai d a amt) s = r 1 (BitVec.ofInt 64 (x.toInt / 2 ^ amt.toNat)) ∧
    exec (.muli d a imm) s = r 3 (BitVec.ofInt 64 (x.toInt * imm.toInt)) ∧
    exec (.movi d k) s = r 1 (BitVec.ofInt 64 k.toInt) ∧
    (∃ w : Word, exec (.movk d q v) s = r 1 w ∧
      ∀ i < 64, w.getLsbD i =
        if 16 * q.toNat ≤ i ∧ i < 16 * q.toNat + 16 then v.getLsbD (i - 16 * q.toNat)
        else (s.view.sget d).getLsbD i)

/-- R99, R100: a compare or a predicate instruction whose guard is true lands its predicate one schedule cycle after
issue, and changes nothing else. -/
def Obligations.PredicateResults : Prop :=
  ∀ (pd pa pb : PReg) (a b : SReg) (g : Guard) (alt na nb : Bool) (s : State), s.view.guard g = true →
    let x := s.view.sget a
    let y := s.view.sget b
    let p := s.view.pget pa != na
    let q := s.view.pget pb != nb
    let r := fun (v : Bool) => (.next (s.withResult 1 (pWrite pd v) 0) : Out)
    exec (.cmpeq pd a b g alt) s = r (decide (x.toNat = y.toNat) != alt) ∧
    exec (.cmplt pd a b g alt) s = r (if alt then decide (x.toInt ≤ y.toInt) else decide (x.toInt < y.toInt)) ∧
    exec (.cmpltn pd a b g alt) s = r (if alt then decide (x.toNat ≤ y.toNat) else decide (x.toNat < y.toNat)) ∧
    exec (.pand pd pa pb g na nb) s = r (p && q) ∧
    exec (.por pd pa pb g na nb) s = r (p || q) ∧
    exec (.pxor pd pa pb g na nb) s = r (p != q) ∧
    exec (.pmov pd pa g na) s = r p

/-- R101 to R103: the FP32 instructions whose guard is true. The exact result of the operands' values is rounded once,
to FP32, BF16 or a 64-bit integer, in the mode of the syllable; the register takes it zero-extended, at the
instruction's latency, with the flags of the operands and of the rounding. For finite operands whose exact sum or
product is not zero the exact result is said here as a rational. Of what it says the model's own choices are those of
log entries 14 and 87 (with s0 as destination the flags are raised though no register is written). -/
def Obligations.FloatResults : Prop :=
  ∀ (d a b : SReg) (g : Guard) (rm : Rm) (rel : FRel) (s : State), s.view.guard g = true →
    let x := f32Num ((s.view.sget a).setWidth 32)
    let y := f32Num ((s.view.sget b).setWidth 32)
    let z := f32Num ((s.view.sget d).setWidth 32)
    let r := fun (lat : Nat) (v : Word) (f : Flags) => (.next (s.withResult lat (sWrite d v) f) : Out)
    let once := fun (n : Machine.Num × Flags) =>
      r 4 (((Rec.f32 rm).encode n.1).1.setWidth 64) (n.2 ||| ((Rec.f32 rm).encode n.1).2)
    let keep := fun (n : Machine.Num × Flags) => r 4 (((Rec.f32 .rne).encode n.1).1.setWidth 64) n.2
    exec (.fadd d a b g rm) s = once (addOp (rm == .rdn) x y) ∧
    exec (.fsub d a b g rm) s = once (addOp (rm == .rdn) x (if y.isNaN then y else y.negate)) ∧
    exec (.fmul d a b g rm) s = once (mulOp x y) ∧
    exec (.ffma d a b g rm) s = once (fmaOp (rm == .rdn) x y z) ∧
    (∀ p q : Rat, x = .fin p → y = .fin q → p + q ≠ 0 → exec (.fadd d a b g rm) s = once (.fin (p + q), 0)) ∧
    (∀ p q : Rat, x = .fin p → y = .fin q → p - q ≠ 0 → exec (.fsub d a b g rm) s = once (.fin (p - q), 0)) ∧
    (∀ p q : Rat, x = .fin p → y = .fin q → exec (.fmul d a b g rm) s = once (.fin (p * q), 0)) ∧
    (∀ p q w : Rat, x = .fin p → y = .fin q → z = .fin w → p * q + w ≠ 0 →
      exec (.ffma d a b g rm) s = once (.fin (p * q + w), 0)) ∧
    exec (.fmin d a b g) s = keep (maxOp false x y) ∧
    exec (.fmax d a b g) s = keep (maxOp true x y) ∧
    (∀ p q : Rat, x = .fin p → y = .fin q → exec (.fmin d a b g) s = keep (.fin (min p q), 0)) ∧
    (∀ p q : Rat, x = .fin p → y = .fin q → exec (.fmax d a b g) s = keep (.fin (max p q), 0)) ∧
    exec (.fcmp d a b g rel) s = r 4 (if (cmpOp rel x y).1 then 1 else 0) (cmpOp rel x y).2 ∧
    exec (.fcvti d a g rm) s =
      r 2 (BitVec.ofInt 64 (toIntRange (-2 ^ 63) (2 ^ 63 - 1) rm x).1) (toIntRange (-2 ^ 63) (2 ^ 63 - 1) rm x).2 ∧
    (let n := Machine.Num.ofRat ((s.view.sget a).toInt : Rat)
     exec (.fcvtf d a g rm) s = r 2 (((Rec.f32 rm).encode n).1.setWidth 64) ((Rec.f32 rm).encode n).2) ∧
    exec (.fcvtb d a g rm) s = r 2 (((Rec.bf16 rm).encode x).1.setWidth 64) ((Rec.bf16 rm).encode x).2

/-- R59, R102: FCMP lands 1 when the relation holds and 0 otherwise, four schedule cycles after issue. With a NaN eq, lt and le
are false and un is true; eq and un raise invalid for a signalling NaN alone, lt and le for any NaN; the two zeros compare
equal; otherwise the relation is that of the values. Its word is format SR with opcode 0x48 and the relation in sub. Of what
it says the model's own choice is that of log entry 87 (with s0 as destination the flag is raised though no register is
written). -/
def Obligations.FcmpRelations : Prop :=
  ∀ (d a b : SReg) (g : Guard) (s : State),
    (∀ e ∈ [(0, FRel.eq), (1, FRel.lt), (2, FRel.le), (3, FRel.un)],
      decodeSlot .s (0x48 * 2 ^ 25 + d.val * 2 ^ 19 + a.val * 2 ^ 13 + b.val * 2 ^ 7 + g.p.val * 8 + g.n.toNat * 4 + e.1) =
        .ok (.fcmp d a b g e.2)) ∧
    (s.view.guard g = true →
    let x := f32Num ((s.view.sget a).setWidth 32)
    let y := f32Num ((s.view.sget b).setWidth 32)
    let nan := x.isNaN || y.isNaN
    let snan := x.isSNaN || y.isSNaN
    let r := fun (v : Bool) (nv : Bool) => (.next (s.withResult 4 (sWrite d (if v then 1 else 0)) (if nv then 16 else 0)) : Out)
    (nan = true → exec (.fcmp d a b g .eq) s = r false snan ∧ exec (.fcmp d a b g .lt) s = r false true ∧
      exec (.fcmp d a b g .le) s = r false true ∧ exec (.fcmp d a b g .un) s = r true snan) ∧
    (nan = false → exec (.fcmp d a b g .un) s = r false false ∧
      (∀ m n, x = .zero m → y = .zero n → exec (.fcmp d a b g .eq) s = r true false ∧
        exec (.fcmp d a b g .lt) s = r false false ∧ exec (.fcmp d a b g .le) s = r true false) ∧
      (x.isInf = false → y.isInf = false →
        exec (.fcmp d a b g .eq) s = r (decide (x.rat = y.rat)) false ∧
        exec (.fcmp d a b g .lt) s = r (decide (x.rat < y.rat)) false ∧
        exec (.fcmp d a b g .le) s = r (decide (x.rat ≤ y.rat)) false) ∧
      (∀ n, x = .inf n → y.isInf = false → exec (.fcmp d a b g .eq) s = r false false ∧
        exec (.fcmp d a b g .lt) s = r n false ∧ exec (.fcmp d a b g .le) s = r n false) ∧
      (∀ n, y = .inf n → x.isInf = false → exec (.fcmp d a b g .eq) s = r false false ∧
        exec (.fcmp d a b g .lt) s = r (!n) false ∧ exec (.fcmp d a b g .le) s = r (!n) false) ∧
      (∀ m n, x = .inf m → y = .inf n → exec (.fcmp d a b g .eq) s = r (m == n) false ∧
        exec (.fcmp d a b g .lt) s = r (m && !n) false ∧ exec (.fcmp d a b g .le) s = r (m || !n) false)))

/-- R104, R105: MOVLI and DCHK whose guard is true. MOVLI lands the iteration index of level L one schedule cycle after issue;
where L + 1 levels are not active, its slot faults 0x11 with L in TVAL[15:8] and 3 in TVAL[7:0]. DCHK does nothing where its
two scalars are equal; where they differ its slot faults 0x09 and TVAL is their exclusive or. A word of
either has format SR with opcode 0x50 or 0x51; one with a level above 5, or a field that must be 0 and is not, is reserved. -/
def Obligations.MovliAndDchk : Prop :=
  ∀ (d a b : SReg) (lvl : BitVec 6) (g : Guard) (sub : Fin 4) (s : State),
    let word := fun (op d a b sub : Nat) =>
      decodeSlot .s (op * 2 ^ 25 + d * 2 ^ 19 + a * 2 ^ 13 + b * 2 ^ 7 + g.p.val * 8 + g.n.toNat * 4 + sub)
    (lvl.toNat ≤ 5 → word 0x50 d.val lvl.toNat 0 0 = .ok (.movli d lvl g)) ∧
    (5 < lvl.toNat ∨ b ≠ 0 ∨ sub ≠ 0 → word 0x50 d.val lvl.toNat b.val sub.val = .error .reserved) ∧
    word 0x51 0 a.val b.val 0 = .ok (.dchk a b g) ∧
    (d ≠ 0 ∨ sub ≠ 0 → word 0x51 d.val a.val b.val sub.val = .error .reserved) ∧
    (s.view.guard g = true →
    (lvl.toNat ≤ 5 →
      (∀ l, s.view.loops[lvl.toNat]? = some l →
        exec (.movli d lvl g) s = .next (s.withResult 1 (sWrite d (BitVec.ofNat 64 l.index.toNat)) 0)) ∧
      (s.view.loops.length ≤ lvl.toNat →
        exec (.movli d lvl g) s = .next (s.slotFault 0x11 (BitVec.ofNat 64 (256 * lvl.toNat + 3))))) ∧
    (s.view.sget a = s.view.sget b → exec (.dchk a b g) s = .next s) ∧
    (s.view.sget a ≠ s.view.sget b →
      exec (.dchk a b g) s = .next (s.slotFault 0x09 (s.view.sget a ^^^ s.view.sget b))))
/-! ## The control slot -/

/-- R27, R106: a transfer replaces the next fetch address and changes nothing else; CALL also lands the address after the
bundle in s62, one schedule cycle after issue. BR transfers where its guard is true. A BRI or RET whose target has bit 0
set faults its slot with cause 0x0A and the target in TVAL. -/
def Obligations.TransfersSetTheFetchAddress : Prop :=
  ∀ (g : Guard) (off : BitVec 21) (r : SReg) (s : State),
    let rel := BitVec.ofInt 48 (s.bundle.pc.toNat + 2 * off.toInt)
    let upTo := fun (t : State) (a : VAddr) => ({ t with bundle := { t.bundle with target := a } } : State)
    (s.view.guard g = true → exec (.br g off) s = .next (upTo s rel)) ∧
    exec (.call off) s = .next (upTo (s.withResult 1 [.s 62 (BitVec.ofNat 64 s.bundle.np.toNat)] 0) rel) ∧
    (∀ (i : Instr) (x : Word), (i = .bri r ∧ x = s.view.sget r) ∨ (i = .ret ∧ x = s.view.sget 62) →
      (x.toNat % 2 = 0 → exec i s = .next (upTo s (BitVec.ofNat 48 x.toNat))) ∧
      (x.toNat % 2 = 1 → exec i s = .next (s.slotFault 0x0A (BitVec.ofNat 64 (x.toNat % 2 ^ 48)))))

/-- R107: LOOP with a count above 0 and a body that is not skip words alone pushes a level that starts after the bundle and
ends `len` code words later, with index 0; a count of 0 passes over the body. A body of skip words faults 0x11 with TVAL 4,
before the count is looked at; a seventh level faults 0x11 with TVAL 1. LOOPX removes the innermost level, and with none
active faults 0x11 with TVAL 2. Nothing else changes but, where LOOPX removes the level of the loop buffer's tag, the tag. -/
def Obligations.LoopsPushAndPop : Prop :=
  ∀ (n : BitVec 12) (r : SReg) (len : BitVec 13) (s : State),
    let fin := s.bundle.np + BitVec.ofNat 48 (2 * len.toNat)
    let upTo := fun (a : VAddr) => ({ s with bundle := { s.bundle with target := a } } : State)
    let push := fun (k : BitVec 32) =>
      ({ s with
        bundle := { s.bundle with target := s.bundle.np }
        c := { s.c with regs := { s.c.regs with loops := s.c.regs.loops ++ [⟨s.bundle.np, fin, k, 0⟩] } } } : State)
    (∀ (i : Instr) (k : BitVec 32), (i = .loopImm n len ∧ k.toNat = n.toNat) ∨
        (i = .loopReg r len ∧ k = (s.view.sget r).setWidth 32) →
      (s.onlySkips s.bundle.np fin = false → k ≠ 0 → s.c.regs.loops.length < 6 → exec i s = .next (push k)) ∧
      (s.onlySkips s.bundle.np fin = false → k = 0 → exec i s = .next (upTo fin)) ∧
      (s.onlySkips s.bundle.np fin = true → exec i s = .next (s.slotFault 0x11 4)) ∧
      (s.onlySkips s.bundle.np fin = false → k ≠ 0 → 6 ≤ s.c.regs.loops.length →
        exec i s = .next (s.slotFault 0x11 1))) ∧
    (∀ (ls : List Loop) (l : Loop), s.c.regs.loops = ls ++ [l] →
      exec .loopx s = .next { s with c := { s.c with
        regs := { s.c.regs with loops := ls }
        lbuf := if ls.length < s.c.lbuf.depth then LoopBuf.none else s.c.lbuf } }) ∧
    (s.c.regs.loops = [] → exec .loopx s = .next (s.slotFault 0x11 2))

/-- R111 to R118 (LBUF, MARKER, YIELD, EXIT, RFMODE, FMTBASE, TRACE): each completes in every state. LBUF tags the
next n bundles at the loop depth of the moment; YIELD and EXIT are noted until the bundle has committed; RFMODE moves
each cluster by the table of R115; FMTBASE lands FBASE one schedule cycle later; TRACE makes one record, which as its clock
is over enters its die's FIFO, or is counted as lost where the FIFO holds 1,024; MARKER computes nothing in supervisor mode, and below the
threshold nothing changes. Of what it says the model's own choices are those of log entry 8. -/
def Obligations.ControlEffects : Prop :=
  ∀ (n : BitVec 7) (e code : BitVec 26) (mask b : BitVec 4) (r : SReg) (kind : BitVec 8) (s : State),
    exec (.lbuf n) s = .next { s with c := { s.c with lbuf := ⟨n.toNat, s.c.regs.loops.length, []⟩ } } ∧
    exec .yield s = .next { s with bundle := { s.bundle with yields := true } } ∧
    exec (.exit code) s = .next { s with bundle := { s.bundle with exit := some code } } ∧
    (∃ k : Vector Cluster 4, exec (.rfmode mask) s = .next { s with c := { s.c with clusters := k } } ∧
      ∀ i : Fin 4, k.get i =
        match s.c.clusters.get i, mask.getLsbD i.val with
        | .awake, true => .awake
        | .asleep, true => .waking s.c.isSup (s.c.now + 32)
        | .waking p d, true => .waking p d
        | _, false => .asleep) ∧
    exec (.fmtbase b) s = .next (s.withResult 1 [.fbase b] 0) ∧
    (s.c.isSup = true → exec (.marker e) s = .next s) ∧
    (s.c.isSup = false →
      let drift := (BitVec.ofNat 26 (s.c.sc + s.c.stalled) - e).toInt
      (drift.natAbs ≤ s.c.sys.driftThresh.toNat → exec (.marker e) s = .next s) ∧
      (s.c.sys.driftThresh.toNat < drift.natAbs → ∃ t, exec (.marker e) s = .next t ∧
        t.c.sys = { s.c.sys with driftLast := BitVec.ofInt 64 drift } ∧ t.c.interlock = 256 ∧
        t.c.regs = s.c.regs ∧ t.c.flight = s.c.flight ∧ t.bundle = s.bundle)) ∧
    (let rec' := s.traceRec s.bundle.pc 0 (s.view.sget r) kind
     let d : Fin 8 := Fin.ofNat 8 (rec'.core.toNat / 40)
     let u : State := { s with pkg := { s.pkg with traced := [rec'], tick := s.pkg.tick + 1 } }
     let t := u.fifoFlush
     exec (.trace r kind) s = .next { s with pkg := { s.pkg with traced := s.pkg.traced ++ [rec'] } } ∧
       t = { u with pkg := { u.pkg with traced := [], traces := t.pkg.traces } } ∧
       ((s.pkg.traces.get d).fifo.length < 1024 →
         (t.pkg.traces.get d).fifo = (s.pkg.traces.get d).fifo ++ [rec'] ∧
         (t.pkg.traces.get d).ring0 = (s.pkg.traces.get d).ring0) ∧
       (1024 ≤ (s.pkg.traces.get d).fifo.length →
         (t.pkg.traces.get d).fifo = (s.pkg.traces.get d).fifo ∧
         (t.pkg.traces.get d).ring0.lost = (s.pkg.traces.get d).ring0.lost + 1))

/-- R119, R120, R463: SYSRD lands the register's value and SYSWR its write, one schedule cycle after issue, where the mode
may access the register: in task mode all but TSTATUS to TSCRATCH, ERRBASE and the breakpoints. A task's access to one of
those is the slot fault 0x0E, with the register, the slot and the opcode in TVAL. A write of QUANTUM by a task does
nothing. A core event counter (EVCNT0 to EVCNT7, 0x088 to 0x08F) is written at once and no result lands: the counters, and
the interrupts that a full counter raises, are all that changes. -/
def Obligations.SystemRegisterAccess : Prop :=
  ∀ (r : SReg) (num : BitVec 12) (s : State),
    let n := num.toNat
    let barred := s.c.isSup = false ∧ (n ≤ 5 ∨ n = 0x00A ∨ (0x0A0 ≤ n ∧ n ≤ 0x0A7))
    let val := fun (op : Nat) => BitVec.ofNat 64 (n * 2 ^ 12 + s.bundle.slot * 2 ^ 8 + op)
    (¬barred → exec (.sysrd r num) s = .next (s.withResult 1 (sWrite r (s.sysRead num)) 0)) ∧
    (barred → exec (.sysrd r num) s = .next (s.slotFault 0x0E (val 0x0D))) ∧
    (barred → exec (.syswr r num) s = .next (s.slotFault 0x0E (val 0x0E))) ∧
    (¬barred → ¬(0x088 ≤ n ∧ n < 0x090) → ¬(n = 9 ∧ s.c.isSup = false) →
      exec (.syswr r num) s = .next (s.withResult 1 [.sys num (s.view.sget r)] 0)) ∧
    (n = 9 → s.c.isSup = false → exec (.syswr r num) s = .next s) ∧
    (0x088 ≤ n → n < 0x090 → ∃ t, exec (.syswr r num) s = .next t ∧ OnlyCounts s t)

/-- R120, R122, R367: what a SYSWR has landed, SYSRD reads: the register's own bits of the value written, for every
register that software writes and that is the context's own. -/
def Obligations.AWrittenSystemRegisterReadsBack : Prop :=
  ∀ (v : Word) (s : State),
    let read := fun (num : BitVec 12) =>
      let t : State := { s with c := s.c.applyWrite (.sys num v) }
      ({ t with bundle := { t.bundle with view := t.c.regs } } : State).sysRead num
    read 0x001 = v &&& 0xFF ∧ read 0x002 = v &&& 0xFFFFFFFFFFFF ∧ read 0x003 = v ∧
    read 0x004 = v &&& 0xFFFFFFFFFFFF ∧ read 0x005 = v ∧ read 0x006 = v &&& 0x1F ∧ read 0x007 = v &&& 1 ∧
    read 0x008 = v &&& 0xF ∧ read 0x009 = (if v.toNat < 64 then 64 else v) ∧ read 0x00A = v ∧
    read 0x090 = v &&& 0xFFFFFFFF ∧
    (∀ i : Fin 16, read (BitVec.ofNat 12 (0x040 + i.val)) = v) ∧
    (∀ i : Fin 32, read (BitVec.ofNat 12 (0x050 + i.val)) = v) ∧
    (∀ i : Fin 8, read (BitVec.ofNat 12 (0x0A0 + i.val)) = v &&& 0x0001FFFFFFFFFFFF) ∧
    (read 0x000).getLsbD 4 = v.getLsbD 4 ∧ (read 0x000).extractLsb' 0 4 = v.extractLsb' 0 4 ∧
    (read 0x000).getLsbD 5 = (v.getLsbD 5 && s.c.held.isSome)

/-! ## Taking an exception and returning from one -/

/-- R370, R371, R376: a slot fault taken in task mode with a handler. The cause, TVAL and the PC of the bundle are
saved; the slot that faulted is recorded, and what the uncommitted slots read is held; the results in flight, the
loops, the tags and the schedule history are set aside; the supervisor starts at TVEC, at its cycle 0, with no loop
and no result in flight; the bundle is over; the core is busy for 4 clock cycles, which it is held for and which stall the
task. Every register but the loop stack,
every other field of the context and every byte of memory is as before, but for what counting the entry does. With no
handler, or in supervisor mode, a trap or fault ends the task: the context stops issuing and drains with the exit code
0x200_0000 + 256 × cause (R376). Of what it says the model's own choices are those of log entries 18 and 24. -/
def Obligations.AFaultEntersTheHandler : Prop :=
  ∀ (cause : BitVec 8) (val : Word) (s : State),
   (s.c.sys.tvec = 0 ∨ s.c.isSup = true →
    let code := BitVec.ofNat 26 (0x2000000 + 256 * cause.toNat)
    s.slotFault cause val = { s with
      bundle := Bundle.none
      c := { s.c with mode := .exiting code true, pc := s.bundle.pc } } ∧
    ∀ pc : VAddr, s.issueTrap pc cause val = { s with
      bundle := Bundle.none
      c := { s.c with mode := .exiting code true, pc := pc } }) ∧
   (s.c.sys.tvec ≠ 0 → s.c.isSup = false →
    OnlyCounts
      { s with
        bundle := Bundle.none
        cores := alSet s.cores (s.id / 4)
          { s.core (s.id / 4) with
            readyAt := max (s.core (s.id / 4)).readyAt s.pkg.tick + 4 * s.clk
            paidTo := max (s.core (s.id / 4)).readyAt s.pkg.tick + 4 * s.clk
            held := (s.core (s.id / 4)).held + 4 }
        c := { s.c with
          sys := { s.c.sys with
            tcause := cause, tval := val, tepc := s.bundle.pc, slotv := true, slot := BitVec.ofNat 4 s.bundle.slot }
          held := some ⟨s.bundle.view, s.bundle.table, s.bundle.tpbuf⟩
          stalled := s.c.stalled + 4
          split := some ⟨s.bundle.pc, s.bundle.target, s.bundle.exit, s.bundle.yields⟩
          aside := some ⟨s.c.regs.loops, s.c.lbuf, s.c.flight, s.c.hist⟩
          regs := { s.c.regs with loops := [] }
          lbuf := LoopBuf.none
          flight := []
          hist := Hist.none
          priv := .sup
          ssc := 0
          pc := s.c.sys.tvec } }
      (s.slotFault cause val))

/-- R114, R117, R380, R381: TRAP and BKPT with a later slot in the bundle enter the handler at once, with that slot to
resume at and the bundle's PC saved; as the last slot they are taken as the bundle closes. ERET in supervisor mode is noted
until the bundle has committed; in task mode its slot faults 0x0E. -/
def Obligations.SoftwareTrapsAndEret : Prop :=
  ∀ (code : BitVec 26) (s : State),
    (∀ b i rest, s.bundle.slots = (b, i) :: rest →
      let at' := some (b, (⟨s.bundle.view, s.bundle.table, s.bundle.tpbuf⟩ : Held),
        (⟨s.bundle.pc, s.bundle.target, s.bundle.exit, s.bundle.yields⟩ : Split))
      exec (.trap code) s = .next (s.enter 0x0F (BitVec.ofNat 64 code.toNat) s.bundle.pc false at') ∧
      exec (.bkpt code) s = .next (s.enter 0x10 (BitVec.ofNat 64 code.toNat) s.bundle.pc false at')) ∧
    (s.bundle.slots = [] →
      exec (.trap code) s =
        .next { s with bundle := { s.bundle with soft := some (0x0F, BitVec.ofNat 64 code.toNat) } } ∧
      exec (.bkpt code) s =
        .next { s with bundle := { s.bundle with soft := some (0x10, BitVec.ofNat 64 code.toNat) } }) ∧
    (s.c.isSup = true → exec .eret s = .next { s with bundle := { s.bundle with eret := true } }) ∧
    (s.c.isSup = false →
      exec .eret s = .next (s.slotFault 0x0E (BitVec.ofNat 64 (s.bundle.slot * 2 ^ 8 + 0x0C))))

/-- R381, R366: a bundle that closes with ERET returns to the task: fetch goes to TEPC in task mode, the task's loops,
tags and history come back, and its results in flight as they stood at the entry; its schedule time has not moved; the
supervisor's results have all landed first, its loops are gone, and no breakpoint matches the first attempt. Of what
it says the model's own choices are those of log entries 8, 18 and 69. The phase buffer is not full, so that none of its
stores drains early. -/
def Obligations.EretReturnsToTheTask : Prop :=
  ∀ (a : Aside) (s : State), s.bundle.isOpen = true → s.bundle.eret = true → s.bundle.exit = none →
    s.c.isSup = true → s.c.aside = some a → s.c.pbuf.length ≤ 0x8000 →
    let t := s.closeBundle
    t.c.priv = .task ∧ t.c.pc = t.c.sys.tepc ∧ t.c.regs.loops = a.loops ∧ t.c.lbuf = a.lbuf ∧ t.c.flight = a.flight ∧
    t.c.hist = a.hist ∧ t.c.aside = none ∧ t.c.sc = s.c.sc ∧ t.c.bpSkip = true ∧ t.bundle = Bundle.none ∧ t.mem = s.mem ∧
    (s.c.flight = [] → t.c.sys = s.c.sys ∧ t.c.held = s.c.held ∧ t.c.regs.s = s.c.regs.s ∧ t.c.regs.p = s.c.regs.p ∧
      t.c.regs.a = s.c.regs.a ∧ t.c.regs.c = s.c.regs.c)


/-! ## Encodings, steps and reset -/

/-- The words that the spec writes out, read by the slots they are for: all of R154, R342, R382 and R469, and some of R200, R397
and R421. -/
def Obligations.WordsOfTheSpec : Prop :=
  decodeSlot .m 0x0421F000 = .ok (.tld 1 ⟨0, 31, false, ⟨0, false⟩⟩) ∧
  decodeSlot .m 0x0843F000 = .ok (.tst 2 ⟨1, 31, false, ⟨0, false⟩⟩ 0) ∧
  decodeSlot .m 0x0C682C00 = .ok (.tldl 3 ⟨4, 2, true, ⟨0, false⟩⟩ true) ∧
  decodeSlot .f 0x05491F00 = .ok (.fexp2 10 ⟨9, 0⟩ ⟨31, 0, 0⟩) ∧
  decodeSlot .f 0x118B4324 = .ok (.frsqrt 12 ⟨11, 2⟩ ⟨3, 1, 2⟩) ∧
  decodeSlot .q 0x20017FE00000 = .ok (.mmact 0 ⟨0, 2⟩ 31 31 ⟨0, 0, 0⟩ 0) ∧
  decodeSlot .v 0x60940001CF80 = .ok (.rrot 9 ⟨8, 0⟩ 0 7 ⟨31, 0, 0⟩) ∧
  decodeSlot .v 0xC88000000F80 = .ok (.treebias 8 0 0) ∧
  decodeSlot .c 0x2C000005 = .ok (.trap 5) ∧
  decodeSlot .c 0x34500100 = .ok (.sysrd 5 0x001) ∧
  decodeSlot .c 0x38900000 = .ok (.syswr 9 0x000) ∧
  decodeSlot .c 0x34600300 = .ok (.sysrd 6 0x003) ∧
  decodeSlot .c 0x38700200 = .ok (.syswr 7 0x002) ∧
  decodeSlot .f 0x07151F00 = .ok (.fexp2 24 ⟨21, 0⟩ ⟨31, 0, 0⟩) ∧
  decodeSlot .c 0x1400C00F = .ok (.loopImm 6 15) ∧
  decodeSlot .v 0xCCB005800F80 = .ok (.treeprune 11 22 0 0) ∧
  decodeSlot .c 0x200000C9 = .ok (.marker 201) ∧
  decodeSlot .c 0x38308000 = .ok (.syswr 3 0x080) ∧
  decodeSlot .c 0x34408800 = .ok (.sysrd 4 0x088) ∧
  decodeSlot .c 0x14008014 = .ok (.loopImm 4 20) ∧
  decodeSlot .a 0x41A10641 = .ok (.ld 26 ⟨1, ⟨0, false⟩, 3, false, true, 1⟩ false) ∧
  decodeSlot .a 0x1D2D0000 = .ok (.aidx 4 11 16 ⟨0, false⟩) ∧
  decodeSlot .m 0xA005301D = .ok (.amo 0 5 12 0 1 3 1) ∧
  decodeSlot .m 0x45ADC640 = .ok (.copyg ⟨26, 13, 12, 25⟩ 0) ∧
  decodeSlot .m 0x50000002 = .ok (.engrs 2) ∧
  decodeSlot .m 0xE0A232C0 = .ok (.send ⟨10, 2, 3, 11⟩ 0) ∧
  decodeSlot .m 0xF01C0304 = .ok (.rpost 7 12 4) ∧
  decodeSlot .m 0xEC000003 = .ok (.fbar 3) ∧
  decodeSlot .c 0x48500007 = .ok (.trace 5 7) ∧
  decodeSlot .c 0x44000003 = .ok (.bkpt 3)

/-- R45 to R68: every well-formed syllable, with every operand that its encoding admits, encodes to a word of its slot's
width that decodes to it again: no bit of an operand is dropped, and no two instructions share a word. -/
def Obligations.AnEncodedSyllableDecodesToItself : Prop :=
  ∀ (i : Instr) (k : SlotKind) (w : Nat), i.wf = true → encode i = some (k, w) →
    w < 2 ^ (16 * slotWords k) ∧ decodeSlot k w = .ok i

/-- R45 to R68: a word that decodes is the one encoding of what it decodes to, which holds no reserved operand: every bit
of the word is an operand, the opcode or a constant that decoding has checked. -/
def Obligations.ADecodedWordIsTheEncoding : Prop :=
  ∀ (i : Instr) (k : SlotKind) (w : Nat), w < 2 ^ (16 * slotWords k) → decodeSlot k w = .ok i →
    i.unreserved = true ∧ encode i = some (k, w)

/-- A step is the move of the agenda's first entry, or where it is empty the default move; a move executes its
instruction, once the results that each context has reached have landed (the issue of a bundle sees to its own), and commits the bundle that this opens: its slots in order, each by its own execution and with the slots
after it still to commit, until none is left or the bundle has ended; then it closes. A slot that is the first to read a
register which a poisoned load left busy faults in its place. After every step the holders of cores are charged for the
clock cycles that have passed, what awaits the end of a clock goes on, what has become ready is noted, and commands kept for
queues and armed sends that are due go on; where there is none of these nothing follows. Of what it says the model's own
choices are those of log entries 1, 17, 39, 48 and 89. -/
def Obligations.AStepExecutesOneMove : Prop :=
  ∀ (s : State),
    (∀ i m rest, s.agenda = (i, m) :: rest → step s = runMove i { s with agenda := rest, move := m }) ∧
    (s.agenda = [] → step s = runMove s.defaultMove.1 { s with move := s.defaultMove.2 }) ∧
    (∀ i t, exec i (s.before i) = .next t → runMove i s = followed (commitSlots t.bundle.slots t)) ∧
    s.before .issueBundle = s ∧
    (∀ i, (∀ e ∈ s.allCtx, ∀ l ∈ (s.ctx e.1).flight, s.reached (s.ctx e.1) < l.due) → s.before i = s) ∧
    followed (.next s) = .next s.after ∧ (∀ f, followed (.fault f) = .fault f) ∧
    ((∀ e ∈ s.cores, (s.pkg.tick - (s.core e.1).paidTo) / s.clk = 0) → s.pkg.counted = [] → s.pkg.traced = [] →
      s.pkg.drifts = [] → s.sched.cmds = [] → s.sched.launches = [] → (∀ a ∈ s.fab.armed, a.due = false) → s.after = s) ∧
    (∀ i f, exec i (s.before i) = .fault f → runMove i s = .fault f) ∧
    (s.bundle.isOpen = true → commitSlots [] s = .next s.closeBundle) ∧
    (∀ slots, s.bundle.isOpen = false → commitSlots slots s = .next s) ∧
    (∀ b i rest, s.bundle.isOpen = true →
      let u : State := { s with bundle := { s.bundle with slot := b, slots := rest } }
      let reads := fun (e : Nat × SReg × BitVec 64) => s.bundle.bad = some e ∧ e.1 = b
      ((∀ e, ¬reads e) →
        (∀ t, exec i u = .next t → commitSlots ((b, i) :: rest) s = commitSlots rest t) ∧
        (∀ f, exec i u = .fault f → commitSlots ((b, i) :: rest) s = .fault f)) ∧
      ∀ e, reads e → commitSlots ((b, i) :: rest) s =
        .next (({ u with c := { u.c with spoison := u.c.spoison.filter fun p => p.1 != e.2.1 } } : State).slotFault 0x14 e.2.2))

/-- R34, R36, R43: a step runs the decoded bundle. The focused context holds its core and runs a task; its core switches to
no other context, and at the boundary no debug stop, pre-emption, interrupt, breakpoint or resumption comes first. Where the
die's L2 has the tokens to fetch it and for what it needs, and the bundle at the program counter passes its checks and waits
for nothing, the step commits the instructions that its words decode to, from the state in which the bundle is open: they
read the registers of this moment, with the results that are due, and its memory, once the records of a clock that is over
have entered their rings. With one syllable, the step is the execution of its instruction, and the
close of the bundle. Of what it says the model's own choices are those of log entries 1, 21, 39 and 89. -/
def Obligations.AStepRunsTheDecodedBundle : Prop :=
  ∀ (f : Fetched) (slots : List (Nat × Instr)) (m : Move) (rest : List (Instr × Move)) (s : State),
    let v : State := { s with agenda := rest, move := m }
    let u := v.boundary
    let l2 := l2Of (coreOf u.id)
    let lines := if u.coherent then u.fetchLines else []
    let w := u.needMet l2 lines false
    let needs := w.bundleNeeds f slots
    let opened := (w.needsMet needs).openBundle f slots none none
    let t := ({ opened with c := { opened.c with hist := u.c.histAfter slots } } : State).dropAsker (.bundle u.id)
    s.agenda = (.issueBundle, m) :: rest → m.x = s.id → (s.core (s.id / 4)).holder.val = s.id % 4 →
    s.pkg.stage ≠ 0xE → s.c.task.isSome = true → s.c.mode = .run → u.c.task.isSome = true → u.c.mode = .run →
    ((s.core (s.id / 4)).held < s.c.sys.quantum.toNat ∨ v.nextReady = none) →
    u.c.debugReq = false → u.c.preemptReq = false →
    u.breakpoint = none → (u.c.isSup = true ∨ (u.c.ipend = [] ∧ u.c.sys.slotv = false)) → u.c.pc.getLsbD 0 = false →
    w.missing l2 lines false = none → w.fetch = .ok f → u.c.issueChecks f = .ok slots → fbarOf slots = none →
    w.bundleWait false slots = none → (∀ n ∈ needs, w.canUse n.who n.line n.write = true) →
    step s = followed (commitSlots slots t) ∧
    t.bundle.isOpen = true ∧ t.bundle.view = (u.landRest.c.joinReads u.id slots).regs ∧
    ((∀ r ∈ s.pkg.drifts, u.pkg.tick ≤ r.clock) → t.bundle.mem = u.mem) ∧
    t.bundle.pc = f.pc ∧ t.bundle.np = f.np ∧ t.bundle.target = f.np ∧
    (∀ b i r, slots = [(b, i)] → t.bundle.bad = none →
      exec i { t with bundle := { t.bundle with slot := b, slots := [] } } = .next r →
      step s = .next (if r.bundle.isOpen then r.closeBundle else r).after)

/-- R33, R39, R40: what a bundle that passes its checks is made of: header bits 15 and 14 are zero; its instructions are those
of the slots present, in commit order, each decoded from the words of its own slot, so that nothing between them is left
out; every port is 0 to 5, and none is used twice in the bundle. -/
def Obligations.IssuedSlotsAreTheDecodedWords : Prop :=
  ∀ (c : Ctx) (f : Fetched) (slots : List (Nat × Instr)), c.issueChecks f = .ok slots →
    let h := f.words.headD 0
    h < 2 ^ 14 ∧ slots.map (·.1) = presentOf h ∧
    List.Forall₂ (fun e d => e.1 = d.1 ∧ decodeAt d.1 d.2 = .ok e.2) slots (cutSlots (presentOf h) (f.words.drop 1)) ∧
    (slots.flatMap fun e => e.2.ports).Nodup ∧ ∀ e ∈ slots, ∀ p ∈ e.2.ports, p.toNat ≤ 5

/-- R43: a bundle that fails several checks takes the first trap in the order 0x02, 0x03, 0x05, 0x04: an illegal bundle
whatever else it fails, then an illegal schedule, then a tile of a sleeping cluster, then an early read. -/
def Obligations.ChecksApplyInOrder : Prop :=
  ∀ (c : Ctx) (f : Fetched) (slots : List (Nat × Instr)),
    (∀ b r, bundleCheck c.regs f = .error (b, r) → c.issueChecks f = .error (0x02, BitVec.ofNat 64 (256 * b + r))) ∧
    (bundleCheck c.regs f = .ok slots →
      (∀ v, c.scheduleCheck slots = some v → c.issueChecks f = .error (0x03, BitVec.ofNat 64 v)) ∧
      (c.scheduleCheck slots = none →
        (∀ b t, c.sleepCheck slots = some (b, t) → c.issueChecks f = .error (0x05, BitVec.ofNat 64 (256 * b + t.val))) ∧
        (c.sleepCheck slots = none →
          (∀ b r, c.earlyCheck slots = some (b, r) → ∃ v, c.issueChecks f = .error (0x04, v)) ∧
          (c.earlyCheck slots = none → c.issueChecks f = .ok slots))))

/-- R34, R106, R108: a bundle that ends with no transfer of control to the supervisor or away from the task. Fetch goes on
where the end check leads from its target: it is the target itself where no level is active or the innermost level's END is
elsewhere; at END a level with an iteration to go counts it and starts again, and one without is left, END being checked
against the level outside it. The schedule time of the level moves on by 1 + STALL; no register but the loop stack and no
byte of memory changes, where the phase buffer is not full. -/
def Obligations.ABundleClosesWithTheEndCheck : Prop :=
  ∀ (s : State), s.bundle.isOpen = true → s.bundle.exit = none → s.bundle.eret = false → s.bundle.soft = none →
    s.bundle.yields = false → s.c.pbuf.length ≤ 0x8000 →
    let t := s.closeBundle
    let r := s.endCheck s.c.regs.loops.reverse s.bundle.target
    t.bundle = Bundle.none ∧ t.c.pc = r.2 ∧ t.c.regs = { s.c.regs with loops := r.1.reverse } ∧
    t.c.sc = s.c.sc + (if s.c.isSup then 0 else 1 + s.bundle.stall) ∧
    t.c.ssc = s.c.ssc + (if s.c.isSup then 1 + s.bundle.stall else 0) ∧
    t.c.flight = s.c.flight ∧ t.c.sys = s.c.sys ∧ t.c.priv = s.c.priv ∧ t.mem = s.mem ∧
    (∀ f, s.endCheck [] f = ([], f)) ∧
    (∀ l ls f, f ≠ l.fin → s.onlySkips f l.fin = false → s.endCheck (l :: ls) f = (l :: ls, f)) ∧
    (∀ l ls, l.index.toNat + 1 < l.count.toNat →
      s.endCheck (l :: ls) l.fin = ({ l with index := l.index + 1 } :: ls, l.start)) ∧
    (∀ l ls, l.count.toNat ≤ l.index.toNat + 1 → s.endCheck (l :: ls) l.fin = s.endCheck ls l.fin) ∧
    (∀ l ls f, s.onlySkips f l.fin = true → s.endCheck (l :: ls) f = s.endCheck (l :: ls) l.fin)

/-- R445, R449, R451: the machine after package reset is in stage 1 at 600 MHz, with the first 256 MiB present and of
the cores those of 0 to 7 of CD0 alone; no context holds a task, no queue is enabled, no launch is in progress, every
token is at its home, no byte of memory is written, nothing is on the agenda. Of what it says the model's own choices
are those of log entries 1 and 3. -/
def Obligations.AfterReset : Prop :=
  let s := State.reset
  s.pkg.stage = 1 ∧ s.pkg.clock = 600 ∧ s.pkg.go = false ∧ s.time = 0 ∧ s.pkg.slewRate = 200 ∧
  (∀ pa, s.place pa = .hbm ↔ pa < 0x10000000) ∧ (∀ n, s.coreHere n = true ↔ n < 8) ∧
  (∀ x, (s.ctx x).task = none) ∧ (∀ q : Fin 64, (s.sched.queues.get q).en = false) ∧
  s.sched.launches = [] ∧ s.tok.lines = [] ∧ s.agenda = [] ∧ s.bundle.isOpen = false ∧ ∀ a, memGet s.mem a = 0

/-- R93, R120, R126, R163, R168, R189, R204, R227, R320: the registers of a context as created. -/
def Obligations.AFreshContext : Prop :=
  let r := Regs.fresh
  (∀ i, r.pget i = decide (i.val = 0)) ∧ (∀ i : Fin 16, r.a.get i = 0 ∧ (r.ag.get i).ctrl = 0x70) ∧
  (∀ x, r.xget x = ⟨Grid.zero, 15, 63, .f32, Lat.id, false, none⟩) ∧
  (∀ i, r.kget i = if i.val = 0 then Mask.ones else Mask.zero) ∧
  (∀ i : Fin 16, (r.lv.get i).isOpen = false ∧ (r.lv.get i).pend = 0 ∧ (r.lv.get i).err = false ∧
    (r.lv.get i).e = .replicate 64 0) ∧
  (∀ n : Fin 4, ∀ j : Fin 64, ((r.xp.get n).get j).toNat = j.val) ∧
  (∀ n : Fin 64, r.tree.get n = ⟨0, decide (n.val = 0), 0, 0, false⟩) ∧ r.fbase = 0 ∧ r.loops = []

/-- The invariant of runs holds at reset: memory is in its canonical form and no bundle is open. Of what it says the
model's own choices are those of log entry 3. -/
def Obligations.TheInvariantHoldsAtReset : Prop := State.reset.Inv

/-- Every step keeps the invariant of runs, whatever instruction moves: memory stays in its canonical form (addresses
rise, and no byte is listed that an unlisted one reads as), and no bundle is left open. Of what it says the model's
own choices are those of log entry 3. -/
def Obligations.EveryStepKeepsTheInvariant : Prop :=
  ∀ (s t : State), s.Inv → step s = .next t → t.Inv

/-- No instruction stops the machine: whatever the state, each goes on to a next state, and so does every step. An address
that is not present, a queue's among them, is a trap of the context, or no effect of the command processor (R18, R347). Of
what it says the model's own choices are those of log entry 48. -/
def Obligations.NothingStopsTheMachine : Prop :=
  (∀ (i : Instr) (s : State), ∃ t, exec i s = .next t) ∧ ∀ s : State, ∃ t, step s = .next t

/-- R47, R93: a syllable whose guard is false commits nothing: no result, no flag, no fault, no store and no command. -/
def Obligations.AFalseGuardCommitsNothing : Prop :=
  ∀ (i : Instr) (s : State), (encode i).isSome = true → s.view.guard i.guard = false → exec i s = .next s

/-! ## Results in flight -/

/-- R37, R125: the results in flight stand in the order in which they land: an insertion loses none and keeps the order, and
those that are due land first to last, the others staying as they are, but for one that is due at the very cycle at which its
bundle waits, whose register an operation with hidden latency has still to write. Of two advances of one register that would land at one
cycle from different bundles, the earlier gives way, whole; nothing else does. A landing raises its flags, also where a write
of it is discarded. Of what it says the model's own choices are those of log entries 84, 88 and 89. -/
def Obligations.ResultsLandInOrder : Prop :=
  (∀ (l : Landing) (ls : List Landing), InOrder ls →
    InOrder (insertLanding l ls) ∧ (insertLanding l ls).Perm (l :: ls) ∧ InOrder (ls.map fun k => k.yieldTo l)) ∧
  (∀ (k l : Landing) (a : AReg) (v : Word), (k.due ≠ l.due ∨ k.seq = l.seq ∨ a ∉ l.advances → .a a v ∈ k.writes →
      .a a v ∈ (k.yieldTo l).writes) ∧
    (k.due = l.due → k.seq ≠ l.seq → a ∈ k.advances → a ∈ l.advances →
      .a a v ∉ (k.yieldTo l).writes ∧ a ∉ (k.yieldTo l).advances)) ∧
  (∀ c : Ctx, InOrder c.flight →
    c.landDue = { (c.flight.filter fun l => l.due ≤ c.now).foldl Ctx.applyLanding c with
      flight := c.flight.filter fun l => c.now < l.due }) ∧
  (∀ (c : Ctx) (sc : Nat),
    let lands := fun (l : Landing) => decide (l.due ≤ sc) &&
      !(decide (l.due = c.now) && l.writes.any fun w => match w with
        | .s d _ => c.sBusy d
        | _ => false)
    c.landBy sc = { (c.flight.filter lands).foldl Ctx.applyLanding c with flight := c.flight.filter fun l => !lands l }) ∧
  (∀ (c : Ctx) (l : Landing), c.applyLanding l =
    { l.writes.foldl Ctx.applyWrite c with
      sys := { (l.writes.foldl Ctx.applyWrite c).sys with
        fflags := (l.writes.foldl Ctx.applyWrite c).sys.fflags ||| l.flags } })

/-- R92, R93, R118, R124, R126 to R128, R153, R166, R169, R190, R232, R235 to R237, R320: a result that lands changes its
destination and no other register: a scalar register that no pending operation holds; a predicate; an address register, also by
AGSET of ADDR; a field of a descriptor (which reads back as its low bits, PITCH sign-extended); the counters of the dimensions
that an advance walked, with WRAP where it wrapped; the bits of a mask; the containers, type and latent slots, the latent slots
alone, the shape and type, or the POISON of a tile or accumulator whose cluster is awake; the entries of a latent vector;
the token tree; a crossbar pattern; FBASE. s0, p0 and k0 take nothing. A write of all 1,024 containers clears the marks of
a tile, and no other does. A close of a latent vector finds PEND at 0, and then scales each entry, with its flags, and clears
OPEN, or finds it above, and then is deferred: it sets CLOSING and keeps the scale, and the command that takes PEND to 0 scales
and closes with no flag. Every other register, every system register and everything in flight stays. Of what it says the
model's own choices are those of log entry 13. -/
def Obligations.ALandingWritesItsDestinationAlone : Prop :=
  ∀ (c : Ctx),
    (∀ (d : SReg) (v : Word), c.sBusy d = false →
      let t := c.applyWrite (.s d v)
      (∀ r, t.regs.sget r = if r = d ∧ d ≠ 0 then v else c.regs.sget r) ∧
      t = { c with regs := { c.regs with s := t.regs.s }, unread := t.unread }) ∧
    (∀ (d : SReg) (v : Word), c.sBusy d = true → c.applyWrite (.s d v) = c) ∧
    (∀ (d : PReg) (v : Bool),
      let t := c.applyWrite (.p d v)
      (∀ r, t.regs.pget r = if r = d ∧ d ≠ 0 then v else c.regs.pget r) ∧
      t = { c with regs := { c.regs with p := t.regs.p } }) ∧
    (∀ (d : AReg) (v : Word),
      let t := c.applyWrite (.a d v)
      (∀ r, t.regs.a.get r = if r = d then v else c.regs.a.get r) ∧ t = { c with regs := { c.regs with a := t.regs.a } }) ∧
    (∀ (d : AReg) (fld : BitVec 7) (v : Word), fld ≠ 0 → fld.toNat ≤ 0x15 →
      let t := c.applyWrite (.field d fld v)
      let n := fld.toNat
      let width := if n ≤ 4 ∨ n = 0x0F ∨ n = 0x13 ∨ n = 0x14 then 64 else if n = 0x0E then 8 else if n = 0x11 then 21
        else if n = 0x15 then 12 else 32
      let low : Nat := v.toNat % 2 ^ width
      (t.regs.ag.get d).getField fld =
        (if n = 0x0D ∧ 2 ^ 31 ≤ low then BitVec.ofInt 64 ((low : Int) - 2 ^ 32) else BitVec.ofNat 64 low) ∧
      (∀ f : BitVec 7, f ≠ fld → (t.regs.ag.get d).getField f = (c.regs.ag.get d).getField f) ∧
      (∀ e, e ≠ d → t.regs.ag.get e = c.regs.ag.get e) ∧ t = { c with regs := { c.regs with ag := t.regs.ag } }) ∧
    (∀ (d : KReg) (en vals : Mask),
      let t := c.applyWrite (.mask d en vals)
      (∀ r i j, (t.regs.kget r).at i j =
        if r = d ∧ d ≠ 0 ∧ en.at i j = true then vals.at i j else (c.regs.kget r).at i j) ∧
      t = { c with regs := { c.regs with k := t.regs.k } }) ∧
    (∀ (d : XReg) (en : Mask) (vals : Grid) (ty : Option ElemTy) (lat : Option Machine.Lat), c.asleep d = false →
      let t := c.applyWrite (.tile d en vals ty lat)
      let x := c.regs.xget d
      let y := t.regs.xget d
      (∀ r, r ≠ d → t.regs.xget r = c.regs.xget r) ∧
      (∀ i j, y.cells.at i j = if en.at i j = true then vals.at i j else x.cells.at i j) ∧
      y.rows = x.rows ∧ y.cols = x.cols ∧ y.ty = ty.getD x.ty ∧
      (lat = none → y.lat = x.lat) ∧ (∀ l, lat = some l → y.lat.same l = true) ∧ y.lat.devnf = x.lat.devnf ∧
      (en = Mask.ones → y.invalid = false ∧ y.poison = none) ∧
      (en ≠ Mask.ones → y.invalid = x.invalid ∧ y.poison = x.poison) ∧
      t = { c with regs := { c.regs with t := t.regs.t, c := t.regs.c } }) ∧
    (∀ (d : XReg) (en : Mask) (vals : Grid) (ty : Option ElemTy) (lat : Option Machine.Lat), c.asleep d = true →
      c.applyWrite (.tile d en vals ty lat) = c) ∧
    (∀ (d : AReg) (v : Word),
      let t := c.applyWrite (.field d 0 v)
      (∀ r, t.regs.a.get r = if r = d then v else c.regs.a.get r) ∧ t = { c with regs := { c.regs with a := t.regs.a } }) ∧
    (∀ (d : AReg) (n : Nat) (ctr : Vector (BitVec 32) 4) (wrap : Bool),
      let t := c.applyWrite (.ctr d n ctr wrap)
      let g := c.regs.ag.get d
      let h := t.regs.ag.get d
      (∀ i : Fin 4, h.ctr.get i = if i.val < n then ctr.get i else g.ctr.get i) ∧
      (∀ i < 8, h.ctrl.getLsbD i = (g.ctrl.getLsbD i || decide (i = 7) && wrap)) ∧
      h = { g with ctr := h.ctr, ctrl := h.ctrl } ∧
      (∀ e, e ≠ d → t.regs.ag.get e = c.regs.ag.get e) ∧ t = { c with regs := { c.regs with ag := t.regs.ag } }) ∧
    (∀ (d : TReg) (pa : BitVec 64) (rows : Fin 16) (cols : Fin 64) (ty : ElemTy),
      (c.asleep (.t d) = true → c.applyWrite (.poison d pa) = c ∧ c.applyWrite (.shape d rows cols ty) = c) ∧
      (c.asleep (.t d) = false →
        let x := c.regs.t.get d
        let t := c.applyWrite (.poison d pa)
        let u := c.applyWrite (.shape d rows cols ty)
        (∀ r, t.regs.t.get r = if r = d then { x with poison := some pa } else c.regs.t.get r) ∧
        t = { c with regs := { c.regs with t := t.regs.t } } ∧
        (∀ r, u.regs.t.get r = if r = d then { x with rows := rows, cols := cols, ty := ty } else c.regs.t.get r) ∧
        u = { c with regs := { c.regs with t := u.regs.t } })) ∧
    (∀ (d : XReg) (lat : Machine.Lat),
      (c.asleep d = true → c.applyWrite (.latent d lat) = c) ∧
      (c.asleep d = false →
        let t := c.applyWrite (.latent d lat)
        (∀ r, t.regs.xget r = if r = d then { c.regs.xget d with lat := lat } else c.regs.xget r) ∧
        t = { c with regs := { c.regs with t := t.regs.t, c := t.regs.c } })) ∧
    (∀ (d : LvReg) (en : BitVec 64) (e : Vector (BitVec 32) 64) (isOpen clearErr : Bool),
      let t := c.applyWrite (.lv d en e isOpen clearErr)
      let v := c.regs.lv.get d
      let w := t.regs.lv.get d
      (∀ j : Fin 64, w.e.get j = if en.getLsbD j.val then e.get j else v.e.get j) ∧
      w = { v with e := w.e, isOpen := isOpen, err := v.err && !clearErr } ∧
      (∀ r, r ≠ d → t.regs.lv.get r = c.regs.lv.get r) ∧ t = { c with regs := { c.regs with lv := t.regs.lv } }) ∧
    (let product := fun (e k : BitVec 32) => mulOp (f32Num e) (f32Num k)
     let scaled := fun (e k : BitVec 32) => ((Rec.f32 .rne).encode (product e k).1).1
     let flags := fun (e k : BitVec 32) => (product e k).2 ||| ((Rec.f32 .rne).encode (product e k).1).2
     let closed := fun (v : LatVec) (scale : Option (BitVec 32)) (w : LatVec) =>
       (∀ j : Fin 64, w.e.get j = match scale with
         | some k => scaled (v.e.get j) k
         | none => v.e.get j) ∧
       w = { v with e := w.e, isOpen := false, closing := false, scale := none }
     ∀ (d : LvReg) (scale : Option (BitVec 32)),
      let t := c.applyWrite (.lvClose d scale)
      let v := c.regs.lv.get d
      (∀ r, r ≠ d → t.regs.lv.get r = c.regs.lv.get r) ∧
      t = { c with regs := { c.regs with lv := t.regs.lv }, sys := { c.sys with fflags := t.sys.fflags } } ∧
      (v.pend = 0 → closed v scale (t.regs.lv.get d) ∧
        ∀ n < 5, t.sys.fflags.getLsbD n = true ↔
          c.sys.fflags.getLsbD n = true ∨ ∃ k, scale = some k ∧ ∃ j, (flags (v.e.get j) k).getLsbD n = true) ∧
      (v.pend ≠ 0 → t.sys = c.sys ∧ t.regs.lv.get d = { v with closing := true, scale := scale }) ∧
      (∀ (q : Cmd) (err : Bool) (word : Word), q.op = 0x10 → q.latent = true → q.lv = d →
        let u := c.endCommand q err word
        (∀ r, r ≠ d → u.regs.lv.get r = c.regs.lv.get r) ∧ u.sys = c.sys ∧
        (v.pend = 1 → v.closing = true →
          closed { v with pend := 0, err := v.err || err } v.scale (u.regs.lv.get d)) ∧
        (v.pend ≠ 1 ∨ v.closing = false → 0 < v.pend →
          u.regs.lv.get d = { v with pend := v.pend - 1, err := v.err || err }))) ∧
    (∀ tree, c.applyWrite (.tree tree) = { c with regs := { c.regs with tree := tree } }) ∧
    (∀ (d : Fin 4) (pat : Vector (BitVec 7) 64),
      let t := c.applyWrite (.xp d pat)
      (∀ r : Fin 4, t.regs.xp.get r = if r = d then pat else c.regs.xp.get r) ∧
      t = { c with regs := { c.regs with xp := t.regs.xp } }) ∧
    (∀ b, c.applyWrite (.fbase b) = { c with regs := { c.regs with fbase := b } })

/-! ## Numbers -/

/-- R85 to R87: sums, products and fused products of finite values are exact; an exact zero sum takes the common sign of its
zeros, else +0, or −0 towards −∞; a NaN operand gives the first NaN, quieted, and a signalling one raises invalid;
infinities of both signs, and 0 × ∞, are invalid and give the default NaN; minimum and maximum pass over a NaN beside a
number and put −0 below +0. Of a fused product the first NaN counts in the order c, a, b, and 0 × ∞ is invalid beside a NaN
c too. A sum of many terms is exact, a NaN or an invalid one gives the default NaN, and a zero sum takes the sign of zeros
that all have it; a maximum or minimum of many is one of its numbers that none exceeds, or the default NaN where there is no
number; the reductions are these, of magnitudes or squares. The relations of TCMP are those of the values (R102, R176, R183).
Of what it says the model's own choices are those of log entry 14. -/
def Obligations.ExactArithmetic : Prop :=
  ∀ (p q r : Rat) (rdn m n : Bool) (x y z : Machine.Num) (xs : List Machine.Num),
    let less := fun (a b : Machine.Num) => (a = .inf true ∧ b ≠ .inf true) ∨ (b = .inf false ∧ a ≠ .inf false) ∨
      (a.isInf = false ∧ b.isInf = false ∧ a.rat < b.rat)
    let below := fun (a b : Machine.Num) => less a b ∨ (a = .zero true ∧ b = .zero false)
    let zeroInf := (∃ i j, x = .zero i ∧ y = .inf j) ∨ ∃ i j, x = .inf i ∧ y = .zero j
    let sn := if x.isSNaN || y.isSNaN then (16 : Flags) else 0
    let anyS := if xs.any Machine.Num.isSNaN then (16 : Flags) else 0
    let isTop := fun (lt : Machine.Num → Machine.Num → Prop) (l : List Machine.Num) (v : Machine.Num) =>
      ((∀ k ∈ l, k.isNaN = true) → v = .default) ∧
      ((∃ k ∈ l, k.isNaN = false) → v ∈ l ∧ v.isNaN = false ∧ ∀ k ∈ l, k.isNaN = false → ¬lt v k)
    addOp rdn (.fin p) (.fin q) = (if p + q = 0 then (.zero rdn, 0) else (.fin (p + q), 0)) ∧
    addOp rdn (.zero m) (.zero n) = (.zero (if m = n then m else rdn), 0) ∧
    mulOp (.fin p) (.fin q) = (.fin (p * q), 0) ∧
    mulOp (.zero m) (.inf n) = (.default, 16) ∧ mulOp (.inf n) (.zero m) = (.default, 16) ∧
    addOp rdn (.inf false) (.inf true) = (.default, 16) ∧ addOp rdn (.inf true) (.inf false) = (.default, 16) ∧
    addOp rdn (.inf m) (.fin p) = (.inf m, 0) ∧
    fmaOp rdn (.fin p) (.fin q) (.fin r) =
      (if p * q + r = 0 then (.zero rdn, 0) else (.fin (p * q + r), 0)) ∧
    (x.isNaN = true →
      addOp rdn x y = (x.quiet, if x.isSNaN || y.isSNaN then 16 else 0) ∧
      mulOp x y = (x.quiet, if x.isSNaN || y.isSNaN then 16 else 0) ∧
      (y.isNaN = false → maxOp true x y = (y, if x.isSNaN then 16 else 0) ∧
        maxOp false x y = (y, if x.isSNaN then 16 else 0) ∧
        addOp rdn y x = (x.quiet, if x.isSNaN then 16 else 0)) ∧
      (y.isNaN = true → maxOp true x y = (.default, if x.isSNaN || y.isSNaN then 16 else 0))) ∧
    maxOp true (.zero m) (.zero n) = (.zero (m && n), 0) ∧ maxOp false (.zero m) (.zero n) = (.zero (m || n), 0) ∧
    maxOp true (.fin p) (.fin q) = (.fin (max p q), 0) ∧ maxOp false (.fin p) (.fin q) = (.fin (min p q), 0) ∧
    (z.isNaN = true → (fmaOp rdn x y z).1 = z.quiet) ∧
    (z.isNaN = false → x.isNaN = true → (fmaOp rdn x y z).1 = x.quiet) ∧
    (z.isNaN = false → x.isNaN = false → y.isNaN = true → (fmaOp rdn x y z).1 = y.quiet) ∧
    (z.isNaN = false → zeroInf → fmaOp rdn x y z = (.default, 16)) ∧
    (x.isNaN = true ∨ y.isNaN = true ∨ z.isNaN = true →
      (fmaOp rdn x y z).2 = 16 ↔ x.isSNaN = true ∨ y.isSNaN = true ∨ z.isSNaN = true ∨ zeroInf) ∧
    (x.isNaN = true ∨ y.isNaN = true ∨ z.isNaN = true → (fmaOp rdn x y z).2 = 16 ∨ (fmaOp rdn x y z).2 = 0) ∧
    (p ≠ 0 → fmaOp rdn (.inf m) (.fin p) (.inf n) = if (m != decide (p < 0)) = n then (.inf n, 0) else (.default, 16)) ∧
    ((∃ k ∈ xs, k.isNaN = true) → (sumMany rdn xs).1 = .default ∧
      ((sumMany rdn xs).2 = if anyS = 16 ∨ (.inf false ∈ xs ∧ .inf true ∈ xs) then 16 else 0)) ∧
    ((∀ k ∈ xs, k.isNaN = false) →
      (.inf false ∈ xs → .inf true ∈ xs → sumMany rdn xs = (.default, 16)) ∧
      (.inf m ∈ xs → .inf (!m) ∉ xs → sumMany rdn xs = (.inf m, 0)) ∧
      (.inf false ∉ xs → .inf true ∉ xs →
        let total := (xs.map Machine.Num.rat).sum
        (total ≠ 0 → sumMany rdn xs = (.fin total, 0)) ∧
        (total = 0 → sumMany rdn xs = (.zero (if xs ≠ [] ∧ ∀ k ∈ xs, k = .zero true then true
          else if ∀ k ∈ xs, k = .zero false then false else rdn), 0)))) ∧
    squares [.fin p, .zero m, .inf n] = [.fin (p * p), .zero false, .inf false] ∧ (x.isNaN = true → squares [x] = [x]) ∧
    maxMany true y [] = (y, 0) ∧ maxMany false y [] = (y, 0) ∧
    (xs ≠ [] → (maxMany true y xs).2 = anyS ∧ isTop below xs (maxMany true y xs).1 ∧
      (maxMany false y xs).2 = anyS ∧ isTop (fun a b => below b a) xs (maxMany false y xs).1) ∧
    reduce 0 rdn xs = sumMany rdn xs ∧ reduce 1 rdn xs = maxMany true (.inf true) xs ∧
    reduce 2 rdn xs = maxMany false (.inf false) xs ∧ reduce 3 rdn xs = maxMany true (.zero false) (xs.map Machine.Num.abs) ∧
    reduce 4 rdn xs = sumMany rdn (squares xs) ∧
    (Machine.Num.fin p).abs = .fin |p| ∧ (Machine.Num.inf m).abs = .inf false ∧ (Machine.Num.zero m).abs = .zero false ∧
    (x.isNaN = true ∨ y.isNaN = true → tcmpRel 0 x y = (false, sn) ∧ tcmpRel 1 x y = (true, sn) ∧
      tcmpRel 2 x y = (false, 16) ∧ tcmpRel 3 x y = (false, 16) ∧ tcmpRel 4 x y = (true, sn)) ∧
    (x.isNaN = false → y.isNaN = false → (∀ rel : BitVec 8, (tcmpRel rel x y).2 = 0) ∧
      ((tcmpRel 0 x y).1 = true ↔ ¬less x y ∧ ¬less y x) ∧ ((tcmpRel 1 x y).1 = true ↔ less x y ∨ less y x) ∧
      ((tcmpRel 2 x y).1 = true ↔ less x y) ∧ ((tcmpRel 3 x y).1 = true ↔ ¬less y x) ∧ (tcmpRel 4 x y).1 = false)

/-- R70, R80 to R83: rounding a magnitude to an integer: a value that is one stays; RZ goes down, RDN and RUP up where the
sign says so, each by less than 1; RNE takes the nearest, and of two the even one. A value that a format holds is encoded as
itself, in every rounding mode, with and without saturation, and raises no flag: encoding what a word of the format decodes
to gives back the word. Any other finite value is rounded to the format's digits, or below its smallest normal to its
subnormal spacing, and raises inexact where that changes it, underflow as well below the smallest normal; one that rounds
above the largest finite value overflows, as the table of R81 says, and so do infinities; a NaN keeps its sign and the top of
its fraction, quieted, and e4m3 has one of each sign. An integer type takes the rounded value, or the nearer bound or 0 with
invalid. -/
def Obligations.RoundingAndStoredValues : Prop :=
  (∀ (v : Rat) (neg : Bool), 0 ≤ v →
    (∀ (n : Nat) (rm : Rm), v = n → roundMag rm neg v = n) ∧
    ((roundMag .rz neg v : Rat) ≤ v ∧ v < roundMag .rz neg v + 1) ∧
    (v ≤ roundMag .rup false v ∧ (roundMag .rup false v : Rat) < v + 1) ∧
    (v ≤ roundMag .rdn true v ∧ (roundMag .rdn true v : Rat) < v + 1) ∧
    roundMag .rup true v = roundMag .rz neg v ∧ roundMag .rdn false v = roundMag .rz neg v ∧
    (∀ n : Nat, |v - roundMag .rne neg v| ≤ |v - n|) ∧
    (∀ n : Nat, |v - roundMag .rne neg v| = |v - n| → n ≠ roundMag .rne neg v → roundMag .rne neg v % 2 = 0)) ∧
  (∀ (ty : ElemTy) (f : Fmt) (r : Rec) (b : BitVec 32), ty.fmt = some f → r.ty = ty → r.e = 0 →
    b.toNat < 2 ^ ty.width → (r.decode b).isNaN = false → (r.decode b).isInf = false →
    r.encode (r.decode b) = (b, 0)) ∧
  (∀ (r : Rec) (digits emin most beyond : Nat) (q : Rat) (e : Int) (neg quiet : Bool) (frac : BitVec 23), r.e = 0 →
    (r.ty, digits, emin, most, beyond) ∈ [(ElemTy.f32, 23, 126, 0x7F7FFFFF, 0x7F800000), (.bf16, 7, 126, 0x7F7F, 0x7F80),
      (.f16, 10, 14, 0x7BFF, 0x7C00), (.e5m2, 2, 14, 0x7B, 0x7C), (.e4m3, 3, 6, 0x7E, 0x7F)] →
    let word := fun (n : Bool) (w : Nat) => BitVec.ofNat 32 (w + if n then 2 ^ (r.ty.width - 1) else 0)
    let small : Rat := 1 / 2 ^ emin
    let v := |q|
    let rounded := fun (unit : Rat) => (roundMag r.rm (decide (q < 0)) (v / unit) : Rat) * unit
    let r1 := rounded ((2 : Rat) ^ (e - digits))
    let r2 := rounded (small / 2 ^ digits)
    let signed := fun (k : Rat) => if k = 0 then Machine.Num.zero (decide (q < 0)) else if q < 0 then .fin (-k) else .fin k
    let away := r.ty = .e5m2 ∨ r.ty = .e4m3 ∨ r.rm = .rne ∨ (r.rm = .rdn ∧ q < 0) ∨ (r.rm = .rup ∧ 0 < q)
    (q ≠ 0 → (2 : Rat) ^ e ≤ v → v < (2 : Rat) ^ (e + 1) →
      (small ≤ r1 → r1 ≤ (r.decode (BitVec.ofNat 32 most)).rat →
        r.decode (r.encode (.fin q)).1 = signed r1 ∧ (r.encode (.fin q)).2 = if r1 = v then 0 else 1) ∧
      (r1 < small → r.decode (r.encode (.fin q)).1 = signed r2 ∧ (r.encode (.fin q)).2 = if r2 = v then 0 else 3) ∧
      ((r.decode (BitVec.ofNat 32 most)).rat < r1 →
        r.encode (.fin q) = (word (decide (q < 0)) (if r.sat = false ∧ away then beyond else most), 5))) ∧
    r.encode (.inf neg) = (word neg (if r.sat then most else beyond),
      if r.ty ≠ .e4m3 then 0 else if r.sat then 5 else 16) ∧
    r.encode (.nan neg (!quiet) frac) =
      (word neg (if r.ty = .e4m3 then 0x7F else beyond + (frac ||| 0x400000).toNat / 2 ^ (23 - digits)),
        if quiet then 0 else 16)) ∧
  (∀ (lo hi : Int) (rm : Rm) (q : Rat) (neg sig : Bool) (frac : BitVec 23), lo ≤ hi →
    let k : Int := if q < 0 then -(roundMag rm true (-q) : Int) else roundMag rm false q
    toIntRange lo hi rm (.nan neg sig frac) = (0, 16) ∧ toIntRange lo hi rm (.zero neg) = (0, 0) ∧
    toIntRange lo hi rm (.inf neg) = (if neg then lo else hi, 16) ∧
    (hi < k → toIntRange lo hi rm (.fin q) = (hi, 16)) ∧ (k < lo → toIntRange lo hi rm (.fin q) = (lo, 16)) ∧
    (lo ≤ k → k ≤ hi → toIntRange lo hi rm (.fin q) = (k, if (k : Rat) = q then 0 else 1))) ∧
  ∀ (r : Rec) (lo hi : Int) (x : Machine.Num), r.e = 0 →
    (r.ty, lo, hi) ∈ [(ElemTy.i4, -8, 7), (.i8, -128, 127), (.n8, 0, 255), (.i16, -32768, 32767),
      (.i32, -2147483648, 2147483647)] →
    r.encode x = (BitVec.ofNat 32 ((toIntRange lo hi r.rm x).1 % (2 ^ r.ty.width : Nat)).toNat, (toIntRange lo hi r.rm x).2)

/-! ## Vector instructions -/

/-- R168, R170, R173 to R175, R240: the floating-point elementwise instructions. Each active element of td that the
mask selects takes the exact result of its sources' elements, read through the implied records of their types, rounded
once through the record; the flags are those of the operands and of the rounding. Of what it says the model's own
choices are those of log entries 14 and 27. -/
def Obligations.FloatVectorResults : Prop :=
  ∀ (td : TReg) (ta tb tc : TSrc) (sc : SReg) (v : VCtl) (s : State), s.view.pget v.p = true →
    let r := s.view.record v.sel (s.view.t.get td).ty
    let rdn := r.rm == .rdn
    let en := s.elems td v.k
    let el := fun (t : TReg) (i : Fin 16) (j : Fin 64) =>
      (Rec.implied (s.view.t.get t).ty s.view.cb).decode ((s.view.t.get t).cells.at i j)
    let k := f32Num ((s.view.sget sc).setWidth 32)
    let once := fun (x : Machine.Num × Flags) => ((r.encode x.1).1, x.2 ||| (r.encode x.1).2)
    let two := fun (i : Instr) (row : Row) (f : Machine.Num → Machine.Num → Machine.Num × Flags) =>
      TileOutcome s (exec i s) 4 td r.ty [ta.t, tb.t] row [ta.t, tb.t] en fun i j => once (f (el ta.t i j) (el tb.t i j))
    let one := fun (i : Instr) (row : Row) (f : Machine.Num → Machine.Num × Flags) =>
      TileOutcome s (exec i s) 4 td r.ty [ta.t] row [ta.t] en fun i j => once (f (el ta.t i j))
    (∀ i j, en.at i j = (decide (i.val ≤ (s.view.t.get td).rows.val ∧ j.val ≤ (s.view.t.get td).cols.val)
      && (s.view.kget v.k).at i j)) ∧
    two (.tadd td ta tb v) ⟨.same, .ident, .same, .ident⟩ (addOp rdn) ∧
    two (.tsub td ta tb v) ⟨.same, .cancel, .same, .cancel⟩ (fun x y => addOp rdn x (if y.isNaN then y else y.negate)) ∧
    two (.tmul td ta tb v) ⟨.join, .ident, .join, .ident⟩ mulOp ∧
    two (.tmax td ta tb v) ⟨.ident, .same, .ident, .same⟩ (maxOp true) ∧
    two (.tmin td ta tb v) ⟨.ident, .same, .ident, .same⟩ (maxOp false) ∧
    TileOutcome s (exec (.tfma td ta tb tc v) s) 4 td r.ty [ta.t, tb.t, tc.t] ⟨.product, .ident, .product, .ident⟩
      [ta.t, tb.t, tc.t] en (fun i j => once (fmaOp rdn (el ta.t i j) (el tb.t i j) (el tc.t i j))) ∧
    one (.tadds td ta sc v) ⟨.ident, .pass, .ident, .pass⟩ (fun x => addOp rdn x k) ∧
    one (.tmuls td ta sc v) ⟨.pass, .ident, .pass, .ident⟩ (fun x => mulOp x k) ∧
    TileOutcome s (exec (.tfmas td ta sc v) s) 4 td r.ty [ta.t, td] ⟨.same, .ident, .same, .ident⟩ [ta.t, td] en
      (fun i j => once (fmaOp rdn (el ta.t i j) k (el td i j))) ∧
    one (.tcvt td ta v) (Row.all .pass) (fun x => (x, 0))

/-- R177, R179, R182, R240: the instructions that move bits of ta under the width of the record's type: TMOV, TSEL,
the rotations and broadcasts, whose amount is the signed scalar plus imm8, taken modulo the destination's columns or
rows or the 64 columns or 16 rows of a register, and ROWMOV, which writes one row, and nothing where td has no such row.
They raise no flag. Of what it says the model's own choices are those of log entry 27. -/
def Obligations.MoveResults : Prop :=
  ∀ (td : TReg) (ta tb : TSrc) (sc : SReg) (imm : BitVec 8) (drow srow : Fin 16) (v : VCtl) (s : State),
    s.view.pget v.p = true →
    let D := s.view.t.get td
    let r := s.view.record v.sel (s.view.t.get ta.t).ty
    let bits := fun (t : TReg) (i : Fin 16) (j : Fin 64) =>
      (BitVec.ofNat 32 (((s.view.t.get t).cells.at i j).toNat % 2 ^ r.ty.width), (0 : Flags))
    let en := s.elems td v.k
    let n := (s.view.sget sc).toInt + imm.toNat
    let go := fun (i : Instr) (lat : Nat) (row : Row) (f : Fin 16 → Fin 64 → BitVec 32 × Flags) =>
      TileOutcome s (exec i s) lat td r.ty [ta.t] row [ta.t] en f
    go (.tmov td ta v) 2 (Row.all .pass) (bits ta.t) ∧
    TileOutcome s (exec (.tsel td ta tb v) s) 2 td r.ty [ta.t, tb.t] (Row.all .same) [ta.t, tb.t] D.active
      (fun i j => bits (if (s.view.kget v.k).at i j then ta.t else tb.t) i j) ∧
    go (.rrot td ta sc imm v) 6 ⟨.pass, .pass, .ident, .ident⟩
      (fun i j => bits ta.t i (Fin.ofNat 64 ((j.val + n) % (D.cols.val + 1)).toNat)) ∧
    go (.crot td ta sc imm v) 3 ⟨.ident, .ident, .pass, .pass⟩
      (fun i j => bits ta.t (Fin.ofNat 16 ((i.val + n) % (D.rows.val + 1)).toNat) j) ∧
    go (.rbc td ta sc imm v) 6 ⟨.pass, .pass, .ident, .ident⟩ (fun i _ => bits ta.t i (Fin.ofNat 64 (n % 64).toNat)) ∧
    go (.cbc td ta sc imm v) 3 ⟨.ident, .ident, .pass, .pass⟩ (fun _ j => bits ta.t (Fin.ofNat 16 (n % 16).toNat) j) ∧
    (∃ one : Mask, (∀ i j, one.at i j = decide (i = drow ∧ i.val ≤ D.rows.val ∧ j.val ≤ D.cols.val)) ∧
      PartOutcome s (exec (.rowmov td drow ta srow v.sel v.p) s) (drow.val ≤ D.rows.val) 2 td r.ty [ta.t]
        ⟨.identKeep, .identKeep, .sameKeep, .sameKeep⟩ [ta.t] one (fun _ j => bits ta.t srow j))

/-- R84, R178: the integer group. Both patterns are read as integers of the record's type; the exact result is clamped
to the type's range where SAT is 1, and in every case written modulo 2^w; the bitwise instructions combine the
patterns; a shift takes the low log2 w bits of tb's pattern. They raise no flag, and TABS and TNEG of a floating-point
or cb4 type clear or invert the sign bit. Of what it says the model's own choices are those of log entry 27. -/
def Obligations.IntegerVectorResults : Prop :=
  ∀ (td : TReg) (ta tb : TSrc) (v : VCtl) (s : State), s.view.pget v.p = true →
    let en := s.elems td v.k
    let D := s.view.record v.sel (s.view.t.get td).ty
    let A := s.view.record v.sel (s.view.t.get ta.t).ty
    let pat := fun (r : Rec) (t : TReg) (i : Fin 16) (j : Fin 64) => ((s.view.t.get t).cells.at i j).toNat % 2 ^ r.ty.width
    let put := fun (r : Rec) (x : Int) =>
      let lo := if r.ty.isInt then r.ty.range.1 else 0
      let hi := if r.ty.isInt then r.ty.range.2 else 2 ^ r.ty.width - 1
      let y := if r.sat then max lo (min hi x) else x
      (BitVec.ofNat 32 (y % (2 ^ r.ty.width : Nat)).toNat, (0 : Flags))
    let int := fun (i : Instr) (f : Int → Int → Int) =>
      TileOutcome s (exec i s) 2 td D.ty [ta.t, tb.t] (Row.all .ident) [ta.t, tb.t] en fun i j =>
        put D (f (D.ty.int (pat D ta.t i j)) (D.ty.int (pat D tb.t i j)))
    let bit := fun (i : Instr) (f : Bool → Bool → Bool) =>
      ∃ g : Fin 16 → Fin 64 → BitVec 32, (∀ i j n, (g i j).getLsbD n =
          (f ((pat D ta.t i j).testBit n) ((pat D tb.t i j).testBit n))) ∧
        TileOutcome s (exec i s) 2 td D.ty [ta.t, tb.t] (Row.all .ident) [ta.t, tb.t] en fun i j => (g i j, 0)
    let shift := fun (i : Instr) (f : Int → Nat → Int) =>
      TileOutcome s (exec i s) 2 td D.ty [ta.t, tb.t] (Row.all .ident) [ta.t, tb.t] en fun i j =>
        put D (f (D.ty.int (pat D ta.t i j)) (pat D tb.t i j % D.ty.width))
    let sign := fun (i : Instr) (row : Row) (f : Nat → Nat → Nat) (g : Int → Int) =>
      TileOutcome s (exec i s) 2 td A.ty [ta.t] row [ta.t] en fun i j =>
        if A.ty.isInt then put A (g (A.ty.int (pat A ta.t i j)))
        else (BitVec.ofNat 32 (f (2 ^ (A.ty.width - 1)) (pat A ta.t i j)), 0)
    int (.tiadd td ta tb v) (· + ·) ∧ int (.tisub td ta tb v) (· - ·) ∧ int (.timul td ta tb v) (· * ·) ∧
    int (.timax td ta tb v) max ∧ int (.timin td ta tb v) min ∧
    bit (.tand td ta tb v) (· && ·) ∧ bit (.tor td ta tb v) (· || ·) ∧ bit (.txor td ta tb v) (· != ·) ∧
    shift (.tshl td ta tb v) (fun a m => a * 2 ^ m) ∧ shift (.tshr td ta tb v) (fun a m => a / 2 ^ m) ∧
    sign (.tabs td ta v) (Row.all .ident) (fun h a => a % h) (fun a => |a|) ∧
    sign (.tneg td ta v) ⟨.pass, .neg, .pass, .neg⟩ (fun h a => if a < h then a + h else a - h) (fun a => -a)

/-- R166, R180, R181: the fills clear the latent factors of td and write each selected element through the record: a
floating-point or cb4 record takes the number, an integer record the integer. TSET writes one container of td where it
is active, and nothing elsewhere, and keeps the factors; TGET of a valid source with identity factors lands the element of ta, an integer sign- or zero-extended, a number as F32;
TSHAPE lands shape and type, and faults 0x08 where it would change one of them while a factor is attached. Of what it
says the model's own choices are those of log entries 13 and 27. -/
def Obligations.FillResults : Prop :=
  ∀ (td : TReg) (ta : TSrc) (sc : SReg) (imm : BitVec 16) (axis : BitVec 2) (base : BitVec 14) (row : Fin 16)
    (col : Fin 64) (rows : BitVec 4) (cols : BitVec 6) (ty : ElemTy) (v : VCtl) (s : State), s.view.pget v.p = true →
    let D := s.view.t.get td
    let r := s.view.record v.sel D.ty
    let en := s.elems td v.k
    let put := fun (x : Machine.Num) (n : Int) =>
      if r.ty.isInt then
        (BitVec.ofNat 32 (max r.ty.range.1 (min r.ty.range.2 n) % (2 ^ r.ty.width : Nat)).toNat,
          if n < r.ty.range.1 ∨ r.ty.range.2 < n then (16 : Flags) else 0)
      else r.encode x
    let fill := fun (i : Instr) (f : Fin 16 → Fin 64 → BitVec 32 × Flags) =>
      TileOutcome s (exec i s) 2 td r.ty [] (Row.all .clear) [] en f
    let b := (s.view.t.get ta.t).cells.at row col
    let q := s.view.record v.sel (s.view.t.get ta.t).ty
    fill (.tfill td sc v) (fun _ _ => put (f32Num ((s.view.sget sc).setWidth 32)) (s.view.sget sc).toInt) ∧
    fill (.tfilli td imm v) (fun _ _ => put (bf16Num imm) imm.toInt) ∧
    (axis ≠ 3 → fill (.tiota td axis base v) (fun i j =>
      let n := base.toInt + (if axis = 0 then (j.val : Int) else if axis = 1 then (i.val : Int) else 64 * i.val + j.val)
      put (if n = 0 then .zero false else .fin n) n)) ∧
    (∃ one : Mask, (∀ i j, one.at i j = decide (i = row ∧ j = col ∧ i.val ≤ D.rows.val ∧ j.val ≤ D.cols.val)) ∧
      PartOutcome s (exec (.tset td row col sc v.sel v.p) s) (row.val ≤ D.rows.val ∧ col.val ≤ D.cols.val) 2 td r.ty []
        (Row.all .keep) [] one
        (fun _ _ => put (f32Num ((s.view.sget sc).setWidth 32)) (s.view.sget sc).toInt)) ∧
    ((s.view.t.get ta.t).invalid = false → (s.view.t.get ta.t).poison = none → (s.view.t.get ta.t).lat.isId = true →
      (q.ty.isInt = true → exec (.tget sc ta row col v.sel v.p) s =
        .next (s.withResult 2 (sWrite sc (BitVec.ofInt 64 (q.ty.int b.toNat))) 0)) ∧
      (q.ty.isInt = false → exec (.tget sc ta row col v.sel v.p) s =
        .next (s.withResult 2 (sWrite sc (((Rec.f32 .rne).encode (q.decode b)).1.setWidth 64))
          ((Rec.f32 .rne).encode (q.decode b)).2))) ∧
    (let same := D.rows.val = rows.toNat ∧ D.cols.val = cols.toNat ∧ D.ty = ty
     (D.lat.isId = true ∨ same → exec (.tshape td rows cols (BitVec.ofNat 4 ty.code) v.p) s =
       .next (s.withResult 2 [.shape td (Fin.ofNat 16 rows.toNat) (Fin.ofNat 64 cols.toNat) ty] 0)) ∧
     (D.lat.isId = false → ¬same → exec (.tshape td rows cols (BitVec.ofNat 4 ty.code) v.p) s =
       .next (s.slotFault 0x08 (BitVec.ofNat 64 td.val))))

/-- R176, R183, R184, R186: the comparison into a mask, the reductions, the scan and the check of duplicated tiles.
The selected elements of a row or column are those that the mask holds among the columns or rows of ta; each result is
formed exactly from all of them and encoded once. TCMP is spoken of for valid sources with identity latent factors. TCHK
faults 0x09 where the shapes, types or factors of the two tiles differ, and else for the first element in row order that does,
with its place and the exclusive or in TVAL; it changes nothing where the two tiles agree. Of what it says the model's own choices are those of log entries 27, 29 and 36. -/
def Obligations.ReductionResults : Prop :=
  ∀ (td : TReg) (kd : KReg) (ta tb : TSrc) (rel sb : BitVec 8) (v : VCtl) (s : State), s.view.pget v.p = true →
    let D := s.view.t.get td
    let A := s.view.t.get ta.t
    let B := s.view.t.get tb.t
    let r := s.view.record v.sel D.ty
    let el := fun (i : Fin 16) (j : Fin 64) => (Rec.implied A.ty s.view.cb).decode (A.cells.at i j)
    let on := fun (i : Fin 16) (j : Fin 64) => (s.view.kget v.k).at i j
    let once := fun (x : Machine.Num × Flags) => ((r.encode x.1).1, x.2 ||| (r.encode x.1).2)
    let row := fun (i : Fin 16) (n : Nat) =>
      (List.finRange 64).filterMap fun j => if j.val < n ∧ on i j then some (el i j) else none
    let col := fun (j : Fin 64) (n : Nat) =>
      (List.finRange 16).filterMap fun i => if i.val < n ∧ on i j then some (el i j) else none
    (∃ en : Mask, (∀ i j, en.at i j = decide (j.val = 0 ∧ i.val ≤ A.rows.val ∧ i.val ≤ D.rows.val)) ∧
      TileOutcome s (exec (.rred td ta sb v) s) 6 td r.ty [ta.t] (redRow true sb.toNat) (redSrcs ta.t sb.toNat) en
        fun i _ => once (reduce sb.toNat (r.rm == .rdn) (row i (A.cols.val + 1)))) ∧
    (∃ en : Mask, (∀ i j, en.at i j = decide (i.val = 0 ∧ j.val ≤ A.cols.val ∧ j.val ≤ D.cols.val)) ∧
      TileOutcome s (exec (.cred td ta sb v) s) 3 td r.ty [ta.t] (redRow false sb.toNat) (redSrcs ta.t sb.toNat) en
        fun _ j => once (reduce sb.toNat (r.rm == .rdn) (col j (A.rows.val + 1)))) ∧
    TileOutcome s (exec (.rscan td ta sb v) s) 6 td r.ty [ta.t]
      (if sb = 2 then ⟨.ident, .pass, .ident, .ident⟩ else ⟨.pass, .ident, .ident, .ident⟩) [ta.t] D.active
      (fun i j => once (if sb = 2 then maxMany true (.inf true) (row i (j.val + 1))
        else sumMany (r.rm == .rdn) (row i (if sb = 0 then j.val + 1 else j.val)))) ∧
    (A.invalid = false → A.poison = none → B.invalid = false → B.poison = none → A.lat.isId = true → B.lat.isId = true →
      let q := s.view.record v.sel A.ty
      let c := fun (i : Fin 16) (j : Fin 64) => tcmpRel rel (q.decode (A.cells.at i j)) (q.decode (B.cells.at i j))
      ∃ (en bits : Mask) (fl : Flags),
        exec (.tcmp kd ta tb rel v) s = .next (s.withResult 4 [.mask kd en bits] fl) ∧
        (∀ i j, en.at i j = (decide (i.val ≤ A.rows.val ∧ j.val ≤ A.cols.val) && on i j)) ∧
        (∀ i j, en.at i j = true → bits.at i j = (c i j).1) ∧
        (∀ n < 5, fl.getLsbD n = true ↔ ∃ i j, en.at i j = true ∧ (c i j).2.getLsbD n = true)) ∧
    (A.invalid = false → A.poison = none → B.invalid = false → B.poison = none →
      let w := (s.view.record v.sel A.ty).ty.width
      let differ := A.rows ≠ B.rows ∨ A.cols ≠ B.cols ∨ A.ty ≠ B.ty ∨ A.lat.same B.lat = false
      (differ → exec (.tchk ta tb v.sel v.p) s = .next (s.slotFault 0x09 (BitVec.twoPow 64 63))) ∧
      let bits := fun (T : Tile) (i : Fin 16) (j : Fin 64) => (T.cells.at i j).toNat % 2 ^ w
      (¬differ → (∀ i j, i.val ≤ A.rows.val → j.val ≤ A.cols.val → bits A i j = bits B i j) →
        exec (.tchk ta tb v.sel v.p) s = .next s) ∧
      (¬differ → ∀ i j, i.val ≤ A.rows.val → j.val ≤ A.cols.val → bits A i j ≠ bits B i j →
        (∀ k l, k < i ∧ l.val ≤ A.cols.val ∨ k = i ∧ l < j → bits A k l = bits B k l) →
        exec (.tchk ta tb v.sel v.p) s =
          .next (s.slotFault 0x09 (BitVec.ofNat 64 (i.val * 2 ^ 40 + j.val * 2 ^ 32 + (bits A i j ^^^ bits B i j))))))

/-! ## The address slot -/

/-- R124, R126, R133: the register instructions of the address slot whose guard is true land their results after one
schedule cycle and change nothing else; AGSET writes a field of the descriptor, ADDR being the register itself. AADDI has no
guard. -/
def Obligations.AddressRegisterResults : Prop :=
  ∀ (d a : AReg) (r : SReg) (fld : BitVec 7) (imm : BitVec 22) (g : Guard) (s : State), s.view.guard g = true →
    let x := s.view.a.get a
    let gen := s.view.ag.get a
    let r1 := fun (w : List Write) => (.next (s.withResult 1 w 0) : Out)
    exec (.amov d a g) s = r1 [.a d x] ∧
    exec (.aadd d a r g) s = r1 [.a d (x + s.view.sget r)] ∧
    exec (.aaddi a imm) s = r1 [.a a (BitVec.ofInt 64 (x.toNat + imm.toInt))] ∧
    exec (.agset d r fld g) s = r1 [.field d fld (s.view.sget r)] ∧
    exec (.ard r a g) s = r1 (sWrite r x) ∧
    exec (.agrd r a 0 g) s = r1 (sWrite r x) ∧
    (∀ i : Fin 4,
      exec (.agrd r a (BitVec.ofNat 7 (1 + i.val)) g) s = r1 (sWrite r (gen.step.get i)) ∧
      exec (.agrd r a (BitVec.ofNat 7 (5 + i.val)) g) s = r1 (sWrite r (BitVec.ofNat 64 (gen.count.get i).toNat)) ∧
      exec (.agrd r a (BitVec.ofNat 7 (9 + i.val)) g) s = r1 (sWrite r (BitVec.ofNat 64 (gen.ctr.get i).toNat))) ∧
    exec (.agrd r a 0x0D g) s = r1 (sWrite r (BitVec.ofInt 64 gen.pitch.toInt)) ∧
    exec (.agrd r a 0x0E g) s = r1 (sWrite r (BitVec.ofNat 64 gen.ctrl.toNat)) ∧
    exec (.agrd r a 0x0F g) s = r1 (sWrite r gen.modBase) ∧
    exec (.agrd r a 0x10 g) s = r1 (sWrite r (BitVec.ofNat 64 gen.modLen.toNat)) ∧
    exec (.agrd r a 0x11 g) s = r1 (sWrite r (BitVec.ofNat 64 gen.itab.toNat)) ∧
    exec (.agrd r a 0x12 g) s = r1 (sWrite r (BitVec.ofNat 64 gen.iscale.toNat)) ∧
    exec (.agrd r a 0x13 g) s = r1 (sWrite r gen.flagA) ∧
    exec (.agrd r a 0x14 g) s = r1 (sWrite r gen.flagV) ∧
    exec (.agrd r a 0x15 g) s = r1 (sWrite r (BitVec.ofNat 64 gen.chip.toNat))

/-- R129: the reasons that a descriptor is refused for, in their order. A generator with none of 0x01 to 0x05 advances, or
is refused with 0x06. AIDX is refused with the first of those, then 0x07, 0x08 and 0x06; otherwise its scaled entry is in
flight for six schedule cycles. AINC lands the advanced address in its destination and the counters in the descriptor of its
source. The faults are 0x0C, with TVAL as the table says. Of what it says the model's own choice is that of log entry 88 (an
AINC of a register onto itself gives way to a later advance as a post-increment does). -/
def Obligations.DescriptorsAreChecked : Prop :=
  ∀ (d a : AReg) (r : SReg) (g : Guard) (s : State), s.view.guard g = true →
    let gen := s.view.ag.get a
    let idim := gen.ctrl.toNat / 16 % 8
    let ndim := gen.ctrl.toNat / 4 % 4
    let mode := gen.ctrl.toNat % 4
    let count := fun (k : Fin 4) => if gen.count.get k = 0 then 2 ^ 32 else (gen.count.get k).toNat
    let r1 := (4 ≤ idim ∧ idim ≤ 6) ∨ (idim ≤ 3 ∧ ndim < idim)
    let r2 := ∃ k : Fin 4, k.val ≤ ndim ∧ count k ≤ (gen.ctr.get k).toNat
    let r3 := mode = 1 ∧ gen.modLen = 0
    let r4 := mode = 3 ∧ ∀ k, gen.modLen.toNat ≠ 2 ^ k
    let r5 := mode = 2 ∧ ((∀ k, count 0 ≠ 2 ^ k) ∨ idim = 0)
    let fault := fun (n : Nat) (t : State) => (.next (t.slotFault 0x0C (descTval a n)) : Out)
    let both := fun (n : Nat) => exec (.ainc d a g) s = fault n s ∧ exec (.aidx d a r g) s = fault n s
    let good := ¬r1 ∧ ¬r2 ∧ ¬r3 ∧ ¬r4 ∧ ¬r5
    let idx := (s.view.sget r).toNat % 2 ^ 32
    let off := gen.itab.toNat + 4 * idx
    (r1 → both 1) ∧
    (¬r1 → r2 → both 2) ∧
    (¬r1 → ¬r2 → r3 → both 3) ∧
    (¬r1 → ¬r2 → r4 → both 4) ∧
    (¬r1 → ¬r2 → r5 → both 5) ∧
    (good → (∃ e t, s.advance gen (s.view.a.get a) = (.ok e, t) ∧ OnlyReads s t ∧
        exec (.ainc d a g) s = .next (t.withAdvance (if idim ≤ 3 then 6 else 1) d a e)) ∨
      (idim ≤ 3 ∧ ∃ t, OnlyReads s t ∧ exec (.ainc d a g) s = fault 6 t)) ∧
    (good → idim = 7 → exec (.aidx d a r g) s = fault 7 s) ∧
    (good → idim ≠ 7 → (∀ k : Fin 4, k.val = idim → count k ≤ idx) → exec (.aidx d a r g) s = fault 8 s) ∧
    (good → idim ≠ 7 → (∀ k : Fin 4, k.val = idim → idx < count k) →
      (gen.itab.toNat % 4 ≠ 0 ∨ 0x1FFFFC < off → exec (.aidx d a r g) s = fault 6 s) ∧
      (gen.itab.toNat % 4 = 0 → off ≤ 0x1FFFFC →
        ∃ (e : BitVec 32) (t : State), OnlyReads s t ∧
          exec (.aidx d a r g) s =
            .next (t.withResult 6 [.a d (s.view.a.get a + BitVec.ofInt 64 (gen.iscale.toNat * e.toInt))] 0) ∧
          (s.Quiet → t = s ∧
            e = BitVec.ofNat 32 (memRead s.bundle.table (0x200000000000 + s.id / 4 * 0x1000000 + off) 4))))

/-- R127, R128: a descriptor with no indirect dimension that passes its checks advances. Its counters count like an odometer,
dimension 0 fastest; WRAP reports the return of all to 0; the address moves by the difference of the terms, and modulo and
circular modes bring it back into their range. Bit reversal takes bit i of a counter of b bits to bit b − 1 − i. -/
def Obligations.AnAdvanceCountsAndMoves : Prop :=
  (∀ (b c i : Nat), i < b → (bitRev c b).testBit i = c.testBit (b - 1 - i)) ∧
  ∀ (s : State) (g : Gen) (x : Word), g.bad = none → g.ctrl.toNat / 16 % 8 = 7 →
    let ndim := g.ctrl.toNat / 4 % 4
    let mode := g.ctrl.toNat % 4
    let count := fun (k : Fin 4) => if ndim < k.val then 1 else g.countOf k
    let at' := fun (c : Vector (BitVec 32) 4) (k : Fin 4) => if ndim < k.val then 0 else (c.get k).toNat
    let total := count 0 * count 1 * count 2 * count 3
    let odo := fun (c : Vector (BitVec 32) 4) =>
      at' c 0 + count 0 * (at' c 1 + count 1 * (at' c 2 + count 2 * at' c 3))
    let term := fun (c : Vector (BitVec 32) 4) (k : Fin 4) => (g.step.get k).toInt * (at' c k : Int)
    ∃ d : Adv, s.advance g x = (.ok d, s) ∧
      (∀ k : Fin 4, at' d.ctr k < count k) ∧
      (∀ k : Fin 4, ndim < k.val → d.ctr.get k = g.ctr.get k) ∧
      odo d.ctr = (odo g.ctr + 1) % total ∧
      d.wrap = decide (odo d.ctr = 0) ∧
      (let rev := fun (c : Vector (BitVec 32) 4) => (g.step.get 0).toInt * (bitRev (at' c 0) (Nat.log2 (g.countOf 0)) : Int)
       let d0 := if mode = 2 then rev d.ctr - rev g.ctr else term d.ctr 0 - term g.ctr 0
       let dh := term d.ctr 1 + term d.ctr 2 + term d.ctr 3 - (term g.ctr 1 + term g.ctr 2 + term g.ctr 3)
       let m : Int := g.modLen.toNat
       (mode = 0 ∨ mode = 2 → d.y = BitVec.ofInt 64 (x.toNat + d0 + dh)) ∧
       (mode = 1 → ∃ k : Int, 0 ≤ k ∧ k < m ∧ (∃ q, x.toNat + d0 + dh - g.modBase.toNat = q * m + k) ∧
         d.y = BitVec.ofInt 64 (g.modBase.toNat + k)) ∧
       (mode = 3 → ∃ b k q : Int, 0 ≤ k ∧ k < m ∧ b * m ≤ x.toNat ∧ x.toNat < (b + 1) * m ∧
         x.toNat + d0 = q * m + k ∧ d.y = BitVec.ofInt 64 (b * m + k + dh)))

/-- R124, R134 to R136: the scalar accesses whose guard is true. LD and ST check alignment, then the range or the
translation, then the descriptor of a post-increment, and fault without a commit; PREF faults for its descriptor
alone. A local LD lands what scratchpad held as the bundle issued at n + 4; a global one is outstanding; a local ST
writes its bytes and no others, after the stores that the context has made to them through its own window; a global ST to
plain memory enters the phase buffer and leaves memory as it was; PREF changes translations held and nothing else. Each
completes wherever its checks pass. Memory is canonical, as every step keeps it (`EveryStepKeepsTheInvariant`). Of what it says
the model's own choices are those of log entries 12, 16 and 25. -/
def Obligations.ScalarAccesses : Prop :=
  ∀ (r : SReg) (m : AMem) (sign : Bool) (s : State), Memory.wf s.mem = true → s.view.guard m.g = true →
    let b : Nat := 2 ^ m.width.toNat
    let ea := s.view.a.get m.a + BitVec.ofInt 64 (m.off.toInt * b)
    let ld := exec (.ld r m sign) s
    let st := exec (.st m r) s
    let pref := exec (.pref m) s
    let sup := s.c.isSup
    let via := some (s.id / 4)
    let span := fun (acc : Access) => s.checkSpan via s.c.region sup acc ea.toNat b
    let fault := fun (c : BitVec 8) (v : Word) (t : State) => (.next (t.slotFault c v) : Out)
    let fine := fun (acc : Access) => ea.toNat % b = 0 ∧ (if m.loc then ea.toNat < 0x200000 else span acc = none)
    let ext := fun (n : Nat) => if sign then BitVec.ofInt 64 (BitVec.ofNat (8 * b) n).toInt else BitVec.ofNat 64 n
    let byte := fun (i : Nat) => BitVec.ofNat 8 ((s.view.sget r).toNat / 256 ^ i)
    let local0 := 0x200000000000 + s.id / 4 * 0x1000000 + ea.toNat
    (ea.toNat % b ≠ 0 → ld = fault 0x0A ea s ∧ st = fault 0x0A ea s) ∧
    (ea.toNat % b = 0 → m.loc = true → 0x200000 ≤ ea.toNat → ld = fault 0x0B ea s ∧ st = fault 0x0B ea s) ∧
    (ea.toNat % b = 0 → m.loc = false → ∀ c v,
      (span .read = some (c, v) → ld = fault c (BitVec.ofNat 64 v) s) ∧
      (span .write = some (c, v) → st = fault c (BitVec.ofNat 64 v) s)) ∧
    (m.post = true → ∀ n t, s.advance (s.view.ag.get m.a) (s.view.a.get m.a) = (.error n, t) →
      (fine .read → ld = fault 0x0C (descTval m.a n) t) ∧ (fine .write → st = fault 0x0C (descTval m.a n) t) ∧
      pref = fault 0x0C (descTval m.a n) t) ∧
    (∀ t, s.Posted m.a m.post t →
      (fine .read → m.loc = true → ∃ v u, ld = .next (u.withResult 4 (sWrite r v) 0) ∧ OnlyReads t u ∧
        (s.Quiet → u = t ∧ v = ext (memRead s.bundle.mem local0 b))) ∧
      (fine .read → m.loc = false → ∃ l u w, OnlyReads t u ∧ OnlyTlbs u w ∧
        ld = .next { w with c := { w.c with loads := t.c.loads ++ [l] } } ∧ l.dst = r ∧
        (s.c.atomics = [] → l.after = none) ∧
        (s.Quiet → u = t ∧ ∀ pa, s.translate via s.c.region (ea.toNat % 2 ^ 48) .read sup = .ok pa →
          (∀ i < b, plainPlace (s.place (pa + i)) = true) → l.val = ext (memRead s.bundle.mem pa b))) ∧
      (fine .write → m.loc = true → ∃ u, st = .next u ∧ OnlyLocalStores t u ∧
        u.c.pbuf = t.c.pbuf.filter (fun e => !(local0 ≤ e.addr && e.addr < local0 + b)) ∧
        ∀ a, memGet u.mem a = if local0 ≤ a ∧ a < local0 + b then byte (a - local0) else memGet s.mem a) ∧
      (fine .write → m.loc = false → ∃ u, st = .next u ∧
        ∀ pa, s.translate via s.c.region (ea.toNat % 2 ^ 48) .write sup = .ok pa → plainPlace (s.place pa) = true →
          OnlyTlbs { t with c := { t.c with
            pbuf := t.c.pbuf ++ (List.range b).map fun i => ⟨pa + i, byte i, s.c.seq⟩ } } u) ∧
      (∃ u, pref = .next u ∧ OnlyTlbs t u))

/-! ## Tiles in memory -/

/-- R150 to R152: the tile accesses whose guard is true. The checks come in their order, each a fault with nothing
committed: a marked tile to store, a type that changes against attached factors, alignment of base and pitch, the rows
in their order, the descriptor of a post-increment. TLDL lands the elements that scratchpad held as the bundle issued
at n + 6; TLD is outstanding with those of memory; TSTL writes the elements of its rows, keeps the bits beyond them
and every other byte; TST puts its rows into the phase buffer and leaves memory as it was. Memory is canonical, as every
step keeps it (`EveryStepKeepsTheInvariant`). Of what it says the model's own choices are those of log entries 12, 16, 23,
25 and 93. -/
def Obligations.TileAccesses : Prop :=
  ∀ (t : TReg) (m : TMem) (swz : Bool) (port : Port) (s : State), Memory.wf s.mem = true → s.view.guard m.g = true →
    let T := s.view.t.get t
    let gen := s.view.ag.get m.a
    let ty := (s.view.record m.sel T.ty).ty
    let w := ty.width
    let len := ((T.cols.val + 1) * w + 7) / 8
    let base := s.view.a.get m.a
    let pitch := gen.pitch.toInt
    let row := fun (i : Nat) => (base + BitVec.ofInt 64 (pitch * i)).toNat
    let sup := s.c.isSup
    let tld := exec (.tld t m) s
    let tst := exec (.tst t m port) s
    let tldl := exec (.tldl t m swz) s
    let tstl := exec (.tstl t m swz port) s
    let fault := fun (c : BitVec 8) (v : Word) (u : State) => (.next (u.slotFault c v) : Out)
    let load := ty = T.ty ∨ T.lat.isId = true
    let store := T.invalid = false ∧ T.poison = none
    let bad0 := 8 ≤ w ∧ base.toNat % (w / 8) ≠ 0
    let bad1 := 8 ≤ w ∧ pitch % (w / 8 : Nat) ≠ 0
    let inside := fun (n : Nat) => ∀ i < n, row i + len ≤ 0x200000
    let via := some (s.id / 4)
    let mapped := fun (acc : Access) (n : Nat) => ∀ i < n, s.checkSpan via s.c.region sup acc (row i) len = none
    let n := T.rows.val + 1
    let core := 0x200000000000 + s.id / 4 * 0x1000000
    (∀ c v, s.view.marks [.t t] = some (c, v) → tst = fault c v s ∧ tstl = fault c v s) ∧
    (¬load → tld = fault 0x08 (BitVec.ofNat 64 t.val) s ∧ tldl = fault 0x08 (BitVec.ofNat 64 t.val) s) ∧
    (bad0 → (load → tld = fault 0x0A base s ∧ tldl = fault 0x0A base s) ∧
      (store → tst = fault 0x0A base s ∧ tstl = fault 0x0A base s)) ∧
    (¬bad0 → bad1 → (load → tld = fault 0x0A (BitVec.ofInt 64 pitch) s ∧ tldl = fault 0x0A (BitVec.ofInt 64 pitch) s) ∧
      (store → tst = fault 0x0A (BitVec.ofInt 64 pitch) s ∧ tstl = fault 0x0A (BitVec.ofInt 64 pitch) s)) ∧
    (¬bad0 → ¬bad1 → ∀ i < n, inside i → 0x200000 < row i + len →
      (load → tldl = fault 0x0B (BitVec.ofNat 64 (max 0x200000 (row i))) s) ∧
      (store → tstl = fault 0x0B (BitVec.ofNat 64 (max 0x200000 (row i))) s)) ∧
    (¬bad0 → ¬bad1 → ∀ i < n, ∀ c v,
      (load → mapped .read i → s.checkSpan via s.c.region sup .read (row i) len = some (c, v) →
        tld = fault c (BitVec.ofNat 64 v) s) ∧
      (store → mapped .write i → s.checkSpan via s.c.region sup .write (row i) len = some (c, v) →
        tst = fault c (BitVec.ofNat 64 v) s)) ∧
    (¬bad0 → ¬bad1 → m.post = true → ∀ k u, s.advance gen base = (.error k, u) →
      let e := fault 0x0C (descTval m.a k) u
      (load → (mapped .read n → tld = e) ∧ (inside n → tldl = e)) ∧
      (store → (mapped .write n → tst = e) ∧ (inside n → tstl = e))) ∧
    (¬bad0 → ¬bad1 → ∀ u, s.Posted m.a m.post u →
      let active := fun (en : Mask) => ∀ i j, en.at i j = decide (i.val ≤ T.rows.val ∧ j.val ≤ T.cols.val)
      (load → inside n → ∃ en g v marks, active en ∧ OnlyReads u v ∧
        tldl = .next (v.withResult 6 (.tile (.t t) en g (some ty) none :: marks) 0) ∧
        (s.tok.poison = [] → marks = []) ∧ (∀ x ∈ marks, ∃ l, x = .poison t l) ∧
        (s.Quiet → v = u ∧ ∀ i j, en.at i j = true → g.at i j =
          BitVec.ofNat 32 (memRead s.bundle.mem (core + row i.val) len / 2 ^ (w * j.val) % 2 ^ w))) ∧
      (load → mapped .read n → ∃ l v x, OnlyReads u v ∧ l.t = t ∧ l.ty = ty ∧ active l.en ∧
        tld = .next x ∧ OnlyTlbs { v with c := { v.c with tloads := u.c.tloads ++ [l] } } x ∧
        (s.Quiet → v = u ∧ ∀ (i : Fin 16) (pa : Nat → Nat), i.val < n →
          (∀ k < len, s.translate via s.c.region ((row i.val + k) % 2 ^ 48) .read sup = .ok (pa k) ∧
            plainPlace (s.place (pa k)) = true) →
          ∀ j : Fin 64, j.val ≤ T.cols.val → l.vals.at i j = BitVec.ofNat 32
            (leNat ((List.range len).map fun k => memGet s.bundle.mem (pa k)) / 2 ^ (w * j.val) % 2 ^ w))) ∧
      (store → inside n → ∃ v, tstl = .next v ∧ OnlyLocalStores u v ∧
        (∀ e, e ∈ v.c.pbuf ↔ e ∈ u.c.pbuf ∧ ∀ i < n, e.addr < core + row i ∨ core + row i + len ≤ e.addr) ∧
        (∀ a, (∀ i < n, a < core + row i ∨ core + row i + len ≤ a) → memGet v.mem a = memGet s.mem a) ∧
        (∀ i : Fin 16, i.val < n → (∀ k < n, k ≠ i.val → row k + len ≤ row i.val ∨ row i.val + len ≤ row k) →
          (∀ j : Fin 64, j.val ≤ T.cols.val → memRead v.mem (core + row i.val) len / 2 ^ (w * j.val) % 2 ^ w =
            (T.cells.at i j).toNat % 2 ^ w) ∧
          ((∀ e ∈ u.c.pbuf, e.addr < core + row i.val ∨ core + row i.val + len ≤ e.addr) →
            memRead v.mem (core + row i.val) len / 2 ^ (w * (T.cols.val + 1)) =
              memRead s.mem (core + row i.val) len / 2 ^ (w * (T.cols.val + 1))))) ∧
      (store → mapped .write n → ∃ x, tst = .next x ∧ ∀ pa : Nat → Nat → Nat,
        (∀ i < n, ∀ k < len, s.translate via s.c.region ((row i + k) % 2 ^ 48) .write sup = .ok (pa i k) ∧
          plainPlace (s.place (pa i k)) = true) →
        ∃ (v : State) (byte : Nat → Nat → Byte),
          let stored : List PStore := (List.range n).flatMap fun i => (List.range len).map fun k => ⟨pa i k, byte i k, s.c.seq⟩
          OnlyReads u v ∧ OnlyTlbs { v with c := { v.c with pbuf := u.c.pbuf ++ stored } } x ∧
          ∀ (i : Fin 16) (j : Fin 64), i.val < n → j.val ≤ T.cols.val →
            leNat ((List.range len).map (byte i.val)) / 2 ^ (w * j.val) % 2 ^ w = (T.cells.at i j).toNat % 2 ^ w))

/-- R160: SPILL and FILL whose guard is true. A slot that the silo does not have faults 0x0C, a tile marked invalid and not
poisoned faults 0x06; otherwise SPILL copies its target into the slot and FILL is outstanding with what the slot held, and
nothing else changes. A completed FILL gives its target the slot's contents, or leaves it invalid where the slot has none of
its kind. Of what it says the model's own choices are those of log entry 12. -/
def Obligations.SiloInstructions : Prop :=
  (∀ (x : XReg) (slot : BitVec 6) (g : Guard) (port : Port) (s : State), s.view.guard g = true →
    let T := s.view.xget x
    let isAcc := match x with
      | .t _ => false
      | .c _ => true
    let num := match x with
      | .t r => r.val
      | .c r => 32 + r.val
    let k : Fin 64 := slot.toFin
    (s.c.siloSlots ≤ slot.toNat →
      let e : Out := .next (s.slotFault 0x0C (BitVec.ofNat 64 (0x8200000000000000 + slot.toNat)))
      exec (.spill x slot g port) s = e ∧ exec (.fill x slot g) s = e) ∧
    (slot.toNat < s.c.siloSlots →
      (T.invalid = true → T.poison = none →
        exec (.spill x slot g port) s = .next (s.slotFault 0x06 (BitVec.ofNat 64 num))) ∧
      (T.invalid = false ∨ T.poison ≠ none → exec (.spill x slot g port) s =
        .next { s with c := { s.c with silo := s.c.silo.set k (some ⟨isAcc, T⟩) } }) ∧
      exec (.fill x slot g) s =
        .next { s with c := { s.c with fills := s.c.fills ++ [⟨x, s.c.silo.get k⟩] } })) ∧
  (∀ (s : State) (f : Fill), let x := s.move.x
    (s.ctx x).fills[s.move.n]? = some f →
    ∃ (t : State) (y : Tile), exec .fillComplete s = .next t ∧ OnlyContext x s t ∧
      t.ctx x = { s.ctx x with fills := (s.ctx x).fills.eraseIdx s.move.n, regs := (s.ctx x).regs.xset f.x y } ∧
      (let isAcc := match f.x with
        | .t _ => false
        | .c _ => true
       (∀ k, f.slot = some k → k.isAcc = isAcc → y = k.tile) ∧
       ((∀ k, f.slot = some k → k.isAcc ≠ isAcc) → y.invalid = true ∧ y.poison = none)))

/-- R136, R151, R153: a global load completes once its agent can read its lines: the register takes the value and is
busy no more, or stays busy with the poison that it met. A tile load gives its tile the elements, the type and, with
all 1,024 of them, clears its marks; poison, met at issue or by the time its lines have come, marks the tile. No other
register changes. A load that waits for an earlier atomic of its context to its bytes does nothing yet, and an agent that
cannot read a line yet records its need of it. Of what it says the model's own choices are those of log entries 12, 17, 23
and 42. -/
def Obligations.LoadsComplete : Prop :=
  ∀ (s : State), let x := s.move.x
    let c := s.ctx x
    let n := s.move.n
    let l2 : Agent := .cd (Fin.ofNat 8 (x / 4 / 40))
    let met := fun (at' : Option (BitVec 64)) (lines : List Nat) =>
      at'.or ((lines.find? s.poisoned).map fun k => BitVec.ofNat 64 (128 * k))
    (∀ l : Load, c.loads[n]? = some l →
      let waits : Prop := ∃ q as' sg, l.after = some (q, as', sg) ∧ c.awaits q as' = true
      (waits → exec .globalLoadComplete s = .next s) ∧
      (¬waits → (∀ k ∈ l.lines, s.canUse l2 k false = true) →
        ∃ t, exec .globalLoadComplete s = .next t ∧ OnlyContext x s t ∧
          (met l.poison l.lines = none → Ctx.Like { c with
            loads := c.loads.eraseIdx n
            regs := c.regs.sset l.dst l.val
            spoison := c.spoison.filter fun p => p.1 != l.dst
            unread := c.unread.filter fun e => e.1 != l.dst } (t.ctx x)) ∧
          (∀ a, met l.poison l.lines = some a → l.dst ≠ 0 → Ctx.Like { c with
            loads := c.loads.eraseIdx n
            spoison := (c.spoison.filter fun p => p.1 != l.dst) ++ [(l.dst, a)] } (t.ctx x))) ∧
      (¬waits → ∀ k ks rest, l.lines = ks ++ k :: rest → (∀ j ∈ ks, s.canUse l2 j false = true) → s.canUse l2 k false = false →
        exec .globalLoadComplete s = .next (s.addNeed l2 k false .op c.owner))) ∧
    (∀ l : TileLoad, c.tloads[n]? = some l →
      let waits : Prop := ∃ q rows w, l.after = some (q, rows, w) ∧ c.awaits q rows.flatten = true
      let bad := met l.poison l.lines
      (waits → exec .tileLoadComplete s = .next s) ∧
      (¬waits → (∀ k ∈ l.lines, s.canUse l2 k false = true) →
        ∃ t, exec .tileLoadComplete s = .next t ∧ OnlyContext x s t ∧
          Ctx.Like { c with
            tloads := c.tloads.eraseIdx n
            regs := { c.regs with t := (t.ctx x).regs.t } } (t.ctx x) ∧
          (∀ r, r ≠ l.t → (t.ctx x).regs.t.get r = c.regs.t.get r) ∧
          (let old := c.regs.t.get l.t
           let new := (t.ctx x).regs.t.get l.t
           (∀ i j, new.cells.at i j = if l.en.at i j = true then l.vals.at i j else old.cells.at i j) ∧
           new.ty = l.ty ∧ new.rows = old.rows ∧ new.cols = old.cols ∧ new.lat = old.lat ∧
           (l.en = Mask.ones → new.invalid = false) ∧ (l.en ≠ Mask.ones → new.invalid = old.invalid) ∧
           (∀ a, bad = some a → new.poison = some a) ∧
           (bad = none → l.en = Mask.ones → new.poison = none) ∧
           (bad = none → l.en ≠ Mask.ones → new.poison = old.poison))) ∧
      (¬waits → ∀ k ks rest, l.lines = ks ++ k :: rest → (∀ j ∈ ks, s.canUse l2 j false = true) → s.canUse l2 k false = false →
        exec .tileLoadComplete s = .next (s.addNeed l2 k false .op c.owner)))

/-! ## The crossbar and the special functions -/

/-- R190 to R194, R240: the crossbar moves bits of ta under the width of its type and gives td that type. XPERM writes
the columns that the pattern reaches, each from the column routed to it; the fixed maps write every active element;
XPLD lands the pattern that a row holds, and faults for a marked tile. Each lands at n + 3 and raises no flag. Of what
it says the model's own choices are those of log entry 27. -/
def Obligations.CrossbarResults : Prop :=
  ∀ (td : TReg) (ta : TSrc) (xp : Fin 4) (r : Fin 16) (kind k : BitVec 3) (s : State),
    let D := s.view.t.get td
    let A := s.view.t.get ta.t
    let active := fun (i : Fin 16) (j : Fin 64) => decide (i.val ≤ D.rows.val ∧ j.val ≤ D.cols.val)
    let bits := fun (i : Fin 16) (j : Fin 64) => (BitVec.ofNat 32 ((A.cells.at i j).toNat % 2 ^ A.ty.width), (0 : Flags))
    let pat := s.view.xp.get xp
    let on := fun (j : Fin 64) => (pat.get j).toNat < 64
    let dest := fun (j : Fin 64) => Fin.ofNat 64 (pat.get j).toNat
    let pass : Row := ⟨.pass, .pass, .ident, .ident⟩
    let move := fun (i : Instr) (row : Row) (f : Fin 16 → Fin 64 → BitVec 32 × Flags) =>
      ∃ en : Mask, (∀ i j, en.at i j = active i j) ∧ TileOutcome s (exec i s) 3 td A.ty [ta.t] row [ta.t] en f
    (∀ src : Fin 64 → Fin 64, (∀ j, on j → src (dest j) = j) →
      ∃ en : Mask, (∀ i j, en.at i j = true ↔ active i j = true ∧ ∃ q, on q ∧ dest q = j) ∧
        TileOutcome s (exec (.xperm td ta xp) s) 3 td A.ty [ta.t] pass [ta.t] en (fun i j => bits i (src j))) ∧
    (kind = 0 → move (.xshuf td ta kind k) pass fun i j => bits i (Fin.ofNat 64 (63 - j.val))) ∧
    (kind = 1 → move (.xshuf td ta kind k) pass fun i j => bits i (Fin.ofNat 64 (j.val / 2 + 32 * (j.val % 2)))) ∧
    (kind = 2 → move (.xshuf td ta kind k) pass fun i j => bits i (Fin.ofNat 64 (2 * (j.val % 32) + j.val / 32))) ∧
    (kind = 3 → k.toNat ≤ 5 → move (.xshuf td ta kind k) pass fun i j =>
      bits i (Fin.ofNat 64 (if j.val.testBit k.toNat then j.val - 2 ^ k.toNat else j.val + 2 ^ k.toNat))) ∧
    (∀ rev : Fin 64 → Fin 64, (∀ (j : Fin 64) (n : Nat), n < 6 → (rev j).val.testBit n = j.val.testBit (5 - n)) →
      move (.xbrev td ta) pass fun i j => bits i (rev j)) ∧
    move (.xtrn td ta) (Row.all .ident) (fun i j => bits (Fin.ofNat 16 j.val) (Fin.ofNat 64 (j.val / 16 * 16 + i.val))) ∧
    (∀ c v, s.view.marks [.t ta.t] = some (c, v) → exec (.xpld xp ta r) s = .next (s.slotFault c v)) ∧
    (A.invalid = false → A.poison = none → ∃ p : Vector (BitVec 7) 64,
      (∀ j, p.get j = BitVec.ofNat 7 ((A.cells.at r j).toNat % 128)) ∧
      exec (.xpld xp ta r) s = .next (s.withResult 3 [.xp xp p] 0))

/-- R197 to R199: the special functions whose guard is true write each selected element at n + 20 and give td no
latent factors; a source with factors faults. The values that R198 gives are said here: NaN, the infinities and zeros,
arguments out of range, and those whose image is rational. A square root that is irrational lies between the bounds
from which it is rounded. Of what it says the model's own choices are those of log entries 7, 27 and 36. -/
def Obligations.SpecialFunctionResults : Prop :=
  (∀ (td : TReg) (ta : TSrc) (v : VCtl) (s : State), s.view.pget v.p = true →
    let r := s.view.record v.sel (s.view.t.get td).ty
    let A := s.view.t.get ta.t
    let go := fun (i : Instr) (op : Nat) =>
      TileOutcome s (exec i s) 20 td r.ty [ta.t] (Row.all .ident) [ta.t] (s.elems td v.k)
        (fun i j => sfu op r ((Rec.implied A.ty s.view.cb).decode (A.cells.at i j)))
    go (.fexp2 td ta v) 1 ∧ go (.flog2 td ta v) 2 ∧ go (.frcp td ta v) 3 ∧ go (.frsqrt td ta v) 4 ∧
    go (.fsqrt td ta v) 5 ∧ go (.ftanh td ta v) 6 ∧ go (.fsigm td ta v) 7 ∧ go (.fexp td ta v) 8 ∧
    go (.fsin td ta v) 9 ∧ go (.fcos td ta v) 10) ∧
  (∀ r : Rec,
    let is := fun (op : Nat) (x y : Machine.Num) (f : Flags) =>
      sfu op r x = ((r.encode y).1, f ||| (r.encode y).2)
    let one : Machine.Num := .fin 1
    (∀ op x, x.isNaN = true → is op x x.quiet (if x.isSNaN then 16 else 0)) ∧
    (∀ n : Bool, is 1 (.inf n) (if n then .zero false else .inf false) 0 ∧
      is 8 (.inf n) (if n then .zero false else .inf false) 0 ∧
      is 3 (.inf n) (.zero n) 0 ∧ is 6 (.inf n) (.fin (if n then -1 else 1)) 0 ∧
      is 7 (.inf n) (if n then .zero false else one) 0 ∧ is 9 (.inf n) .default 16 ∧ is 10 (.inf n) .default 16) ∧
    is 2 (.inf false) (.inf false) 0 ∧ is 2 (.inf true) .default 16 ∧ is 4 (.inf false) (.zero false) 0 ∧
    is 4 (.inf true) .default 16 ∧ is 5 (.inf false) (.inf false) 0 ∧ is 5 (.inf true) .default 16 ∧
    (∀ n : Bool, is 1 (.zero n) one 0 ∧ is 8 (.zero n) one 0 ∧ is 10 (.zero n) one 0 ∧ is 2 (.zero n) (.inf true) Flags.dz ∧
      is 3 (.zero n) (.inf n) Flags.dz ∧ is 4 (.zero n) (.inf n) Flags.dz ∧ is 7 (.zero n) (.fin (1 / 2)) 0 ∧
      is 5 (.zero n) (.zero n) 0 ∧ is 6 (.zero n) (.zero n) 0 ∧ is 9 (.zero n) (.zero n) 0) ∧
    (∀ q : Rat, q < 0 → is 2 (.fin q) .default 16 ∧ is 4 (.fin q) .default 16 ∧ is 5 (.fin q) .default 16) ∧
    (∀ q : Rat, is 3 (.fin q) (.fin (1 / q)) 0) ∧
    (∀ n : Int, n ≠ 0 → -1000 ≤ n → n ≤ 1000 → is 1 (.fin n) (.fin ((2 : Rat) ^ n)) 0) ∧
    (∀ n : Int, is 2 (.fin ((2 : Rat) ^ n)) (if n = 0 then .zero false else .fin n) 0) ∧
    (∀ q : Rat, 0 < q → is 5 (.fin (q * q)) (.fin q) 0 ∧ is 4 (.fin (q * q)) (.fin (1 / q)) 0)) ∧
  (∀ (p : Nat) (q : Rat), 0 < q →
    0 ≤ (sqrtBounds p q).1 ∧ (sqrtBounds p q).1 ^ 2 ≤ q ∧ q < (sqrtBounds p q).2 ^ 2)

/-! ## Latent factors -/

/-- R230 to R238: the latent group. TLAT, TLATC and TLATQ read and set descriptors; LVACC, LVCLOSE, LVMOV and LVSET
write vectors; LVMOV into a row that its target does not have writes nothing; TDEV develops every active element with one rounding, leaves no factors, and keeps in DEVNF whether an
element was infinite or NaN. Marked sources fault first, then factors on a source that must have none, then cause 0x16
with the vector and the reason. Of what it says the model's own choices are those of log entries 13 and 35. -/
def Obligations.LatentInstructions : Prop :=
  ∀ (x : XReg) (slot : LSlot) (a b lv : LvReg) (useB recipA recipB neg ext scale : Bool) (mask : BitVec 4) (d sc : SReg)
    (port : Port) (sel : BitVec 5) (op : Fin 8) (row : Fin 16) (s : State),
    let X := s.view.xget x
    let L := X.lat
    let V := s.view.lv.get lv
    let num := match x with
      | .t r => r.val
      | .c r => 32 + r.val
    let pend := fun (v : LatVec) => v.pend > 0 ∨ v.closing = true
    let f16 := fun (v : LvReg) (reason : Nat) => (.next (s.slotFault 0x16 (BitVec.ofNat 64 (256 * v.val + reason))) : Out)
    let refs := fun (D : BitVec 16) (v : LvReg) => D.getLsbD 15 = true ∧
      (v.val = D.toNat % 16 ∨ (D.getLsbD 10 = true ∧ v.val = D.toNat / 16 % 16))
    let bad := fun (v : LvReg) (reason : Nat) =>
      let w := s.view.lv.get v
      (reason = 1 ∧ w.isOpen = true ∧ w.closing = false) ∨
        (reason = 2 ∧ ¬(w.isOpen = true ∧ w.closing = false) ∧ w.err = true)
    let marked := fun (i : Instr) => ∀ c v, s.view.marks [x] = some (c, v) → exec i s = .next (s.slotFault c v)
    let clean := X.invalid = false ∧ X.poison = none
    let bare := fun (i : Instr) => clean → L.isId = false → exec i s = .next (s.slotFault 0x07 (BitVec.ofNat 64 num))
    let toVec := fun (i : Instr) (en : BitVec 64) (isOpen clear : Bool) (f : Fin 64 → BitVec 32 × Flags) =>
      ∃ (e : Vector (BitVec 32) 64) (fl : Flags), exec i s = .next (s.withResult 2 [.lv lv en e isOpen clear] fl) ∧
        (∀ j : Fin 64, en.getLsbD j.val = true → e.get j = (f j).1) ∧
        (∀ n < 5, fl.getLsbD n = true ↔ ∃ j : Fin 64, (f j).2.getLsbD n = true)
    let el := fun (i : Fin 16) (j : Fin 64) => (Rec.implied X.ty s.view.cb).decode (X.cells.at i j)
    let active := fun (i : Fin 16) (j : Fin 64) => decide (i.val ≤ X.rows.val ∧ j.val ≤ X.cols.val)
    (let D := BitVec.ofNat 16 (32768 + 2048 * neg.toNat + 1024 * useB.toNat + 512 * recipB.toNat + 256 * recipA.toNat +
        16 * b.val + a.val)
     let go := fun (l : Machine.Lat) => exec (.tlat x slot a b useB recipA recipB neg) s =
       .next (s.withResult 2 [.latent x l] 0)
     (slot = .rs → go { L with rs := D }) ∧ (slot = .rb → go { L with rb := D }) ∧
     (slot = .cs → go { L with cs := D }) ∧ (slot = .cb → go { L with cb := D })) ∧
    (let drop := fun (n : Nat) (D : BitVec 16) => if mask.getLsbD n then 0 else D
     exec (.tlatc x mask) s = .next (s.withResult 2
       [.latent x ⟨drop 0 L.rs, drop 1 L.rb, drop 2 L.cs, drop 3 L.cb, L.devnf⟩] 0)) ∧
    (let D := match slot with
      | .rs => L.rs
      | .rb => L.rb
      | .cs => L.cs
      | .cb => L.cb
     ∃ p : Bool, (p = true ↔ ∃ v, refs D v ∧ ((s.view.lv.get v).isOpen = true ∨ pend (s.view.lv.get v))) ∧
       exec (.tlatq d x slot) s = .next (s.withResult 2 (sWrite d
         (BitVec.ofNat 64 (131072 * L.devnf.toNat + 65536 * p.toNat + D.toNat))) 0)) ∧
    (marked (.tdev x port sel) ∧
     (clean → let r := s.view.record sel X.ty
      let typed := (∃ t, x = .t t) ∨ r.ty = .f32 ∨ r.ty = .i32
      let used := fun v => refs L.rs v ∨ refs L.rb v ∨ refs L.cs v ∨ refs L.cb v
      (¬typed → exec (.tdev x port sel) s = .next (s.slotFault 0x08 (BitVec.ofNat 64 num))) ∧
      (typed → ∀ v n, used v → bad v n → (∀ w, w < v → used w → ∀ m, ¬bad w m) →
        exec (.tdev x port sel) s = f16 v n) ∧
      (typed → (∀ v, used v → ∀ n, ¬bad v n) →
        ∃ (en : Mask) (g : Grid) (fl : Flags) (nf : Bool),
          exec (.tdev x port sel) s =
            .next (s.withResult 8 [.tile x en g (some r.ty) none, .latent x ⟨0, 0, 0, 0, nf⟩] fl) ∧
          (∀ i j, en.at i j = active i j) ∧
          (nf = true ↔ ∃ i j, active i j = true ∧ ((el i j).isNaN = true ∨ (el i j).isInf = true)) ∧
          (let v := fun (i : Fin 16) (j : Fin 64) => s.develop L (r.rm == .rdn) (el i j) i j
           (∀ i j, active i j = true → g.at i j = (r.encode (v i j).1).1) ∧
           (∀ n < 5, fl.getLsbD n = true ↔
             ∃ i j, active i j = true ∧ ((v i j).2 ||| (r.encode (v i j).1).2).getLsbD n = true))))) ∧
    (let acc := Instr.lvacc x port lv op ext
     let free := clean ∧ L.isId = true
     marked acc ∧ bare acc ∧
     (free → ext = true → V.isOpen = false → exec acc s = f16 lv 3) ∧
     (free → (ext = true → V.isOpen = true) → pend V → exec acc s = f16 lv 5) ∧
     (free → (ext = true → V.isOpen = true) → ¬pend V →
       let inside := fun (e : Fin 64) => if op.val < 4 then e.val ≤ X.rows.val else e.val ≤ X.cols.val
       let terms := fun (e : Fin 64) =>
         if op.val < 4 then ((List.finRange 64).take (X.cols.val + 1)).map fun j => el (Fin.ofNat 16 e.val) j
         else ((List.finRange 16).take (X.rows.val + 1)).map fun i => el i e
       let old := fun (e : Fin 64) => if ext then [f32Num (V.e.get e)] else []
       let val := fun (e : Fin 64) =>
         if op.val % 4 = 0 then sumMany false (terms e ++ old e)
         else if op.val % 4 = 1 then sumMany false (squares (terms e) ++ old e)
         else if op.val % 4 = 2 then maxMany true (.inf true) (terms e ++ old e)
         else maxMany true (.zero false) ((terms e ++ old e).map Machine.Num.abs)
       ∃ en : BitVec 64, (∀ e : Fin 64, en.getLsbD e.val = true ↔ (inside e ∨ ext = false)) ∧
         toVec acc en true false fun e =>
           if inside e then (((Rec.f32 .rne).encode (val e).1).1, (val e).2 ||| ((Rec.f32 .rne).encode (val e).1).2)
           else (if op.val % 4 = 2 then 0xFF800000 else 0, 0))) ∧
    ((V.isOpen = false ∨ V.closing = true → exec (.lvclose lv sc scale) s = f16 lv 4) ∧
     (V.isOpen = true → V.closing = false → exec (.lvclose lv sc scale) s = .next (s.withResult 2
       [.lvClose lv (if scale then some ((s.view.sget sc).setWidth 32) else none)] 0))) ∧
    (let mov := Instr.lvmovToVector lv x port row
     marked mov ∧ bare mov ∧ (clean → L.isId = true → pend V → exec mov s = f16 lv 5) ∧
     (clean → L.isId = true → ¬pend V →
       toVec mov (BitVec.allOnes 64) false true fun j => (Rec.f32 .rne).encode (el row j))) ∧
    ((∀ n, bad lv n → exec (.lvmovToRow x row lv) s = f16 lv n) ∧
     ((∀ n, ¬bad lv n) → X.rows.val < row.val → exec (.lvmovToRow x row lv) s = .next (s.withResult 2 [] 0)) ∧
     ((∀ n, ¬bad lv n) → row.val ≤ X.rows.val → ∃ (en : Mask) (g : Grid) (fl : Flags),
       exec (.lvmovToRow x row lv) s = .next (s.withResult 2 [.tile x en g (some X.ty) none] fl) ∧
       (∀ i j, en.at i j = decide (i = row ∧ i.val ≤ X.rows.val ∧ j.val ≤ X.cols.val)) ∧
       (let v := fun (j : Fin 64) => (Rec.implied X.ty s.view.cb).encode (f32Num (V.e.get j))
        (∀ i j, en.at i j = true → g.at i j = (v j).1) ∧
        (∀ n < 5, fl.getLsbD n = true ↔ ∃ i j, en.at i j = true ∧ (v j).2.getLsbD n = true)))) ∧
    ((pend V → exec (.lvset lv sc ext) s = f16 lv 5) ∧
     (¬pend V → exec (.lvset lv sc ext) s = .next (s.withResult 2
       [.lv lv (BitVec.allOnes 64) (.replicate 64 ((s.view.sget sc).setWidth 32)) ext true] 0)))

/-- R226: the developed value. Without factors a number is itself. With entries that are finite and not zero, and a sum that
is not zero, it is (stored + RB + CB) × RS × CS, each slot the product of its entries, a reciprocal where the descriptor says
so, and negated where it says so. -/
def Obligations.DevelopedValues : Prop :=
  ∀ (s : State) (l : Machine.Lat) (rdn : Bool) (q : Rat) (i : Fin 16) (j : Fin 64) (e : LvReg → Fin 64 → Rat),
    (l.isId = true → s.develop l rdn (.fin q) i j = (.fin q, 0)) ∧
    ((∀ v k, f32Num ((s.view.lv.get v).e.get k) = .fin (e v k) ∧ e v k ≠ 0) →
      let ref := fun (v : Nat) (rcp : Bool) (k : Fin 64) =>
        let x := e (Fin.ofNat 16 v) k
        if rcp then 1 / x else x
      let slot := fun (D : BitVec 16) (k : Fin 64) (unit : Rat) =>
        if D.getLsbD 15 then
          (if D.getLsbD 11 then -1 else 1) * ref D.toNat (D.getLsbD 8) k *
            (if D.getLsbD 10 then ref (D.toNat / 16) (D.getLsbD 9) k else 1)
        else unit
      let row : Fin 64 := Fin.ofNat 64 i.val
      let sum := q + slot l.rb row 0 + slot l.cb j 0
      q ≠ 0 → sum ≠ 0 →
      (∀ D ∈ [l.rs, l.rb, l.cs, l.cb], D.getLsbD 15 = false → D = 0) →
      s.develop l rdn (.fin q) i j = (.fin (sum * slot l.rs row 1 * slot l.cs j 1), 0))

/-- R165, R171, R239: the checks of a source tile. A poisoned tile is reported before an invalid one in the same
place, and the first marked tile of those read is the one reported, with its line or its number. Each code of the
commutation table makes of the slots of the sources the slot of the result, or names the first source that fails. Of
what it says the model's own choices are those of log entry 35. -/
def Obligations.SourceChecks : Prop :=
  (∀ (r : Regs) (ts rest : List XReg) (x : XReg),
    let free := fun (y : XReg) => (r.xget y).invalid = false ∧ (r.xget y).poison = none
    ((∀ y ∈ ts, free y) → r.marks ts = none) ∧
    ((∀ y ∈ ts, free y) → ∀ l, (r.xget x).poison = some l → r.marks (ts ++ x :: rest) = some (0x14, l)) ∧
    ((∀ y ∈ ts, free y) → (r.xget x).poison = none → (r.xget x).invalid = true →
      r.marks (ts ++ x :: rest) = some (0x06, BitVec.ofNat 64 (XReg.num x)))) ∧
  ∀ (own a b : BitVec 16) (ds : List (BitVec 16)),
    Com.pass.slot own (a :: ds) = .ok a ∧
    Com.keep.slot own ds = .ok own ∧
    Com.clear.slot own ds = .ok 0 ∧
    Com.neg.slot own (a :: ds) = .ok (if a = 0 then 0 else a ^^^ 0x800) ∧
    (∀ pre post : List (BitVec 16), (∀ d ∈ pre, d = 0) → b ≠ 0 →
      Com.ident.slot own (pre ++ b :: post) = .error pre.length) ∧
    ((∀ d ∈ ds, d = 0) → Com.ident.slot own ds = .ok 0) ∧
    ((∀ d ∈ ds, d = a) → Com.same.slot own (a :: ds) = .ok a ∧ Com.cancel.slot own (a :: ds) = .ok 0) ∧
    (∀ pre post : List (BitVec 16), (∀ d ∈ pre, d = a) → b ≠ a →
      Com.same.slot own (a :: pre ++ b :: post) = .error (pre.length + 1) ∧
      Com.cancel.slot own (a :: pre ++ b :: post) = .error (pre.length + 1)) ∧
    (let two := fun (D : BitVec 16) => D.getLsbD 15 = true ∧ D.getLsbD 10 = true
     let one := fun (D : BitVec 16) => D.getLsbD 15 = true ∧ D.getLsbD 10 = false
     (one a → one b → Com.join.slot own [a, b] = .ok (BitVec.ofNat 16 (0x8400 +
       (if b.getLsbD 8 then 512 else 0) + (if a.getLsbD 8 then 256 else 0) + 16 * (b.toNat % 16) + a.toNat % 16))) ∧
     (two a → one b → Com.join.slot own [a, b] = .error 1) ∧ (two a → two b → Com.join.slot own [a, b] = .error 1) ∧
     Com.join.slot own [0, 0] = .ok 0)

/-! ## The token tree -/

/-- R319 to R328: the tree instructions whose guard is true, on a well-formed tree. A tree fault changes nothing else; the
lowest reason is reported. TREECLR leaves the root alone; TREESET takes the parents that a row names; TREEADD appends the
lowest invalid node under its parent; TREEMASK, TREEBIAS and TREEPOS write ancestry and positions, TREEPOS nothing in a row
that td does not have; TREEPRUNE keeps the path
of a leaf, renumbered, with its two maps and its length; TREERD reads a field. Every tree that is written is well formed:
node 0 is a valid root, the chain of every valid node reaches it through valid nodes, depths count the chain, and an invalid
node holds zeros. -/
def Obligations.TreeInstructions : Prop :=
  ∀ (td : TReg) (ta : TSrc) (kd : KReg) (sc : SReg) (parent node : Fin 64) (row : Fin 16) (blk : Fin 4) (field : Fin 4)
    (p : PReg) (s : State), s.view.pget p = true →
    let T := s.view.tree
    let ok := fun (t : Tree) (n : Fin 64) => (Vector.get t n).valid = true
    let par := fun (t : Tree) (n : Fin 64) => (Vector.get t n).parent.toFin
    let wf := fun (t : Tree) => ok t 0 ∧ par t 0 = 0 ∧ (Vector.get t 0).depth = 0 ∧
      (∀ n, ok t n → n ≠ 0 → ok t (par t n) ∧ (Vector.get t n).depth.toNat = (Vector.get t (par t n)).depth.toNat + 1) ∧
      ∀ n, ¬ok t n → Vector.get t n = ⟨0, false, 0, 0, false⟩
    let fault := fun (n reason : Nat) => (.next (s.slotFault 0x13 (BitVec.ofNat 64 (256 * n + reason))) : Out)
    let D := s.view.t.get td
    let anc := fun (a q : Fin 64) => Tree.anc T a q
    let node16 := fun (i : Fin 16) => Fin.ofNat 64 (16 * blk.val + i.val)
    let S := s.view.sget sc
    let cells := (s.view.t.get ta.t).cells
    wf T →
    (∀ a q, anc a q = true ↔ ok T a ∧ ok T q ∧ ∃ k : Nat, k < 64 ∧ Nat.repeat (par T) k q = a) ∧
    (∃ t : Tree, exec (.treeclr p) s = .next (s.withResult 3 [.tree t] 0) ∧ wf t ∧ ok t 0 ∧ ∀ n, n ≠ 0 → ¬ok t n) ∧
    (let A := s.view.t.get ta.t
     let ts := exec (.treeset ta row p) s
     let named := fun (n : Fin 64) => n = 0 ∨ (cells.at row n).getLsbD 31 = false
     let up := fun (n : Fin 64) => if n = 0 then 0 else Fin.ofNat 64 (cells.at row n).toNat
     let reach := fun (n : Fin 64) => ∃ k : Nat, k < 64 ∧ (Nat.repeat up k n) = 0
     (∀ c v, s.view.marks [.t ta.t] = some (c, v) → ts = .next (s.slotFault c v)) ∧
     (A.invalid = false → A.poison = none → A.lat.isId = false →
       ts = .next (s.slotFault 0x07 (BitVec.ofNat 64 ta.t.val))) ∧
     (A.invalid = false → A.poison = none → A.lat.isId = true →
       (∀ n, named n → ¬named (up n) → (∀ m, m < n → named m → named (up m)) → ts = fault n.val 1) ∧
       ((∀ n, named n → named (up n)) →
         (∀ n, named n → ¬reach n → (∀ m, m < n → named m → reach m) → ts = fault n.val 2) ∧
         ((∀ n, named n → reach n) →
           (cells.at row 0 ≠ 0 → ts = fault 0 3) ∧
           (cells.at row 0 = 0 → ∃ t : Tree, ts = .next (s.withResult 4 [.tree t] 0) ∧ wf t ∧
             (∀ n, ok t n ↔ named n) ∧ (∀ n, named n → par t n = up n ∧ (Vector.get t n).acc = false ∧
               (Vector.get t n).token = (Vector.get T n).token)))))) ∧
    (let ta := exec (.treeadd sc parent p) s
     ((∀ n, ok T n) → ta = fault 63 4) ∧
     (∀ n, ¬ok T n → (∀ m, m < n → ok T m) →
       (¬ok T parent → ta = fault n.val 1) ∧
       (ok T parent → ∃ t : Tree, ta = .next (s.withResult 3 [.tree t] 0) ∧ wf t ∧
         (∀ m, m ≠ n → Vector.get t m = Vector.get T m) ∧ ok t n ∧ par t n = parent ∧
         (Vector.get t n).token = S.setWidth 32 ∧ (Vector.get t n).acc = false))) ∧
    (∃ en m : Mask, exec (.treemask kd blk p) s = .next (s.withResult 3 [.mask kd en m] 0) ∧
      (∀ i j, en.at i j = true) ∧ (∀ i j, m.at i j = anc j (node16 i))) ∧
    (let tb := exec (.treebias td blk p) s
     let typed := D.ty = .f32 ∨ D.ty = .bf16 ∨ D.ty = .f16 ∨ D.ty = .e5m2
     (¬typed → tb = fault 0 6) ∧
     (typed → TileOutcome s tb 4 td D.ty [] (Row.all .clear) [] D.active fun i j =>
       (((Rec.implied D.ty s.view.cb).encode (if anc j (node16 i) then .zero false else .inf true)).1, 0))) ∧
    (∃ en : Mask, (∀ i j, en.at i j = true ↔ i = row ∧ i.val ≤ D.rows.val ∧ j.val ≤ D.cols.val ∧ ok T j) ∧
      PartOutcome s (exec (.treepos td sc row p) s) (row.val ≤ D.rows.val) 3 td D.ty [] (Row.all .keep) [] en fun _ j =>
        (Rec.implied D.ty s.view.cb).encode
          (let n := S.toInt + ((Vector.get T j).depth.toNat : Int)
           if n = 0 then .zero false else .fin n)) ∧
    (let tp := exec (.treeprune td sc row p) s
     let leaf : Fin 64 := Fin.ofNat 64 S.toNat
     (64 ≤ S.toNat ∨ ¬ok T leaf → tp = fault (S.toNat % 64) 5) ∧
     (S.toNat < 64 → ok T leaf →
       (D.ty ≠ .i32 → tp = fault 0 6) ∧ (D.ty = .i32 → row = 15 → tp = fault 0 7) ∧
       (D.ty = .i32 → row ≠ 15 → ∀ path : List (Fin 64), path.length = (Vector.get T leaf).depth.toNat + 1 →
         path[0]? = some 0 → path.getLast? = some leaf →
         (∀ (k : Nat) (a b : Fin 64), path[k]? = some a → path[k + 1]? = some b → par T b = a) →
         ∃ (t : Tree) (en : Mask) (g : Grid),
           tp = .next (s.withResult 6 ([.tree t, .tile (.t td) en g (some .i32) none] ++
             sWrite sc (BitVec.ofNat 64 path.length)) 0) ∧ wf t ∧
           (∀ n : Fin 64, ok t n ↔ n.val < path.length) ∧
           (∀ (n o : Fin 64), path[n.val]? = some o → (par t n).val = n.val - 1 ∧ (Vector.get t n).acc = true ∧
             (Vector.get t n).token = (Vector.get T o).token) ∧
           (∀ i j, en.at i j = decide ((i = row ∨ i.val = row.val + 1) ∧ i.val ≤ D.rows.val ∧ j.val ≤ D.cols.val)) ∧
           (∀ (n o : Fin 64) (i : Fin 16), path[n.val]? = some o → g.at row o = BitVec.ofNat 32 n.val ∧
             (i.val = row.val + 1 → g.at i n = BitVec.ofNat 32 o.val)) ∧
           (∀ j, j ∉ path → g.at row j = 0x3F) ∧
           (∀ (i : Fin 16) (j : Fin 64), i.val = row.val + 1 → path.length ≤ j.val → g.at i j = 0x3F)))) ∧
    (let N := Vector.get T node
     let rd := fun (v : Nat) => (.next (s.withResult 3 (sWrite sc (BitVec.ofNat 64 v)) 0) : Out)
     exec (.treerd sc node field p) s = (if field = 0 then rd N.parent.toNat else if field = 1 then rd N.depth.toNat
       else if field = 2 then rd N.token.toNat else rd (N.valid.toNat + 2 * N.acc.toNat)))

/-! ## The matrix unit -/

/-- R206, R210, R212 to R218, R221: the Q syllables whose guard is true. Each is checked in order against the unit's
state as its earlier operations will leave it (marked tiles, marked accumulators, an empty plane, a change of type,
latent factors, the streamed tiles), faults with nothing committed, or is accepted with what it captures. Of what it
says the model's own choices are those of log entries 37 and 90. -/
def Obligations.MatrixOperationsAreAccepted : Prop :=
  ∀ (cd : CReg) (ta : TSrc) (td : TReg) (asel wsel : BitVec 5) (r : Rep) (a : AReg) (p : PReg) (s : State),
    s.view.pget p = true →
    let T := fun (n : Nat) => s.view.t.get (Fin.ofNat 32 n)
    let t := ta.t.val
    let A := T t
    let c := s.qNow
    let acc := fun (k : Nat) => Fin.ofNat 8 (cd.val + k * r.inc.toNat)
    let C := fun (n : CReg) => c.regs.c.get n
    let typed := fun (sel : BitVec 5) (ty : ElemTy) => (s.view.recWord sel).getD (BitVec.ofNat 64 ty.code)
    let fault := fun (i : Instr) (u : State) (e : BitVec 8 × Word) => exec i s = .next (u.slotFault e.1 e.2)
    let taken := fun (i : Instr) (u : State) (q : QOp) => ∃ v, exec i s = .next v ∧ Accepted u q v
    let prod := fun (op : BitVec 6) => { s.qop op with
      cd := cd
      wrec := s.view.recWord wsel
      wImplied := wsel == 0x1F
      rep := r.rep.toNat
      inc := r.inc.toNat }
    let ofTile := fun (op : BitVec 6) => { prod op with ta := ta.t, tiles := [A], arec := some (typed asel A.ty) }
    let ofStream := fun (op : BitVec 6) => { prod op with arec := s.view.recWord asel }
    let streams := fun (i : Instr) (q : QOp) (b : AReg) (n : Nat) (w len : Option Nat) =>
      let g := s.view.ag.get b
      let walk := s.streamWalk b w len n { g with ctrl := g.ctrl &&& 0x7F } (s.view.a.get b)
      (∀ e u, walk = (.error e, u) → fault i u e) ∧
      (∀ as g' x k u, walk = (.ok (as, g', x, k), u) → taken i
        (if n = 0 then u
          else u.withAdvance (if g.ctrl.toNat / 16 % 8 ≤ 3 then 6 else 1) b b ⟨x, g'.ctr, g'.ctrl.getLsbD 7, k⟩)
        { q with addrs := as, pitch := g.pitch })
    let product := fun (i : Instr) (q : QOp) (n : Nat) (tile sums turned : Bool) =>
      let marked := tile = true ∧ (A.markFault t).isSome = true
      let accFree := fun (m : Nat) => ∀ k < m, (C (acc k)).markFault (32 + (acc k).val) = none
      let bare := tile = true → A.lat.rb = 0 ∧ A.lat.cs = 0 ∧ A.lat.cb = 0
      let agrees := fun (k : Nat) =>
        let l := (C (acc k)).lat
        l.rs = (if k = 0 ∧ tile = true then A.lat.rs else 0) ∧ l.rb = 0 ∧ l.cs = (if turned then 0 else c.active.cs) ∧ l.cb = 0
      let N := r.rep.toNat + 1
      (tile = true → ∀ e, A.markFault t = some e → fault i s e) ∧
      (¬marked →
        (sums = true → ∀ k < N, accFree k → ∀ e, (C (acc k)).markFault (32 + (acc k).val) = some e → fault i s e) ∧
        ((sums = true → accFree N) →
          (c.active.valid = false → fault i s (0x06, 0x40)) ∧
          (c.active.valid = true →
            (¬bare → fault i s (0x07, BitVec.ofNat 64 t)) ∧
            (bare →
              (sums = true → ∀ k < N, (∀ m < k, agrees m) → ¬agrees k →
                fault i s (0x07, BitVec.ofNat 64 (32 + (acc k).val))) ∧
              ((sums = true → ∀ k < N, agrees k) →
                (turned = true → c.active.cs ≠ 0 → fault i s (0x07, 0x40)) ∧
                ((turned = true → c.active.cs = 0) →
                  streams i q r.a n q.streamWidth (q.streamWidth.map fun w => 8 * w)))))))
    (s.c.mq = [] → c = { s.c with regs := { s.c.regs with t := s.view.t } }) ∧
    product (.mmul cd ta asel wsel r p) (ofTile 4) r.rep.toNat true false false ∧
    product (.mmac cd ta asel wsel r p) (ofTile 5) r.rep.toNat true true false ∧
    product (.mmact cd ta asel wsel r p) (ofTile 8) r.rep.toNat true true true ∧
    product (.mmull cd asel wsel r p) (ofStream 6) (r.rep.toNat + 1) false false false ∧
    product (.mmacl cd asel wsel r p) (ofStream 7) (r.rep.toNat + 1) false true false ∧
    taken (.mswap p) s (s.qop 3) ∧
    taken (.mzero cd p) s { s.qop 9 with cd := cd } ∧
    streams (.mldsl a p) (s.qop 2) a 4 none (some 256) ∧
    (t % 4 = 0 → let clean := fun (m : Nat) => ∀ k < m, (T (t + k)).markFault (t + k) = none
      let fits := fun (k : Nat) => let l := (T (t + k)).lat
        l.rs = 0 ∧ l.rb = 0 ∧ l.cb = 0 ∧ l.cs = A.lat.cs
      (∀ k < 4, clean k → ∀ e, (T (t + k)).markFault (t + k) = some e → fault (.mlds ta p) s e) ∧
      (clean 4 → (∀ k < 4, (∀ m < k, fits m) → ¬fits k → fault (.mlds ta p) s (0x07, BitVec.ofNat 64 (t + k))) ∧
        ((∀ k < 4, fits k) → taken (.mlds ta p) s
          { s.qop 1 with ta := ta.t, tiles := [T t, T (t + 1), T (t + 2), T (t + 3)] }))) ∧
    ((∀ e, A.markFault t = some e → fault (.mwr cd ta asel p) s e) ∧
      (A.markFault t = none →
        taken (.mwr cd ta asel p) s { s.qop 0x0B with cd := cd, ta := ta.t, tiles := [A], arec := some (typed asel A.ty) })) ∧
    (let D := c.regs.t.get td
     let word := typed asel (C cd).ty
     let clash := recBad word = false ∧ (Rec.ofWord word s.view.cb).ty ≠ D.ty ∧ D.lat.isId = false
     (∀ e, (C cd).markFault (32 + cd.val) = some e → fault (.mrd td cd asel p) s e) ∧
     ((C cd).markFault (32 + cd.val) = none →
       (clash → fault (.mrd td cd asel p) s (0x08, BitVec.ofNat 64 td.val)) ∧
       (¬clash → taken (.mrd td cd asel p) s { s.qop 0x0A with cd := cd, ta := td, arec := some word })) ∧
     (D.ty ≠ .i32 → D.lat.isId = false → fault (.mstat td p) s (0x08, BitVec.ofNat 64 td.val)) ∧
     (D.ty = .i32 ∨ D.lat.isId = true → taken (.mstat td p) s { s.qop 0x0C with ta := td, stat := c.mstat }))

/-- R208, R209, R212 to R220: the oldest operation of a context. It is checked as it reaches execution; one that fails, once
the die's L2 can read the page tables of its error record and write it, drops those behind it, marks what they would have
written, halts the queue and raises 0x86. MSWAP exchanges the planes, MLDS and MLDSL fill the shadow plane, MZERO clears, MRD
encodes an accumulator into its tile, MWR puts a tile in an accumulator, MSTAT writes row 0 of its tile. One repeat of a
product, of a tile or of a streamed one, with the active plane writes its accumulator with exact sums, clamped or rounded
once, over the rows and columns of the tile, transposed for MMACT, and added to the accumulator where the product accumulates,
which fails with an accumulator of another type; the last repeat ends the operation. What an operation writes is valid again,
what later ones read of it follows, and nothing else of the context's registers changes. What it streams is memory where no
older value may be seen. Of what it says the model's own choices are those of log entries 13, 28, 37 and 101. -/
def Obligations.MatrixOperationsComplete : Prop :=
  ∀ (s : State) (q : QOp) (rest : List QOp), let x := s.move.x
    let c := s.ctx x
    c.mq = q :: rest →
    let upd := fun (cd : CReg) (y : Tile) (o : QOp) =>
      { o with accs := o.accs.map fun e => if e.1 = cd then (cd, y) else e }
    let seen := fun (cd : CReg) (y : Tile) => rest.map (upd cd y)
    let held := fun (cd : CReg) => ((q.accs.find? fun e => e.1 == cd).map (·.2)).getD (c.regs.c.get cd)
    let errs := (∀ k ∈ s.errWalks x 0x20, s.canUse (.cd (Fin.ofNat 8 (x / 4 / 40))) k false = true) ∧
      (∀ k ∈ s.errLines x 0x20, s.canUse (.cd (Fin.ofNat 8 (x / 4 / 40))) k true = true)
    let fails := fun (i : Instr) => errs → ∃ t, exec i s = .next t ∧ (t.ctx x).mq = [] ∧ (t.ctx x).mhalted = true ∧
      (t.ctx x).merrs = c.merrs + 1 ∧
      (∀ d, (∃ o ∈ c.mq, d ∈ o.dests) → ((t.ctx x).regs.xget d).invalid = true) ∧
      (∀ d, (∀ o ∈ c.mq, d ∉ o.dests) → (t.ctx x).regs.xget d = c.regs.xget d) ∧
      (c.mode = .run → c.task.isSome = true → ∃ v, ((0x86 : BitVec 8), v) ∈ (t.ctx x).ipend)
    let ends := fun (f : State → Prop) => ∃ t, exec .matrixOpComplete s = .next t ∧ OnlyContext x s t ∧ f t
    (q.executed = false →
      (q.execBad c.active = none → ∃ t, exec .matrixOpExecute s = .next t ∧ OnlyContext x s t ∧
        t.ctx x = { c with mq := { q with executed := true } :: rest }) ∧
      (∀ reason word, q.execBad c.active = some (reason, word) → fails .matrixOpExecute)) ∧
    (q.executed = true →
      (∃ t, exec .matrixOpComplete s = .next t) ∧
      (q.op = 3 → ends fun t => t.ctx x = { c with mq := rest, active := c.shadow, shadow := c.active }) ∧
      (q.op = 1 → ∀ t0 t1 t2 t3 : Tile, q.tiles = [t0, t1, t2, t3] →
        ends fun t => t.ctx x = { c with mq := rest, shadow := (t.ctx x).shadow } ∧
          (let P := (t.ctx x).shadow
           P.valid = true ∧ P.packed = false ∧ P.ty = t0.ty ∧ P.cs = t0.lat.cs ∧
           ∀ (w : Nat) (k j : Fin 64), w ≤ 32 →
             let src := if k.val < 16 then t0 else if k.val < 32 then t1 else if k.val < 48 then t2 else t3
             P.bits w k j = BitVec.ofNat 32 ((src.cells.at (Fin.ofNat 16 k.val) j).toNat % 2 ^ w))) ∧
      (q.op = 2 → ∃ (u t : State) (P : Plane) (R : Fin 64 → Nat), exec .matrixOpComplete s = .next t ∧ OnlySeen x s u ∧
        OnlyContext x u t ∧ t.ctx x = { u.ctx x with mq := rest, shadow := P } ∧
        P.valid = true ∧ P.packed = true ∧ P.cs = 0 ∧
        (∀ (w : Nat) (k j : Fin 64), w ≤ 32 → P.bits w k j = BitVec.ofNat 32 (R k / 2 ^ (w * j.val) % 2 ^ w)) ∧
        (c.stale = [] → c.unjoined = [] → q.before = [] → u = s ∧ ∀ k,
          R k = memRead s.mem (scratchAddr (coreOf x)
            (rowAddr (BitVec.ofNat 64 (q.addrs.getD (k.val / 16) 0)) q.pitch.toInt (k.val % 16) % 0x200000)) 256)) ∧
      (q.op = 9 → ends fun t =>
        t.ctx x = { c with mq := seen q.cd Tile.fresh, regs := { c.regs with c := c.regs.c.set q.cd Tile.fresh } }) ∧
      (q.op = 0x0A → ∀ r, q.aRec = some r → ends fun t => ∃ (y : Tile) (f : Flags),
        let old := c.regs.t.get q.ta
        let src := held q.cd
        let out := fun i j => r.encode ((Rec.implied src.ty q.cb).decode (src.cells.at i j))
        t.ctx x = { c with
          mq := rest
          regs := { c.regs with t := c.regs.t.set q.ta y }
          sys := { c.sys with fflags := c.sys.fflags ||| f } } ∧
        y.rows = old.rows ∧ y.cols = old.cols ∧ y.ty = r.ty ∧ y.lat = { src.lat with devnf := old.lat.devnf } ∧
        y.invalid = false ∧ y.poison = none ∧ (∀ i j, y.cells.at i j = (out i j).1) ∧
        ∀ b, f.getLsbD b = true ↔ (Flags.nv ||| Flags.of).getLsbD b = true ∧ ∃ i j, (out i j).2.getLsbD b = true) ∧
      (q.op = 0x0B → ∀ r, q.aRec = some r → ends fun t => ∃ (y : Tile) (f : Flags),
        let T := q.tiles.headD Tile.fresh
        let out := fun i j => (Rec.f32 .rne).encode (r.decode (T.cells.at i j))
        t.ctx x = { c with
          mq := seen q.cd y
          regs := { c.regs with c := c.regs.c.set q.cd y }
          sys := { c.sys with fflags := c.sys.fflags ||| f } } ∧
        y.rows = 15 ∧ y.cols = 63 ∧ y.lat = { T.lat with devnf := (c.regs.c.get q.cd).lat.devnf } ∧
        y.invalid = false ∧ y.poison = none ∧
        (r.ty.isInt = true → y.ty = .i32 ∧ f = 0 ∧
          ∀ i j, y.cells.at i j = BitVec.ofInt 32 (r.ty.int (T.cells.at i j).toNat)) ∧
        (r.ty.isInt = false → y.ty = .f32 ∧ (∀ i j, y.cells.at i j = (out i j).1) ∧
          ∀ b, f.getLsbD b = true ↔ (Flags.nv ||| Flags.of).getLsbD b = true ∧ ∃ i j, (out i j).2.getLsbD b = true)) ∧
      (q.op = 0x0C → ends fun t => ∃ y : Tile,
        let old := c.regs.t.get q.ta
        t.ctx x = { c with mq := rest, regs := { c.regs with t := c.regs.t.set q.ta y } } ∧
        y = { old with cells := y.cells, ty := .i32 } ∧
        ∀ i j, y.cells.at i j = if i = 0 then q.stat.getD j.val 0 else old.cells.at i j) ∧
      (q.isProd = true → ∀ (ra rw : Rec) (ty : ElemTy) (n : Nat),
        q.types c.active = some (ty, n) → q.aRec = some ra → q.wRec c.active = some rw →
        let A := q.tiles.headD Tile.fresh
        let own := q.op = 6 ∨ q.op = 7
        let streamed := own ∨ q.next ≠ 0
        let sums := q.op = 5 ∨ q.op = 7 ∨ q.op = 8
        let cd : CReg := Fin.ofNat 8 (q.cd.val + q.next * q.inc)
        let old := held cd
        (sums → old.ty ≠ ty → fails .matrixOpComplete) ∧
        ((sums → old.ty = ty) →
          ∃ (u t : State) (y : Tile) (f : Flags) (R : Fin 16 → Nat), exec .matrixOpComplete s = .next t ∧
          OnlySeen x s u ∧ OnlyContext x u t ∧
          (¬streamed → u = s) ∧
          (c.stale = [] → c.unjoined = [] → q.before = [] → u = s ∧ ∀ i,
            R i = memRead s.mem (scratchAddr (coreOf x)
              (rowAddr (BitVec.ofNat 64 (q.addrs.getD (if own then q.next else q.next - 1) 0)) q.pitch.toInt i.val
                % 0x200000)) (8 * ra.ty.width)) ∧
          (q.next = q.rep → t.ctx x = { u.ctx x with
            mq := seen cd y
            regs := { c.regs with c := c.regs.c.set cd y }
            sys := { c.sys with fflags := c.sys.fflags ||| (q.flags ||| f) } }) ∧
          (q.next ≠ q.rep → t.ctx x = { u.ctx x with
            mq := upd cd y { q with next := q.next + 1, flags := q.flags ||| f } :: seen cd y
            regs := { c.regs with c := c.regs.c.set cd y } }) ∧
          f &&& (Flags.nv ||| Flags.of) = f ∧
          y.ty = ty ∧ y.rows = 15 ∧ y.cols = 63 ∧ y.invalid = false ∧ y.poison = none ∧
          (sums → y.lat = old.lat) ∧
          (¬sums → y.lat.rs = (if streamed then 0 else A.lat.rs) ∧ y.lat.cs = c.active.cs ∧ y.lat.rb = 0 ∧ y.lat.cb = 0) ∧
          (let a := fun (i : Fin 16) (k : Fin 64) =>
             if streamed then BitVec.ofNat 32 (R i / 2 ^ (ra.ty.width * k.val) % 2 ^ ra.ty.width) else A.cells.at i k
           let w := fun (k j : Fin 64) =>
             if q.op = 8 then c.active.bits rw.ty.width j k else c.active.bits rw.ty.width k j
           let ks := fun (i : Fin 16) => (List.finRange 64).filter fun k =>
             streamed ∨ (i.val ≤ A.rows.val ∧ k.val ≤ A.cols.val)
           (ty = .i32 → ra.ty.isInt = true → rw.ty.isInt = true → ∀ i j,
             let sum := ((ks i).map fun k => ra.ty.int (a i k).toNat * rw.ty.int (w k j).toNat).sum +
               (if sums then (old.cells.at i j).toInt else 0)
             y.cells.at i j = BitVec.ofInt 32 (max (-2147483648) (min 2147483647 sum))) ∧
           (ty = .f32 → ∀ (i : Fin 16) (j : Fin 64) (u v : Fin 64 → Rat) (z : Rat),
             (∀ k ∈ ks i, ra.matValue (a i k) = .fin (u k) ∧ rw.matValue (w k j) = .fin (v k)) →
             (sums → f32Num (old.cells.at i j) = .fin z) →
             let sum := ((ks i).map fun k => u k * v k).sum + (if sums then z else 0)
             sum ≠ 0 → y.cells.at i j = ((Rec.f32 .rne).encode (.fin sum)).1)))))

/-! ## Commands, ordering and synchronisation -/

/-- R132, R228, R253, R259, R267, R268, R415, R420: the copy and fabric commands enter the tail of their context's
queue with what their bundle reads, and change nothing else; a latent copy counts in its vector's PEND. ENGQ lands the
queue's status. ENGRS is privileged and acts on a context of the core whose task is of the region: it lets a halted
queue go on from byte DONE, or completes every command of it with an error. Of what it says the model's own choices
are those of log entry 40. -/
def Obligations.CommandsEnterTheQueue : Prop :=
  ∀ (o : CopyOps) (flags : BitVec 6) (r d : SReg) (chip : BitVec 12) (rx : BitVec 6) (k : BitVec 2) (s : State),
    let bare := fun (q : Cmd) (op : BitVec 6) => q.op = op ∧ q.pc = s.bundle.pc ∧ q.sup = (s.c.priv == .sup) ∧
      q.seq = s.c.seq ∧ q.joined = s.c.joined ∧ q.done = 0 ∧ q.started = false ∧ q.finished = false ∧
      q.discarded = false ∧ q.flagged = false ∧ q.pages = [] ∧ q.stop = none ∧ q.tx = [] ∧ q.acked = []
    let named := fun (q : Cmd) (op : BitVec 6) => bare q op ∧ q.tok = o.tok ∧ q.flags = flags ∧
      q.dstReg = s.view.a.get o.dst ∧ q.srcReg = s.view.a.get o.src ∧ q.dstGen = s.view.ag.get o.dst ∧
      q.srcGen = s.view.ag.get o.src ∧ q.len = s.view.sget o.len ∧ q.ctl = s.view.sget o.tok ∧
      q.chip = (s.view.ag.get o.dst).chip
    let copies := fun (i : Instr) (op : BitVec 6) =>
      ∃ q, named q op ∧
        (flags.getLsbD 3 = false → exec i s = .next { s with c := { s.c with queue := s.c.queue ++ [q] } }) ∧
        (flags.getLsbD 3 = true →
          let n : LvReg := Fin.ofNat 16 (s.view.a.get o.dst).toNat
          let v := s.c.regs.lv.get n
          exec i s = .next { s with c := { s.c with
            queue := s.c.queue ++ [q]
            regs := { s.c.regs with lv := s.c.regs.lv.set n { v with pend := v.pend + 1 } } } })
    let sends := fun (i : Instr) (f : Cmd → Prop) =>
      ∃ q, f q ∧ exec i s = .next { s with c := { s.c with queue := s.c.queue ++ [q] } }
    copies (.copy o flags) 0x10 ∧ copies (.copyg o flags) 0x11 ∧ copies (.copya o flags) 0x12 ∧
    sends (.send o flags) (fun q => named q 0x38) ∧ sends (.sendt o flags) (fun q => named q 0x39) ∧
    sends (.rxset r rx) (fun q => bare q 0x3A ∧ q.tok = 0 ∧ q.ctl = s.view.sget r ∧ q.rx = rx) ∧
    sends (.rpost r chip rx) (fun q => bare q 0x3C ∧ q.tok = 0 ∧ q.ctl = s.view.sget r ∧ q.chip = chip ∧ q.rx = rx) ∧
    (let reason := if s.c.halted then ((s.c.queue.head?.bind fun q => q.stop).map fun e => e.1.toNat).getD 0 else 0
     exec (.engq d) s = .next (s.withResult 1
       (sWrite d (BitVec.ofNat 64 (256 * reason + 16 * s.c.halted.toNat + s.c.queue.length % 16))) 0)) ∧
    (let x := 4 * (s.id / 4) + k.toNat
     let c := s.ctx x
     let both := fun (out : Out) => exec (.engrs k) s = out ∧ exec (.engrsCancel k) s = out
     let mine := c.task.isSome = true ∧ c.region.id = s.c.region.id
     (s.c.priv = .task → both (.next (s.slotFault 0x0E (BitVec.ofNat 64 (256 * s.bundle.slot + 0x14))))) ∧
     (s.c.priv = .sup → ¬mine → both (.next (s.slotFault 0x0C (BitVec.ofNat 64 (0x8300000000000000 + k.toNat))))) ∧
     (s.c.priv = .sup → mine → c.halted = false → both (.next s)) ∧
     (s.c.priv = .sup → mine → c.halted = true → ∀ q rest, c.queue = q :: rest →
       (∃ t, exec (.engrs k) s = .next t ∧ OnlyContext x s t ∧
         t.ctx x = { c with
          halted := false, queue := { q with stop := none, tx := [], acked := [], pages := [] } :: rest }) ∧
       (∃ t, exec (.engrsCancel k) s = .next t ∧ OnlyContext x s t ∧
         (t.ctx x).queue = [] ∧ (t.ctx x).halted = false ∧
         (q.tok ≠ 0 → (∀ p ∈ rest, p.tok ≠ q.tok) → (t.ctx x).regs.sget q.tok =
           BitVec.ofNat 64 (2 ^ 63 + 2 ^ 40 * ((q.stop.map fun e => e.1.toNat).getD 0) + q.done)) ∧
         (∀ pre p post, rest = pre ++ p :: post → p.tok ≠ 0 → (∀ e ∈ post, e.tok ≠ p.tok) →
           (t.ctx x).regs.sget p.tok = BitVec.ofNat 64 (2 ^ 63 + 2 ^ 40 * 0x30)))))

/-- R284 to R292, R354, R429: the syllables that order and synchronise, each with where it completes. PHASE and VJOIN set
their waits. AMO and EVSIG check alignment, translation and target, and are then outstanding, with what a release has to
publish. WAITM and EVWAIT, which issue once they hold, acquire, and WAITM lands the value seen. FBAR leaves its barrier and
refreshes where the generation that it arrived for has been released or its region may use the barrier, its bundle's own
stores left unpublished, and otherwise faults. QPOST checks the queue and the packet, faults
0x0B for a queue that is not present, and otherwise publishes, writes its entry and then WRITE. Memory is canonical, as
every step keeps it (`EveryStepKeepsTheInvariant`). Of what it says the model's own choices are those of log entries 16, 19, 42,
48 and 95. -/
def Obligations.OrderAndSynchronisation : Prop :=
  ∀ (d r : SReg) (a : AReg) (op cond : BitVec 4) (size order scope : BitVec 2) (b : BitVec 8) (queue : BitVec 18) (s : State),
    Memory.wf s.mem = true →
    let n := if size = 0 then 4 else 8
    let ea := s.view.a.get a
    let tr := fun (acc : Access) => s.translate (some (s.id / 4)) s.c.region (ea.toNat % 2 ^ 48) acc s.c.isSup
    let fault := fun (i : Instr) (c : BitVec 8) (v : Word) => exec i s = .next (s.slotFault c v)
    let checks := fun (i : Instr) (m : Nat) (acc : Access) =>
      (ea.toNat % m ≠ 0 → fault i 0x0A ea) ∧
      (ea.toNat % m = 0 → (∀ c, tr acc = .error c → fault i c (BitVec.ofNat 64 (ea.toNat % 2 ^ 48))) ∧
        ∀ pa, tr acc = .ok pa → plainPlace (s.place pa) = false → fault i 0x0C ea)
    let issued := fun (i : Instr) (m : Nat) (acc : Access) (f : Nat → Atomic) =>
      ∀ pa, ea.toNat % m = 0 → tr acc = .ok pa → plainPlace (s.place pa) = true →
        ∃ t, exec i s = .next t ∧ OnlyTlbs { s with c := { s.c with atomics := s.c.atomics ++ [f pa] } } t
    let waits := fun (i : Instr) (m : Nat) (f : State → Nat → State) =>
      ∀ pa, ea.toNat % m = 0 → tr .read = .ok pa → plainPlace (s.place pa) = true →
        (∀ l, s.poisonIn pa m = some l → fault i 0x14 l) ∧
        (s.poisonIn pa m = none → ∃ (u : State) (v : Nat), exec i s = .next (f u v) ∧ OnlyWaited s u ∧
          (s.bundle.pbuf = [] → (∀ k < m, plainPlace (s.place (pa + k)) = true) → v = memRead s.bundle.mem pa m))
    let amo := Instr.amo d a r op size order scope
    let acc : Access := if op = 0xA then .read else if op = 0xB then .write else .both
    exec (.phase scope) s = .next { s with c := { s.c with phase := some (scope, s.c.joined) } } ∧
    exec .vjoin s = .next { s with c := { s.c with vjoin := true } } ∧
    checks amo n acc ∧ checks (.evsig a scope) 16 .both ∧ checks (.waitm d a r cond size scope) n .read ∧
    checks (.evwait a scope) 16 .read ∧
    issued amo n acc (fun pa =>
      { dst := if d = 0 ∨ op = 0xB then none else some d
        op := op
        size := n
        pa := pa
        v := s.view.sget r
        expect := s.view.sget d
        acquire := if order = 1 ∨ order = 3 then some scope else none
        release := if order = 2 ∨ order = 3 then some (scope, s.c.joined) else none
        published := false
        lines := [pa / 128]
        seq := s.c.seq }) ∧
    issued (.evsig a scope) 16 .both (fun pa =>
      ⟨none, 0, 8, pa, 1, 0, none, some (scope, s.c.joined), false, [pa / 128], s.c.seq⟩) ∧
    waits (.waitm d a r cond size scope) n (fun t v => t.withResult 1 (sWrite d (BitVec.ofNat 64 v)) 0) ∧
    waits (.evwait a scope) 16 (fun t _ => t) ∧
    (let k := s.barrierOf b.toNat
     let released := ∃ w, (if s.c.isSup then s.c.supBarrier else s.c.barrier) = some w ∧ w.bar = b ∧ w.released = true
     let allowed := k.en = true ∧ k.region = s.c.region.id
     (released ∨ allowed → ∃ stale unjoined, exec (.fbar b) s = .next { s with c := { s.c with
       barrier := if s.c.isSup then s.c.barrier else none
       supBarrier := if s.c.isSup then none else s.c.supBarrier
       stale := stale, unjoined := unjoined } }) ∧
     (¬released → ¬allowed →
       fault (.fbar b) 0x0C (BitVec.ofNat 64 (0x8400000000000000 + b.toNat)))) ∧
    (let i := queue.toNat % 64
     let q := s.sched.queues.get (Fin.ofNat 64 i)
     let base := q.base.toNat
     let post := Instr.qpost r queue
     let off := (s.view.sget r).toNat
     let bad := fun (n : Nat) => fault post 0x15 (BitVec.ofNat 64 (256 * i + n))
     let open' := q.en = true ∧ q.dev = true
     let ours := ∃ e ∈ s.c.region.chain, e.1 = q.region.toNat
     let placed := off % 64 = 0 ∧ off ≤ 0x1FFFC0
     let pkt := memBytes s.bundle.mem (0x200000000000 + s.id / 4 * 0x1000000 + off) 64
     let ty := (pkt.headD 0).toNat
     (¬open' → bad 1) ∧ (open' → ¬ours → bad 2) ∧ (open' → ours → ¬placed → bad 3) ∧
     (open' → ours → placed → s.Quiet →
       (ty = 0 ∨ 7 < ty → bad 4) ∧
       (1 ≤ ty → ty ≤ 7 →
         (s.place base = .absent → fault post 0x0B (BitVec.ofNat 64 base)) ∧
         (let m := afterStores s.mem s.c.pbuf s.c.seq
          let w := memRead m base 8
          let log2 := if 4 ≤ q.log2n.toNat ∧ q.log2n.toNat ≤ 16 then q.log2n.toNat else 4
          let at' := fun (n : Nat) => base + 64 + 64 * (n % 2 ^ log2)
          let entry := at' w
          (∀ k < 8, plainPlace (s.place (base + k)) = true) →
          (s.place (at' (memRead s.mem base 8)) = .absent →
            fault post 0x0B (BitVec.ofNat 64 (at' (memRead s.mem base 8)))) ∧
          (plainPlace (s.place (at' (memRead s.mem base 8))) = true → (∀ k < 64, plainPlace (s.place (entry + k)) = true) →
            ∃ t : State, exec post s = .next t ∧ t.c.pbuf = s.c.pbuf.filter (fun e => s.c.seq < e.seq) ∧
            memRead t.mem base 8 = (w + 1) % 2 ^ 64 ∧
            (∀ k < 64, memGet t.mem (entry + k) =
              if (ty = 1 ∨ ty = 2) ∧ (k = 2 ∨ k = 3) then BitVec.ofNat 8 (s.c.sys.launchId.toNat / 256 ^ (k - 2))
              else pkt.getD k 0) ∧
            ∀ a, (a < base ∨ base + 8 ≤ a) → (a < entry ∨ entry + 64 ≤ a) → memGet t.mem a = memGet m a)))))

/-! ## The steps of a context -/

/-- R34 to R37, R360 to R363, R377, R378, R387: the steps that a context takes by itself. Where another context of the core
is ready and the quantum is over, the context cannot issue, or it has met a wait that switches, the core goes to that context
instead; otherwise an attempt to issue waits a clock cycle with its schedule time standing still, or something else goes
before the bundle, or the bundle opens, and no token is asked for it any more. Results that are due land; a cluster whose wake
is due comes back with its tiles reset; the pending interrupt of highest priority is taken at the boundary of the context that holds its core, with TEPC the
next bundle and SLOT as it was; TIMECMP and NOTIFY raise their interrupts; a debug stop and a pre-emption are noted, and ended
or taken, what Watia has written into a stopped context being there as it goes on, every tree in it well formed with its
depths derived (R319, R320). Nothing else changes. Of what it says the
model's own choices are those of log entries 8, 21, 24, 45, 47, 84 and 89. -/
def Obligations.ContextSteps : Prop :=
  ∀ (s : State), let x := s.move.x
    let c := s.ctx x
    let only := fun (i : Instr) (d : Ctx) => ∃ t, exec i s = .next t ∧ OnlyContext x s t ∧ t.ctx x = d
    let still := fun (i : Instr) => ∃ t, exec i s = .next t ∧ ∀ y, t.ctx y = s.ctx y
    let long := fun (w : Wait) => ∃ n, w.switchAfter = some n ∧
      n ≤ (if s.c.waitCause = BitVec.ofNat 8 w.cause then s.c.waitRun else 0)
    let stuck := fun (k : Ctx) => ∃ w t, s.tryIssue = .wait w t ∧ w.switchAfter = none ∧ k.waitRun ≠ 0 ∧
      k.waitCause = BitVec.ofNat 8 w.cause
    let expired := c.mode ≠ .run ∨ (c.sys.quantum.toNat ≤ (s.core (x / 4)).held ∧ ¬stuck c)
    (x = s.id → (s.core (x / 4)).holder.val = x % 4 → s.pkg.stage ≠ 0xE → c.task.isSome = true →
      (∀ y, s.nextReady = some y → expired → ∃ t, exec .issueBundle s = .next t ∧ t.id = y ∧ t.mem = s.mem) ∧
      (s.nextReady = none ∨ ¬expired →
        (∀ t, s.tryIssue = .instead t → exec .issueBundle s = .next (t.dropAsker (.bundle x))) ∧
        (∀ t, s.tryIssue = .opened t → exec .issueBundle s = .next (t.dropAsker (.bundle x))) ∧
        (∀ w t y, s.tryIssue = .wait w t → s.nextReady = some y → long w →
          exec .issueBundle s = .next t.switchNext) ∧
        (∀ w t, s.tryIssue = .wait w t → s.nextReady = none ∨ ¬long w →
          ∃ u, exec .issueBundle s = .next u ∧ u.c.sc = t.c.sc ∧ u.c.ssc = t.c.ssc ∧
            u.c.regs = t.c.regs ∧ u.c.flight = t.c.flight ∧ u.mem = t.mem ∧ u.c.waitCause = BitVec.ofNat 8 w.cause ∧
            u.c.waitRun = (if t.c.waitCause = BitVec.ofNat 8 w.cause then t.c.waitRun + 1 else 1) ∧
            u.pkg.tick = t.pkg.tick + t.clk))) ∧
    (∃ t, exec .exposedResultLanding s = .next t ∧ t.ctx x = c.landBy (s.reached c) ∧ (∀ y, y ≠ x → t.ctx y = s.ctx y) ∧
      t = { s with c := t.c, others := t.others, cores := t.cores } ∧
      ∀ n, t.core n = { s.core n with evsel := (t.core n).evsel, evcnt := (t.core n).evcnt }) ∧
    (let k : Fin 4 := Fin.ofNat 4 s.move.n
     (∀ sup due, c.clusters.get k = .waking sup due → due ≤ (if sup then c.ssc else c.sc) →
       ∃ t, exec .clusterWake s = .next t ∧ OnlyContext x s t ∧
         t.ctx x = { c with
          clusters := c.clusters.set k .awake
          regs := { c.regs with t := (t.ctx x).regs.t }
          flight := c.flight.map (·.outside k)
          aside := c.aside.map fun a => { a with flight := a.flight.map (·.outside k) } } ∧
         ∀ r : TReg, (t.ctx x).regs.t.get r =
           if r.val / 8 = k.val then { Tile.fresh with invalid := true } else c.regs.t.get r) ∧
     ((∀ sup due, c.clusters.get k = .waking sup due → (if sup then c.ssc else c.sc) < due) → still .clusterWake)) ∧
    (x = s.id → (s.core (x / 4)).holder.val = x % 4 → c.task.isSome = true → c.mode = .run → c.priv = .task →
      c.flight = [] → c.debugReq = false → c.preemptReq = false → s.breakpoint = none → (∀ k, c.clusters.get k = .awake ∨ c.clusters.get k = .asleep) →
      ∀ (pre post : List (BitVec 8)) (cause : BitVec 8) (val : Word),
        [(0x86 : BitVec 8), 0x82, 0x84, 0x81, 0x83, 0x87] = pre ++ cause :: post →
        (∀ e ∈ c.ipend, e.1 ∉ pre) → c.ipend.find? (fun e => e.1 == cause) = some (cause, val) →
        (c.sys.tvec = 0 → ∃ t, exec .takeInterrupt s = .next t ∧ t.mem = s.mem ∧
          t.c.mode = .exiting (BitVec.ofNat 26 (0x2000000 + 256 * cause.toNat)) true) ∧
        (c.sys.tvec ≠ 0 → ∃ t, exec .takeInterrupt s = .next t ∧ t.mem = s.mem ∧ t.id = s.id ∧
          t.c.sys = { c.sys with tcause := cause, tval := val, tepc := c.pc } ∧ t.c.priv = .sup ∧ t.c.pc = c.sys.tvec ∧
          t.c.ssc = 0 ∧ t.c.sc = c.sc ∧ t.c.aside = some ⟨c.regs.loops, c.lbuf, [], c.hist⟩ ∧ t.c.flight = [] ∧
          t.c.held = c.held ∧ t.c.regs = { c.regs with loops := [] } ∧
          (cause = 0x86 → t.c.mhalted = false) ∧ (cause ≠ 0x86 → t.c.mhalted = c.mhalted) ∧
          (∀ e ∈ c.ipend, e.1 ≠ cause → e ∈ t.c.ipend) ∧ (∀ e ∈ t.c.ipend, e.1 = cause → cause = 0x83))) ∧
    (∀ y, s.id = 4 * x + (s.core x).holder.val → s.nextReady = some y →
      let switched := fun (i : Instr) => ∃ t, exec i s = .next t ∧ t.id = y ∧ (t.core x).holder = Fin.ofNat 4 y ∧
        (t.core x).held = 0 ∧ (t.core x).readyAt = max (s.core x).readyAt s.pkg.tick + 4 * s.clk ∧ t.mem = s.mem ∧
        ∀ z, t.ctx z = { s.ctx z with ipend := (t.ctx z).ipend }
      (s.c.sys.quantum.toNat ≤ (s.core x).held → ¬stuck s.c → switched .quantumExpiry) ∧
      (s.c.task = none ∨ s.c.mode ≠ .run → switched .contextSwitch) ∧
      (s.c.task.isSome = true → s.c.mode = .run → ∀ w u, s.tryIssue = .wait w u → long w → switched .contextSwitch)) ∧
    (c.task.isSome = true → only .debugRequest { c with debugReq := true }) ∧
    (∀ d, c.mode = .debug d →
      let goes := fun (d : Ctx) => only .debugRelease { d with mode := .run, bpSkip := true, waitCause := 0x0B, waitRun := 0 }
      (s.move.edit = none → goes c) ∧
      (∀ e, s.move.edit = some e →
        let written := Tree.written c.regs.tree
        let put := fun (r : Regs) => { r with tree := written r.tree }
        let flight := fun (l : List Landing) => l.map (Landing.edited c.regs.tree)
        goes { c with
          regs := put e.regs, sys := e.sys, pc := e.pc, active := e.active, shadow := e.shadow, silo := e.silo
          held := e.held.map fun h => { h with regs := put h.regs }
          aside := e.aside.map fun a => { a with flight := flight a.flight }
          flight := flight e.flight, lbuf := e.lbuf, pbuf := e.pbuf, clusters := e.clusters } ∧
        (Tree.wellFormed c.regs.tree = true → Tree.wellFormed (written e.regs.tree) = true ∧
          ∀ l ∈ flight e.flight, ∀ u, Write.tree u ∈ l.writes → Tree.wellFormed u = true) ∧
        (Tree.wellFormed (Tree.derive e.regs.tree) = true → written e.regs.tree = Tree.derive e.regs.tree) ∧
        ∀ l ∈ e.flight, (∀ u, Write.tree u ∉ l.writes) → l ∈ flight e.flight)) ∧
    (x = s.id → c.preemptReq = true → c.task.isSome = true → c.mode = .run → c.flight = [] → c.debugReq = false →
      s.breakpoint = none → (∀ k, c.clusters.get k = .awake ∨ c.clusters.get k = .asleep) →
      only .preemption { c with mode := .preempting, preemptReq := false }) ∧
    (c.timecmp ≠ 0 → ∃ t, exec .timecmpMatch s = .next t ∧ c.timecmp.toNat ≤ t.time ∧ s.time ≤ t.time ∧
      t.ctx x = { c with timecmp := 0, ipend := (t.ctx x).ipend } ∧ (∀ y, y ≠ x → t.ctx y = s.ctx y) ∧ t.mem = s.mem ∧
      (c.task.isSome = true → ∃ v, ((0x81 : BitVec 8), v) ∈ (t.ctx x).ipend)) ∧
    (c.task.isSome = true → ∃ t, exec .notify s = .next t ∧ OnlyContext x s t ∧
      t.ctx x = { c with ipend := (t.ctx x).ipend } ∧ ((0x84 : BitVec 8), s.move.val) ∈ (t.ctx x).ipend ∧
      ∀ e ∈ (t.ctx x).ipend, e.1 = 0x84 → e.2 = s.move.val) ∧
    (c.task = none → still .notify) ∧
    (∃ t, exec .budgetPeriod s = .next t ∧ s.pkg.period < t.pkg.period ∧ t.pkg.period = t.time / 10000 ∧ t.mem = s.mem ∧
      (∀ y, t.ctx y = { s.ctx y with noticed := false }) ∧
      (∀ l ∈ s.sched.launches, ∀ b ∈ l.region.budgets, s.blockBudgets b ∈ t.pkg.budgets) ∧
      ∀ u ∈ t.pkg.used, u.2.1 ≤ s.budget u.1 0 ∧ u.2.2.1 ≤ s.budget u.1 1 ∧ u.2.2.2 ≤ s.budget u.1 2)

/-- R157, R158, R277, R278, R280, R282, R285, R286, R288: what a context's stores, phases and atomics do once they are
performed. A store leaves the phase buffer and memory takes it; PHASE publishes every earlier store in order, then
refreshes, and its wait ends; VJOIN ends with both views alike, the stores made through the own window performed; a release
publishes the stores up to its bundle, once, and then is as an atomic; an atomic takes the old value and writes the new one
of the table at one instant, and nothing else; a piece of a window write lands at a boundary of its target, in its
bytes alone, or is discarded where no task of a region granted the core is bound. Memory is canonical, as every step keeps
it (`EveryStepKeepsTheInvariant`). Of what it says the model's own choices are those of log entries 16, 19, 42, 75 and 76. -/
def Obligations.StoresArePerformed : Prop :=
  ∀ (s : State), s.Inv → let x := s.move.x
    let c := s.ctx x
    let l2 : Agent := .cd (Fin.ofNat 8 (x / 4 / 40))
    let is := fun (d : Ctx) (t : State) => Ctx.Like
      { d with stale := (t.ctx x).stale, unjoined := (t.ctx x).unjoined, code := (t.ctx x).code } (t.ctx x)
    let own := fun (e : PStore) => 0x200000000000 + x / 4 * 0x1000000 ≤ e.addr ∧ e.addr < 0x200000000000 + x / 4 * 0x1000000 + 0x200000
    (∀ e, c.pbuf[s.move.n]? = some e → (∀ d ∈ c.pbuf.take s.move.n, d.addr ≠ e.addr) → c.storeHeld e = false →
      s.canUse l2 (e.addr / 128) true = true →
      ∃ t, exec .storeBecomesVisible s = .next t ∧ Published x s t ∧ t.mem = memSet s.mem e.addr e.val ∧
        is { c with pbuf := c.pbuf.eraseIdx s.move.n } t) ∧
    (∀ scope js, c.phase = some (scope, js) → s.canPublish x c.seq = true →
      (∀ l ∈ s.bufferLines x c.seq, s.canUse l2 l true = true) →
      ∃ t, exec .phaseComplete s = .next t ∧ Published x s t ∧ t.mem = afterStores s.mem c.pbuf c.seq ∧
        is { c with phase := none, pbuf := c.pbuf.filter fun e => c.seq < e.seq } t ∧
        ∀ e ∈ (t.ctx x).stale, e.seen x scope = false) ∧
    (c.vjoin = true → (∀ a ∈ c.atomics, ownWindow x a.pa = false) → ∃ t, exec .vjoinComplete s = .next t ∧ Published x s t ∧
      is { c with vjoin := false, pbuf := c.pbuf.filter fun e => !ownWindow x e.addr } t ∧ (t.ctx x).unjoined = [] ∧
      (∀ e, ownWindow x e.addr = true ↔ own e) ∧
      t.mem = (c.pbuf.filter fun e => ownWindow x e.addr).foldl (fun m e => memSet m e.addr e.val) s.mem) ∧
    (∀ (a : Atomic) scope js, c.atomics[s.move.n]? = some a → a.release = some (scope, js) → a.published = false →
      c.atomicHeld s.move.n a = false →
      s.canPublish x a.seq = true → (∀ l ∈ s.bufferLines x a.seq, s.canUse l2 l true = true) →
      ∃ u, Published x s u ∧ u.mem = afterStores s.mem c.pbuf a.seq ∧
        is { c with
          pbuf := c.pbuf.filter fun e => a.seq < e.seq
          atomics := c.atomics.set s.move.n { a with published := true } } u ∧
        exec .atomicPerformed s = exec .atomicPerformed u) ∧
    (∀ a : Atomic, c.atomics[s.move.n]? = some a → a.release = none ∨ a.published = true →
      c.atomicHeld s.move.n a = false →
      (∀ l ∈ a.lines, s.canUse (s.homeOf (a.pa / 128)) l true = true) →
      (∀ l, s.poisonIn a.pa a.size = some l → ∃ t, exec .atomicPerformed s = .next t ∧ t.mem = s.mem ∧
        (t.ctx x).atomics = c.atomics.eraseIdx s.move.n ∧ (t.ctx x).regs = c.regs ∧
        ∀ d, a.dst = some d → (d, l) ∈ (t.ctx x).spoison) ∧
      (s.poisonIn a.pa a.size = none → c.pbuf = [] → a.size = 4 ∨ a.size = 8 →
        let m := 2 ^ (8 * a.size)
        let old := memRead s.mem a.pa a.size
        let v := a.v.toNat % m
        let sg := fun (n : Nat) => (if m / 2 ≤ n then (n : Int) - m else n : Int)
        let table := fun (new : Nat) =>
          (a.op = 0 → new = (old + v) % m) ∧
          (a.op = 1 → (new = old ∨ new = v) ∧ sg new ≤ sg old ∧ sg new ≤ sg v) ∧
          (a.op = 2 → (new = old ∨ new = v) ∧ sg old ≤ sg new ∧ sg v ≤ sg new) ∧
          (a.op = 3 → new = min old v) ∧ (a.op = 4 → new = max old v) ∧
          (a.op = 5 → ∀ i, new.testBit i = (old.testBit i && v.testBit i)) ∧
          (a.op = 6 → ∀ i, new.testBit i = (old.testBit i || v.testBit i)) ∧
          (a.op = 7 → ∀ i, new.testBit i = (old.testBit i != v.testBit i)) ∧
          (a.op = 8 ∨ a.op = 0xB → new = v) ∧
          (a.op = 9 → new = if old = a.expect.toNat % m then v else old) ∧ (a.op = 0xA → new = old)
        ∃ (t : State) (new : Nat), exec .atomicPerformed s = .next t ∧ table new ∧ new < m ∧
          memRead t.mem a.pa a.size = new ∧
          (∀ k, (k < a.pa ∨ a.pa + a.size ≤ k) → memGet t.mem k = memGet s.mem k) ∧
          (t.ctx x).atomics = c.atomics.eraseIdx s.move.n ∧
          (∀ d, a.dst = some d → (t.ctx x).regs = c.regs.sset d (BitVec.ofNat 64 old)) ∧
          (a.dst = none → (t.ctx x).regs = c.regs) ∧ ∀ y, y ≠ x → (t.ctx y).regs = (s.ctx y).regs)) ∧
    (∀ w : WinWrite, s.wwrites[s.move.n]? = some w →
      (∀ v ∈ s.wwrites.take s.move.n, ¬(v.x = w.x ∧ v.off / 32 = w.off / 32)) →
      let d := s.ctx w.x
      let rel := (w.off - 0x200000) % 0x40000
      let takes := ∃ b, d.task = some b ∧ b.region.windows.getLsbD (w.x / 4) = true
      (¬takes → w.src = none → w.whole = none →
        exec .coreWindowWrite s = .next { s with wwrites := s.wwrites.eraseIdx s.move.n }) ∧
      (takes → ∀ name, w.whole = some name →
        ∃ t, exec .coreWindowWrite s = .next t ∧ t.mem = s.mem ∧ t.wwrites = s.wwrites.eraseIdx s.move.n) ∧
      (takes → w.whole = none → d.flight = [] →
        ∃ t, exec .coreWindowWrite s = .next t ∧ t = { s with
            c := t.c, others := t.others, wwrites := s.wwrites.eraseIdx s.move.n } ∧
          t.ctx w.x = { d with regs := (t.ctx w.x).regs } ∧ (∀ y, y ≠ w.x → t.ctx y = s.ctx y) ∧
          (∀ o, (o < rel ∨ rel + w.bytes.length ≤ o) → (t.ctx w.x).windowByte o = d.windowByte o) ∧
          (∀ k b, w.bytes[k]? = some b → rel + k < 0x29000 →
            (rel + k < 0x20000 → d.clusters.get (Fin.ofNat 4 ((rel + k) / 0x8000)) = .awake) →
            (t.ctx w.x).windowByte (rel + k) = b)))

/-! ## The scheduler -/

/-- R348, R349, R352 to R358, R376, R384 to R386, R114, R5, R146, R147: the steps of the command processor and the
scheduler. The next entry of a queue starts, halts the queue with the lowest reason that holds, or waits, by its type;
a launch that starts has an id of its own and the packet's fields; a ready task is bound with the state of a created
context and its launch's values, or resumes with the state that was saved; a task that has exited is counted, and a
launch whose tasks have ended and whose children are complete writes its status word, signals its event and frees its
slot; the command processor reads entries and writes headers, status words and events at homes that hold the tokens for it,
and a RETRY or SKIP whose header's home lacks them is kept; registers of package control keep their RW bits;
after a package fault no queue is retried or skipped. Memory is canonical, as every step keeps it
(`EveryStepKeepsTheInvariant`). Of what it says the model's own choices are those of log entries 2, 16, 22, 26, 33, 39, 44,
46, 48, 67, 72, 79, 80, 97, 105 and 106. -/
def Obligations.SchedulerSteps : Prop :=
  ∀ (s : State), s.Inv → let x := s.move.x
    let q := Fin.ofNat 64 x
    let k := s.sched.queues.get q
    let next := fun (i : Instr) (post : State → Prop) => ∃ t, exec i s = .next t ∧ post t
    let header := ∀ j < 24, plainPlace (s.place (k.base.toNat + j)) = true
    let homes := fun (ls : List Nat) (write : Bool) => ∀ l ∈ ls, s.canUse (s.homeOf l) l write = true
    let head := [k.base.toNat / 128]
    (∀ p : Packet8, header → s.nextEntry q = some p → homes [k.entry p.index / 128] false → homes head true →
      let w := p.w
      let plain := p.count = 0 ∧ p.status = false ∧ w 0 / 2 ^ 10 % 64 = 0
      let par := p.parent = 0 ∨ (k.dev = true ∧ (s.launchOf p.parent).isSome = true)
      let starts := fun (u t : State) => Started u q p.index false t ∧ t.sched.launches = s.sched.launches
      let rest := fun (m : Nat) => p.words.drop m = List.replicate (8 - m) 0
      (∀ i ∈ [Instr.launch, .tiletasks, .collective, .evsignal, .evwaitPacket, .barrierPacket, .nopPacket],
        p.ty = 0 ∨ 7 < p.ty → next i (Halted s q 1 p.ty)) ∧
      let bare := fun (i : Instr) => (plain → rest 2 → par → next i (starts s)) ∧
        (plain → rest 2 → ¬par → next i (Halted s q 6 p.ty)) ∧ (¬(plain ∧ rest 2) → next i (Halted s q 1 p.ty))
      (p.ty = 7 → bare .nopPacket) ∧
      (p.ty = 6 → k.live = [] → bare .barrierPacket) ∧
      (p.ty = 6 → k.live ≠ [] → next .barrierPacket (OnlyNeeds s)) ∧
      (∀ pa, s.eventPacket p .both = .ok pa → p.ty = 4 → homes (eventLines pa) true →
        next .evsignal fun t => ∃ u v, Signalled s pa false u ∧ starts u v ∧ OnlyNeeds v t) ∧
      (∀ reason, s.eventPacket p .both = .error reason → p.ty = 4 → next .evsignal (Halted s q reason 4)) ∧
      (∀ reason, s.eventPacket p .read = .error reason → p.ty = 5 → next .evwaitPacket (Halted s q reason 5)) ∧
      (∀ pa, s.eventPacket p .read = .ok pa → p.ty = 5 →
        let poisoned := pa ≠ 0 ∧ s.poisonIn pa 16 ≠ none
        let met := pa = 0 ∨ memRead s.mem pa 8 ≥ memRead s.mem (pa + 8) 8 % 2 ^ 32 ∨ 2 ^ 63 ≤ memRead s.mem (pa + 8) 8
        (poisoned → next .evwaitPacket (Halted s q 7 5)) ∧
        (¬poisoned → met → next .evwaitPacket (starts s)) ∧
        (¬poisoned → ¬met → next .evwaitPacket (OnlyNeeds s))) ∧
      (∀ acc reason, s.eventPacket p acc = .error reason →
        ¬(plain ∧ rest 3 ∧ w 1 < 2 ^ 48 ∧ w 2 < 2 ^ 48) → reason = 1) ∧
      (∀ acc r pa, plain → rest 3 → w 1 < 2 ^ 48 → w 2 < 2 ^ 48 → s.regionAt (w 1) = some r →
        s.eventPa r (w 2) acc = some pa → (par → s.eventPacket p acc = .ok pa) ∧ (¬par → s.eventPacket p acc = .error 6)) ∧
      (∀ r, s.regionAt (w 1) = some r → (s.sheafHead r (w 2)).isSome = true → w 0 / 2 ^ 10 % 64 = 0 →
        (∀ j ∈ [1, 2, 3, 4, 5, 6, 7], w j < 2 ^ 48) → w 3 % 2 = 0 → (s.eventPa r (w 7) .both).isSome = true →
        0 < p.count → par →
        s.sched.launches.length < 4096 →
        let started := fun (tile : Bool) (post : Launch → Prop) (t : State) => ∃ l, l ∈ t.sched.launches ∧ post l ∧
          Started (s.rolled.readBudgets r).took q p.index true t ∧ t.sched.launches.map (·.id) = s.sched.launches.map (·.id) ++ [l.id] ∧
          (∀ m ∈ s.sched.launches, m.id ≠ l.id) ∧ 0 < l.id ∧ l.id < 65536 ∧ l.region = r ∧ l.queue = q ∧
          l.entry = p.index ∧ l.count = p.count ∧ l.sheaf = w 2 ∧ l.entryPc.toNat = w 3 ∧ l.args.toNat = w 4 ∧
          l.status = p.status ∧ l.parent = p.parent ∧ l.tile = tile ∧ l.code = 0
        (p.ty = 1 → p.count < 2 ^ 32 → (s.virtRead r 1 (w 4) 1).isSome = true → (s.eventPa r (w 5) .read).isSome = true →
          (s.eventPa r (w 6) .read).isSome = true → next .launch (started false fun l =>
            (l.wait0 = 0 → l.wait1 = 0 → l.readyAt = some s.time) ∧ some l.wait0 = s.eventPa r (w 5) .read ∧
            some l.wait1 = s.eventPa r (w 6) .read ∧ some l.signal = s.eventPa r (w 7) .both)) ∧
        (∀ table, p.ty = 2 → p.count ≤ 16384 → w 4 % 16 = 0 → w 5 < 2 ^ 14 → w 6 = 0 →
          s.virtRead r 66 (w 4) (16 * p.count) = some table →
          ((∀ l ∈ s.sched.launches, l.tile = true → idsMeet l.baseId.toNat l.count (w 5) p.count = false) →
            next .tiletasks (started true fun l => l.baseId.toNat = w 5 ∧ l.tasks.map (·.index) = List.range p.count ∧
              ∀ n < p.count, ∃ since, (⟨n, BitVec.ofNat 64 (wordAt table (2 * n + 1)),
                .waiting (BitVec.ofNat 32 (wordAt table (2 * n))) since⟩ : Task) ∈ l.tasks)) ∧
          ((∃ l ∈ s.sched.launches, l.tile = true ∧ idsMeet l.baseId.toNat l.count (w 5) p.count = true) →
            next .tiletasks (OnlyNeeds s)))) ∧
      (∀ r bytes event, p.ty = 3 → p.collBad = false → s.regionAt (w 1) = some r → par →
        s.newestBytes r (w 2) (w 4 % 2 ^ 32) = some bytes → s.eventPa r (w 7 % 2 ^ 48) .both = some event →
        s.homeMissing (s.newestLines r (w 2) (w 4 % 2 ^ 32)) false = none →
        s.fab.colls.length < 16 → s.tok.poison = [] → bytes ≠ [] →
        (∀ c ∈ s.fab.colls, c.collid.toNat ≠ w 4 / 2 ^ 32) →
        next .collective fun t => Wrote s.mem t.mem (k.base.toNat + 8) 8 (p.index + 1) ∧ ∃ c ∈ t.fab.colls,
          t.fab.colls.map (·.collid) = s.fab.colls.map (·.collid) ++ [c.collid] ∧
          c.collid = BitVec.ofNat 32 (w 4 / 2 ^ 32) ∧ c.region = r ∧ c.event = event ∧ c.queue = q ∧ c.entry = p.index ∧
          c.chunks.flatMap (·.1.payload) = bytes ∧ (∀ e ∈ c.chunks, e.1.payload.length ≤ 4096) ∧
          ∀ e ∈ c.chunks, e.1.seq.toNat < 1024 → e.2 ≠ 0)) ∧
    (s.pkg.stage = 0xE → exec .qctlRetry s = .next s ∧ exec .qctlSkip s = .next s) ∧
    (s.pkg.stage ≠ 0xE → k.halted = true → (∀ e ∈ s.sched.cmds, e.1 ≠ q) → ¬homes head true →
      let kept := fun (skip : Bool) (t : State) => t = { s with
        sched := { s.sched with cmds := s.sched.cmds ++ [(q, skip)] }, tok := { s.tok with needs := t.tok.needs } }
      next .qctlRetry (kept false) ∧ next .qctlSkip (kept true)) ∧
    (s.pkg.stage ≠ 0xE → k.halted = true → (∀ e ∈ s.sched.cmds, e.1 ≠ q) → header → homes head true →
      next .qctlRetry (fun t => OnlySched s t ∧
        Wrote s.mem t.mem (k.base.toNat + 0x10) 8 0 ∧ t.sched = { s.sched with queues := t.sched.queues } ∧
        ∀ n, t.sched.queues.get n = if n = q then { k with halted := false } else s.sched.queues.get n) ∧
      next .qctlSkip fun t => ∃ u : State, OnlySched s t ∧ t.sched.cmds = s.sched.cmds ∧
        Wrote s.mem u.mem (k.base.toNat + 8) 8 ((s.queueIdx k).2 + 1) ∧ Wrote u.mem t.mem (k.base.toNat + 0x10) 8 0 ∧
        (∀ n, t.sched.queues.get n = if n = q then { k with halted := false } else s.sched.queues.get n) ∧
        let parent := s.wordOf (k.entry (s.queueIdx k).2) / 2 ^ 16 % 2 ^ 16
        t.sched.launches = s.sched.launches.map fun l =>
          if k.dev = true ∧ parent ≠ 0 ∧ l.id = parent then { l with err := true } else l) ∧
    (k.halted = false → exec .qctlRetry s = .next s ∧ exec .qctlSkip s = .next s) ∧
    (s.move.line = 2 ^ 64 - 1 → next .ttArrive fun t => t.mem = s.mem ∧
      let v := s.move.val.toNat
      Arrived s (v % 2 ^ 14) (if v / 2 ^ 16 % 2 ^ 16 = 0 then 1 else v / 2 ^ 16 % 2 ^ 16) t) ∧
    (∀ l, s.launchOf x = some l → l.count ≤ l.ended → (∀ m ∈ s.sched.launches, m.parent ≠ l.id) →
      s.postedChild l.id = false → homes (s.completeLines l) true →
      let va := l.args.toNat + 2 ^ 48 - 8
      let at8 := fun (pa : Nat) => ∀ i < 8, s.translate none l.region ((va + i) % 2 ^ 48) .write true = .ok (pa + i) ∧
        plainPlace (s.place (pa + i)) = true
      let word := 2 ^ 63 * l.err.toNat + 2 ^ 32 * l.code.toNat + l.bad % 2 ^ 32
      (l.status = false ∨ ∃ pa, at8 pa) → next .launchComplete fun t =>
        (∀ m ∈ t.sched.launches, m.id ≠ l.id) ∧
        (∀ m ∈ s.sched.launches, m.id ≠ l.id → m.id ≠ l.parent → m ∈ t.sched.launches) ∧
        (l.err = true → ∀ m ∈ t.sched.launches, m.id = l.parent → m.err = true) ∧
        (l.entry ∉ (t.sched.queues.get l.queue).live) ∧
        ((∀ m ∈ s.sched.launches, m.id ≠ l.id → m.region.id ≠ l.region.id) → ∀ n, t.rxOf l.region.id n = 0) ∧
        ∃ u v : State, Signalled u l.signal l.err v ∧ t.mem = v.mem ∧ (l.status = false → u = s) ∧
          ∀ pa, at8 pa → l.status = true → OnlyStores s u ∧ Wrote s.mem u.mem pa 8 word) ∧
    (let n := s.noteReady
     (∀ o l i since h, n.taskFor x n.readyTasks = some ⟨o, l, i, false, since⟩ →
       (s.core (x / 4)).sheaves.find? (fun e => e.image == l.sheaf && e.id == l.sheafId) = some h →
       next .taskBind fun t => t.mem = s.mem ∧ (∃ m ∈ t.sched.launches, m.id = l.id ∧ ∃ a, (⟨i, a, .bound x⟩ : Task) ∈ m.tasks) ∧
         let c := t.ctx x
         (c.task.map fun b => (b.launch, b.index, b.region)) = some (l.id, i, l.region) ∧ c.pc = l.entryPc ∧
         c.wbase = h.base ∧ c.wsize = h.count ∧ c.siloSlots = l.region.silo ∧ c.sys.tvec = l.region.handler ∧
         c.sys.quantum.toNat = l.region.quantum % 2 ^ 64 ∧ c.sys.taskId.toNat = i % 2 ^ 64 ∧
         c.sys.launchId.toNat = l.id % 2 ^ 64 ∧ c.sys.regionId = l.region.id.setWidth 64 ∧
         c.sys.ntasks.toNat = l.count % 2 ^ 64 ∧ (l.tile = false → c.sys.args = l.args) ∧ c.regs = Ctx.fresh.regs ∧
         c.clusters = Ctx.fresh.clusters ∧ c.silo = Ctx.fresh.silo ∧ c.mode = .run ∧ c.priv = .task ∧ c.sc = 0 ∧
         c.flight = [] ∧ c.stale = [] ∧ c.queue = [] ∧ c.mq = [] ∧ c.timecmp = 0) ∧
     (∀ o l i since at0 c b h, n.taskFor x n.readyTasks = some ⟨o, l, i, true, since⟩ →
       (s.core (x / 4)).sheaves.find? (fun e => e.image == l.sheaf && e.id == l.sheafId) = some h →
       (l.tasks.find? fun e => e.index == i).map (·.st) = some (.saved c at0) → c.task = some b →
       next .resume fun t => t.mem = s.mem ∧ t.ctx x = { c with
         held := (t.ctx x).held
         queue := (t.ctx x).queue
         task := some { b with boundAt := s.time }
         wbase := h.base
         wsize := h.count
         timecmp := (s.ctx x).timecmp
         code := c.code ++ changedCode c.slept s.mem
         slept := []
         seq := max c.seq (s.ctx x).seq }) ∧
     (let going := n.boundTasks.filter fun e => (n.ctx e.1).preemptReq || (n.ctx e.1).mode == .preempting
      ∀ e ∈ unserved ((n.readyTasks.filter n.wantsRoom).flatMap Ready.withNext) going, n.victim e = some x →
       next .preemptRequest fun t => t.ctx x = { s.ctx x with preemptReq := true } ∧ ∀ y, y ≠ x → t.ctx y = s.ctx y)) ∧
    (let c := s.ctx x
     let left := { Ctx.fresh with seq := c.seq, timecmp := c.timecmp }
     ∀ b, c.task = some b → c.drained = true → s.canPublish x c.seq = true →
       (∀ l ∈ s.bufferLines x c.seq, s.canUse (.cd (Fin.ofNat 8 (x / 4 / 40))) l true = true) →
       (∀ code fault, c.mode = .exiting code fault → c.halted = false → c.queue = [] →
         next .taskExitRelease fun t => t.ctx x = left ∧ (s.pkg.drifts = [] → t.mem = afterStores s.mem c.pbuf c.seq) ∧
           (fault = false → ∃ (other : Bool) (u : State), s.LaunchesLike u ∧ t.sched.launches = u.sched.launches.map fun l => if l.id = b.launch then
             { l with
               tasks := l.tasks.filter fun e => e.index != b.index
               ended := l.ended + 1
               bad := l.bad + (if code = 0 then 0 else 1)
               code := if l.code = 0 ∨ (code ≠ 0 ∧ other = true) then code else l.code
               err := l.err || code != 0 } else l) ∧
           (fault = true → ∀ l ∈ t.sched.launches, l.region.domain = b.region.domain → l.err = true ∧
             ∀ e ∈ l.tasks, ∀ dep since, e.st ≠ .waiting dep since)) ∧
       (c.mode = .preempting → c.phase = none → (c.queue = [] ∨ c.halted = true) →
         next .contextSave fun t => t.ctx x = left ∧ (s.pkg.drifts = [] → t.mem = afterStores s.mem c.pbuf c.seq) ∧
           ∀ l ∈ s.sched.launches, l.id = b.launch → ∃ m ∈ t.sched.launches, m.id = l.id ∧
             ∀ a st, (⟨b.index, a, st⟩ : Task) ∈ l.tasks → ∃ d : Ctx, (⟨b.index, a, .saved d s.time⟩ : Task) ∈ m.tasks ∧
               d.regs = c.regs ∧ d.pc = c.pc ∧ d.sys = c.sys ∧ d.priv = c.priv ∧ d.flight = c.flight ∧ d.sc = c.sc ∧
               d.ssc = c.ssc ∧ d.task = c.task ∧ c.ipend <+: d.ipend ∧ d.clusters = c.clusters ∧ d.mode = .run)) ∧
    (∀ code fault b, (s.ctx x).mode = .exiting code fault → (s.ctx x).task = some b → (s.ctx x).halted = true →
      next .taskExitRelease fun t => (t.ctx x).queue = [] ∧ (t.ctx x).halted = false ∧
        (t.ctx x).mode = .exiting (if fault = true then code else 0x2008200) true ∧ t.mem = s.mem) ∧
    (∀ mask : Nat, (s.move.n, mask) ∈ [(0xE00, 0x3FF), (0xE08, 0x3FFFFFFFF), (0x1000, 0xFFFF), (0x1008, 0xFFFFFFFFF000),
        (0x3000, 0xFFFFFFFFFFC0), (0x3008, 0x1F), (0x3010, 0xFFFFFFFFFFFF), (0x3018, 3), (0x37F8, 3),
        (0x5000, 2 ^ 64 - 1), (0x9FF0, 2 ^ 64 - 1), (0x10000, 2 ^ 64 - 1), (0x1FFF8, 2 ^ 64 - 1)] →
      (s.move.n = 0x5000 → s.coreHere 0 = true) → (s.move.n = 0x9FF0 → s.coreHere 319 = true) →
      let m := BitVec.ofNat 64 s.move.line
      next .registerWrite fun t => t.mem = s.mem ∧
        t.pctlReg s.move.n = ((s.pctlReg s.move.n &&& ~~~m) ||| (s.move.val &&& m)) &&& BitVec.ofNat 64 mask) ∧
    (s.pkg.tlbiBusy = false → s.move.flag = false → exec .tlbiGo s =
      .next { s with pkg := { s.pkg with
        tlbiBusy := true
        tlbiNow := (s.pkg.tlbiRegion, s.pkg.tlbiVa, s.pkg.tlbiCount)
        tlbiCount := 0 } }) ∧
    (s.pkg.tlbiBusy = true → exec .tlbiGo s = .next s ∧ next .tlbInvalidationDone fun t =>
      let (region, va, count) := s.pkg.tlbiNow
      let named := fun (e : Tlb) => e.region = region ∧
        (count = 0 ∨ (va.toNat / 4096 < e.vpn + e.pages ∧ e.vpn < va.toNat / 4096 + count.toNat))
      t = { s with cores := t.cores, pkg := { s.pkg with tlbs := t.pkg.tlbs, tlbiBusy := false } } ∧
      (∀ n, t.core n = { s.core n with tlb := (t.core n).tlb } ∧
        ∀ e, e ∈ (t.core n).tlb ↔ e ∈ (s.core n).tlb ∧ ¬named e) ∧
      ∀ d e, e ∈ t.pkg.tlbs.get d ↔ e ∈ s.pkg.tlbs.get d ∧ ¬named e)

/-! ## Tokens -/

/-- R301 to R306, R309 to R311, R313 to R316: the steps of token coherence. An agent answers a transient read or write
by what it holds; tokens that arrive are kept, forwarded to the active persistent requester or sent to the home;
attempts fail after 2 µs, and after two the requester goes persistent; the home's table takes a request where the
requester's share has room, activates the first for a line, and drops it once its deactivation is acknowledged;
evictions and recalls bring tokens home; the host reads, writes, snoops and answers through the proxy, and programs the base
of its HDM decoder; an
uncorrectable error makes a line poison, all zeros with all 16 tokens at home; a die leaves gracefully or is lost, and
homes recover. Of memory and of the contexts each step changes what is said here alone. Memory is canonical, as every step
keeps it (`EveryStepKeepsTheInvariant`). Of what it says the model's own choices are those of log entries 16, 43, 47, 59,
60, 61, 62, 63, 72, 78, 83 and 111. -/
def Obligations.TokenSteps : Prop :=
  ∀ (s : State), s.Inv → let who := s.move.who
    let peer := s.move.peer
    let line := s.move.line
    let home := s.homeOf line
    let next := fun (i : Instr) (post : State → Prop) => ∃ t, exec i s = .next t ∧ post t
    let onlyTok := fun (t : State) => t = { s with tok := t.tok }
    let h := s.holdOf peer line
    (∀ n, s.needOf who line = some n → n.persistent = false → peer ∉ n.answered → who ≠ peer → s.recovering line = false →
      peer ∈ s.agents →
      let answers := fun (t : State) => onlyTok t ∧ ∀ m ∈ t.tok.needs, m.who = who → m.line = line → peer ∈ m.answered
      let silent := fun (t : State) => t.tok.msgs = s.tok.msgs ∧ t.tok.lines = s.tok.lines
      (s.gathers peer line = true →
        (n.write = true → next .transientWriteRequest fun t => answers t ∧ silent t) ∧
        (n.write = false → next .transientReadRequest fun t => answers t ∧ silent t)) ∧
      (s.gathers peer line = false →
        peer ≠ .proxy ∨ h.count = 0 ∨ s.askHost line = none ∨ (n.write = false ∧ h.owner = false) →
        (n.write = true → next .transientWriteRequest fun t => answers t ∧ Gave s peer who line t) ∧
        (n.write = false → next .transientReadRequest fun t => answers t ∧
          (h.owner = true → h.count ≤ 1 → Gave s peer who line t) ∧
          (h.owner = false → silent t) ∧
          (h.owner = true → 1 < h.count → t.tok.msgs = s.tok.msgs ++ [⟨who, line, 1, false, true, false⟩] ∧
            (s.Tagged line → h.count ≤ 16 → t.holdOf peer line = { h with count := h.count - 1 })))) ∧
      (s.gathers peer line = false → peer = .proxy → h.count ≠ 0 → n.write = true → line ∈ s.tok.hostCached →
        next .transientWriteRequest fun t => onlyTok t ∧ line ∈ t.tok.bisnp ∧ silent t)) ∧
    (∀ m : TokMsg, s.tok.msgs[s.move.n]? = some m →
      let own := s.homeOf m.line
      let k := s.holdOf m.dst m.line
      let rest := s.tok.msgs.eraseIdx s.move.n
      next .tokenArrival fun t => t.mem = s.mem ∧
        (∀ e, s.activeFor m.dst m.line = some e → e.who ≠ m.dst →
          t.tok.msgs = rest ++ [{ m with dst := e.who }] ∧ t.tok.lines = s.tok.lines) ∧
        (s.activeFor m.dst m.line = none → m.dst ≠ own →
          s.recovering m.line = true ∨ (k.count = 0 ∧ s.needOf m.dst m.line = none) →
          t.tok.msgs = rest ++ [{ m with dst := own }] ∧ t.tok.lines = s.tok.lines) ∧
        ((∃ e, s.activeFor m.dst m.line = some e ∧ e.who = m.dst) ∨ (s.activeFor m.dst m.line = none ∧
            (m.dst = own ∨ (s.recovering m.line = false ∧ (k.count ≠ 0 ∨ s.needOf m.dst m.line ≠ none)))) →
          t.tok.msgs = rest ∧ (s.Tagged m.line → m.dst = own ∨ (s.holdOf own m.line).count ≠ 16 →
            (t.holdOf m.dst m.line).count = k.count + m.count))) ∧
    (∀ n, s.needOf who line = some n → n.persistent = false → s.canUse who line n.write = false →
      next .transientAttemptTimeout fun t => t.mem = s.mem ∧ n.sentAt + 2000 ≤ t.time ∧ s.time ≤ t.time ∧
        ∃ m, t.needOf who line = some m ∧ m.write = n.write ∧
          (n.failed = 0 → m.failed = 1 ∧ m.answered = [] ∧ m.persistent = false) ∧ (n.failed ≠ 0 → m.persistent = true)) ∧
    (∀ n, s.needOf who line = some n → s.recovering line = false →
      let mine := s.tok.table.filter fun e => e.home == home && e.who == who
      let most := if who = home then 10 else 6
      who = home ∨ who = .proxy ∨ (∃ d, who = .cd d) → (∀ e ∈ mine, e.line ≠ line) →
      (most ≤ mine.length → exec .persistentRequest s = .next s) ∧
      (mine.length < most → next .persistentRequest fun t => t.mem = s.mem ∧
        ∃ e : PEntry, t.tok.table = s.tok.table ++ [e] ∧ e.home = home ∧ e.who = who ∧ e.line = line ∧
          e.epoch = s.tok.epoch ∧ (e.active = true ↔ ∀ k ∈ s.tok.table, k.line ≠ line) ∧ e.seen = [] ∧ e.closing = false ∧
          (t.needOf who line).map (·.persistent) = some true)) ∧
    (∀ e, s.entryOf peer s.move.n = some e →
      let after := fun (t : State) (p : PEntry → Prop) => ∀ k ∈ t.tok.table, k.home = e.home → k.entry = e.entry → p k
      (e.active = true → who ∉ e.seen → e.closing = false ∨ who ∈ e.unacked → who ∈ s.agents → who ≠ .proxy →
        e.who ∈ s.agents → s.recovering e.line = false →
        next .persistentActivation fun t => onlyTok t ∧ Gave s who e.who e.line t ∧ after t fun k => who ∈ k.seen) ∧
      (e.closing = true → next .persistentDeactivation fun t => onlyTok t ∧ t.tok.lines = s.tok.lines ∧
        t.tok.msgs = s.tok.msgs ∧ after t fun k => who ∉ k.unacked) ∧
      (let wanted := ∃ n, s.needOf who e.line = some n ∧ n.met = false ∧
        ¬(s.move.flag = true ∧ ∀ a ∈ n.asked, a = .outside)
       e.closing = false → who = e.who → e.active = true → (s.holdOf who e.line).count = 16 →
        (wanted → exec .persistentDeactivation s = .next s) ∧
        (¬wanted → next .persistentDeactivation fun t => onlyTok t ∧ t.tok.lines = s.tok.lines ∧ t.tok.msgs = s.tok.msgs ∧
          after t (fun k => k.closing = true ∧ k.unacked = s.agents) ∧ t.needOf who e.line = none)) ∧
      (e.closing = true → e.unacked = [] → next .deactivationAck fun t => t.mem = s.mem ∧ after t (fun _ => False) ∧
        ∀ k, t.tok.table.find? (fun k => k.line == e.line) = some k → k.active = true)) ∧
    ((s.holdOf who line).count ≠ 0 → s.needOf who line = none → who ≠ .proxy ∨ line ∉ s.tok.hostCached →
      next .lineEviction fun t => t.mem = s.mem ∧ Gave s who home line t) ∧
    ((s.holdOf home line).count ≠ 16 → s.needOf home line = none → next .tagRecall fun t => t.mem = s.mem ∧
      ∃ n, t.needOf home line = some n ∧ n.write = true ∧ n.persistent = true ∧ n.met = true) ∧
    (let bar := s.move.val.toNat - 1
     let dead := bar ≠ 0 ∧ s.pkg.stage = 0xF
     let off := s.move.n
     let reads := s.move.x
     let writes := s.move.bytes.length
     s.move.val ≠ 0 →
      (dead ∨ s.hostRefused bar off reads false = true → exec .hostRead s = .next s.unsupported) ∧
      (¬dead → s.hostRefused bar off reads false = false → exec .hostRead s = .next { s with pkg := { s.pkg with
        hostData := s.hostBytes bar off reads, hostPoison := false, hostUr := false } }) ∧
      (s.move.flag = false → dead ∨ s.hostRefused bar off writes true = true → exec .hostWrite s = .next s.unsupported) ∧
      (s.move.flag = false → ¬dead → s.hostRefused bar off writes true = false → next .hostWrite fun t =>
        t = { s with agenda := t.agenda, pkg := { s.pkg with hostUr := false, images := t.pkg.images } } ∧
        ((∃ i < writes, s.fnView bar (off + i) = false) → t.agenda = s.agenda ∧ t.pkg.images = s.pkg.images))) ∧
    (s.move.flag = true → exec .hostWrite s = .next { s with pkg := { s.pkg with hdmBase := s.move.n } }) ∧
    (s.move.val = 0 →
     let hdm := fun (n : Nat) => (s.pkg.stage = 1 ∨ s.fullOn = true) ∧ s.pkg.hdmBase ≤ s.move.n ∧ s.move.n + n ≤ s.pkg.hdmBase + s.pkg.hbmBytes ∧ 0 < n
     let pa := s.move.n - s.pkg.hdmBase
     (hdm s.move.x → (∀ l ∈ linesOf pa s.move.x, s.canUse .proxy l false = true) → next .hostRead fun t => t.mem = s.mem ∧
       t.pkg.hostData = (List.range s.move.x).map (fun i => s.byteAt (pa + i)) ∧
       t.pkg.hostPoison = (s.poisonIn pa s.move.x).isSome ∧
       (s.move.flag = true → ∀ l ∈ linesOf pa s.move.x, l ∈ t.tok.hostCached)) ∧
     (¬hdm s.move.x → exec .hostRead s = .next s) ∧
     (s.move.flag = false → ¬hdm s.move.bytes.length → exec .hostWrite s = .next s) ∧
     (s.move.flag = false → hdm s.move.bytes.length → (∀ l ∈ linesOf pa s.move.bytes.length, s.canUse .proxy l true = true) →
       next .hostWrite fun t => (∀ i b, s.move.bytes[i]? = some b → memGet t.mem (pa + i) = b) ∧
         (∀ a, (a < pa ∨ pa + s.move.bytes.length ≤ a) → memGet t.mem a = memGet s.mem a) ∧
         ∀ y, t.ctx y = { s.ctx y with stale := (t.ctx y).stale, code := (t.ctx y).code })) ∧
    (line ∈ s.tok.bisnp → s.recovering line = false → next .hostBisnpResponse fun t =>
      line ∉ t.tok.bisnp ∧ line ∉ t.tok.hostCached ∧ t.tok.msgs = s.tok.msgs ∧
      (∀ a l, t.holdOf a l = { s.holdOf a l with dirty := (t.holdOf a l).dirty }) ∧
      (∀ a, (a < line * 128 ∨ line * 128 + 128 ≤ a) → memGet t.mem a = memGet s.mem a) ∧
      (s.proxyOwns line = true →
        ∀ i b, (s.move.bytes.take 128)[i]? = some b → memGet t.mem (line * 128 + i) = b) ∧
      (s.move.bytes = [] ∨ s.proxyOwns line = false → t.mem = s.mem ∧ t.tok.lines = s.tok.lines)) ∧
    (hostLine ≤ line → s.canUse .proxy line true = true → next .hostSnoop fun t => t.mem = s.mem ∧
      (∀ e ∈ t.tok.hostHeld, e.1 ≠ line) ∧ t.pkg.hostPoison = s.poisoned line ∧ t.poisoned line = false ∧
      ∀ bs, s.tok.hostHeld.find? (fun e => e.1 == line) = some (line, bs) → t.pkg.hostData = bs) ∧
    (line ∈ s.tok.hostAsked → next .hostCxlCacheResponse fun t => onlyTok t ∧ line ∉ t.tok.hostAsked ∧
      t.tok.hostHeld = (line, s.move.bytes.take 128) :: s.tok.hostHeld) ∧
    (s.move.flag = true → next .tokenEccError fun t => t.mem = s.mem ∧
      t.tok = { s.tok with corrected := s.tok.corrected + 1 }) ∧
    (s.move.flag = false → s.tokened line = true → s.activeFor home line = none → next .tokenEccError fun t =>
      (∀ i < 128, memGet t.mem (line * 128 + i) = 0) ∧
      (∀ a, (a < line * 128 ∨ line * 128 + 128 ≤ a) → memGet t.mem a = memGet s.mem a) ∧
      t.holdOf home line = ⟨home, 16, true, true, false⟩ ∧ (∀ m ∈ t.tok.msgs, m.line ≠ line) ∧
      t.poisonIn (line * 128) 1 ≠ none ∧ (t.tok.homes.get (homeNumber home)).poisoned =
        (s.tok.homes.get (homeNumber home)).poisoned + 1) ∧
    (let d := s.move.x % 8
     let a := Agent.cd (Fin.ofNat 8 d)
     let here := fun (y : Nat) => (s.ctx y).task.isSome = true ∧ y / 4 / 40 = d
     let away := fun (t : State) (b : Agent) => s.fullOn = true → s.mdPresent ≠ [] → ∀ l, (t.holdOf b l).count = 0
     (a ∈ s.agents → s.dieTasks d = [] → next .gracefulDieReset fun t => t.mem = s.mem ∧
       t.pkg.resetting.getLsbD d = true ∧ (∀ n ∈ t.tok.needs, n.who ≠ a) ∧
       (∀ e ∈ t.tok.table, e.who = a → e.closing = true) ∧ away t a) ∧
     (a ∈ s.agents → s.dieTasks d ≠ [] → next .gracefulDieReset fun t => t.mem = s.mem ∧ t.tok = s.tok ∧
       t.pkg.resetting.getLsbD d = true ∧
       ∀ y, (here y → t.ctx y = { s.ctx y with preemptReq := true }) ∧ (¬here y → t.ctx y = s.ctx y)) ∧
     (s.pkg.resetting.getLsbD d = true → s.dieTasks d = [] → (∀ l ∈ s.tok.lines, ∀ k ∈ l.holds, k.who = a → k.count = 0) →
       s.tok.msgs = [] → (∀ n ∈ s.tok.needs, n.who ≠ a) → (∀ e ∈ s.tok.table, e.who ≠ a) → next .dieRejoin fun t =>
         t.pkg.resetting = s.pkg.resetting &&& ~~~BitVec.twoPow 8 d ∧ t.pkg.tlbs = s.pkg.tlbs.set (Fin.ofNat 8 d) [] ∧
         (∀ n, t.core n = if n / 40 = d then Core.fresh else s.core n) ∧
         (Memory.wf s.mem = true → ∀ p, memGet t.mem p =
           if scratchAddr (40 * d) 0 ≤ p ∧ p < scratchAddr (40 * d + 40) 0 then 0 else memGet s.mem p)) ∧
     (a ∈ s.agents → next .dieLost fun t => t.mem = s.mem ∧ t.pkg.lost.getLsbD d = true ∧ a ∉ t.agents ∧
       (0, 65) ∈ t.pkg.msix ∧ (∀ y, here y → (t.ctx y).task = none) ∧
       (∀ y b, here y → (s.ctx y).task = some b → ∀ l ∈ t.sched.launches, l.id = b.launch → l.err = true) ∧
       (∀ n ∈ t.tok.needs, n.who ≠ a) ∧ (∀ e ∈ t.tok.table, e.who = a → e.closing = true) ∧
       (∀ n : Fin 10, homeAgent n.val ∈ t.agents → (t.tok.homes.get n).recovering = true) ∧
       ∀ e, Agent.cd e ∈ t.agents → away t (.cd e))) ∧
    (let k := homeNumber who
     let mine := fun (l : Nat) => s.homeOf l = who
     (s.tok.homes.get k).recovering = true → homeAgent k.val = who → (∀ m ∈ s.tok.msgs, ¬mine m.line) →
       (∀ e ∈ s.tok.table, e.home = who → e.who ∈ s.agents) →
       (∀ l ∈ s.tok.lines, mine l.line → ∀ a ∈ l.holds, a.who ≠ who → a.count = 0) →
       next .tokenRecoveryRegenerate fun t => (t.tok.homes.get k).recovering = false ∧ (0, 65) ∈ t.pkg.msix ∧
         ∀ l ∈ s.tok.lines, mine l.line → t.poisonIn (l.line * 128) 1 ≠ none ∧
           ((∀ e ∈ s.tok.table, e.line ≠ l.line) → t.holdOf who l.line = ⟨who, 16, true, true, false⟩))

/-! ## The package -/

/-- R442 to R453, R456, R458, R463, R465, R467: the steps of Watia, the power controls and the monitors. A package
reset leaves the reset state, in stage 1 where the firmware passes its checks, and with STAGE 0xF, the reason and no core
or HBM where it does not; the stages follow one another, a stage 2 or 3 without CD0, PD0 or a memory-side die ends in 0xF with
reason 0x10, and stage 4 has the capacities, the clock and the chip id of R446 and R449 and a TIME that never goes
back; a package fault halts every queue; Watia assigns queues and root regions to functions, and the active one changes no
sooner than 1 ms after it became active; the current estimate moves by at most RATE; a shaping window opens with no cycles charged; a trace record leaves its FIFO
for ring 0, at the home of its place there, or is lost; a write to RBASE or RSIZE resets HEAD and TAIL; a counter at 2^48 − 1
that counts once more passes to 0 with OVF, and with OVIE raises 0x83. Of what it says the model's own choices are those of
log entries 20, 38, 47, 63, 64, 65, 66, 86, 97 and 98. -/
def Obligations.PackageSteps : Prop :=
  ∀ (s : State), let next := fun (i : Instr) (post : State → Prop) => ∃ t, exec i s = .next t ∧ post t
    let p := s.pkg
    let told := fun (t : State) => t.mem = s.mem ∧ (0, 66) ∈ t.pkg.msix
    let given := s.assignFns s.move.fns
    (s.move.fns = none → given = s) ∧
    (∀ l, s.move.fns = some l → (s.fnsOk l = false → given = s) ∧
      (s.fnsOk l = true → given.pkg.fnRoots = l.map (fun a => (a.fn, a.root)) ∧ ∀ q,
        (∀ a ∈ l, q ∈ a.queues → (given.sched.queues.get q).fn = a.fn) ∧
        ((∀ a ∈ l, q ∉ a.queues) → (given.sched.queues.get q).fn = 0))) ∧
    (let fw := s.move.fw
     next .packageReset fun t => t = { State.reset with pkg := t.pkg, fresh := s.fresh } ∧
       t.pkg = { Pkg.fresh with
         svn := fw.svn
         cdMask := if t.pkg.stage = 0xF then 0 else Pkg.fresh.cdMask
         hbmBytes := if t.pkg.stage = 0xF then 0 else Pkg.fresh.hbmBytes
         part := if fw.module then 1 else 0
         fusedChip := fw.fusedChip
         chipId := fw.fusedChip
         startChip := fw.fusedChip
         stage := t.pkg.stage
         reason := t.pkg.reason } ∧
       (fw.ecdsa = true → fw.lms = true → fw.minSvn ≤ fw.svn → t.pkg.stage = 1 ∧ t.pkg.reason = 0) ∧
       (fw.ecdsa = false → t.pkg.stage = 0xF ∧ t.pkg.reason = 1) ∧
       (fw.ecdsa = true → fw.lms = false → t.pkg.stage = 0xF ∧ t.pkg.reason = 2) ∧
       (fw.ecdsa = true → fw.lms = true → fw.svn < fw.minSvn → t.pkg.stage = 0xF ∧ t.pkg.reason = 3)) ∧
    (p.stage = 1 → exec .startctlGo s = .next { s with pkg := { p with go := true } }) ∧
    (p.stage ≠ 1 → exec .startctlGo s = .next s) ∧
    (let r := s.move.trained
     let out := fun (md : BitVec 8) => r.cdMask.getLsbD 0 = false ∨ r.pd0 = false ∨ r.mdMask &&& md = 0
     let failed := fun (t : State) => told t ∧ t.pkg.stage = 0xF ∧ t.pkg.reason = 0x10
     (p.stage = 1 → (p.go = true → s.sched.launches = [] → next .stageAdvance fun t => told t ∧ t.pkg.stage = 2) ∧
       (p.go = false ∨ s.sched.launches ≠ [] → exec .stageAdvance s = .next s)) ∧
     (p.stage = 2 → (out 0xFF → next .stageAdvance failed) ∧ (¬out 0xFF → next .stageAdvance fun t => told t ∧
       t.pkg.stage = 3 ∧ t.pkg.cdMask = r.cdMask ∧ t.pkg.mdMask = r.mdMask ∧ t.pkg.pd1 = r.pd1)) ∧
     (p.stage = 3 → (out p.mdMask → next .stageAdvance failed) ∧ (¬out p.mdMask → next .stageAdvance fun t => told t ∧
       t.pkg.stage = 4 ∧ t.pkg.clock = 2000 ∧ t.pkg.mdMask = p.mdMask &&& r.mdMask ∧
       t.pkg.hbmBytes = ((List.finRange 8).filter fun i => (p.mdMask &&& r.mdMask).getLsbD i.val).length * 2 ^ 36 ∧
       (p.pd1 = false → t.pkg.tierBytes = 0 ∧ t.pkg.ports = r.ports &&& 0xFF) ∧
       (p.pd1 = true → t.pkg.tier0 = min r.tier0 (2 ^ 41) ∧ t.pkg.tier1 = min r.tier1 (2 ^ 41) ∧ t.pkg.ports = r.ports) ∧
       t.sched.queues = given.sched.queues ∧ t.pkg.fnRoots = given.pkg.fnRoots ∧
       t.pkg.chipId = p.startChip ∧ s.time ≤ t.time ∧ (t.pkg.ports = 0 ∨ r.podTime = none → t.time = s.time) ∧
       ∀ T, t.pkg.ports ≠ 0 → r.podTime = some T → s.time ≤ T → t.time = T)) ∧
     (p.stage.toNat = 0 ∨ 4 ≤ p.stage.toNat → exec .stageAdvance s = .next s)) ∧
    (p.stage.toNat ≤ 4 → next .packageFault fun t => told t ∧ t.pkg.stage = 0xE ∧
      t.pkg.reason = BitVec.ofNat 8 s.move.n ∧ ∀ q, t.sched.queues.get q = { s.sched.queues.get q with halted := true }) ∧
    (let n := s.move.n
     (p.ports ≠ 0 → next .podTimeRealign fun t => t = { s with pkg := { p with tick := t.pkg.tick } } ∧
       s.time + n - n / 10000 ≤ t.time ∧ t.time ≤ s.time + n + n / 10000 ∧
       (s.time + n - n / 10000 ≤ s.move.val.toNat → s.move.val.toNat ≤ s.time + n + n / 10000 →
         t.time = s.move.val.toNat)) ∧
     (p.ports = 0 → exec .podTimeRealign s = .next s)) ∧
    (let f := s.move.x
     f ≠ p.fn → f ∈ given.functions →
       (∃ q, let k := given.sched.queues.get q
         k.fn = f ∧ k.en = true ∧ (s.queueIdx k).1 ≠ (s.queueIdx k).2) →
       next .worldSwitch fun t => t.mem = s.mem ∧ t.sched = given.sched ∧ t.pkg.fn = f ∧ p.fnSince + 1000000 ≤ t.pkg.fnSince ∧ t.pkg.fnSince = t.time ∧
         alGet t.pkg.images p.fn = some (p.dctrs.filter fun e => e.1 < 256 && bitsOf e.2.cfg 60 2 == 2) ∧
         ∀ i, (t.dctr i).cfg ≠ 0 → 256 ≤ i ∨ bitsOf (t.dctr i).cfg 60 2 ≠ 2 ∨
           ∃ e ∈ (alGet p.images f).getD [], e.1 = i ∧ e.2 = t.dctr i) ∧
    (let e := p.slewEstimate
     let rate := min (max 10 p.slewRate.toNat) (if p.part = 1 then 400 else 1000)
     next .slewInterval fun t => (s.time / 100 + 1) * 100 ≤ t.time ∧ t.pkg.slewLimit = e + rate ∧
       t.pkg.slewEstimate ≤ e + rate ∧ e ≤ t.pkg.slewEstimate + rate ∧
       (e ≤ s.move.n + rate → s.move.n ≤ e + rate → t.pkg.slewEstimate = s.move.n) ∧
       t = { s with pkg := { p with tick := t.pkg.tick, slewLimit := t.pkg.slewLimit, slewEstimate := t.pkg.slewEstimate } }) ∧
    (next .shapingWindow fun t => (s.time / 1000 + 1) * 1000 ≤ t.time ∧
      t = { s with cores := t.cores, pkg := { p with tick := t.pkg.tick } } ∧ (∀ n, n ≠ s.move.x → t.core n = s.core n) ∧
      t.core s.move.x = { s.core s.move.x with
        window := t.time / 1000
        charged := 0
        ramp := (s.core s.move.x).ramp.filter fun w =>
          p.rampBase.toNat + (t.time / 1000 - w) * p.rampStep.toNat < s.capValue }) ∧
    (let d := Fin.ofNat 8 s.move.x
     ∀ rec rest, (p.traces.get d).fifo = rec :: rest →
       let r := (p.traces.get d).ring0
       let n := if r.log2n.toNat = 0 then 0 else max 7 (min 20 r.log2n.toNat)
       let full := n = 0 ∨ 2 ^ n ≤ (r.head - r.tail).toNat
       let a := r.base.toNat + 32 * (r.head.toNat % 2 ^ n)
       full ∨ s.canUse (s.homeOf (a / 128)) (a / 128) true = true →
       next .traceFifoDrain fun t => (t.pkg.traces.get d).fifo = rest ∧ (∀ e, e ≠ d → t.pkg.traces.get e = p.traces.get e) ∧
         (full → t.mem = s.mem ∧ (t.pkg.traces.get d).ring0 = { r with lost := r.lost + 1 }) ∧
         (¬full → (t.pkg.traces.get d).ring0 = { r with head := r.head + 1 } ∧
           (s.place a = .hbm → t.mem = memPut s.mem a rec.bytes))) ∧
    ((p.traces.get (Fin.ofNat 8 s.move.x)).fifo = [] → exec .traceFifoDrain s = .next s) ∧
    (∀ (d : Fin 8) (two : Bool) (k : Fin 2), s.move.n = 0x30000 + 0x100 * d.val + 0x40 * two.toNat + 8 * k.val →
      next .ringReconfigure fun t =>
        let ring := fun (u : State) (b : Bool) =>
          if b then (u.pkg.traces.get d).ring1 else (u.pkg.traces.get d).ring0
        let m := BitVec.ofNat 64 s.move.line
        let v := (s.pctlReg s.move.n &&& ~~~m) ||| (s.move.val &&& m)
        t.mem = s.mem ∧ (ring t two).head = 0 ∧ (ring t two).tail = 0 ∧ ring t (!two) = ring s (!two) ∧
        (k = 0 → (ring t two).base = v.setWidth 48 &&& 0xFFFFFFFFF000 ∧ (ring t two).log2n = (ring s two).log2n) ∧
        (k = 1 → (ring t two).log2n = v.setWidth 5 ∧ (ring t two).base = (ring s two).base)) ∧
    (let n := Fin.ofNat 8 s.move.n
     let c := s.core s.move.x
     let e := c.evsel.get n
     let y := 4 * s.move.x + bitsOf e 36 2
     let holder := 4 * s.move.x + c.holder.val
     let ev := e.toNat % 2 ^ 16
     let last := (c.evcnt.get n).toNat = 2 ^ 48 - 1
     let mine := fun (k : Counted) => k.core = s.move.x ∧ k.ctr = n
     let misses := (ev = 0x0D ∨ ev = 0x0E) ∧ (s.ctx holder).task.isSome = true ∧ s.countsFor holder ev n = true
     let wraps := fun (k : Nat) => next .counterWrap fun t => t.mem = s.mem ∧
       (t.core s.move.x).evcnt = c.evcnt.set n (BitVec.ofNat 64 ((2 ^ 48 - 1 + k) % 2 ^ 48)) ∧
       (t.core s.move.x).evsel = c.evsel.set n (e ||| BitVec.twoPow 64 40) ∧
       (e.getLsbD 38 = false → ∀ z, t.ctx z = s.ctx z) ∧
       (e.getLsbD 38 = true → (s.ctx y).task.isSome = true → ∃ v, ((0x83 : BitVec 8), v) ∈ (t.ctx y).ipend)
     (last → (∀ k ∈ p.counted, mine k ∧ k.clock ≤ p.tick) → 0 < (p.counted.map (·.n)).sum →
       wraps (p.counted.map (·.n)).sum) ∧
     (last → p.counted = [] → misses → wraps 1) ∧
     (¬last ∨ ((∀ k ∈ p.counted, ¬mine k) ∧ ¬misses) → exec .counterWrap s = .next s)) ∧
    (let d := s.dctr s.move.n
     let y := 4 * bitsOf d.cfg 23 9 + bitsOf d.cfg 21 2
     let ev := d.cfg.toNat % 2 ^ 16
     let n := s.move.n
     let free := (n < 128 ∧ (ev = 0x100 ∨ ev = 0x101)) ∨ (128 ≤ n ∧ n < 256 ∧ (ev = 0x200 ∨ ev = 0x201))
     let counts := d.cfg.getLsbD 63 = true ∧ free ∧ d.cnt.toNat % 2 ^ 48 = 2 ^ 48 - 1 ∧
       (s.admits d.cfg none = true ∨ ∃ l ∈ s.sched.launches, s.admits d.cfg (some l.region) = true)
     (¬counts → exec .dieCounterWrap s = .next s) ∧
     (counts → next .dieCounterWrap fun t => t.mem = s.mem ∧
       t.dctr s.move.n = { d with cnt := BitVec.twoPow 64 63 } ∧ (∀ i, i ≠ s.move.n → t.dctr i = s.dctr i) ∧
       (d.cfg.getLsbD 62 = false → ∀ z, t.ctx z = s.ctx z) ∧
       (d.cfg.getLsbD 62 = true → bitsOf d.cfg 60 2 = 0 → (s.ctx y).task.isSome = true →
         ∃ v, ((0x83 : BitVec 8), v) ∈ (t.ctx y).ipend)))

/-! ## The copy engine and the fabric -/

/-- R253 to R268, R408 to R431: the steps of the copy engine, of the fabric and of the collectives. A copy between
ranges of the scratchpad moves its bytes; a COPY, a COPYG or a COPYA, between the scratchpad and memory or into a latent vector,
moves the next piece of its stream, whose rows its descriptors or its table give; a command that stopped halts its queue; one
that finished writes its flag and its token once its writes to registers have landed. A send emits its next packet with a tag of its own; a triggered send is armed, RXSET sets and RPOST
increments a counter. A packet is forwarded, delivered with its payload, counter and acknowledgement, refused, or
dropped with a record; contributions are gathered and their combination, in which any NaN gives the default NaN, sent
on; acknowledgements, refusals, lapses and timeouts act on what they answer; barriers gather arrivals, and release the
contexts that wait. Memory is canonical, as every step keeps it (`EveryStepKeepsTheInvariant`). Of what it says the
model's own choices are those of log entries 16, 31, 40, 41, 47, 48, 49, 50, 51, 52, 53, 54, 55, 56, 57, 58, 82 and 103. -/
def Obligations.FabricSteps : Prop :=
  (∀ (op : BitVec 4) (vs : List Nat) (v : Nat), v ∈ vs →
    (v < 2 ^ 32 → v / 2 ^ 23 % 2 ^ 8 = 255 → v % 2 ^ 23 ≠ 0 → combineElem 0 op vs = 0x7FC00000) ∧
    (v < 2 ^ 16 → v / 2 ^ 7 % 2 ^ 8 = 255 → v % 2 ^ 7 ≠ 0 → combineElem 1 op vs = 0x7FC0)) ∧
  ∀ (s : State), s.Inv → let x := s.move.x
    let c := s.ctx x
    let p := s.move.pkt
    let next := fun (i : Instr) (post : State → Prop) => ∃ t, exec i s = .next t ∧ post t
    let l2 : Agent := .cd (Fin.ofNat 8 (x / 4 / 40))
    let buffered := fun (n : Nat) => (∀ l ∈ s.bufferLines x n, s.canUse l2 l true = true) ∧ s.canPublish x n = true
    let emitted := fun (q : Packet) (e : BitVec 16) (t : State) => (entPort e, q) ∈ t.fab.out
    let homes := fun (pa : Nat) => ∀ l ∈ eventLines pa, s.canUse (s.homeOf l) l true = true
    let waiting := fun (t : State) (f : BarWait → BarWait) => ∀ y,
      (t.ctx y).barrier = (s.ctx y).barrier.map f ∧ (t.ctx y).supBarrier = (s.ctx y).supBarrier.map f
    let freed := fun (b : Nat) (gen : BitVec 32) (w : BarWait) =>
      if w.bar.toNat = b ∧ w.gen = gen then { w with released := true } else w
    (∀ q rest, c.queue = q :: rest → c.halted = false →
      let head := fun (t : State) (f : Cmd → Prop) => ∃ h, (t.ctx x).queue = h :: rest ∧ f h
      let ended := fun (t : State) (w : Word) => (t.ctx x).queue = rest ∧ (t.ctx x).regs = c.regs.sset q.tok w
      (∀ a d : Nat, x < 1280 → q.op = 0x10 → q.latent = false → q.flag = false → q.started = false → q.finished = false →
        q.stop = none → q.done = 0 → s.exhausted c.region 0 = false → s.move.n = 0 → q.srcGen.pitch = 0 → q.dstGen.pitch = 0 →
        q.srcReg.toNat = 2 ^ 63 + a → q.dstReg.toNat = 2 ^ 63 + d → 0 < q.len.toNat → a + q.len.toNat ≤ 0x200000 →
        d + q.len.toNat ≤ 0x200000 → (a + q.len.toNat ≤ d ∨ d + q.len.toNat ≤ a) →
        let at' := fun (o : Nat) => scratchAddr (x / 4) o
        next .copyCommandExecute fun t => head t (fun h => h.finished = true ∧ h.done = q.len.toNat ∧ h.stop = none) ∧
          ∀ k < q.len.toNat, memGet t.mem (at' (d + k)) =
            (pbufGet (c.pbuf.filter fun e => e.seq ≤ q.seq) (at' (a + k))).getD (s.byteAt (at' (a + k)))) ∧
      (let free := Config.freeWord s.fresh
       let u := s.tables x q
       let A := u.srcSide free q
       let D := u.dstSide free q
       let g := q.srcGen
       0 < q.len.toNat → x < 1280 →
         A.local' = q.srcReg.getLsbD 63 ∧ D.local' = q.dstReg.getLsbD 63 ∧
         A.len = (if 0 < g.pitchInt then g.pitch.toNat else q.len.toNat) ∧
         D.len = (if 0 < q.dstGen.pitchInt then q.dstGen.pitch.toNat else q.len.toNat) ∧
         (g.pitchInt ≤ 0 → q.op ≠ 0x11 → A.rows = [q.srcReg]) ∧ (q.dstGen.pitchInt ≤ 0 → D.rows = [q.dstReg]) ∧
         (q.op ≠ 0x11 → RowsBy u g q.srcReg A.rows) ∧ RowsBy u q.dstGen q.dstReg D.rows ∧
         (q.op = 0x11 → ∀ k o, A.rows[k]? = some o →
           let at' := g.itab.toNat + 4 * ((g.ctr.get (Fin.ofNat 4 g.idim)).toNat + k)
           o = q.srcReg + BitVec.ofInt 64
             (g.iscale.toNat * (BitVec.ofNat 32 (memRead q.table (scratchAddr (x / 4) at') 4)).toInt))) ∧
      (let free := Config.freeWord s.fresh
       let A := (s.tables x q).srcSide free q
       let D := (s.tables x q).dstSide free q
       let via := some (x / 4)
       let b := q.done
       let add := q.op = 0x12
       let size := if q.flags.toNat / 16 = 1 then 2 else 4
       let acc : Access := if add then .both else .write
       let off := fun (a : Word) => (a - BitVec.twoPow 64 63).toNat
       let now := fun (a : Nat) => (pbufGet (c.pbuf.filter fun e => e.seq ≤ q.seq) a).getD (s.byteAt a)
       let word := fun (n : Nat) (f : Nat → Nat) => BitVec.ofNat 32 (leNat ((List.range n).map fun i => now (f i)))
       ∀ (n dp : Nat) (sp : Nat → Nat), x < 1280 → q.op = 0x10 ∨ q.op = 0x11 ∨ add → q.finished = false → q.stop = none →
         q.pages = [] → q.started = true ∨ (s.exhausted c.region 0 = false ∧ s.earlyBad x q free = none) →
         (q.latent = true → c.lvPending q = false) → s.move.n = 1 → b < q.len.toNat → s.tok.poison = [] →
         (b + n < q.len.toNat ∨ q.flag = false) →
         n = (if add then size else if q.latent then 4 else
           min (min (q.len.toNat - b) (32 - dp % 32)) (min (A.len - b % A.len) (D.len - b % D.len))) →
         (∀ i < n, let a := A.addr (b + i)
           if A.local' then off a < 0x200000 ∧ sp i = scratchAddr (x / 4) (off a)
           else s.translate via c.region (a.toNat % 2 ^ 48) .read q.sup = .ok (sp i) ∧ plainPlace (s.place (sp i)) = true) →
         (q.latent = false → ∀ i < n, let a := D.addr b
           if D.local' then off a + n ≤ 0x200000 ∧ dp = scratchAddr (x / 4) (off a)
           else a.toNat % 4096 + n ≤ 4096 ∧ s.translate via c.region (a.toNat % 2 ^ 48 + i) acc q.sup = .ok (dp + i) ∧
             plainPlace (s.place (dp + i)) = true) →
         (add → b % A.len + n ≤ A.len ∧ (A.addr b).toNat % size = 0 ∧
           (q.latent = false → b % D.len + n ≤ D.len ∧ (D.addr b).toNat % size = 0)) →
         (let D := if q.latent then ⟨true, [], 1, none⟩ else D
          ∀ l ∈ s.newWalks x q (pieceVas q A D b n), s.canUse l2 l false = true) →
         (∀ i < n, s.canUse l2 (sp i / 128) false = true) →
         (q.latent = false → s.canUse (if add then s.homeOf (dp / 128) else l2) (dp / 128) true = true) →
         next .copyCommandExecute fun t =>
           head t (fun h => h.done = b + n ∧ h.stop = none ∧ h.started = true ∧ (h.finished = true ↔ q.len.toNat ≤ b + n)) ∧
           (q.latent = false → (t.ctx x).regs = c.regs ∧
             (∀ a, (a < dp ∨ dp + n ≤ a) → memGet t.mem a = memGet s.mem a) ∧
             (¬add → ∀ i < n, memGet t.mem (dp + i) = now (sp i)) ∧
             (add → let sum := fun (r : Rec) (d v : BitVec 32) => (r.encode (addOp false (r.decode d) (r.decode v)).1).1
               let d := word n (dp + ·)
               let v := word n sp
               memRead t.mem dp n = ((if q.flags.toNat / 16 = 0 then sum (Rec.f32 .rne) d v
                 else if q.flags.toNat / 16 = 1 then sum (Rec.bf16 .rne) d v
                 else BitVec.ofInt 32 (clampInt (-2 ^ 31) (2 ^ 31 - 1) (d.toInt + v.toInt))).toNat) % 2 ^ (8 * n))) ∧
           (q.latent = true → t.mem = s.mem ∧
             let v := c.regs.lv.get (Fin.ofNat 16 q.dstReg.toNat)
             let j := Fin.ofNat 64 (b / n)
             let w := word n sp
             let x' := if q.flags.toNat / 16 = 0 then (Rec.f32 .rne).decode w
               else if q.flags.toNat / 16 = 1 then (Rec.bf16 .rne).decode w else Num.ofRat w.toInt
             let e := if add then ((Rec.f32 .rne).encode (addOp false (f32Num (v.e.get j)) x').1).1 else w
             (t.ctx x).regs = c.regs.lvset (Fin.ofNat 16 q.dstReg.toNat) { v with e := v.e.set j e })) ∧
      (∀ reason adr, q.stop = some (reason, adr) → c.mode = .run → (∀ l ∈ s.errWalks x 0, s.canUse l2 l false = true) →
        (∀ l ∈ s.errLines x 0, s.canUse l2 l true = true) →
        next .copyEngineFault fun t =>
        (t.ctx x).halted = true ∧ (t.ctx x).queue = c.queue ∧ (t.ctx x).regs = c.regs ∧
        (c.task.isSome = true → ∃ v, ((0x82 : BitVec 8), v) ∈ (t.ctx x).ipend)) ∧
      (q.finished = true → (∀ w ∈ s.wwrites, w.src ≠ some (x, q.seq)) → s.stepsOf (x, q.seq) = false → q.latent = false →
        let word : Word := if q.op = 0x39 then 0 else BitVec.ofNat 64
          ((if q.discarded then 2 ^ 63 + 0x2E * 2 ^ 40 else 0) + q.len.toNat)
        (q.flag = false ∨ q.isCopy = false ∨ q.flagged = true → next .copyCommandComplete fun t => ended t word ∧ t.mem = s.mem) ∧
        (q.flag = true → q.isCopy = true → q.flagged = false → s.flagBad x q = none → let pa := s.flagPa x q
          s.place pa = .hbm → s.canUse l2 (pa / 128) true = true → next .copyCommandComplete fun t => ended t word ∧
            Wrote s.mem t.mem pa 8 q.dstGen.flagV.toNat)) ∧
      (q.finished = false → q.stop = none →
        (∀ (a : Nat) e e2 tail, x < 1280 → q.op = 0x38 → q.started = true → q.srcGen.pitch = 0 → q.srcReg.toNat = 2 ^ 63 + a →
          a + q.len.toNat ≤ 0x200000 → 0 < q.len.toNat → s.coherent = false → s.routeTo q.chip q.rxWanted = some (e :: e2 :: tail) →
          entOp e = 1 → s.portUp (entPort e) = true →
          let i := q.nextPacket
          let n := min 4096 (q.len.toNat - 4096 * i)
          (i + 1 < q.packets ∨ (i + 1 = q.packets ∧ q.tx = [])) → next .sendTransmit fun t => t.mem = s.mem ∧
            ∃ k, emitted k e t ∧ head t (fun h => h.tx = q.tx ++ [⟨i, k.seq, s.time⟩] ∧ h.finished = false) ∧
              (s.tagsOut.length < 2 ^ 32 → k.seq ∉ s.tagsOut) ∧ k.kind = 0 ∧ k.region = c.region.id ∧ k.dstChip = q.chip ∧
              k.srcChip = s.pkg.chipId ∧ k.dst = q.dstReg.setWidth 48 + BitVec.ofNat 48 (4096 * i) ∧ k.route = e2 :: tail ∧
              (k.last = true ↔ i + 1 = q.packets) ∧ k.payload.length = n ∧ ∀ j b, k.payload[j]? = some b →
                let src := scratchAddr (x / 4) (a + 4096 * i + j)
                b = (pbufGet (c.pbuf.filter fun e => e.seq ≤ q.seq) src).getD (s.byteAt src)) ∧
        (q.op = 0x39 → s.sendThrottled c.region = false → buffered q.seq →
          (let u := s.publish x (Pub.only (x / 4) 1) q.seq q.joined
           u.earlyBad x q (Config.freeWord u.fresh) = none) →
          (s.fab.armed.filter fun a => a.region == c.region.id).length < 256 →
          (∀ a ∈ s.fab.armed ++ [⟨c.region.id, q, x / 4, false⟩], a.due = false ∧ s.isDue a = false) →
          next .sendtArm fun t => ended t 0 ∧
            t.mem = afterStores s.mem c.pbuf q.seq ∧ t.fab.armed = s.fab.armed ++ [⟨c.region.id, q, x / 4, false⟩]) ∧
        (q.op = 0x3A → s.exhausted c.region 0 = false → next .rxsetPerform fun t => t.mem = s.mem ∧ ended t 0 ∧
          ∀ r n, t.rxOf r n = if r = c.region.id ∧ n = q.rx then q.ctl.setWidth 32 else s.rxOf r n) ∧
        (q.op = 0x3C → q.tx = [] → s.exhausted c.region 0 = false → buffered q.seq →
          (q.chip = s.pkg.chipId → next .rpostPerform fun t => ended t 0 ∧ t.mem = afterStores s.mem c.pbuf q.seq ∧
            ∀ r n, t.rxOf r n =
              if r = c.region.id ∧ n = q.rx then s.rxOf r n + q.ctl.setWidth 32 else s.rxOf r n) ∧
          (∀ e e2 tail, q.chip ≠ s.pkg.chipId → s.routeTo q.chip (some q.rx) = some (e :: e2 :: tail) → entOp e = 1 →
            s.portUp (entPort e) = true → next .rpostPerform fun t => t.mem = afterStores s.mem c.pbuf q.seq ∧
              ∃ k, emitted k e t ∧ head t (fun h => h.tx = [⟨0, k.seq, s.time⟩]) ∧ k.kind = 1 ∧ k.dstChip = q.chip ∧
                k.region = c.region.id ∧ (s.tagsOut.length < 2 ^ 32 → k.seq ∉ s.tagsOut) ∧ k.flagV.toNat = q.ctl.toNat % 2 ^ 32 ∧ k.payload = [] ∧
                k.route = e2 :: tail)))) ∧
    ((s.move.port = none ∧ p ∈ s.fab.loop) ∨ (∃ k, s.move.port = some k ∧ s.pkg.ports.getLsbD k.val = true) →
      let far := s.move.port.any fun k => 8 ≤ k.val
      let logged := fun (t : State) (reason : BitVec 8) =>
        (⟨p.region, p.srcChip, reason, (s.move.port.map fun k => BitVec.ofNat 4 k.val).getD 0, p.kind, p.seq, p.collid⟩ : FabErr)
          ∈ (if far then t.fab.errs1 else t.fab.errs0) ∧ (0, 64) ∈ t.pkg.msix ∧ t.mem = s.mem
      let popped := fun (e : BitVec 16) (rest : List (BitVec 16)) =>
        p.route = e :: rest ∧ p.badHead = false ∧ s.entryBad p e rest = none
      let answered := fun (t : State) (kind : BitVec 4) (v : Nat) => ∀ e, s.routeTo p.srcChip none = some [e] →
        ∃ a, t.fab.loop.getLast? = some a ∧ a.kind = kind ∧ a.region = p.region ∧ a.dstChip = p.srcChip ∧ a.seq = p.seq ∧
          a.collid = p.collid ∧ a.dst = p.dst ∧ a.flagV.toNat = v
      (∀ i ∈ [Instr.routeForward, .routeDeliver, .routeDeliverCounter, .routeDeliverForward, .routeTileArrival, .routeReduce,
          .acknowledgement, .refusal, .lapseNotice, .barrierArrival, .barrierRelease],
        (p.badHead = true → next i fun t => logged t 1) ∧
        (∀ e rest reason, p.badHead = false → p.route = e :: rest → s.entryBad p e rest = some reason →
          next i fun t => logged t reason)) ∧
      (∀ e rest, popped e rest →
        let q := { p with route := rest }
        let out := fun (t : State) => emitted { q with hops := p.hops + 1 } e t
        (entOp e = 1 → next .routeForward fun t => t.mem = s.mem ∧ out t) ∧
        (p.kind.toNat ≤ 1 →
          (∀ (i : Instr) op, (i, op) ∈ [(Instr.routeDeliver, 0), (.routeDeliverCounter, 3), (.routeDeliverForward, 4)] →
            entOp e = op →
            (s.regionById p.region = none → next i fun t => logged t 5 ∧ answered t 5 0x29) ∧
            (∀ r, s.regionById p.region = some r →
              (∀ a, s.deliverBad r p = some a → next i fun t => logged t 6 ∧ answered t 5 0x2A) ∧
              (s.deliverBad r p = none → (∀ l ∈ s.deliverLines p, s.canUse (s.homeOf l) l true = true) → p.flagEn = false →
                let pa := s.paOf none r p.dst.toNat .write false
                (p.payload = [] ∨ (p.dst.toNat % 4096 + p.payload.length ≤ 4096 ∧ s.place pa = .hbm)) → next i fun t =>
                  t.mem = memPut s.mem pa p.payload ∧ (op = 4 → out t) ∧
                  (op ≠ 4 → answered t 4 p.payload.length) ∧
                  ∀ g n, t.rxOf g n = if op = 3 ∧ g = p.region ∧ n.toNat = (entArg e).toNat then
                    s.rxOf g n + (if p.kind = 1 then p.flagV.setWidth 32 else if p.last then 1 else 0) else s.rxOf g n))) ∧
          (entOp e = 5 → next .routeTileArrival fun t => t.mem = s.mem ∧ Arrived s (p.dst.toNat % 2 ^ 14) 1 t ∧
            answered t 4 0) ∧
          (entOp e = 2 → let w := s.windowOf p.collid p.srcChip
            ∀ g, s.stageOf p.collid p.seq = some g → mismatched q g.parts.head? = false → w.base ≤ p.seq.toNat →
              p.seq.toNat < w.base + 1024 → w.bits.getLsbD (p.seq.toNat - w.base) = false →
              (∀ k ∈ g.parts, k.srcChip ≠ p.srcChip) →
              (g.parts.length + 1 < g.need → next .routeReduce fun t => t.mem = s.mem ∧
                t.stageOf p.collid p.seq = some { g with parts := g.parts ++ [q] } ∧
                (t.windowOf p.collid p.srcChip).bits.getLsbD (p.seq.toNat - w.base) = true) ∧
              (g.need ≤ g.parts.length + 1 → s.portUp g.port = true → next .routeReduce fun t => t.mem = s.mem ∧
                ∃ k, (g.port, k) ∈ t.fab.out ∧ k.payload = combine (g.parts ++ [q]) ∧ k.srcChip = s.pkg.chipId ∧
                  k.seq = ((g.parts ++ [q]).headD q).seq ∧ k.route = ((g.parts ++ [q]).headD q).route))) ∧
        (entOp e = 0 →
          (p.kind = 4 → p.collid = 0 → ∀ y k tail, s.txOwner p.seq = some y → (s.ctx y).queue = k :: tail →
            next .acknowledgement fun t => t.mem = s.mem ∧ ∃ h, (t.ctx y).queue = h :: tail ∧
              h.tx = (k.tx.filter fun f => f.tag != p.seq) ∧
              ((∀ j, k.done / 4096 ≤ j → j < k.packets → j ∈ k.acked ∨ ∃ f ∈ k.tx, f.tag = p.seq ∧ f.index = j) →
                h.finished = true) ∧
              (k.isSend = true → (∃ j, k.done / 4096 ≤ j ∧ j < k.packets ∧ j ∉ k.acked ∧
                ∀ f ∈ k.tx, f.tag = p.seq → f.index ≠ j) → h.finished = false)) ∧
          (p.kind = 4 → p.collid ≠ 0 → s.stageOf p.collid p.seq = none → ∀ d, s.collOf p.collid = some d →
            (∀ k ∈ d.chunks, k.1.seq = p.seq) → d.poisoned = false → homes d.event → next .acknowledgement fun t =>
              t.collOf p.collid = none ∧ SignalledIn s d.event false t.mem ∧ d.entry ∉ (t.sched.queues.get d.queue).live) ∧
          (p.kind = 5 → p.collid = 0 → ∀ y k tail, s.txOwner p.seq = some y → (s.ctx y).queue = k :: tail →
            next .refusal fun t => t.mem = s.mem ∧ (t.ctx y).queue = { k with
              tx := []
              stop := some (p.flagV.setWidth 8, if p.flagV = 0x2A then p.flagA.setWidth 64 else 0) } :: tail) ∧
          (∀ d k f e2 tail, p.collid ≠ 0 → s.stageOf p.collid p.seq = none → s.collOf p.collid = some d →
            d.chunks.find? (fun k => k.1.seq == p.seq && k.2 != 0) = some k → k.1.route = f :: e2 :: tail → entOp f = 1 →
            s.portUp (entPort f) = true →
            let again := fun (t : State) => t.mem = s.mem ∧ emitted { k.1 with route := e2 :: tail, hops := 1 } f t
            (p.kind = 6 → next .lapseNotice again) ∧ (p.kind = 5 → p.flagV = 0x2C → next .refusal again)) ∧
          (p.kind = 2 → let b := p.dst.toNat % 256
            let k := s.barrierOf b
            let chips := k.chips ++ [p.srcChip]
            (chips.length ≤ k.nchip.toNat → next .barrierArrival fun t => t.mem = s.mem ∧
              t.barrierOf b = { k with chips := chips }) ∧
            (k.nchip.toNat < chips.length → next .barrierArrival fun t => t.mem = s.mem ∧
              t.barrierOf b = { k with chips := [] } ∧ ∀ n ∈ chips, ∀ f, s.routeTo n none = some [f] → ∃ r ∈ t.fab.loop,
                r.kind = 3 ∧ r.dstChip = n ∧ r.region = k.region ∧ r.seq = p.seq ∧ r.dst.toNat = b ∧
                r.flagA = k.stagger.setWidth 48 ∧ r.flagV.toNat = (s.time + 4000) % 2 ^ 64)) ∧
          (p.kind = 3 → let b := p.dst.toNat % 256
            let k := s.barrierOf b
            let mine := p.seq = k.gen ∧ k.localN ≤ k.arrived ∧ k.arrived ≠ 0
            let moved := { k with gen := k.gen + 1, arrived := 0 }
            (¬mine → next .barrierRelease fun t => t.mem = s.mem ∧ t.barrierOf b = k ∧ waiting t id) ∧
            (mine → s.time < p.flagV.toNat → next .barrierRelease fun t => t.mem = s.mem ∧ t.barrierOf b = { moved with
              release := k.release ++ [(p.flagV.toNat + k.rank.toNat % 16 * min 10000 (p.flagA.toNat % 2 ^ 14), k.gen)] } ∧
              waiting t id) ∧
            (mine → p.flagV.toNat ≤ s.time → next .barrierRelease fun t => t.mem = s.mem ∧
              t.barrierOf b = { moved with release := k.release.filter fun e => e.2 != k.gen } ∧
              waiting t (freed b k.gen)))))) ∧
    (let b := x % 256
     let k := s.barrierOf b
     ∀ at0 gen, k.release[s.move.n]? = some (at0, gen) → next .barrierReleaseInstant fun t => t.mem = s.mem ∧
       at0 ≤ t.time ∧ t.time ≤ max s.time (at0 + 200) ∧
       t.barrierOf b = { k with release := k.release.filter fun e => e.2 != gen } ∧ waiting t (freed b gen)) ∧
    (let tag := BitVec.ofNat 32 x
     ∀ y k tail f, s.txOwner tag = some y → (s.ctx y).queue = k :: tail → f ∈ k.tx → f.tag = tag →
       next .sendAckTimeout fun t => t.mem = s.mem ∧
         (t.ctx y).queue = { k with tx := [], stop := some (0x2D, 0) } :: tail ∧ s.time ≤ t.time) ∧
    (let id := BitVec.ofNat 32 x
     let seq := BitVec.ofNat 32 s.move.n
     (∀ d k f e2 tail, s.stageOf id seq = none → s.collOf id = some d →
       d.chunks.find? (fun k => k.1.seq == seq && k.2 != 0) = some k → k.1.route = f :: e2 :: tail → entOp f = 1 →
       s.portUp (entPort f) = true → next .chunkRetransmitTimeout fun t => t.mem = s.mem ∧ k.2 + 199999 ≤ t.time ∧
         emitted { k.1 with route := e2 :: tail, hops := 1 } f t) ∧
     (∀ g, s.stageOf id seq = some g → g.sent = false → next .stagingLeaseExpiry fun t => t.mem = s.mem ∧
       g.leaseTo ≤ t.time ∧ t.stageOf id seq = none ∧ ∀ k ∈ g.parts, let w := s.windowOf k.collid k.srcChip
         (t.windowOf k.collid k.srcChip).base = w.base ∧
           (t.windowOf k.collid k.srcChip).bits.getLsbD (k.seq.toNat - w.base) = false) ∧
     (∀ d, s.collOf id = some d → homes d.event → next .collectiveTimeout fun t =>
       d.startAt + d.region.collTimeout * 1000000 ≤ t.time ∧ SignalledIn s d.event true t.mem ∧ t.collOf id = none ∧
       (∀ g ∈ t.fab.stages, g.collid ≠ id) ∧ (∀ w ∈ t.fab.windows, w.collid ≠ id) ∧
       d.entry ∉ (t.sched.queues.get d.queue).live)) ∧
    (let k := Fin.ofNat 16 x
     let mine := fun (e : BitVec 4 × Packet) => e.1.toNat == k.val
     (s.pkg.ports.getLsbD k.val = true → next .portFailure fun t => t.mem = s.mem ∧ (0, 64) ∈ t.pkg.msix ∧
       t.pkg.ports = s.pkg.ports &&& ~~~BitVec.twoPow 16 k.val ∧
       t.fab.out.filter (fun e => !mine e) = s.fab.out.filter (fun e => !mine e) ∧
       t.fab.out.filter mine = (s.fab.out.filter mine).take ((s.fab.out.filter mine).length - s.move.n)) ∧
     (s.pkg.ports.getLsbD k.val = false → exec .portFailure s = .next s) ∧
     (s.pkg.stage = 4 → k.val < 8 ∨ s.pkg.pd1 = true → exec .portRetrained s =
       .next { s with pkg := { s.pkg with ports := s.pkg.ports ||| BitVec.twoPow 16 k.val } }))
end

