-- ==== Sys2Proof/Laws/Memory.lean ====
section
/-! SUPPORT. The laws of memory: a read after a write, and the canonical form. -/

namespace Sys2Proof.Machine

open Sys2Proof

theorem memAbove_mono {m : Memory} {lo hi : Nat} (h : memAbove hi m = true) (hl : lo ≤ hi) : memAbove lo m = true := by
  cases m with
  | nil => rfl
  | cons e m =>
    simp only [memAbove, Bool.and_eq_true, decide_eq_true_eq] at *
    exact ⟨⟨by omega, h.1.2⟩, h.2⟩

theorem memGet_memAbove {m : Memory} {lo a : Nat} (h : memAbove lo m = true) (ha : a ≤ lo) : memGet m a = 0 := by
  cases m with
  | nil => rfl
  | cons e m =>
    simp only [memAbove, Bool.and_eq_true, decide_eq_true_eq] at h
    simp only [memGet]
    rw [if_pos (by omega)]

theorem memAbove_tail_wf {k : Nat} {v : Byte} {m : Memory} (h : Memory.wf ((k, v) :: m) = true) :
    memAbove k m = true := by
  simp only [Memory.wf, Bool.and_eq_true] at h
  exact h.2

theorem wf_of_memAbove {lo : Nat} {m : Memory} (h : memAbove lo m = true) : Memory.wf m = true := by
  cases m with
  | nil => rfl
  | cons e m =>
    simp only [memAbove, Bool.and_eq_true] at h
    simp only [Memory.wf, Bool.and_eq_true]
    exact ⟨h.1.2, h.2⟩

theorem memGet_memSet_same {m : Memory} {lo a : Nat} {b : Byte} (h : memAbove lo m = true) :
    memGet (memSet m a b) a = b := by
  induction m generalizing lo with
  | nil =>
    unfold memSet
    split
    · simp_all [memGet]
    · simp [memGet]
  | cons e m ih =>
    obtain ⟨k, v⟩ := e
    simp only [memAbove, Bool.and_eq_true, decide_eq_true_eq] at h
    simp only [memSet]
    split
    · split
      · simp_all [memGet]
      · simp [memGet]
    · split
      · subst_vars
        split
        · subst_vars
          exact memGet_memAbove h.2 (Nat.le_refl _)
        · simp [memGet]
      · rename_i h1 h2
        simp only [memGet, if_neg h1, if_neg h2]
        exact ih h.2

theorem memGet_memSet_other {m : Memory} {lo a c : Nat} {b : Byte} (h : memAbove lo m = true) (hc : c ≠ a) :
    memGet (memSet m a b) c = memGet m c := by
  induction m generalizing lo with
  | nil =>
    unfold memSet
    split <;> simp [memGet, hc]
  | cons e m ih =>
    obtain ⟨k, v⟩ := e
    simp only [memAbove, Bool.and_eq_true, decide_eq_true_eq] at h
    simp only [memSet]
    split
    · rename_i h1
      split
      · rfl
      · simp only [memGet]
        by_cases h2 : c < a
        · simp [h2, show c < k by omega]
        · simp [h2, hc]
    · split
      · subst_vars
        split
        · simp only [memGet, if_neg hc]
          split
          · exact memGet_memAbove h.2 (by omega)
          · rfl
        · simp only [memGet, if_neg hc]
      · simp only [memGet]
        split
        · rfl
        · split
          · rfl
          · exact ih h.2

theorem memAbove_memSet {m : Memory} {lo a : Nat} {b : Byte} (h : memAbove lo m = true) (ha : lo < a) :
    memAbove lo (memSet m a b) = true := by
  induction m generalizing lo with
  | nil =>
    unfold memSet
    split <;> simp_all [memAbove]
  | cons e m ih =>
    obtain ⟨k, v⟩ := e
    simp only [memAbove, Bool.and_eq_true, decide_eq_true_eq] at h
    simp only [memSet]
    split
    · split <;> simp_all [memAbove]
    · split
      · subst_vars
        split
        · exact memAbove_mono h.2 (by omega)
        · simp_all [memAbove]
      · simp only [memAbove, Bool.and_eq_true, decide_eq_true_eq]
        exact ⟨h.1, ih h.2 (by omega)⟩

/-- Every write keeps the canonical form. -/
theorem memSet_wf {m : Memory} (a : Nat) (b : Byte) (h : Memory.wf m = true) : Memory.wf (memSet m a b) = true := by
  cases m with
  | nil =>
    unfold memSet
    split <;> simp_all [Memory.wf, memAbove]
  | cons e m =>
    obtain ⟨k, v⟩ := e
    have hk := memAbove_tail_wf h
    simp only [Memory.wf, Bool.and_eq_true] at h
    simp only [memSet]
    split
    · split <;> simp_all [Memory.wf, memAbove]
    · split
      · subst_vars
        split
        · exact wf_of_memAbove hk
        · simp_all [Memory.wf]
      · simp only [Memory.wf, Bool.and_eq_true]
        exact ⟨h.1, memAbove_memSet hk (by omega)⟩

/-- A byte written reads back. -/
theorem memGet_memSet_self {m : Memory} (a : Nat) (b : Byte) (h : Memory.wf m = true) :
    memGet (memSet m a b) a = b := by
  cases m with
  | nil => exact memGet_memSet_same (lo := 0) rfl
  | cons e m =>
    obtain ⟨k, v⟩ := e
    have hk := memAbove_tail_wf h
    simp only [memSet]
    split
    · split
      · simp_all [memGet]
      · simp [memGet]
    · split
      · subst_vars
        split
        · subst_vars
          exact memGet_memAbove hk (Nat.le_refl _)
        · simp [memGet]
      · rename_i h1 h2
        simp only [memGet, if_neg h1, if_neg h2]
        exact memGet_memSet_same hk

/-- A write leaves every other byte alone. -/
theorem memGet_memSet_ne {m : Memory} {a c : Nat} (b : Byte) (h : Memory.wf m = true) (hc : c ≠ a) :
    memGet (memSet m a b) c = memGet m c := by
  cases m with
  | nil => exact memGet_memSet_other (lo := 0) rfl hc
  | cons e m =>
    obtain ⟨k, v⟩ := e
    have hk := memAbove_tail_wf h
    simp only [memSet]
    split
    · split
      · rfl
      · simp only [memGet]
        by_cases h2 : c < a
        · simp [h2, show c < k by omega]
        · simp [h2, hc]
    · split
      · subst_vars
        split
        · simp only [memGet, if_neg hc]
          split
          · exact memGet_memAbove hk (by omega)
          · rfl
        · simp only [memGet, if_neg hc]
      · simp only [memGet]
        split
        · rfl
        · split
          · rfl
          · exact memGet_memSet_other hk hc

theorem memPut_wf {m : Memory} (a : Nat) (bs : List Byte) (h : Memory.wf m = true) :
    Memory.wf (memPut m a bs) = true := by
  induction bs generalizing m a with
  | nil => exact h
  | cons b bs ih => exact ih _ (memSet_wf a b h)

theorem memWrite_wf {m : Memory} (a n v : Nat) (h : Memory.wf m = true) : Memory.wf (memWrite m a n v) = true :=
  memPut_wf a _ h

theorem memAbove_filter {m : Memory} (f : Host.Cell → Bool) {lo : Nat} (h : memAbove lo m = true) :
    memAbove lo (m.filter f) = true := by
  induction m generalizing lo with
  | nil => rfl
  | cons e m ih =>
    obtain ⟨k, v⟩ := e
    simp only [memAbove, Bool.and_eq_true, decide_eq_true_eq] at h
    simp only [List.filter_cons]
    split
    · simp only [memAbove, Bool.and_eq_true, decide_eq_true_eq]
      exact ⟨h.1, ih h.2⟩
    · exact memAbove_mono (ih h.2) (by omega)

theorem filter_wf {m : Memory} (f : Host.Cell → Bool) (h : Memory.wf m = true) : Memory.wf (m.filter f) = true := by
  cases m with
  | nil => rfl
  | cons e m =>
    obtain ⟨k, v⟩ := e
    have hk := memAbove_tail_wf h
    simp only [List.filter_cons]
    split
    · simp only [Memory.wf, Bool.and_eq_true] at *
      exact ⟨h.1, memAbove_filter f hk⟩
    · exact wf_of_memAbove (memAbove_filter f hk)

end Sys2Proof.Machine
end

