-- ==== Sys2Proof/Laws/Frames.lean ====
section
/-! SUPPORT. Memory is unchanged by every operation and meaning below: what does not perform a store, load a sheaf or reset
a window leaves every byte alone. -/

namespace Sys2Proof.Machine

open Sys2Proof

/-- Where it answers a next state, memory is as before. -/
def Out.SameMem (s : State) (o : Out) : Prop := ∀ t, o = .next t → t.mem = s.mem

@[simp] theorem Out.sameMem_next (s t : State) : Out.SameMem s (.next t) ↔ t.mem = s.mem := by
  simp [Out.SameMem]

@[simp] theorem Out.sameMem_fault (s : State) (f : Fault) : Out.SameMem s (.fault f) := by
  intro t h
  cases h

@[simp] theorem foldl_mem {α : Type} (f : State → α → State) (hf : ∀ t x, (f t x).mem = t.mem) (l : List α)
    (s : State) : (l.foldl f s).mem = s.mem := by
  induction l generalizing s with
  | nil => rfl
  | cons a l ih => simp [ih, hf]

theorem ite_mem {p : Prop} [Decidable p] {a b : State} {m : Memory} (ha : a.mem = m) (hb : b.mem = m) :
    (if p then a else b).mem = m := by
  split <;> assumption

@[simp] theorem State.setCtx_mem (s : State) (x1 : Nat) (x2 : Ctx) : (State.setCtx s x1 x2).mem = s.mem := by
  unfold State.setCtx
  split <;> simp

@[simp] theorem State.modCtx_mem (s : State) (x1 : Nat) (x2 : Ctx → Ctx) : (State.modCtx s x1 x2).mem = s.mem := by
  unfold State.modCtx
  simp

@[simp] theorem State.focus_mem (s : State) (x1 : Nat) : (State.focus s x1).mem = s.mem := by
  unfold State.focus
  split <;> simp

@[simp] theorem State.mapCtx_mem (s : State) (x1 : Nat → Ctx → Ctx) : (State.mapCtx s x1).mem = s.mem := by
  unfold State.mapCtx
  simp

@[simp] theorem State.mapSaved_mem (s : State) (f : Ctx → Ctx) : (s.mapSaved f).mem = s.mem := rfl

@[simp] theorem State.modCore_mem (s : State) (x1 : Nat) (x2 : Core → Core) :
    (State.modCore s x1 x2).mem = s.mem := by
  unfold State.modCore
  simp

@[simp] theorem State.until_mem (s : State) (x1 : Nat) : (State.until s x1).mem = s.mem := by
  unfold State.until
  simp

@[simp] theorem State.wait_mem (s : State) (x1 : Nat) : (State.wait s x1).mem = s.mem := by
  unfold State.wait
  simp

@[simp] theorem State.freeBit_mem (s : State) : (State.freeBit s).2.mem = s.mem := by
  unfold State.freeBit
  simp

@[simp] theorem State.fill_mem (s : State) (x1 : Option Nat) (x2 : Region) (x3 : Nat) :
    (State.fill s x1 x2 x3).mem = s.mem := by
  unfold State.fill
  dsimp only
  (repeat' split) <;> simp

@[simp] theorem State.emit_mem (s : State) (x1 : Nat) (x2 : List Write) (x3 : Flags) :
    (State.emit s x1 x2 x3).mem = s.mem := by
  unfold State.emit
  simp

@[simp] theorem State.counterOvf_mem (s : State) (x1 : Nat) (x2 : Fin 8) :
    (State.counterOvf s x1 x2).mem = s.mem := by
  unfold State.counterOvf
  dsimp only
  (repeat' split) <;> simp

@[simp] theorem State.countIn_mem (s : State) (x1 : Nat) (x2 : Nat) (x3 : Nat) (x4 : Fin 8) :
    (State.countIn s x1 x2 x3 x4).mem = s.mem := by
  unfold State.countIn
  dsimp only
  (repeat' split) <;> simp

@[simp] theorem State.countUp_mem (s : State) (e : Counted) : (s.countUp e).mem = s.mem := by
  unfold State.countUp
  dsimp only
  split <;> simp

@[simp] theorem State.countFlush_mem (s : State) : s.countFlush.mem = s.mem := by
  unfold State.countFlush
  split <;> simp

@[simp] theorem State.countEv_mem (s : State) (x1 : Nat) (x2 : Nat) (x3 : Nat) :
    (State.countEv s x1 x2 x3).mem = s.mem := by
  unfold State.countEv
  split <;> simp

@[simp] theorem State.entryCycles_mem (s : State) : (State.entryCycles s).mem = s.mem := by
  unfold State.entryCycles
  simp

@[simp] theorem State.enter_mem (s : State) (x1 : BitVec 8) (x2 : Word) (x3 : VAddr) (x4 : Bool) (x5 :
    Option (Nat × Held × Split)) : (State.enter s x1 x2 x3 x4 x5).mem = s.mem := by
  unfold State.enter
  dsimp only
  (repeat' split) <;> simp

@[simp] theorem State.issueTrap_mem (s : State) (x1 : VAddr) (x2 : BitVec 8) (x3 : Word) :
    (State.issueTrap s x1 x2 x3).mem = s.mem := by
  unfold State.issueTrap
  simp

@[simp] theorem State.slotFault_mem (s : State) (x1 : BitVec 8) (x2 : Word) :
    (State.slotFault s x1 x2).mem = s.mem := by
  unfold State.slotFault
  simp

@[simp] theorem State.takeIrq_mem (s : State) : (State.takeIrq s).mem = s.mem := by
  unfold State.takeIrq
  split <;> simp

@[simp] theorem State.modQueue_mem (s : State) (x1 : Fin 64) (x2 : Queue → Queue) :
    (State.modQueue s x1 x2).mem = s.mem := by
  unfold State.modQueue
  simp

@[simp] theorem State.modBarrier_mem (s : State) (x1 : Nat) (x2 : Barrier → Barrier) :
    (State.modBarrier s x1 x2).mem = s.mem := by
  unfold State.modBarrier
  simp

@[simp] theorem State.modTrace_mem (s : State) (x1 : Nat) (x2 : DieTrace → DieTrace) :
    (State.modTrace s x1 x2).mem = s.mem := by
  unfold State.modTrace
  simp

@[simp] theorem State.modRing_mem (s : State) (x1 : Nat) (x2 : Bool) (x3 : Ring → Ring) :
    (State.modRing s x1 x2 x3).mem = s.mem := by
  unfold State.modRing
  simp

@[simp] theorem State.setReg_mem (s : State) (x1 : Nat) (x2 : Word) (x3 : Word) :
    (State.setReg s x1 x2 x3).mem = s.mem := by
  unfold State.setReg
  dsimp only
  repeat' apply ite_mem
  all_goals first
    | rfl
    | exact State.modQueue_mem _ _ _
    | exact State.modCtx_mem _ _ _
    | exact State.modBarrier_mem _ _ _
    | exact State.modRing_mem _ _ _ _
    | exact State.modCore_mem _ _ _
    | (split <;> rfl)

@[simp] theorem State.pctlStore_mem (s : State) (x1 : Nat) (x2 : List Byte) (x3 : Option Nat)
    (x4 : Option (Nat × Nat)) : (State.pctlStore s x1 x2 x3 x4).mem = s.mem := by
  unfold State.pctlStore
  simp

@[simp] theorem State.seeByte_mem (s : State) (x1 : Nat) (x2 : Byte) : (State.seeByte s x1 x2).2.mem = s.mem := by
  unfold State.seeByte
  split <;> simp

@[simp] theorem State.slotByte_mem (s : State) (x1 : Nat) : (State.slotByte s x1).2.mem = s.mem := by
  unfold State.slotByte
  split
  · rfl
  · split
    · split
      · rfl
      · exact State.seeByte_mem _ _ _
    · rfl
  · split
    · rfl
    · exact State.seeByte_mem _ _ _

@[simp] theorem State.slotBytes_mem (s : State) (x1 : Nat) (x2 : Nat) : (State.slotBytes s x1 x2).2.mem = s.mem := by
  induction x2 generalizing s x1 with
  | zero => rfl
  | succ n ih => simp [State.slotBytes, ih]

@[simp] theorem State.scratchMem_mem (s : State) (x1 : Memory) (x2 : Bool) (x3 : Nat) :
    (State.scratchMem s x1 x2 x3).2.mem = s.mem := by
  unfold State.scratchMem
  dsimp only
  (repeat' split) <;> simp

@[simp] theorem State.scratchByte_mem (s : State) (x1 : Memory) (x2 : List PStore) (x3 : Bool) (x4 : Nat) :
    (State.scratchByte s x1 x2 x3 x4).2.mem = s.mem := by
  unfold State.scratchByte
  dsimp only
  (repeat' split) <;> simp

@[simp] theorem State.scratchBytes_mem (s : State) (x1 : Memory) (x2 : List PStore) (x3 : Bool) (x4 : Nat) (n : Nat) :
    (State.scratchBytes s x1 x2 x3 x4 n).2.mem = s.mem := by
  induction n generalizing s x4 with
  | zero => rfl
  | succ n ih => simp [State.scratchBytes, ih]

@[simp] theorem State.dieWrap_mem (s : State) (x1 : Nat) : (State.dieWrap s x1).mem = s.mem := by
  unfold State.dieWrap
  dsimp only
  (repeat' split) <;> simp

@[simp] theorem State.countOne_mem (s : State) (x1 : Nat) (x2 : Nat) (x3 : Option Region) (x4 : Nat) :
    (State.countOne s x1 x2 x3 x4).mem = s.mem := by
  unfold State.countOne
  dsimp only
  (repeat' split) <;> simp

@[simp] theorem State.cacheOne_mem (s : State) (x1 : Option Region) (x2 : Nat) :
    (State.cacheOne s x1 x2).mem = s.mem := by
  unfold State.cacheOne
  dsimp only
  split <;> simp

@[simp] theorem State.cacheDies_mem (s : State) (x1 : Option Region) : (State.cacheDies s x1).mem = s.mem := by
  unfold State.cacheDies
  simp

@[simp] theorem State.rolled_mem (s : State) : (State.rolled s).mem = s.mem := by
  unfold State.rolled
  dsimp only
  split
  · rfl
  · simp

@[simp] theorem State.charge_mem (s : State) (x1 : Region) (x2 : Nat) (x3 : Nat) :
    (State.charge s x1 x2 x3).mem = s.mem := by
  unfold State.charge
  split <;> simp

@[simp] theorem State.chargeLines_mem (s : State) (x1 : Region) (x2 : List Nat) :
    (State.chargeLines s x1 x2).mem = s.mem := by
  unfold State.chargeLines
  split <;> simp

@[simp] theorem State.chargeReads_mem (s : State) (x1 : Region) (x2 : List Nat) :
    (State.chargeReads s x1 x2).mem = s.mem := by
  unfold State.chargeReads
  dsimp only
  split <;> simp

@[simp] theorem State.chargeIssue_mem (s : State) (f : Fetched) (x1 : List (Nat × Instr)) :
    (State.chargeIssue s f x1).mem = s.mem := by
  unfold State.chargeIssue
  split <;> simp

@[simp] theorem State.chargeErr_mem (s : State) (x off : Nat) : (s.chargeErr x off).mem = s.mem :=
  s.chargeReads_mem _ _

@[simp] theorem State.raisePub_mem (s : State) (x1 : Pub) (x2 : Stale → Bool) :
    (State.raisePub s x1 x2).mem = s.mem := by
  unfold State.raisePub
  simp

@[simp] theorem State.refresh_mem (s : State) (x1 : Nat) (x2 : BitVec 2) : (State.refresh s x1 x2).mem = s.mem := by
  unfold State.refresh
  simp

@[simp] theorem State.caughtUp_mem (s : State) (x1 : Nat) (x2 : Nat) (x3 : Nat) :
    (State.caughtUp s x1 x2 x3).mem = s.mem := by
  unfold State.caughtUp
  simp

@[simp] theorem State.release_mem (s : State) (r : Rel) : (s.release r).mem = s.mem := rfl

@[simp] theorem State.pubBytes_mem (s : State) (x1 x2 x3 x4 : Nat) (x5 : Pub) :
    (State.pubBytes s x1 x2 x3 x4 x5).mem = s.mem := by
  unfold State.pubBytes
  simp

@[simp] theorem State.windowStore_mem (s : State) (n off : Nat) (b : List Byte) (w k : Option (Nat × Nat)) :
    (s.windowStore n off b w k).mem = s.mem := by
  unfold State.windowStore
  split <;> simp

@[simp] theorem State.slotStore_mem (s : State) (x1 : Nat) (x2 : List Byte) :
    (State.slotStore s x1 x2).mem = s.mem := by
  unfold State.slotStore
  dsimp only
  split
  · exact State.pctlStore_mem ..
  · split
    · rfl
    · exact State.windowStore_mem ..
  · rfl

@[simp] theorem State.modHead_mem (s : State) (x1 : Nat) (x2 : Cmd → Cmd) : (State.modHead s x1 x2).mem = s.mem := by
  unfold State.modHead
  simp

@[simp] theorem State.fillSpan_mem (s : State) (x1 : Option Nat) (x2 : Region) (x3 : Nat) (x4 : Nat) :
    (State.fillSpan s x1 x2 x3 x4).mem = s.mem := by
  unfold State.fillSpan
  simp

@[simp] theorem State.tableRead_mem (s : State) (x1 : Nat) : (State.tableRead s x1).2.mem = s.mem := by
  unfold State.tableRead
  simp

@[simp] theorem State.advLoop_mem (s : State) (x1 : Gen) (x2 : List (Fin 4)) (x3 : Int) (x4 : Int) (x5 :
    Vector (BitVec 32) 4) : (State.advLoop s x1 x2 x3 x4 x5).2.mem = s.mem := by
  induction x2 generalizing s x3 x4 x5 with
  | nil => rfl
  | cons d ds ih =>
    simp only [State.advLoop]
    split
    · split
      · split <;> simp [ih]
      · rfl
    · split <;> simp [ih]

@[simp] theorem State.advance_mem (s : State) (x1 : Gen) (x2 : Word) : (State.advance s x1 x2).2.mem = s.mem := by
  unfold State.advance
  split
  · rfl
  · have h := State.advLoop_mem s x1 ((List.finRange 4).take (x1.ndim + 1)) 0 0 x1.ctr
    split
    · rename_i h1
      rw [h1] at h
      exact h
    · rename_i h1
      rw [h1] at h
      exact h

@[simp] theorem State.guarded_mem (s : State) (x1 : Guard) (x2 : State → State) (h_x2 : ∀ t, (x2 t).mem = t.mem) :
    Out.SameMem s (State.guarded s x1 x2) := by
  unfold State.guarded
  split <;> simp [h_x2]

@[simp] theorem State.when_mem (s : State) (x1 : Bool) (x2 : State → State) (h_x2 : ∀ t, (x2 t).mem = t.mem) :
    Out.SameMem s (State.when s x1 x2) := by
  unfold State.when
  split <;> simp [h_x2]

@[simp] theorem State.msi_mem (s : State) (x1 : Nat) (x2 : Nat) : (State.msi s x1 x2).mem = s.mem := by
  unfold State.msi
  simp

@[simp] theorem State.msiAll_mem (s : State) (x1 : Nat) : (State.msiAll s x1).mem = s.mem := by
  unfold State.msiAll
  simp

@[simp] theorem State.countDie_mem (s : State) (x1 : Nat) (x2 : Nat) (x3 : Nat) (x4 : Option Region) :
    (State.countDie s x1 x2 x3 x4).mem = s.mem := by
  unfold State.countDie
  split <;> simp

@[simp] theorem State.countHome_mem (s : State) (x1 : Agent) (x2 : Nat) (x3 : Option Region) :
    (State.countHome s x1 x2 x3).mem = s.mem := by
  unfold State.countHome
  split <;> simp

@[simp] theorem State.countL2_mem (s : State) (x1 : Agent) (x2 : Nat) (x3 : Option Region) (x4 : Nat) :
    (State.countL2 s x1 x2 x3 x4).mem = s.mem := by
  unfold State.countL2
  split <;> simp

@[simp] theorem State.countFab_mem (s : State) (x1 : Option (Fin 16)) (x2 : Nat) :
    (State.countFab s x1 x2).mem = s.mem := by
  unfold State.countFab
  simp

@[simp] theorem State.fabError_mem (s : State) (x1 : Option (Fin 16)) (x2 : FabErr) :
    (State.fabError s x1 x2).mem = s.mem := by
  unfold State.fabError
  split <;> simp

theorem State.emitPkt_mem (s : State) (x1 : Packet) : ∀ t, (State.emitPkt s x1) = .ok t → t.mem = s.mem := by
  unfold State.emitPkt
  dsimp only
  (repeat' split) <;> simp

@[simp] theorem State.sendControl_mem (s : State) (x1 : Packet) : (State.sendControl s x1).mem = s.mem := by
  unfold State.sendControl
  dsimp only
  split
  · rename_i h
    exact State.emitPkt_mem _ _ _ h
  · simp

@[simp] theorem State.answer_mem (s : State) (x1 : Packet) (x2 : BitVec 4) (x3 : BitVec 48) (x4 : BitVec 64) :
    (State.answer s x1 x2 x3 x4).mem = s.mem := by
  unfold State.answer
  simp

@[simp] theorem State.ackPkt_mem (s : State) (x1 : Packet) : (State.ackPkt s x1).mem = s.mem := by
  unfold State.ackPkt
  simp

@[simp] theorem State.refuse_mem (s : State) (x1 : Option (Fin 16)) (x2 : Packet) (x3 : Nat) (x4 : BitVec 48) :
    (State.refuse s x1 x2 x3 x4).mem = s.mem := by
  unfold State.refuse
  simp

@[simp] theorem State.dropPkt_mem (s : State) (x1 : Option (Fin 16)) (x2 : Packet) (x3 : BitVec 8) :
    (State.dropPkt s x1 x2 x3).mem = s.mem := by
  unfold State.dropPkt
  split <;> simp

@[simp] theorem State.dropBuilt_mem (s : State) (x1 : Option (Fin 16)) (x2 : Packet) (x3 : BitVec 8) :
    (State.dropBuilt s x1 x2 x3).mem = s.mem := by
  unfold State.dropBuilt
  split <;> simp

@[simp] theorem State.sendPkt_mem (s : State) (x1 : Packet) : (State.sendPkt s x1).mem = s.mem := by
  unfold State.sendPkt
  split
  · rename_i h
    exact State.emitPkt_mem _ _ _ h
  · simp

@[simp] theorem State.took_mem (s : State) : (State.took s).mem = s.mem := by
  unfold State.took
  simp

@[simp] theorem State.rxSet_mem (s : State) (x1 : BitVec 16) (x2 : BitVec 6) (x3 : BitVec 32) :
    (State.rxSet s x1 x2 x3).mem = s.mem := by
  unfold State.rxSet
  simp

@[simp] theorem State.cacheCore_mem (s : State) : (State.cacheCore s).mem = s.mem := by
  unfold State.cacheCore
  apply foldl_mem
  intro t n
  dsimp only
  split <;> simp

@[simp] theorem State.holdClocks_mem (s : State) (x1 : Nat) (x2 : Bool) : (State.holdClocks s x1 x2).mem = s.mem := by
  unfold State.holdClocks
  split <;> simp

@[simp] theorem State.evWrite_mem (s : State) (x1 : Nat) (x2 : Word) : (State.evWrite s x1 x2).mem = s.mem := by
  unfold State.evWrite
  dsimp only
  (repeat' split) <;> simp

@[simp] theorem State.landCounters_mem (s : State) (x1 : Landing) : (State.landCounters s x1).mem = s.mem := by
  unfold State.landCounters
  apply foldl_mem
  intro t w
  (repeat' split) <;> simp

@[simp] theorem State.landAt_mem (s : State) (sc : Nat) : (s.landAt sc).mem = s.mem := by
  unfold State.landAt
  simp

@[simp] theorem State.landNow_mem (s : State) : (State.landNow s).mem = s.mem := s.landAt_mem _

@[simp] theorem State.landRest_mem (s : State) : s.landRest.mem = s.mem := by
  unfold State.landRest
  split <;> rfl

@[simp] theorem State.reach_mem (s : State) (x : Nat) : (s.reach x).mem = s.mem := by
  unfold State.reach
  dsimp only
  split <;> simp

@[simp] theorem State.landEvery_mem (s : State) : (State.landEvery s).mem = s.mem := by
  unfold State.landEvery
  simp

@[simp] theorem State.settle_mem (s : State) : (State.settle s).mem = s.mem := by
  unfold State.settle
  simp

@[simp] theorem State.debugStop_mem (s : State) : (State.debugStop s).mem = s.mem := by
  unfold State.debugStop
  simp

theorem State.notice_mem (s : State) (x1 : Wait) : ∀ t, (State.notice s x1) = some t → t.mem = s.mem := by
  unfold State.notice
  dsimp only
  split
  · intro t h
    cases h
    simp
  · simp

@[simp] theorem State.interrupt_mem (s : State) : (State.interrupt s).mem = s.mem := by
  unfold State.interrupt
  dsimp only
  (repeat' split) <;> simp

@[simp] theorem State.waitClocks_mem (s : State) (x1 : BitVec 8) (x2 : Nat) : (s.waitClocks x1 x2).mem = s.mem := by
  unfold State.waitClocks
  dsimp only
  (repeat' split) <;> simp

@[simp] theorem State.stallClock_mem (s : State) (x1 : Wait) : (State.stallClock s x1).mem = s.mem := by
  unfold State.stallClock
  simp

@[simp] theorem State.catchUp_mem (s : State) (x1 : Nat) : (s.catchUp x1).mem = s.mem := by
  unfold State.catchUp
  dsimp only
  (repeat' split) <;> simp

@[simp] theorem State.afterBundle_mem (s : State) : (State.afterBundle s).mem = s.mem := by
  unfold State.afterBundle
  simp

@[simp] theorem State.passCycles_mem (s : State) (x1 : Nat) : (State.passCycles s x1).mem = s.mem := by
  unfold State.passCycles
  simp

@[simp] theorem State.switchTo_mem (s : State) (x1 : Nat) : (State.switchTo s x1).mem = s.mem := by
  unfold State.switchTo
  simp

@[simp] theorem State.returnFrom_mem (s : State) : (State.returnFrom s).mem = s.mem := by
  unfold State.returnFrom
  simp

@[simp] theorem State.emitS_mem (s : State) (x1 : Nat) (x2 : SReg) (x3 : Word) (x4 : Flags) :
    (State.emitS s x1 x2 x3 x4).mem = s.mem := by
  unfold State.emitS
  simp

@[simp] theorem State.emitP_mem (s : State) (x1 : PReg) (x2 : Bool) : (State.emitP s x1 x2).mem = s.mem := by
  unfold State.emitP
  simp

@[simp] theorem State.int2_mem (s : State) (x1 : Nat) (x2 : SReg) (x3 : SReg) (x4 : SReg) (x5 : Guard) (x6 :
    Word → Word → Word) : Out.SameMem s (State.int2 s x1 x2 x3 x4 x5 x6) := by
  unfold State.int2
  simp

@[simp] theorem State.int1_mem (s : State) (x1 : Nat) (x2 : SReg) (x3 : Word) :
    Out.SameMem s (State.int1 s x1 x2 x3) := by
  unfold State.int1
  simp

@[simp] theorem State.setP_mem (s : State) (x1 : PReg) (x2 : Guard) (x3 : State → Bool) :
    Out.SameMem s (State.setP s x1 x2 x3) := by
  unfold State.setP
  simp

@[simp] theorem State.fp_mem (s : State) (x1 : SReg) (x2 : Guard) (x3 : State → Word × Flags) :
    Out.SameMem s (State.fp s x1 x2 x3) := by
  unfold State.fp
  simp

theorem execAdd_mem (x0 : SReg) (x1 : SReg) (x2 : SReg) (x3 : Guard) (s : State) :
    Out.SameMem s (execAdd x0 x1 x2 x3 s) := by
  unfold execAdd
  simp

theorem execSub_mem (x0 : SReg) (x1 : SReg) (x2 : SReg) (x3 : Guard) (s : State) :
    Out.SameMem s (execSub x0 x1 x2 x3 s) := by
  unfold execSub
  simp

theorem execMul_mem (x0 : SReg) (x1 : SReg) (x2 : SReg) (x3 : Guard) (s : State) :
    Out.SameMem s (execMul x0 x1 x2 x3 s) := by
  unfold execMul
  simp

theorem execMulh_mem (x0 : SReg) (x1 : SReg) (x2 : SReg) (x3 : Guard) (s : State) :
    Out.SameMem s (execMulh x0 x1 x2 x3 s) := by
  unfold execMulh
  simp

theorem execMulhn_mem (x0 : SReg) (x1 : SReg) (x2 : SReg) (x3 : Guard) (s : State) :
    Out.SameMem s (execMulhn x0 x1 x2 x3 s) := by
  unfold execMulhn
  simp

theorem execDiv_mem (x0 : SReg) (x1 : SReg) (x2 : SReg) (x3 : Guard) (s : State) :
    Out.SameMem s (execDiv x0 x1 x2 x3 s) := by
  unfold execDiv
  simp

theorem execDivn_mem (x0 : SReg) (x1 : SReg) (x2 : SReg) (x3 : Guard) (s : State) :
    Out.SameMem s (execDivn x0 x1 x2 x3 s) := by
  unfold execDivn
  simp

theorem execRem_mem (x0 : SReg) (x1 : SReg) (x2 : SReg) (x3 : Guard) (s : State) :
    Out.SameMem s (execRem x0 x1 x2 x3 s) := by
  unfold execRem
  simp

theorem execRemn_mem (x0 : SReg) (x1 : SReg) (x2 : SReg) (x3 : Guard) (s : State) :
    Out.SameMem s (execRemn x0 x1 x2 x3 s) := by
  unfold execRemn
  simp

theorem execAnd_mem (x0 : SReg) (x1 : SReg) (x2 : SReg) (x3 : Guard) (s : State) :
    Out.SameMem s (execAnd x0 x1 x2 x3 s) := by
  unfold execAnd
  simp

theorem execOr_mem (x0 : SReg) (x1 : SReg) (x2 : SReg) (x3 : Guard) (s : State) :
    Out.SameMem s (execOr x0 x1 x2 x3 s) := by
  unfold execOr
  simp

theorem execXor_mem (x0 : SReg) (x1 : SReg) (x2 : SReg) (x3 : Guard) (s : State) :
    Out.SameMem s (execXor x0 x1 x2 x3 s) := by
  unfold execXor
  simp

theorem execShl_mem (x0 : SReg) (x1 : SReg) (x2 : SReg) (x3 : Guard) (s : State) :
    Out.SameMem s (execShl x0 x1 x2 x3 s) := by
  unfold execShl
  simp

theorem execShr_mem (x0 : SReg) (x1 : SReg) (x2 : SReg) (x3 : Guard) (s : State) :
    Out.SameMem s (execShr x0 x1 x2 x3 s) := by
  unfold execShr
  simp

theorem execSra_mem (x0 : SReg) (x1 : SReg) (x2 : SReg) (x3 : Guard) (s : State) :
    Out.SameMem s (execSra x0 x1 x2 x3 s) := by
  unfold execSra
  simp

theorem execMin_mem (x0 : SReg) (x1 : SReg) (x2 : SReg) (x3 : Guard) (s : State) :
    Out.SameMem s (execMin x0 x1 x2 x3 s) := by
  unfold execMin
  simp

theorem execMax_mem (x0 : SReg) (x1 : SReg) (x2 : SReg) (x3 : Guard) (s : State) :
    Out.SameMem s (execMax x0 x1 x2 x3 s) := by
  unfold execMax
  simp

theorem execMinn_mem (x0 : SReg) (x1 : SReg) (x2 : SReg) (x3 : Guard) (s : State) :
    Out.SameMem s (execMinn x0 x1 x2 x3 s) := by
  unfold execMinn
  simp

theorem execMaxn_mem (x0 : SReg) (x1 : SReg) (x2 : SReg) (x3 : Guard) (s : State) :
    Out.SameMem s (execMaxn x0 x1 x2 x3 s) := by
  unfold execMaxn
  simp

theorem execClz_mem (x0 : SReg) (x1 : SReg) (x2 : Guard) (s : State) : Out.SameMem s (execClz x0 x1 x2 s) := by
  unfold execClz
  simp

theorem execPopc_mem (x0 : SReg) (x1 : SReg) (x2 : Guard) (s : State) : Out.SameMem s (execPopc x0 x1 x2 s) := by
  unfold execPopc
  simp

theorem execSel_mem (x0 : SReg) (x1 : SReg) (x2 : SReg) (x3 : Guard) (s : State) :
    Out.SameMem s (execSel x0 x1 x2 x3 s) := by
  unfold execSel
  simp

theorem execAddi_mem (x0 : SReg) (x1 : SReg) (x2 : BitVec 13) (s : State) : Out.SameMem s (execAddi x0 x1 x2 s) := by
  unfold execAddi
  simp

theorem execAndi_mem (x0 : SReg) (x1 : SReg) (x2 : BitVec 13) (s : State) : Out.SameMem s (execAndi x0 x1 x2 s) := by
  unfold execAndi
  simp

theorem execOri_mem (x0 : SReg) (x1 : SReg) (x2 : BitVec 13) (s : State) : Out.SameMem s (execOri x0 x1 x2 s) := by
  unfold execOri
  simp

theorem execXori_mem (x0 : SReg) (x1 : SReg) (x2 : BitVec 13) (s : State) : Out.SameMem s (execXori x0 x1 x2 s) := by
  unfold execXori
  simp

theorem execShli_mem (x0 : SReg) (x1 : SReg) (x2 : BitVec 6) (s : State) : Out.SameMem s (execShli x0 x1 x2 s) := by
  unfold execShli
  simp

theorem execShri_mem (x0 : SReg) (x1 : SReg) (x2 : BitVec 6) (s : State) : Out.SameMem s (execShri x0 x1 x2 s) := by
  unfold execShri
  simp

theorem execSrai_mem (x0 : SReg) (x1 : SReg) (x2 : BitVec 6) (s : State) : Out.SameMem s (execSrai x0 x1 x2 s) := by
  unfold execSrai
  simp

theorem execMuli_mem (x0 : SReg) (x1 : SReg) (x2 : BitVec 13) (s : State) : Out.SameMem s (execMuli x0 x1 x2 s) := by
  unfold execMuli
  simp

theorem execMovi_mem (x0 : SReg) (x1 : BitVec 19) (s : State) : Out.SameMem s (execMovi x0 x1 s) := by
  unfold execMovi
  simp

theorem execMovk_mem (x0 : SReg) (x1 : BitVec 2) (x2 : BitVec 16) (s : State) :
    Out.SameMem s (execMovk x0 x1 x2 s) := by
  unfold execMovk
  simp

theorem execCmpeq_mem (x0 : PReg) (x1 : SReg) (x2 : SReg) (x3 : Guard) (x4 : Bool) (s : State) :
    Out.SameMem s (execCmpeq x0 x1 x2 x3 x4 s) := by
  unfold execCmpeq
  simp

theorem execCmplt_mem (x0 : PReg) (x1 : SReg) (x2 : SReg) (x3 : Guard) (x4 : Bool) (s : State) :
    Out.SameMem s (execCmplt x0 x1 x2 x3 x4 s) := by
  unfold execCmplt
  simp

theorem execCmpltn_mem (x0 : PReg) (x1 : SReg) (x2 : SReg) (x3 : Guard) (x4 : Bool) (s : State) :
    Out.SameMem s (execCmpltn x0 x1 x2 x3 x4 s) := by
  unfold execCmpltn
  simp

theorem execPand_mem (x0 : PReg) (x1 : PReg) (x2 : PReg) (x3 : Guard) (x4 : Bool) (x5 : Bool) (s : State) :
    Out.SameMem s (execPand x0 x1 x2 x3 x4 x5 s) := by
  unfold execPand
  simp

theorem execPor_mem (x0 : PReg) (x1 : PReg) (x2 : PReg) (x3 : Guard) (x4 : Bool) (x5 : Bool) (s : State) :
    Out.SameMem s (execPor x0 x1 x2 x3 x4 x5 s) := by
  unfold execPor
  simp

theorem execPxor_mem (x0 : PReg) (x1 : PReg) (x2 : PReg) (x3 : Guard) (x4 : Bool) (x5 : Bool) (s : State) :
    Out.SameMem s (execPxor x0 x1 x2 x3 x4 x5 s) := by
  unfold execPxor
  simp

theorem execPmov_mem (x0 : PReg) (x1 : PReg) (x2 : Guard) (x3 : Bool) (s : State) :
    Out.SameMem s (execPmov x0 x1 x2 x3 s) := by
  unfold execPmov
  simp

theorem execFadd_mem (x0 : SReg) (x1 : SReg) (x2 : SReg) (x3 : Guard) (x4 : Rm) (s : State) :
    Out.SameMem s (execFadd x0 x1 x2 x3 x4 s) := by
  unfold execFadd
  simp

theorem execFsub_mem (x0 : SReg) (x1 : SReg) (x2 : SReg) (x3 : Guard) (x4 : Rm) (s : State) :
    Out.SameMem s (execFsub x0 x1 x2 x3 x4 s) := by
  unfold execFsub
  simp

theorem execFmul_mem (x0 : SReg) (x1 : SReg) (x2 : SReg) (x3 : Guard) (x4 : Rm) (s : State) :
    Out.SameMem s (execFmul x0 x1 x2 x3 x4 s) := by
  unfold execFmul
  simp

theorem execFfma_mem (x0 : SReg) (x1 : SReg) (x2 : SReg) (x3 : Guard) (x4 : Rm) (s : State) :
    Out.SameMem s (execFfma x0 x1 x2 x3 x4 s) := by
  unfold execFfma
  simp

theorem execFmin_mem (x0 : SReg) (x1 : SReg) (x2 : SReg) (x3 : Guard) (s : State) :
    Out.SameMem s (execFmin x0 x1 x2 x3 s) := by
  unfold execFmin
  simp

theorem execFmax_mem (x0 : SReg) (x1 : SReg) (x2 : SReg) (x3 : Guard) (s : State) :
    Out.SameMem s (execFmax x0 x1 x2 x3 s) := by
  unfold execFmax
  simp

theorem execFcmp_mem (x0 : SReg) (x1 : SReg) (x2 : SReg) (x3 : Guard) (x4 : FRel) (s : State) :
    Out.SameMem s (execFcmp x0 x1 x2 x3 x4 s) := by
  unfold execFcmp
  simp

theorem execFcvti_mem (x0 : SReg) (x1 : SReg) (x2 : Guard) (x3 : Rm) (s : State) :
    Out.SameMem s (execFcvti x0 x1 x2 x3 s) := by
  unfold execFcvti
  simp

theorem execFcvtf_mem (x0 : SReg) (x1 : SReg) (x2 : Guard) (x3 : Rm) (s : State) :
    Out.SameMem s (execFcvtf x0 x1 x2 x3 s) := by
  unfold execFcvtf
  simp

theorem execFcvtb_mem (x0 : SReg) (x1 : SReg) (x2 : Guard) (x3 : Rm) (s : State) :
    Out.SameMem s (execFcvtb x0 x1 x2 x3 s) := by
  unfold execFcvtb
  simp

theorem execMovli_mem (x0 : SReg) (x1 : BitVec 6) (x2 : Guard) (s : State) :
    Out.SameMem s (execMovli x0 x1 x2 s) := by
  unfold execMovli
  exact State.guarded_mem _ _ _ fun t => by
    split <;> simp

theorem execDchk_mem (x0 : SReg) (x1 : SReg) (x2 : Guard) (s : State) : Out.SameMem s (execDchk x0 x1 x2 s) := by
  unfold execDchk
  exact State.guarded_mem _ _ _ fun t => by
    split <;> simp

theorem execAmov_mem (x0 : AReg) (x1 : AReg) (x2 : Guard) (s : State) : Out.SameMem s (execAmov x0 x1 x2 s) := by
  unfold execAmov
  simp

theorem execAadd_mem (x0 : AReg) (x1 : AReg) (x2 : SReg) (x3 : Guard) (s : State) :
    Out.SameMem s (execAadd x0 x1 x2 x3 s) := by
  unfold execAadd
  simp

theorem execAaddi_mem (x0 : AReg) (x1 : BitVec 22) (s : State) : Out.SameMem s (execAaddi x0 x1 s) := by
  unfold execAaddi
  simp

@[simp] theorem State.emitAdv_mem (s : State) (x1 : Nat) (x2 : List Write) : (State.emitAdv s x1 x2).mem = s.mem := rfl

@[simp] theorem State.postInc_mem (s : State) (x1 : AReg) (x2 : AReg) (x3 : State → State) (h_x3 :
    ∀ t, (x3 t).mem = t.mem) : (State.postInc s x1 x2 x3).mem = s.mem := by
  unfold State.postInc
  simp only []
  (repeat' split) <;> simp_all

theorem execAinc_mem (x0 : AReg) (x1 : AReg) (x2 : Guard) (s : State) : Out.SameMem s (execAinc x0 x1 x2 s) := by
  unfold execAinc
  simp

theorem execAgset_mem (x0 : AReg) (x1 : SReg) (x2 : BitVec 7) (x3 : Guard) (s : State) :
    Out.SameMem s (execAgset x0 x1 x2 x3 s) := by
  unfold execAgset
  simp

theorem execAgrd_mem (x0 : SReg) (x1 : AReg) (x2 : BitVec 7) (x3 : Guard) (s : State) :
    Out.SameMem s (execAgrd x0 x1 x2 x3 s) := by
  unfold execAgrd
  simp

theorem execAidx_mem (x0 : AReg) (x1 : AReg) (x2 : SReg) (x3 : Guard) (s : State) :
    Out.SameMem s (execAidx x0 x1 x2 x3 s) := by
  unfold execAidx
  exact State.guarded_mem _ _ _ fun t => by
    dsimp only
    (repeat' split) <;> simp

theorem execArd_mem (x0 : SReg) (x1 : AReg) (x2 : Guard) (s : State) : Out.SameMem s (execArd x0 x1 x2 s) := by
  unfold execArd
  simp

@[simp] theorem State.amemGo_mem (s : State) (x1 : AMem) (x2 : State → State) (h_x2 : ∀ t, (x2 t).mem = t.mem) :
    (State.amemGo s x1 x2).mem = s.mem := by
  unfold State.amemGo
  split <;> simp [h_x2]

theorem execLd_mem (x0 : SReg) (x1 : AMem) (x2 : Bool) (s : State) : Out.SameMem s (execLd x0 x1 x2 s) := by
  unfold execLd
  exact State.guarded_mem _ _ _ fun t => by
    dsimp only
    split
    · simp
    · apply State.amemGo_mem
      intro u
      split <;> simp

theorem execPref_mem (x0 : AMem) (s : State) : Out.SameMem s (execPref x0 s) := by
  unfold execPref
  exact State.guarded_mem _ _ _ fun t => by
    split
    · simp
    · apply State.amemGo_mem
      intro u
      split <;> simp

@[simp] theorem State.goto_mem (s : State) (x1 : VAddr) : (State.goto s x1).mem = s.mem := by
  unfold State.goto
  simp

@[simp] theorem State.gotoReg_mem (s : State) (x1 : VAddr) : (State.gotoReg s x1).mem = s.mem := by
  unfold State.gotoReg
  split <;> simp

theorem execBr_mem (x0 : Guard) (x1 : BitVec 21) (s : State) : Out.SameMem s (execBr x0 x1 s) := by
  unfold execBr
  simp

theorem execCall_mem (x0 : BitVec 21) (s : State) : Out.SameMem s (execCall x0 s) := by
  unfold execCall
  simp

theorem execBri_mem (x0 : SReg) (s : State) : Out.SameMem s (execBri x0 s) := by
  unfold execBri
  simp

theorem execRet_mem (s : State) : Out.SameMem s (execRet s) := by
  unfold execRet
  simp

@[simp] theorem State.loopTo_mem (s : State) (x1 : BitVec 32) (x2 : BitVec 13) :
    (State.loopTo s x1 x2).mem = s.mem := by
  unfold State.loopTo
  dsimp only
  (repeat' split) <;> simp

theorem execLoopImm_mem (x0 : BitVec 12) (x1 : BitVec 13) (s : State) : Out.SameMem s (execLoopImm x0 x1 s) := by
  unfold execLoopImm
  simp

theorem execLoopReg_mem (x0 : SReg) (x1 : BitVec 13) (s : State) : Out.SameMem s (execLoopReg x0 x1 s) := by
  unfold execLoopReg
  simp

theorem execLoopx_mem (s : State) : Out.SameMem s (execLoopx s) := by
  unfold execLoopx
  dsimp only
  (repeat' split) <;> simp

theorem execLbuf_mem (x0 : BitVec 7) (s : State) : Out.SameMem s (execLbuf x0 s) := by
  unfold execLbuf
  simp

@[simp] theorem State.fifoPut_mem (s : State) (x1 : TraceRec) : (State.fifoPut s x1).mem = s.mem := by
  unfold State.fifoPut
  rfl

theorem execTrace_mem (x0 : SReg) (x1 : BitVec 8) (s : State) : Out.SameMem s (execTrace x0 x1 s) := by
  unfold execTrace
  simp

theorem execYield_mem (s : State) : Out.SameMem s (execYield s) := by
  unfold execYield
  simp

theorem execExit_mem (x0 : BitVec 26) (s : State) : Out.SameMem s (execExit x0 s) := by
  unfold execExit
  simp

theorem execEret_mem (s : State) : Out.SameMem s (execEret s) := by
  unfold execEret
  split <;> simp

@[simp] theorem State.softTrap_mem (s : State) (x1 : BitVec 8) (x2 : Word) :
    (State.softTrap s x1 x2).mem = s.mem := by
  unfold State.softTrap
  split <;> simp

theorem execTrap_mem (x0 : BitVec 26) (s : State) : Out.SameMem s (execTrap x0 s) := by
  unfold execTrap
  simp

theorem execBkpt_mem (x0 : BitVec 26) (s : State) : Out.SameMem s (execBkpt x0 s) := by
  unfold execBkpt
  simp

theorem execRfmode_mem (x0 : BitVec 4) (s : State) : Out.SameMem s (execRfmode x0 s) := by
  unfold execRfmode
  simp

theorem execFmtbase_mem (x0 : BitVec 4) (s : State) : Out.SameMem s (execFmtbase x0 s) := by
  unfold execFmtbase
  simp

theorem execSysrd_mem (x0 : SReg) (x1 : BitVec 12) (s : State) : Out.SameMem s (execSysrd x0 x1 s) := by
  unfold execSysrd
  split <;> simp

theorem execSyswr_mem (x0 : SReg) (x1 : BitVec 12) (s : State) : Out.SameMem s (execSyswr x0 x1 s) := by
  intro t h
  unfold execSyswr at h
  (repeat' split at h) <;> simp at h <;> subst h <;> simp

@[simp] theorem State.addNeed_mem (s : State) (x1 : Agent) (x2 : Nat) (x3 : Bool) (x4 : Asker) (x5 : Option Region) :
    (State.addNeed s x1 x2 x3 x4 x5).mem = s.mem := by
  unfold State.addNeed
  split <;> simp

@[simp] theorem State.dropAsker_mem (s : State) (a : Asker) : (s.dropAsker a).mem = s.mem := by
  unfold State.dropAsker
  dsimp only
  split <;> rfl

@[simp] theorem State.needMet_mem (s : State) (x1 : Agent) (x2 : List Nat) (x3 : Bool) :
    (State.needMet s x1 x2 x3).mem = s.mem := by
  unfold State.needMet
  dsimp only
  split <;> rfl

@[simp] theorem State.needsMet_mem (s : State) (l : List TokNeed) : (s.needsMet l).mem = s.mem := by
  unfold State.needsMet
  simp

@[simp] theorem State.markDirty_mem (s : State) (x1 : Agent) (x2 : List Nat) : (State.markDirty s x1 x2).mem = s.mem := by
  unfold State.markDirty
  split <;> rfl

@[simp] theorem State.withLines_mem (s : State) (x1 : Agent) (x2 : List Nat) (x3 : Bool) (a : Asker) (r : Option Region)
    (x4 : State → State) (h_x4 : ∀ t, (x4 t).mem = t.mem) : (State.withLines s x1 x2 x3 a r x4).mem = s.mem := by
  unfold State.withLines
  split
  · simp
  · dsimp only
    split <;> simp [h_x4]

@[simp] theorem State.homesMet_mem (s : State) (x1 : List Nat) (x2 : Bool) : (State.homesMet s x1 x2).mem = s.mem := by
  unfold State.homesMet
  split <;> simp

@[simp] theorem State.atHomes_mem (s : State) (x1 : List Nat) (x2 : Bool) (a : Asker) (r : Option Region) (x3 : State → State)
    (h_x3 : ∀ t, (x3 t).mem = t.mem) : (State.atHomes s x1 x2 a r x3).mem = s.mem := by
  unfold State.atHomes
  split <;> simp [h_x3]

@[simp] theorem State.tGo_mem (s : State) (x1 : TAccess) (x2 : TMem) (x3 : State → State) (h_x3 :
    ∀ t, (x3 t).mem = t.mem) : (State.tGo s x1 x2 x3).mem = s.mem := by
  unfold State.tGo
  split
  · simp
  · split <;> simp [h_x3]

@[simp] theorem State.readSpan_mem (s : State) (x1 : Nat) (x2 : Nat) : (State.readSpan s x1 x2).2.mem = s.mem := by
  induction x2 generalizing s x1 with
  | zero => rfl
  | succ n ih => simp [State.readSpan, ih]

@[simp] theorem State.loadRows_mem (s : State) (x1 : TAccess) (x2 : Bool) (x3 : List Nat) :
    (State.loadRows s x1 x2 x3).2.mem = s.mem := by
  induction x3 generalizing s with
  | nil => rfl
  | cons a l ih =>
    simp only [State.loadRows, ih]
    split <;> simp

@[simp] theorem State.fillRows_mem (s : State) (x1 : TAccess) : (State.fillRows s x1).mem = s.mem := by
  unfold State.fillRows
  simp

theorem execTld_mem (x0 : TReg) (x1 : TMem) (s : State) : Out.SameMem s (execTld x0 x1 s) := by
  unfold execTld
  simp

theorem execTldl_mem (x0 : TReg) (x1 : TMem) (x2 : Bool) (s : State) : Out.SameMem s (execTldl x0 x1 x2 s) := by
  unfold execTldl
  simp

@[simp] theorem State.keptByte_mem (s : State) (x1 : Nat) : (State.keptByte s x1).2.mem = s.mem := by
  unfold State.keptByte
  split <;> simp

@[simp] theorem State.writeSpan_mem (s : State) (x1 : Nat) (x2 : List Byte) :
    (State.writeSpan s x1 x2).mem = s.mem := by
  simp [State.writeSpan]

theorem execSpill_mem (x0 : XReg) (x1 : BitVec 6) (x2 : Guard) (x3 : Port) (s : State) :
    Out.SameMem s (execSpill x0 x1 x2 x3 s) := by
  unfold execSpill
  exact State.guarded_mem _ _ _ fun t => by
    dsimp only
    (repeat' split) <;> simp

theorem execFill_mem (x0 : XReg) (x1 : BitVec 6) (x2 : Guard) (s : State) : Out.SameMem s (execFill x0 x1 x2 s) := by
  unfold execFill
  exact State.guarded_mem _ _ _ fun t => by
    dsimp only
    (repeat' split) <;> simp

theorem execGlobalLoadComplete_mem (s : State) : Out.SameMem s (execGlobalLoadComplete s) := by
  unfold execGlobalLoadComplete
  dsimp only
  (repeat' split) <;> simp

theorem execTileLoadComplete_mem (s : State) : Out.SameMem s (execTileLoadComplete s) := by
  unfold execTileLoadComplete
  dsimp only
  (repeat' split) <;> simp

theorem execFillComplete_mem (s : State) : Out.SameMem s (execFillComplete s) := by
  unfold execFillComplete
  dsimp only
  (repeat' split) <;> simp

@[simp] theorem State.vChecks_mem (s : State) (x1 : List XReg) (x2 : Option (TReg × ElemTy)) (x3 : Row) (x4 :
    Lat) (x5 : List XReg) (x6 : Lat → State → State) (h_x6 : ∀ l t, (x6 l t).mem = t.mem) :
    (State.vChecks s x1 x2 x3 x4 x5 x6).mem = s.mem := by
  unfold State.vChecks
  split
  · simp
  · split
    · simp
    · split <;> simp [h_x6]

@[simp] theorem State.vTile_mem (s : State) (x1 : Nat) (x2 : TReg) (x3 : ElemTy) (x4 : List TReg) (x5 : Row) (x6 :
    List TReg) (x7 : Mask) (x8 : Fin 16 → Fin 64 → BitVec 32 × Flags) :
    (State.vTile s x1 x2 x3 x4 x5 x6 x7 x8).mem = s.mem := by
  unfold State.vTile
  simp

@[simp] theorem State.vPart_mem (s : State) (x0 : Bool) (x1 : Nat) (x2 : TReg) (x3 : ElemTy) (x4 : List TReg) (x5 : Row)
    (x6 : List TReg) (x7 : Mask) (x8 : Fin 16 → Fin 64 → BitVec 32 × Flags) :
    (State.vPart s x0 x1 x2 x3 x4 x5 x6 x7 x8).mem = s.mem := by
  unfold State.vPart
  split <;> simp

@[simp] theorem State.vFloat_mem (s : State) (x1 : TReg) (x2 : VCtl) (x3 : List TReg) (x4 : List TReg) (x5 :
    Row) (x6 : State → Bool → Fin 16 → Fin 64 → Num × Flags) : Out.SameMem s (State.vFloat s x1 x2 x3 x4 x5 x6) := by
  unfold State.vFloat
  simp

@[simp] theorem State.vFloat2_mem (s : State) (x1 : TReg) (x2 : TSrc) (x3 : TSrc) (x4 : VCtl) (x5 : Row) (x6 :
    Bool → Num → Num → Num × Flags) : Out.SameMem s (State.vFloat2 s x1 x2 x3 x4 x5 x6) := by
  unfold State.vFloat2
  simp

theorem execTadd_mem (x0 : TReg) (x1 : TSrc) (x2 : TSrc) (x3 : VCtl) (s : State) :
    Out.SameMem s (execTadd x0 x1 x2 x3 s) := by
  unfold execTadd
  simp

theorem execTsub_mem (x0 : TReg) (x1 : TSrc) (x2 : TSrc) (x3 : VCtl) (s : State) :
    Out.SameMem s (execTsub x0 x1 x2 x3 s) := by
  unfold execTsub
  simp

theorem execTmul_mem (x0 : TReg) (x1 : TSrc) (x2 : TSrc) (x3 : VCtl) (s : State) :
    Out.SameMem s (execTmul x0 x1 x2 x3 s) := by
  unfold execTmul
  simp

theorem execTmax_mem (x0 : TReg) (x1 : TSrc) (x2 : TSrc) (x3 : VCtl) (s : State) :
    Out.SameMem s (execTmax x0 x1 x2 x3 s) := by
  unfold execTmax
  simp

theorem execTmin_mem (x0 : TReg) (x1 : TSrc) (x2 : TSrc) (x3 : VCtl) (s : State) :
    Out.SameMem s (execTmin x0 x1 x2 x3 s) := by
  unfold execTmin
  simp

theorem execTfma_mem (x0 : TReg) (x1 : TSrc) (x2 : TSrc) (x3 : TSrc) (x4 : VCtl) (s : State) :
    Out.SameMem s (execTfma x0 x1 x2 x3 x4 s) := by
  unfold execTfma
  simp

theorem execTadds_mem (x0 : TReg) (x1 : TSrc) (x2 : SReg) (x3 : VCtl) (s : State) :
    Out.SameMem s (execTadds x0 x1 x2 x3 s) := by
  unfold execTadds
  simp

theorem execTmuls_mem (x0 : TReg) (x1 : TSrc) (x2 : SReg) (x3 : VCtl) (s : State) :
    Out.SameMem s (execTmuls x0 x1 x2 x3 s) := by
  unfold execTmuls
  simp

theorem execTfmas_mem (x0 : TReg) (x1 : TSrc) (x2 : SReg) (x3 : VCtl) (s : State) :
    Out.SameMem s (execTfmas x0 x1 x2 x3 s) := by
  unfold execTfmas
  simp

theorem execTcvt_mem (x0 : TReg) (x1 : TSrc) (x2 : VCtl) (s : State) : Out.SameMem s (execTcvt x0 x1 x2 s) := by
  unfold execTcvt
  simp

theorem execTcmp_mem (x0 : KReg) (x1 : TSrc) (x2 : TSrc) (x3 : BitVec 8) (x4 : VCtl) (s : State) :
    Out.SameMem s (execTcmp x0 x1 x2 x3 x4 s) := by
  unfold execTcmp
  simp

@[simp] theorem State.vMove_mem (s : State) (x1 : Nat) (x2 : TReg) (x3 : TReg) (x4 : VCtl) (x5 : Row) (x6 :
    State → Fin 16 → Fin 64 → Fin 16 × Fin 64) : Out.SameMem s (State.vMove s x1 x2 x3 x4 x5 x6) := by
  unfold State.vMove
  simp

theorem execTmov_mem (x0 : TReg) (x1 : TSrc) (x2 : VCtl) (s : State) : Out.SameMem s (execTmov x0 x1 x2 s) := by
  unfold execTmov
  simp

theorem execTsel_mem (x0 : TReg) (x1 : TSrc) (x2 : TSrc) (x3 : VCtl) (s : State) :
    Out.SameMem s (execTsel x0 x1 x2 x3 s) := by
  unfold execTsel
  simp

theorem execRrot_mem (x0 : TReg) (x1 : TSrc) (x2 : SReg) (x3 : BitVec 8) (x4 : VCtl) (s : State) :
    Out.SameMem s (execRrot x0 x1 x2 x3 x4 s) := by
  unfold execRrot
  simp

theorem execCrot_mem (x0 : TReg) (x1 : TSrc) (x2 : SReg) (x3 : BitVec 8) (x4 : VCtl) (s : State) :
    Out.SameMem s (execCrot x0 x1 x2 x3 x4 s) := by
  unfold execCrot
  simp

theorem execRbc_mem (x0 : TReg) (x1 : TSrc) (x2 : SReg) (x3 : BitVec 8) (x4 : VCtl) (s : State) :
    Out.SameMem s (execRbc x0 x1 x2 x3 x4 s) := by
  unfold execRbc
  simp

theorem execCbc_mem (x0 : TReg) (x1 : TSrc) (x2 : SReg) (x3 : BitVec 8) (x4 : VCtl) (s : State) :
    Out.SameMem s (execCbc x0 x1 x2 x3 x4 s) := by
  unfold execCbc
  simp

theorem execRowmov_mem (x0 : TReg) (x1 : Fin 16) (x2 : TSrc) (x3 : Fin 16) (x4 : BitVec 5) (x5 : PReg) (s : State) :
    Out.SameMem s (execRowmov x0 x1 x2 x3 x4 x5 s) := by
  unfold execRowmov
  simp

@[simp] theorem State.vInt_mem (s : State) (x1 : TReg) (x2 : TSrc) (x3 : TSrc) (x4 : VCtl) (x5 :
    Rec → BitVec 32 → BitVec 32 → BitVec 32) : Out.SameMem s (State.vInt s x1 x2 x3 x4 x5) := by
  unfold State.vInt
  simp

@[simp] theorem State.vInt2_mem (s : State) (x1 : TReg) (x2 : TSrc) (x3 : TSrc) (x4 : VCtl) (x5 : Int → Int → Int) :
    Out.SameMem s (State.vInt2 s x1 x2 x3 x4 x5) := by
  unfold State.vInt2
  simp

theorem execTiadd_mem (x0 : TReg) (x1 : TSrc) (x2 : TSrc) (x3 : VCtl) (s : State) :
    Out.SameMem s (execTiadd x0 x1 x2 x3 s) := by
  unfold execTiadd
  simp

theorem execTisub_mem (x0 : TReg) (x1 : TSrc) (x2 : TSrc) (x3 : VCtl) (s : State) :
    Out.SameMem s (execTisub x0 x1 x2 x3 s) := by
  unfold execTisub
  simp

theorem execTimul_mem (x0 : TReg) (x1 : TSrc) (x2 : TSrc) (x3 : VCtl) (s : State) :
    Out.SameMem s (execTimul x0 x1 x2 x3 s) := by
  unfold execTimul
  simp

theorem execTimax_mem (x0 : TReg) (x1 : TSrc) (x2 : TSrc) (x3 : VCtl) (s : State) :
    Out.SameMem s (execTimax x0 x1 x2 x3 s) := by
  unfold execTimax
  simp

theorem execTimin_mem (x0 : TReg) (x1 : TSrc) (x2 : TSrc) (x3 : VCtl) (s : State) :
    Out.SameMem s (execTimin x0 x1 x2 x3 s) := by
  unfold execTimin
  simp

theorem execTand_mem (x0 : TReg) (x1 : TSrc) (x2 : TSrc) (x3 : VCtl) (s : State) :
    Out.SameMem s (execTand x0 x1 x2 x3 s) := by
  unfold execTand
  simp

theorem execTor_mem (x0 : TReg) (x1 : TSrc) (x2 : TSrc) (x3 : VCtl) (s : State) :
    Out.SameMem s (execTor x0 x1 x2 x3 s) := by
  unfold execTor
  simp

theorem execTxor_mem (x0 : TReg) (x1 : TSrc) (x2 : TSrc) (x3 : VCtl) (s : State) :
    Out.SameMem s (execTxor x0 x1 x2 x3 s) := by
  unfold execTxor
  simp

theorem execTshl_mem (x0 : TReg) (x1 : TSrc) (x2 : TSrc) (x3 : VCtl) (s : State) :
    Out.SameMem s (execTshl x0 x1 x2 x3 s) := by
  unfold execTshl
  simp

theorem execTshr_mem (x0 : TReg) (x1 : TSrc) (x2 : TSrc) (x3 : VCtl) (s : State) :
    Out.SameMem s (execTshr x0 x1 x2 x3 s) := by
  unfold execTshr
  simp

@[simp] theorem State.vSign_mem (s : State) (x1 : TReg) (x2 : TSrc) (x3 : VCtl) (x4 : Row) (x5 :
    Nat → BitVec 32 → BitVec 32) (x6 : Int → Int) : Out.SameMem s (State.vSign s x1 x2 x3 x4 x5 x6) := by
  unfold State.vSign
  simp

theorem execTabs_mem (x0 : TReg) (x1 : TSrc) (x2 : VCtl) (s : State) : Out.SameMem s (execTabs x0 x1 x2 s) := by
  unfold execTabs
  simp

theorem execTneg_mem (x0 : TReg) (x1 : TSrc) (x2 : VCtl) (s : State) : Out.SameMem s (execTneg x0 x1 x2 s) := by
  unfold execTneg
  simp

@[simp] theorem State.vFill_mem (s : State) (x1 : TReg) (x2 : VCtl) (x3 : State → Fin 16 → Fin 64 → Num × Int) :
    Out.SameMem s (State.vFill s x1 x2 x3) := by
  unfold State.vFill
  simp

theorem execTfill_mem (x0 : TReg) (x1 : SReg) (x2 : VCtl) (s : State) : Out.SameMem s (execTfill x0 x1 x2 s) := by
  unfold execTfill
  simp

theorem execTfilli_mem (x0 : TReg) (x1 : BitVec 16) (x2 : VCtl) (s : State) :
    Out.SameMem s (execTfilli x0 x1 x2 s) := by
  unfold execTfilli
  simp

theorem execTiota_mem (x0 : TReg) (x1 : BitVec 2) (x2 : BitVec 14) (x3 : VCtl) (s : State) :
    Out.SameMem s (execTiota x0 x1 x2 x3 s) := by
  unfold execTiota
  simp

theorem execTset_mem (x0 : TReg) (x1 : Fin 16) (x2 : Fin 64) (x3 : SReg) (x4 : BitVec 5) (x5 : PReg) (s : State) :
    Out.SameMem s (execTset x0 x1 x2 x3 x4 x5 s) := by
  unfold execTset
  simp

theorem execTget_mem (x0 : SReg) (x1 : TSrc) (x2 : Fin 16) (x3 : Fin 64) (x4 : BitVec 5) (x5 : PReg) (s : State) :
    Out.SameMem s (execTget x0 x1 x2 x3 x4 x5 s) := by
  unfold execTget
  exact State.guarded_mem _ _ _ fun t => State.vChecks_mem _ _ _ _ _ _ _ fun l u => by
    dsimp only
    split <;> simp

theorem execTshape_mem (x0 : TReg) (x1 : BitVec 4) (x2 : BitVec 6) (x3 : BitVec 4) (x4 : PReg) (s : State) :
    Out.SameMem s (execTshape x0 x1 x2 x3 x4 s) := by
  unfold execTshape
  exact State.guarded_mem _ _ _ fun t => by
    dsimp only
    (repeat' split) <;> simp

theorem execRred_mem (x0 : TReg) (x1 : TSrc) (x2 : BitVec 8) (x3 : VCtl) (s : State) :
    Out.SameMem s (execRred x0 x1 x2 x3 s) := by
  unfold execRred
  simp

theorem execCred_mem (x0 : TReg) (x1 : TSrc) (x2 : BitVec 8) (x3 : VCtl) (s : State) :
    Out.SameMem s (execCred x0 x1 x2 x3 s) := by
  unfold execCred
  simp

theorem execRscan_mem (x0 : TReg) (x1 : TSrc) (x2 : BitVec 8) (x3 : VCtl) (s : State) :
    Out.SameMem s (execRscan x0 x1 x2 x3 s) := by
  unfold execRscan
  simp

theorem execTchk_mem (x0 : TSrc) (x1 : TSrc) (x2 : BitVec 5) (x3 : PReg) (s : State) :
    Out.SameMem s (execTchk x0 x1 x2 x3 s) := by
  unfold execTchk
  exact State.guarded_mem _ _ _ fun t => by
    dsimp only
    (repeat' split) <;> simp

@[simp] theorem State.latCheck_mem (s : State) (x1 : Option Word) (x2 : State → State) (h_x2 :
    ∀ t, (x2 t).mem = t.mem) : (State.latCheck s x1 x2).mem = s.mem := by
  unfold State.latCheck
  split <;> simp [h_x2]

theorem execTlat_mem (x0 : XReg) (x1 : LSlot) (x2 : LvReg) (x3 : LvReg) (x4 : Bool) (x5 : Bool) (x6 : Bool) (x7 :
    Bool) (s : State) : Out.SameMem s (execTlat x0 x1 x2 x3 x4 x5 x6 x7 s) := by
  unfold execTlat
  simp

theorem execTlatc_mem (x0 : XReg) (x1 : BitVec 4) (s : State) : Out.SameMem s (execTlatc x0 x1 s) := by
  unfold execTlatc
  simp

theorem execTlatq_mem (x0 : SReg) (x1 : XReg) (x2 : LSlot) (s : State) : Out.SameMem s (execTlatq x0 x1 x2 s) := by
  unfold execTlatq
  simp

theorem execTdev_mem (x0 : XReg) (x1 : Port) (x2 : BitVec 5) (s : State) : Out.SameMem s (execTdev x0 x1 x2 s) := by
  unfold execTdev
  dsimp only
  (repeat' split) <;> simp

theorem execLvacc_mem (x0 : XReg) (x1 : Port) (x2 : LvReg) (x3 : Fin 8) (x4 : Bool) (s : State) :
    Out.SameMem s (execLvacc x0 x1 x2 x3 x4 s) := by
  unfold execLvacc
  simp

theorem execLvclose_mem (x0 : LvReg) (x1 : SReg) (x2 : Bool) (s : State) :
    Out.SameMem s (execLvclose x0 x1 x2 s) := by
  unfold execLvclose
  simp

theorem execLvmovToVector_mem (x0 : LvReg) (x1 : XReg) (x2 : Port) (x3 : Fin 16) (s : State) :
    Out.SameMem s (execLvmovToVector x0 x1 x2 x3 s) := by
  unfold execLvmovToVector
  simp

theorem execLvmovToRow_mem (x0 : XReg) (x1 : Fin 16) (x2 : LvReg) (s : State) :
    Out.SameMem s (execLvmovToRow x0 x1 x2 s) := by
  unfold execLvmovToRow
  simp

theorem execLvset_mem (x0 : LvReg) (x1 : SReg) (x2 : Bool) (s : State) : Out.SameMem s (execLvset x0 x1 x2 s) := by
  unfold execLvset
  simp

@[simp] theorem State.streamWalk_mem (s : State) (x1 : AReg) (x2 : Option Nat) (x3 : Option Nat) (x4 : Nat) (x5 :
    Gen) (x6 : Word) : (State.streamWalk s x1 x2 x3 x4 x5 x6).2.mem = s.mem := by
  induction x4 generalizing s x5 x6 with
  | zero => rfl
  | succ n ih =>
    simp only [State.streamWalk]
    split
    · rfl
    · split
      · simp
      · split <;> simp [ih]

@[simp] theorem State.chargeArray_mem (s : State) (x1 : Nat) : (State.chargeArray s x1).mem = s.mem := by
  unfold State.chargeArray
  split <;> simp

@[simp] theorem State.qAccept_mem (s : State) (x1 : QOp) (x2 : Nat) : (State.qAccept s x1 x2).mem = s.mem := by
  unfold State.qAccept
  simp

@[simp] theorem State.qIssue_mem (s : State) (x1 : PReg) (x2 : State → QOp) :
    Out.SameMem s (State.qIssue s x1 x2) := by
  unfold State.qIssue
  exact State.guarded_mem _ _ _ fun t => by
    split <;> simp

@[simp] theorem State.qStream_mem (s : State) (x1 : PReg) (x2 : AReg) (x3 : Nat) (x4 : State → QOp) :
    Out.SameMem s (State.qStream s x1 x2 x3 x4) := by
  unfold State.qStream
  exact State.guarded_mem _ _ _ fun t => by
    dsimp only
    (repeat' split) <;> simp

theorem execMlds_mem (x0 : TSrc) (x1 : PReg) (s : State) : Out.SameMem s (execMlds x0 x1 s) := by
  unfold execMlds
  simp

theorem execMldsl_mem (x0 : AReg) (x1 : PReg) (s : State) : Out.SameMem s (execMldsl x0 x1 s) := by
  unfold execMldsl
  simp

theorem execMswap_mem (x0 : PReg) (s : State) : Out.SameMem s (execMswap x0 s) := by
  unfold execMswap
  simp

theorem execMmul_mem (x0 : CReg) (x1 : TSrc) (x2 : BitVec 5) (x3 : BitVec 5) (x4 : Rep) (x5 : PReg) (s : State) :
    Out.SameMem s (execMmul x0 x1 x2 x3 x4 x5 s) := by
  unfold execMmul
  simp

theorem execMmac_mem (x0 : CReg) (x1 : TSrc) (x2 : BitVec 5) (x3 : BitVec 5) (x4 : Rep) (x5 : PReg) (s : State) :
    Out.SameMem s (execMmac x0 x1 x2 x3 x4 x5 s) := by
  unfold execMmac
  simp

theorem execMmact_mem (x0 : CReg) (x1 : TSrc) (x2 : BitVec 5) (x3 : BitVec 5) (x4 : Rep) (x5 : PReg) (s : State) :
    Out.SameMem s (execMmact x0 x1 x2 x3 x4 x5 s) := by
  unfold execMmact
  simp

theorem execMmull_mem (x0 : CReg) (x1 : BitVec 5) (x2 : BitVec 5) (x3 : Rep) (x4 : PReg) (s : State) :
    Out.SameMem s (execMmull x0 x1 x2 x3 x4 s) := by
  unfold execMmull
  simp

theorem execMmacl_mem (x0 : CReg) (x1 : BitVec 5) (x2 : BitVec 5) (x3 : Rep) (x4 : PReg) (s : State) :
    Out.SameMem s (execMmacl x0 x1 x2 x3 x4 s) := by
  unfold execMmacl
  simp

theorem execMzero_mem (x0 : CReg) (x1 : PReg) (s : State) : Out.SameMem s (execMzero x0 x1 s) := by
  unfold execMzero
  simp

theorem execMrd_mem (x0 : TReg) (x1 : CReg) (x2 : BitVec 5) (x3 : PReg) (s : State) :
    Out.SameMem s (execMrd x0 x1 x2 x3 s) := by
  unfold execMrd
  simp

theorem execMwr_mem (x0 : CReg) (x1 : TSrc) (x2 : BitVec 5) (x3 : PReg) (s : State) :
    Out.SameMem s (execMwr x0 x1 x2 x3 s) := by
  unfold execMwr
  simp

theorem execMstat_mem (x0 : TReg) (x1 : PReg) (s : State) : Out.SameMem s (execMstat x0 x1 s) := by
  unfold execMstat
  simp

@[simp] theorem State.unitMem_mem (s : State) (x1 : Nat) (x2 : Nat) (x3 : List (Nat × Byte × Option Byte)) :
    (State.unitMem s x1 x2 x3).2.mem = s.mem := by
  unfold State.unitMem
  dsimp only
  (repeat' split) <;> simp

@[simp] theorem State.unitByte_mem (s : State) (x1 : Nat) (x2 : Nat) (x3 : List (Nat × Byte × Option Byte)) :
    (State.unitByte s x1 x2 x3).2.mem = s.mem := by
  unfold State.unitByte
  dsimp only
  (repeat' split) <;> simp

@[simp] theorem State.unitBytes_mem (s : State) (x1 : Nat) (x2 : Nat) (x3 : List (Nat × Byte × Option Byte)) (n : Nat) :
    (State.unitBytes s x1 x2 x3 n).2.mem = s.mem := by
  induction n generalizing s x2 with
  | zero => rfl
  | succ n ih => simp [State.unitBytes, ih]

@[simp] theorem State.unitRows_mem (s : State) (x1 : Nat) (x0 : List (Nat × Byte × Option Byte)) (x2 : Nat) (x3 : List Nat) :
    (State.unitRows s x1 x0 x2 x3).2.mem = s.mem := by
  induction x3 generalizing s with
  | nil => rfl
  | cons a l ih =>
    simp only [State.unitRows, ih]
    split <;> simp

@[simp] theorem State.aOperand_mem (s : State) (x1 : Nat) (x2 : QOp) (x3 : Nat) (x4 : Nat) :
    (State.aOperand s x1 x2 x3 x4).2.mem = s.mem := by
  unfold State.aOperand
  split <;> simp

@[simp] theorem State.streamPlane_mem (s : State) (x1 : Nat) (x2 : QOp) :
    (State.streamPlane s x1 x2).2.mem = s.mem := by
  unfold State.streamPlane
  simp

@[simp] theorem State.qEffect_mem (s : State) (x1 : Nat) (x2 : QOp) : (State.qEffect s x1 x2).mem = s.mem := by
  unfold State.qEffect
  split <;> simp

@[simp] theorem State.enqueue_mem (s : State) (x1 : Cmd) : (State.enqueue s x1).mem = s.mem := by
  unfold State.enqueue
  simp

@[simp] theorem State.issueCopy_mem (s : State) (x1 : Cmd) : (State.issueCopy s x1).mem = s.mem := by
  unfold State.issueCopy
  split <;> simp

theorem execCopy_mem (x0 : CopyOps) (x1 : BitVec 6) (s : State) : Out.SameMem s (execCopy x0 x1 s) := by
  unfold execCopy
  simp

theorem execCopyg_mem (x0 : CopyOps) (x1 : BitVec 6) (s : State) : Out.SameMem s (execCopyg x0 x1 s) := by
  unfold execCopyg
  simp

theorem execCopya_mem (x0 : CopyOps) (x1 : BitVec 6) (s : State) : Out.SameMem s (execCopya x0 x1 s) := by
  unfold execCopya
  simp

theorem execEngq_mem (x0 : SReg) (s : State) : Out.SameMem s (execEngq x0 s) := by
  unfold execEngq
  simp

@[simp] theorem State.tables_mem (s : State) (x1 : Nat) (x2 : Cmd) : (State.tables s x1 x2).mem = s.mem := by
  unfold State.tables
  simp

@[simp] theorem State.chargePiece_mem (s : State) (x1 : Nat) (x2 : Cmd) (x3 : Side) (x4 : Side) (x5 : Nat) (x6 :
    Nat) : (State.chargePiece s x1 x2 x3 x4 x5 x6).mem = s.mem := by
  unfold State.chargePiece
  dsimp only
  (repeat' split) <;> simp

@[simp] theorem State.touchHead_mem (s : State) (x1 : Nat) (x2 : Cmd) (x3 : List (Nat × Access)) :
    (State.touchHead s x1 x2 x3).mem = s.mem := by
  simp [State.touchHead]

@[simp] theorem State.endStream_mem (s : State) (x1 : Nat) : (State.endStream s x1).mem = s.mem := by
  unfold State.endStream
  (repeat' split) <;> simp

@[simp] theorem State.engrs_mem (s : State) (x1 : BitVec 2) (x2 : Ctx → Ctx) :
    Out.SameMem s (State.engrs s x1 x2) := by
  unfold State.engrs
  dsimp only
  (repeat' split) <;> simp

theorem execEngrs_mem (x0 : BitVec 2) (s : State) : Out.SameMem s (execEngrs x0 s) := by
  unfold execEngrs
  simp

theorem execEngrsCancel_mem (x0 : BitVec 2) (s : State) : Out.SameMem s (execEngrsCancel x0 s) := by
  unfold execEngrsCancel
  simp

@[simp] theorem State.modLaunch_mem (s : State) (x1 : Nat) (x2 : Launch → Launch) :
    (State.modLaunch s x1 x2).mem = s.mem := by
  unfold State.modLaunch
  simp

@[simp] theorem State.failDomain_mem (s : State) (x1 : BitVec 8) : (State.failDomain s x1).mem = s.mem := by
  unfold State.failDomain
  simp

@[simp] theorem State.taskEnded_mem (s : State) (x1 : Bound) (x2 : BitVec 26) (x3 : Bool) :
    (State.taskEnded s x1 x2 x3).mem = s.mem := by
  unfold State.taskEnded
  dsimp only
  (repeat' split) <;> simp

@[simp] theorem State.noteReady_mem (s : State) : (State.noteReady s).mem = s.mem := by
  unfold State.noteReady
  simp

@[simp] theorem State.entryDone_mem (s : State) (x1 : Fin 64) (x2 : Nat) : (State.entryDone s x1 x2).mem = s.mem := by
  unfold State.entryDone
  simp

@[simp] theorem State.arriveTile_mem (s : State) (x1 : Nat) (x2 : Nat) : (State.arriveTile s x1 x2).mem = s.mem := by
  unfold State.arriveTile
  simp

theorem execTtArrive_mem (s : State) : Out.SameMem s (execTtArrive s) := by
  unfold execTtArrive
  simp

theorem execRegisterWrite_mem (s : State) : Out.SameMem s (execRegisterWrite s) := by
  unfold execRegisterWrite
  simp

theorem execTlbiGo_mem (s : State) : Out.SameMem s (execTlbiGo s) := by
  unfold execTlbiGo
  simp

theorem execTlbInvalidationDone_mem (s : State) : Out.SameMem s (execTlbInvalidationDone s) := by
  unfold execTlbInvalidationDone
  simp

@[simp] theorem State.seat_mem (s : State) (x1 : Nat) (x2 : Ctx) (x3 : Bool) : (State.seat s x1 x2 x3).mem = s.mem := by
  unfold State.seat
  dsimp only
  (repeat' split) <;> simp

@[simp] theorem State.imageFailed_mem (s : State) (x1 : Ready) : (State.imageFailed s x1).mem = s.mem := by
  unfold State.imageFailed
  dsimp only
  (repeat' split) <;> simp

@[simp] theorem State.stopCounters_mem (s : State) (x1 : Nat) : (State.stopCounters s x1).mem = s.mem := by
  unfold State.stopCounters
  split <;> simp

@[simp] theorem State.vacate_mem (s : State) (x1 : Nat) : (State.vacate s x1).mem = s.mem := by
  unfold State.vacate
  simp

theorem execPreemptRequest_mem (s : State) : Out.SameMem s (execPreemptRequest s) := by
  unfold execPreemptRequest
  dsimp only
  (repeat' split) <;> simp

theorem execPreemption_mem (s : State) : Out.SameMem s (execPreemption s) := by
  unfold execPreemption
  dsimp only
  split <;> simp [State.stopForSave]

@[simp] theorem State.renameSrc_mem (s : State) (x1 : Nat → Nat) : (State.renameSrc s x1).mem = s.mem := by
  unfold State.renameSrc
  simp

theorem execExposedResultLanding_mem (s : State) : Out.SameMem s (execExposedResultLanding s) := by
  unfold execExposedResultLanding
  simp

theorem execTakeInterrupt_mem (s : State) : Out.SameMem s (execTakeInterrupt s) := by
  unfold execTakeInterrupt
  dsimp only
  split <;> simp

theorem execClusterWake_mem (s : State) : Out.SameMem s (execClusterWake s) := by
  unfold execClusterWake
  simp

theorem execDebugRequest_mem (s : State) : Out.SameMem s (execDebugRequest s) := by
  unfold execDebugRequest
  simp

theorem execDebugRelease_mem (s : State) : Out.SameMem s (execDebugRelease s) := by
  unfold execDebugRelease
  split <;> simp

@[simp] theorem State.fifoStep_mem (s : State) (r : TraceRec) : (s.fifoStep r).mem = s.mem := by
  unfold State.fifoStep
  simp

@[simp] theorem State.fifoFlush_mem (s : State) : s.fifoFlush.mem = s.mem := by
  unfold State.fifoFlush
  split <;> simp

@[simp] theorem State.driftPut_mem (s : State) (r : TraceRec) : (s.driftPut r).mem = s.mem := rfl

@[simp] theorem State.imagePut_mem (s : State) (fn off : Nat) (v m : Word) : (s.imagePut fn off v m).mem = s.mem := by
  unfold State.imagePut
  split <;> rfl

@[simp] theorem State.exitLand_mem (s : State) (x : Nat) : (s.exitLand x).mem = s.mem := by
  unfold State.exitLand
  dsimp only
  rw [State.focus_mem, foldl_mem _ (fun t l => State.landCounters_mem t l), State.focus_mem]

@[simp] theorem State.untilTime_mem (s : State) (x1 : Nat) : (State.untilTime s x1).mem = s.mem := by
  unfold State.untilTime
  simp

theorem execBudgetPeriod_mem (s : State) : Out.SameMem s (execBudgetPeriod s) := by
  unfold execBudgetPeriod
  simp

theorem execTimecmpMatch_mem (s : State) : Out.SameMem s (execTimecmpMatch s) := by
  unfold execTimecmpMatch
  simp

theorem execNotify_mem (s : State) : Out.SameMem s (execNotify s) := by
  unfold execNotify
  simp

theorem execPhase_mem (x0 : BitVec 2) (s : State) : Out.SameMem s (execPhase x0 s) := by
  unfold execPhase
  simp

theorem execVjoin_mem (s : State) : Out.SameMem s (execVjoin s) := by
  unfold execVjoin
  simp

@[simp] theorem State.acquireAt_mem (s : State) (x1 : Nat) (x2 : Nat) (x3 : Nat) (x4 : BitVec 2) :
    (State.acquireAt s x1 x2 x3 x4).mem = s.mem := by
  unfold State.acquireAt
  simp

@[simp] theorem State.atomicRead_mem (s : State) (x : Nat) (a : Atomic) : (s.atomicRead x a).mem = s.mem := by
  unfold State.atomicRead
  dsimp only
  (repeat' split) <;> simp

@[simp] theorem State.acquire_mem (s : State) (x1 : Nat) (x2 : Nat) (x3 : BitVec 2) :
    (State.acquire s x1 x2 x3).mem = s.mem := by
  unfold State.acquire
  dsimp only
  split <;> simp

theorem execWaitm_mem (x0 : SReg) (x1 : AReg) (x2 : SReg) (x3 : BitVec 4) (x4 : BitVec 2) (x5 : BitVec 2) (s :
    State) : Out.SameMem s (execWaitm x0 x1 x2 x3 x4 x5 s) := by
  unfold execWaitm
  dsimp only
  (repeat' split) <;> simp

theorem execEvwait_mem (x0 : AReg) (x1 : BitVec 2) (s : State) : Out.SameMem s (execEvwait x0 x1 s) := by
  intro t h
  unfold execEvwait at h
  (repeat' split at h) <;> simp at h <;> subst h <;> simp

@[simp] theorem State.markDiscarded_mem (s : State) (x1 : Nat × Nat) : (State.markDiscarded s x1).mem = s.mem := by
  unfold State.markDiscarded
  dsimp only
  (repeat' split) <;> simp

@[simp] theorem State.dropWhole_mem (s : State) (x1 : WinWrite) : (State.dropWhole s x1).mem = s.mem := rfl

@[simp] theorem State.wholeLanded_mem (s : State) (x1 : WinWrite) (x2 : Nat × Nat) :
    (State.wholeLanded s x1 x2).mem = s.mem := by
  unfold State.wholeLanded
  dsimp only
  split <;> simp

theorem Option.elim_mem {α : Type} (o : Option α) (s : State) (f : α → State) (m : Memory) (hs : s.mem = m)
    (hf : ∀ x, (f x).mem = m) : (o.elim s f).mem = m := by
  cases o
  · exact hs
  · exact hf _

theorem execCoreWindowWrite_mem (s : State) : Out.SameMem s (execCoreWindowWrite s) := by
  unfold execCoreWindowWrite
  dsimp only
  (repeat' split) <;> simp
  all_goals exact Option.elim_mem _ _ _ _ (by simp) (by simp)

theorem execSend_mem (x0 : CopyOps) (x1 : BitVec 6) (s : State) : Out.SameMem s (execSend x0 x1 s) := by
  unfold execSend
  simp

theorem execSendt_mem (x0 : CopyOps) (x1 : BitVec 6) (s : State) : Out.SameMem s (execSendt x0 x1 s) := by
  unfold execSendt
  simp

theorem execRxset_mem (x0 : SReg) (x1 : BitVec 6) (s : State) : Out.SameMem s (execRxset x0 x1 s) := by
  unfold execRxset
  simp

theorem execRpost_mem (x0 : SReg) (x1 : BitVec 12) (x2 : BitVec 6) (s : State) :
    Out.SameMem s (execRpost x0 x1 x2 s) := by
  unfold execRpost
  simp

theorem execFbar_mem (x0 : BitVec 8) (s : State) : Out.SameMem s (execFbar x0 s) := by
  unfold execFbar
  split <;> simp

@[simp] theorem State.stopHead_mem (s : State) (x1 : Nat) (x2 : BitVec 8 × Word) :
    (State.stopHead s x1 x2).mem = s.mem := by
  unfold State.stopHead
  simp

@[simp] theorem State.launchPacket_mem (s : State) (x1 : Nat) (x2 : Nat) (x3 : Packet) :
    (State.launchPacket s x1 x2 x3).mem = s.mem := by
  unfold State.launchPacket
  simp

@[simp] theorem State.fillSource_mem (s : State) (x1 : Nat) (x2 : Side) (x3 : Nat) (x4 : Nat) :
    (State.fillSource s x1 x2 x3 x4).mem = s.mem := by
  unfold State.fillSource
  simp

@[simp] theorem State.transmitFrom_mem (s : State) (x1 : Nat) (x2 : Cmd) (x3 : Side) (x4 : Nat) :
    (State.transmitFrom s x1 x2 x3 x4).mem = s.mem := by
  unfold State.transmitFrom State.atHomes
  dsimp only
  split
  · split <;> simp
  · split
    · simp
    · rw [State.homesMet_mem]
      split
      · split <;> simp
      · simp

@[simp] theorem State.walked_mem (s : State) (x : Nat) (q : Cmd) (a : Side) (b n : Nat) :
    (s.walked x q a b n).mem = s.mem := by
  unfold State.walked
  simp

@[simp] theorem State.transmitNext_mem (s : State) (x1 : Nat) (x2 : Cmd) (x3 : Word) :
    (State.transmitNext s x1 x2 x3).mem = s.mem := by
  unfold State.transmitNext
  dsimp only
  (repeat' split) <;> simp

theorem execSendTransmit_mem (s : State) : Out.SameMem s (execSendTransmit s) := by
  unfold execSendTransmit
  dsimp only
  (repeat' split) <;> simp

@[simp] theorem State.asReader_mem (s : State) (x1 : Nat) (x2 : Region) : (State.asReader s x1 x2).mem = s.mem := by
  unfold State.asReader
  simp

@[simp] theorem State.armedError_mem (s : State) (x1 : BitVec 16) : (State.armedError s x1).mem = s.mem := by
  unfold State.armedError
  simp

@[simp] theorem Fired.sendFirst_mem (x0 : Fired) (s : State) : (Fired.sendFirst x0 s).2.mem = s.mem := by
  unfold Fired.sendFirst
  split <;> simp

@[simp] theorem Fired.pump_mem (s : State) (x1 : Nat) (x2 : Fired) : (Fired.pump s x1 x2).2.mem = s.mem := by
  induction x1 generalizing s x2 with
  | zero => rfl
  | succ n ih =>
    simp only [Fired.pump]
    split
    · rfl
    · split
      · rfl
      · simp [ih]

@[simp] theorem State.putFired_mem (s : State) (x1 : Fired) : (State.putFired s x1).mem = s.mem := by
  unfold State.putFired
  dsimp only
  (repeat' split) <;> simp

@[simp] theorem State.cutSend_mem (s : State) (x1 : Cmd) (x2 : BitVec 16) (x3 : Nat) (x6 : List (BitVec 32)) (x4 : List Byte)
    (x5 : Nat) : (State.cutSend s x1 x2 x3 x6 x4 x5).2.mem = s.mem := by
  induction x3 generalizing s x4 x5 x6 with
  | zero => rfl
  | succ n ih =>
    simp only [State.cutSend]
    split
    · rfl
    · simp [ih]

@[simp] theorem State.fire_mem (s : State) (x1 : Armed) : (State.fire s x1).mem = s.mem := by
  unfold State.fire
  dsimp only
  (repeat' split) <;> simp

@[simp] theorem State.fireList_mem (s : State) (l : List Armed) : (State.fireList s l).mem = s.mem := by
  induction l generalizing s with
  | nil => rfl
  | cons a l ih =>
    simp only [State.fireList]
    split
    · simp
    · simp
    · cases s.regionById a.region <;> simp [ih]

@[simp] theorem State.fireDue_mem (s : State) : (State.fireDue s).mem = s.mem := by
  unfold State.fireDue
  dsimp only
  split <;> simp

@[simp] theorem State.bumpRx_mem (s : State) (x1 : BitVec 16) (x2 : BitVec 6) (x3 : BitVec 32) :
    (State.bumpRx s x1 x2 x3).mem = s.mem := by
  unfold State.bumpRx
  simp

theorem execRxsetPerform_mem (s : State) : Out.SameMem s (execRxsetPerform s) := by
  unfold execRxsetPerform
  dsimp only
  (repeat' split) <;> simp

@[simp] theorem State.takePkt_mem (s : State) : ∀ t, (State.takePkt s) = some t → t.mem = s.mem := by
  unfold State.takePkt
  split <;> simp

@[simp] theorem State.emitOn_mem (s : State) (x1 : BitVec 4) (x2 : Packet) : (State.emitOn s x1 x2).mem = s.mem := by
  unfold State.emitOn
  simp

@[simp] theorem State.dropStage_mem (s : State) (x1 : BitVec 32) (x2 : BitVec 32) :
    (State.dropStage s x1 x2).mem = s.mem := by
  unfold State.dropStage
  simp

@[simp] theorem State.modStage_mem (s : State) (x1 : BitVec 32) (x2 : BitVec 32) (x3 : Stage → Stage) :
    (State.modStage s x1 x2 x3).mem = s.mem := by
  unfold State.modStage
  simp

@[simp] theorem State.setWindow_mem (s : State) (x1 : Window) : (State.setWindow s x1).mem = s.mem := by
  unfold State.setWindow
  simp

@[simp] theorem State.forwardStage_mem (s : State) (x1 : Stage) : (State.forwardStage s x1).mem = s.mem := by
  unfold State.forwardStage
  split <;> simp

@[simp] theorem State.contribute_mem (s : State) (x1 : Packet) (x2 : Stage) :
    (State.contribute s x1 x2).mem = s.mem := by
  unfold State.contribute
  dsimp only
  (repeat' split) <;> simp

@[simp] theorem State.reduceAt_mem (s : State) (x1 : Option (Fin 16)) (x2 : Packet) (x3 : BitVec 16) :
    (State.reduceAt s x1 x2 x3).mem = s.mem := by
  unfold State.reduceAt
  dsimp only
  (repeat' split) <;> simp

theorem execStagingLeaseExpiry_mem (s : State) : Out.SameMem s (execStagingLeaseExpiry s) := by
  unfold execStagingLeaseExpiry
  split <;> simp

@[simp] theorem State.modColl_mem (s : State) (x1 : BitVec 32) (x2 : Coll → Coll) :
    (State.modColl s x1 x2).mem = s.mem := by
  unfold State.modColl
  simp

@[simp] theorem State.sendChunk_mem (s : State) (x1 : Packet) : (State.sendChunk s x1).mem = s.mem := by
  unfold State.sendChunk
  simp

@[simp] theorem State.pumpColl_mem (s : State) (x1 : BitVec 32) : (State.pumpColl s x1).mem = s.mem := by
  unfold State.pumpColl
  split <;> simp

@[simp] theorem State.resendChunk_mem (s : State) (x1 : BitVec 32) (x2 : BitVec 32) :
    (State.resendChunk s x1 x2).mem = s.mem := by
  unfold State.resendChunk
  split
  · simp
  · split <;> simp

theorem execChunkRetransmitTimeout_mem (s : State) : Out.SameMem s (execChunkRetransmitTimeout s) := by
  unfold execChunkRetransmitTimeout
  dsimp only
  (repeat' split) <;> simp

@[simp] theorem State.firedAnswer_mem (s : State) (x1 : BitVec 32) (x2 : Bool) :
    (State.firedAnswer s x1 x2).mem = s.mem := by
  unfold State.firedAnswer
  dsimp only
  (repeat' split) <;> simp

@[simp] theorem State.sendAnswer_mem (s : State) (x1 : BitVec 32) (x2 : Option (BitVec 8 × Word)) :
    (State.sendAnswer s x1 x2).mem = s.mem := by
  unfold State.sendAnswer
  split <;> simp

theorem execSendAckTimeout_mem (s : State) : Out.SameMem s (execSendAckTimeout s) := by
  unfold execSendAckTimeout
  dsimp only
  (repeat' split) <;> simp

@[simp] theorem State.releaseBarrier_mem (s : State) (x1 : Nat) (x2 : BitVec 32) :
    (State.releaseBarrier s x1 x2).mem = s.mem := by
  unfold State.releaseBarrier
  split <;> simp

theorem execBarrierReleaseInstant_mem (s : State) : Out.SameMem s (execBarrierReleaseInstant s) := by
  unfold execBarrierReleaseInstant
  split <;> simp

theorem execPortFailure_mem (s : State) : Out.SameMem s (execPortFailure s) := by
  unfold execPortFailure
  simp

theorem execPortRetrained_mem (s : State) : Out.SameMem s (execPortRetrained s) := by
  unfold execPortRetrained
  simp

@[simp] theorem State.toStage_mem (s : State) (x1 : BitVec 4) (x2 : BitVec 8) :
    (State.toStage s x1 x2).mem = s.mem := by
  unfold State.toStage
  simp

theorem execStartctlGo_mem (s : State) : Out.SameMem s (execStartctlGo s) := by
  unfold execStartctlGo
  simp

@[simp] theorem State.assignFns_mem (s : State) (x1 : Option (List FnAssign)) : (State.assignFns s x1).mem = s.mem := by
  unfold State.assignFns
  (repeat' split) <;> rfl

theorem execStageAdvance_mem (s : State) : Out.SameMem s (execStageAdvance s) := by
  unfold execStageAdvance
  dsimp only
  (repeat' split) <;> simp

theorem execPackageFault_mem (s : State) : Out.SameMem s (execPackageFault s) := by
  unfold execPackageFault
  simp

theorem execPodTimeRealign_mem (s : State) : Out.SameMem s (execPodTimeRealign s) := by
  unfold execPodTimeRealign
  simp

theorem execWorldSwitch_mem (s : State) : Out.SameMem s (execWorldSwitch s) := by
  intro t h
  unfold execWorldSwitch State.when at h
  dsimp only at h
  split at h <;> simp only [Host.Outcome.next.injEq] at h <;> subst h <;> simp

theorem execSlewInterval_mem (s : State) : Out.SameMem s (execSlewInterval s) := by
  unfold execSlewInterval
  simp

theorem execShapingWindow_mem (s : State) : Out.SameMem s (execShapingWindow s) := by
  unfold execShapingWindow
  simp

theorem execRingReconfigure_mem (s : State) : Out.SameMem s (execRingReconfigure s) := by
  unfold execRingReconfigure
  simp

theorem execCounterWrap_mem (s : State) : Out.SameMem s (execCounterWrap s) := by
  unfold execCounterWrap
  refine State.when_mem _ _ _ fun t => ?_
  dsimp only
  (repeat' split) <;> simp

theorem execDieCounterWrap_mem (s : State) : Out.SameMem s (execDieCounterWrap s) := by
  unfold execDieCounterWrap
  refine State.when_mem _ _ _ fun t => ?_
  split <;> simp

@[simp] theorem State.fTile_mem (s : State) (x1 : Nat) (x2 : TReg) (x3 : TSrc) (x4 : VCtl) :
    Out.SameMem s (State.fTile s x1 x2 x3 x4) := by
  unfold State.fTile
  simp

theorem execFexp2_mem (x0 : TReg) (x1 : TSrc) (x2 : VCtl) (s : State) : Out.SameMem s (execFexp2 x0 x1 x2 s) := by
  unfold execFexp2
  simp

theorem execFlog2_mem (x0 : TReg) (x1 : TSrc) (x2 : VCtl) (s : State) : Out.SameMem s (execFlog2 x0 x1 x2 s) := by
  unfold execFlog2
  simp

theorem execFrcp_mem (x0 : TReg) (x1 : TSrc) (x2 : VCtl) (s : State) : Out.SameMem s (execFrcp x0 x1 x2 s) := by
  unfold execFrcp
  simp

theorem execFrsqrt_mem (x0 : TReg) (x1 : TSrc) (x2 : VCtl) (s : State) : Out.SameMem s (execFrsqrt x0 x1 x2 s) := by
  unfold execFrsqrt
  simp

theorem execFsqrt_mem (x0 : TReg) (x1 : TSrc) (x2 : VCtl) (s : State) : Out.SameMem s (execFsqrt x0 x1 x2 s) := by
  unfold execFsqrt
  simp

theorem execFtanh_mem (x0 : TReg) (x1 : TSrc) (x2 : VCtl) (s : State) : Out.SameMem s (execFtanh x0 x1 x2 s) := by
  unfold execFtanh
  simp

theorem execFsigm_mem (x0 : TReg) (x1 : TSrc) (x2 : VCtl) (s : State) : Out.SameMem s (execFsigm x0 x1 x2 s) := by
  unfold execFsigm
  simp

theorem execFexp_mem (x0 : TReg) (x1 : TSrc) (x2 : VCtl) (s : State) : Out.SameMem s (execFexp x0 x1 x2 s) := by
  unfold execFexp
  simp

theorem execFsin_mem (x0 : TReg) (x1 : TSrc) (x2 : VCtl) (s : State) : Out.SameMem s (execFsin x0 x1 x2 s) := by
  unfold execFsin
  simp

theorem execFcos_mem (x0 : TReg) (x1 : TSrc) (x2 : VCtl) (s : State) : Out.SameMem s (execFcos x0 x1 x2 s) := by
  unfold execFcos
  simp

@[simp] theorem State.setHold_mem (s : State) (x1 : Nat) (x2 : Hold) : (State.setHold s x1 x2).mem = s.mem := by
  unfold State.setHold
  simp

@[simp] theorem State.sendTok_mem (s : State) (x1 : TokMsg) : (State.sendTok s x1).mem = s.mem := by
  unfold State.sendTok
  simp

@[simp] theorem State.giveAll_mem (s : State) (x1 : Agent) (x2 : Agent) (x3 : Nat) :
    (State.giveAll s x1 x2 x3).mem = s.mem := by
  unfold State.giveAll
  dsimp only
  (repeat' split) <;> simp

@[simp] theorem State.giveOne_mem (s : State) (x1 : Agent) (x2 : Agent) (x3 : Nat) :
    (State.giveOne s x1 x2 x3).mem = s.mem := by
  unfold State.giveOne
  simp

@[simp] theorem State.modNeed_mem (s : State) (x1 : Agent) (x2 : Nat) (x3 : Need → Need) :
    (State.modNeed s x1 x2 x3).mem = s.mem := by
  unfold State.modNeed
  simp

theorem State.askHost_mem (s : State) (x1 : Nat) : ∀ t, (State.askHost s x1) = some t → t.mem = s.mem := by
  unfold State.askHost
  split <;> simp

@[simp] theorem State.answerNeed_mem (s : State) (x1 : Agent) (x2 : Agent) (x3 : Nat) (x4 : Bool) :
    (State.answerNeed s x1 x2 x3 x4).mem = s.mem := by
  unfold State.answerNeed
  dsimp only
  (repeat' split) <;> simp

@[simp] theorem State.transient_mem (s : State) (x1 : Bool) : Out.SameMem s (State.transient s x1) := by
  unfold State.transient
  dsimp only
  split
  · simp
  · split
    · simp
    · split
      · rename_i h
        split at h
        · simpa using State.askHost_mem _ _ _ h
        · cases h
      · simp

theorem execTransientReadRequest_mem (s : State) : Out.SameMem s (execTransientReadRequest s) := by
  unfold execTransientReadRequest
  simp

theorem execTransientWriteRequest_mem (s : State) : Out.SameMem s (execTransientWriteRequest s) := by
  unfold execTransientWriteRequest
  simp

theorem execTokenArrival_mem (s : State) : Out.SameMem s (execTokenArrival s) := by
  unfold execTokenArrival
  dsimp only
  (repeat' split) <;> simp

theorem execTransientAttemptTimeout_mem (s : State) : Out.SameMem s (execTransientAttemptTimeout s) := by
  unfold execTransientAttemptTimeout
  dsimp only
  (repeat' split) <;> simp

theorem execPersistentRequest_mem (s : State) : Out.SameMem s (execPersistentRequest s) := by
  unfold execPersistentRequest
  dsimp only
  (repeat' split) <;> simp

@[simp] theorem State.modEntry_mem (s : State) (x1 : Agent) (x2 : Nat) (x3 : PEntry → PEntry) :
    (State.modEntry s x1 x2 x3).mem = s.mem := by
  unfold State.modEntry
  simp

theorem execPersistentActivation_mem (s : State) : Out.SameMem s (execPersistentActivation s) := by
  unfold execPersistentActivation
  dsimp only
  split
  · simp
  · split
    · simp
    · split
      · rename_i h
        split at h
        · simpa using State.askHost_mem _ _ _ h
        · cases h
      · simp

theorem execPersistentDeactivation_mem (s : State) : Out.SameMem s (execPersistentDeactivation s) := by
  unfold execPersistentDeactivation
  dsimp only
  (repeat' split) <;> simp

@[simp] theorem State.activateNext_mem (s : State) (x1 : Nat) : (State.activateNext s x1).mem = s.mem := by
  unfold State.activateNext
  split
  · rfl
  · split <;> simp

theorem execDeactivationAck_mem (s : State) : Out.SameMem s (execDeactivationAck s) := by
  unfold execDeactivationAck
  dsimp only
  (repeat' split) <;> simp

theorem execLineEviction_mem (s : State) : Out.SameMem s (execLineEviction s) := by
  unfold execLineEviction
  dsimp only
  (repeat' split) <;> simp

theorem execTagRecall_mem (s : State) : Out.SameMem s (execTagRecall s) := by
  unfold execTagRecall
  simp

@[simp] theorem State.barRead_mem (s : State) (x1 : Nat) (x2 : Nat) (x3 : Nat) : (State.barRead s x1 x2 x3).mem = s.mem := by
  unfold State.barRead State.unsupported
  split <;> rfl

theorem execHostRead_mem (s : State) : Out.SameMem s (execHostRead s) := by
  unfold execHostRead
  split
  · simp
  · split <;> simp

theorem execHostSnoop_mem (s : State) : Out.SameMem s (execHostSnoop s) := by
  unfold execHostSnoop
  simp

theorem execHostCxlCacheResponse_mem (s : State) : Out.SameMem s (execHostCxlCacheResponse s) := by
  unfold execHostCxlCacheResponse
  simp

@[simp] theorem State.withdraw_mem (s : State) (x1 : Agent) : (State.withdraw s x1).mem = s.mem := by
  unfold State.withdraw
  simp

@[simp] theorem State.returnAll_mem (s : State) (x1 : Agent) : (State.returnAll s x1).mem = s.mem := by
  unfold State.returnAll
  simp

theorem execGracefulDieReset_mem (s : State) : Out.SameMem s (execGracefulDieReset s) := by
  unfold execGracefulDieReset
  dsimp only
  (repeat' split) <;> simp

@[simp] theorem State.loseTask_mem (s : State) (x1 : Bound) : (State.loseTask s x1).mem = s.mem := by
  unfold State.loseTask
  simp

@[simp] theorem State.setRecovering_mem (s : State) : (State.setRecovering s).mem = s.mem := by
  unfold State.setRecovering
  simp

@[simp] theorem State.recoverFrom_mem (s : State) (x1 : Agent) : (State.recoverFrom s x1).mem = s.mem := by
  unfold State.recoverFrom
  apply foldl_mem
  intro t l
  split
  · rename_i h
    split at h
    · exact State.askHost_mem _ _ _ h
    · cases h
  · simp

theorem execDieLost_mem (s : State) : Out.SameMem s (execDieLost s) := by
  unfold execDieLost
  dsimp only
  (repeat' split) <;> simp

@[simp] theorem State.treeCheck_mem (s : State) (x1 : Option Word) (x2 : State → State) (h_x2 :
    ∀ t, (x2 t).mem = t.mem) : (State.treeCheck s x1 x2).mem = s.mem := by
  unfold State.treeCheck
  split <;> simp [h_x2]

theorem execTreeclr_mem (x0 : PReg) (s : State) : Out.SameMem s (execTreeclr x0 s) := by
  unfold execTreeclr
  simp

theorem execTreeset_mem (x0 : TSrc) (x1 : Fin 16) (x2 : PReg) (s : State) :
    Out.SameMem s (execTreeset x0 x1 x2 s) := by
  unfold execTreeset
  exact State.guarded_mem _ _ _ fun t => State.vChecks_mem _ _ _ _ _ _ _ fun l u =>
    State.treeCheck_mem _ _ _ fun v => State.emit_mem _ _ _ _

theorem execTreeadd_mem (x0 : SReg) (x1 : Fin 64) (x2 : PReg) (s : State) :
    Out.SameMem s (execTreeadd x0 x1 x2 s) := by
  unfold execTreeadd
  exact State.guarded_mem _ _ _ fun t => by
    dsimp only
    (repeat' split) <;> simp

theorem execTreemask_mem (x0 : KReg) (x1 : Fin 4) (x2 : PReg) (s : State) :
    Out.SameMem s (execTreemask x0 x1 x2 s) := by
  unfold execTreemask
  simp

theorem execTreebias_mem (x0 : TReg) (x1 : Fin 4) (x2 : PReg) (s : State) :
    Out.SameMem s (execTreebias x0 x1 x2 s) := by
  unfold execTreebias
  simp

theorem execTreepos_mem (x0 : TReg) (x1 : SReg) (x2 : Fin 16) (x3 : PReg) (s : State) :
    Out.SameMem s (execTreepos x0 x1 x2 x3 s) := by
  unfold execTreepos
  simp

theorem execTreeprune_mem (x0 : TReg) (x1 : SReg) (x2 : Fin 16) (x3 : PReg) (s : State) :
    Out.SameMem s (execTreeprune x0 x1 x2 x3 s) := by
  unfold execTreeprune
  simp

theorem execTreerd_mem (x0 : SReg) (x1 : Fin 64) (x2 : Fin 4) (x3 : PReg) (s : State) :
    Out.SameMem s (execTreerd x0 x1 x2 x3 s) := by
  unfold execTreerd
  simp

@[simp] theorem State.xTile_mem (s : State) (x1 : TReg) (x2 : TReg) (x3 : Row) (x4 : Mask) (x5 :
    Fin 16 → Fin 64 → Fin 16 × Fin 64) : Out.SameMem s (State.xTile s x1 x2 x3 x4 x5) := by
  unfold State.xTile
  simp

theorem execXperm_mem (x0 : TReg) (x1 : TSrc) (x2 : Fin 4) (s : State) : Out.SameMem s (execXperm x0 x1 x2 s) := by
  unfold execXperm
  simp

theorem execXpld_mem (x0 : Fin 4) (x1 : TSrc) (x2 : Fin 16) (s : State) : Out.SameMem s (execXpld x0 x1 x2 s) := by
  unfold execXpld
  split <;> simp

theorem execXshuf_mem (x0 : TReg) (x1 : TSrc) (x2 : BitVec 3) (x3 : BitVec 3) (s : State) :
    Out.SameMem s (execXshuf x0 x1 x2 x3 s) := by
  unfold execXshuf
  simp

theorem execXbrev_mem (x0 : TReg) (x1 : TSrc) (s : State) : Out.SameMem s (execXbrev x0 x1 s) := by
  unfold execXbrev
  simp

theorem execXtrn_mem (x0 : TReg) (x1 : TSrc) (s : State) : Out.SameMem s (execXtrn x0 x1 s) := by
  unfold execXtrn
  simp

theorem execAmo_mem (x0 : SReg) (x1 : AReg) (x2 : SReg) (x3 : BitVec 4) (x4 : BitVec 2) (x5 : BitVec 2) (x6 :
    BitVec 2) (s : State) : Out.SameMem s (execAmo x0 x1 x2 x3 x4 x5 x6 s) := by
  unfold execAmo
  dsimp only
  (repeat' split) <;> simp [State.issueAtomic]

theorem execEvsig_mem (x0 : AReg) (x1 : BitVec 2) (s : State) : Out.SameMem s (execEvsig x0 x1 s) := by
  unfold execEvsig
  split <;> simp [State.issueAtomic]

@[simp] theorem State.serve_mem (s : State) (line : Nat) : (s.serve line).mem = s.mem := by
  unfold State.serve
  (repeat' split) <;> simp

@[simp] theorem State.readBudgets_mem (s : State) (r : Region) : (s.readBudgets r).mem = s.mem := by
  unfold State.readBudgets
  dsimp only
  split <;> rfl

@[simp] theorem State.pieceMet_mem (s : State) (x : Nat) (q : Cmd) (lines : List Nat × List Nat) :
    (s.pieceMet x q lines).mem = s.mem := by
  unfold State.pieceMet
  simp

@[simp] theorem State.pubCommand_mem (s : State) (x : Nat) (q : Cmd) : (s.pubCommand x q).mem = s.mem := by
  unfold State.pubCommand
  split <;> simp

@[simp] theorem State.finish_mem (s : State) (x : Nat) (q : Cmd) : (s.finish x q).mem = s.mem := by
  unfold State.finish
  dsimp only
  rw [State.dropAsker_mem, State.modCtx_mem]
  split <;> simp

end Sys2Proof.Machine
end

