-- ==== Sys2Proof/Laws/Canonical.lean ====
section
/-! SUPPORT. Every operation and meaning that may write memory keeps its canonical form; with Frames.lean, so does every
instruction. -/

namespace Sys2Proof.Machine

open Sys2Proof

/-- Where it answers a next state, memory is in canonical form. -/
def Out.Wf (o : Out) : Prop := ∀ t, o = .next t → Memory.wf t.mem = true

/-- Whatever an attempt to issue does, memory is in canonical form. -/
def Try.Wf : Try → Prop
  | .instead s => Memory.wf s.mem = true
  | .wait _ s => Memory.wf s.mem = true
  | .opened s => Memory.wf s.mem = true

@[simp] theorem Out.wf_next (t : State) : Out.Wf (.next t) ↔ Memory.wf t.mem = true := by
  simp [Out.Wf]

@[simp] theorem Out.wf_fault (f : Fault) : Out.Wf (.fault f) := by
  intro t h
  cases h

theorem Out.SameMem.wf {s : State} {o : Out} (h : Out.SameMem s o) (hs : Memory.wf s.mem = true) : Out.Wf o := by
  intro t ht
  rw [h t ht]
  exact hs

@[simp] theorem Try.wf_instead (s : State) : Try.Wf (.instead s) ↔ Memory.wf s.mem = true := Iff.rfl
@[simp] theorem Try.wf_wait (w : Wait) (s : State) : Try.Wf (.wait w s) ↔ Memory.wf s.mem = true := Iff.rfl
@[simp] theorem Try.wf_opened (s : State) : Try.Wf (.opened s) ↔ Memory.wf s.mem = true := Iff.rfl

theorem foldl_wf {α : Type} (f : State → α → State)
    (hf : ∀ t x, Memory.wf t.mem = true → Memory.wf (f t x).mem = true) (l : List α) (s : State)
    (h : Memory.wf s.mem = true) : Memory.wf (l.foldl f s).mem = true := by
  induction l generalizing s with
  | nil => exact h
  | cons a l ih => exact ih _ (hf _ _ h)

theorem State.guarded_wf (s : State) (g : Guard) (go : State → State) (hg : Memory.wf (go s).mem = true)
    (h : Memory.wf s.mem = true) : Out.Wf (s.guarded g go) := by
  unfold State.guarded
  split <;> simp [hg, h]

theorem Out.wf_ite {p : Prop} [Decidable p] {a b : Out} (ha : Out.Wf a) (hb : Out.Wf b) :
    Out.Wf (if p then a else b) := by
  split <;> assumption

theorem wf_ite {p : Prop} [Decidable p] {a b : State} (ha : Memory.wf a.mem = true) (hb : Memory.wf b.mem = true) :
    Memory.wf (if p then a else b).mem = true := by
  split <;> assumption

theorem wf_pair_ite (p : Prop) [Decidable p] {b c : Bool × State} (hb : Memory.wf b.2.mem = true)
    (hc : Memory.wf c.2.mem = true) : Memory.wf (if p then b else c).2.mem = true := by
  split <;> assumption

theorem State.tGo_wf (s : State) (x : TAccess) (m : TMem) (go : State → State)
    (hg : ∀ t, Memory.wf t.mem = true → Memory.wf (go t).mem = true) (h : Memory.wf s.mem = true) :
    Memory.wf (s.tGo x m go).mem = true := by
  unfold State.tGo
  split
  · simp [h]
  · split
    · unfold State.postInc
      dsimp only
      split
      · simp [h]
      · exact hg _ (by simp [h])
    · exact hg _ h

theorem State.amemGo_wf (s : State) (m : AMem) (go : State → State)
    (hg : ∀ t, Memory.wf t.mem = true → Memory.wf (go t).mem = true) (h : Memory.wf s.mem = true) :
    Memory.wf (s.amemGo m go).mem = true := by
  unfold State.amemGo
  split
  · unfold State.postInc
    dsimp only
    split
    · simp [h]
    · exact hg _ (by simp [h])
  · exact hg _ h

theorem State.when_wf (s : State) (b : Bool) (go : State → State) (hg : Memory.wf (go s).mem = true)
    (h : Memory.wf s.mem = true) : Out.Wf (s.when b go) := by
  unfold State.when
  split <;> simp [hg, h]

theorem State.withLines_wf (s : State) (who : Agent) (lines : List Nat) (write : Bool) (a : Asker) (r : Option Region)
    (go : State → State) (hg : Memory.wf (go s).mem = true) (h : Memory.wf s.mem = true) :
    Memory.wf (s.withLines who lines write a r go).mem = true := by
  unfold State.withLines
  split
  · simp [h]
  · dsimp only
    split <;> simp [hg]

theorem State.withWalks_wf (s : State) (who : Agent) (walks lines : List Nat) (write : Bool) (a : Asker)
    (r : Option Region) (go : State → State)
    (hg : ∀ t, Memory.wf t.mem = true → Memory.wf (go t).mem = true) (h : Memory.wf s.mem = true) :
    Memory.wf (s.withWalks who walks lines write a r go).mem = true := by
  unfold State.withWalks
  split
  · simp [h]
  · exact State.withLines_wf _ _ _ _ _ _ _ (hg _ (by simp [h])) (by simp [h])

theorem State.atHomes_wf (s : State) (lines : List Nat) (write : Bool) (a : Asker) (r : Option Region) (go : State → State)
    (hg : Memory.wf (go s).mem = true) (h : Memory.wf s.mem = true) :
    Memory.wf (s.atHomes lines write a r go).mem = true := by
  unfold State.atHomes
  split <;> simp [hg, h]

@[simp] theorem State.perform_wf (s : State) (x1 : Option Nat) (x2 : Nat) (x3 : Nat) (x4 : Nat) (x5 : Byte) (x6 : Bool)
    (h : Memory.wf s.mem = true) : Memory.wf (State.perform s x1 x2 x3 x4 x5 x6).mem = true := by
  unfold State.perform
  dsimp only
  rw [State.mapCtx_mem]
  exact memSet_wf _ _ h

@[simp] theorem State.performOne_wf (s : State) (x1 : Nat) (x2 : PStore) (h : Memory.wf s.mem = true) :
    Memory.wf (State.performOne s x1 x2).mem = true := by
  have hp := State.perform_wf s (some x1) x1 x2.seq x2.addr x2.val false h
  unfold State.performOne
  exact wf_ite (by rw [State.modCtx_mem]; exact hp) hp

@[simp] theorem State.performAll_wf (s : State) (x1 : Nat) (x2 : List PStore) (h : Memory.wf s.mem = true) :
    Memory.wf (State.performAll s x1 x2).mem = true := by
  induction x2 generalizing s with
  | nil => exact h
  | cons e l ih => exact ih _ (State.performOne_wf _ _ _ h)

@[simp] theorem State.publish_wf (s : State) (x1 : Nat) (x2 : Pub) (x3 : Nat) (x4 : List Nat) (h :
    Memory.wf s.mem = true) : Memory.wf (State.publish s x1 x2 x3 x4).mem = true := by
  unfold State.publish
  simp (maxDischargeDepth := 40) [h]

@[simp] theorem State.publishAll_wf (s : State) (x1 : Nat) (x2 : Pub) (h : Memory.wf s.mem = true) :
    Memory.wf (State.publishAll s x1 x2).mem = true := by
  unfold State.publishAll
  simp (maxDischargeDepth := 40) [h]

@[simp] theorem State.performOwn_wf (s : State) (x1 : Nat) (x2 : Nat) (x3 : Nat) (x4 : Nat) (h :
    Memory.wf s.mem = true) : Memory.wf (State.performOwn s x1 x2 x3 x4).mem = true := by
  unfold State.performOwn
  dsimp only
  (repeat' split) <;> simp (maxDischargeDepth := 40) [h]

@[simp] theorem State.performBytes_wf (s : State) (x1 : Option Nat) (x2 : Nat) (x3 : Nat) (x4 : Nat) (x5 :
    List Byte) (x6 : Bool) (h : Memory.wf s.mem = true) :
    Memory.wf (State.performBytes s x1 x2 x3 x4 x5 x6).mem = true := by
  induction x5 generalizing s x4 with
  | nil => exact h
  | cons e l ih => exact ih _ _ (State.perform_wf _ _ _ _ _ _ _ h)

@[simp] theorem State.agentWrite_wf (s : State) (x1 : Pub) (x2 : Nat) (x3 : Nat) (x4 : List Byte) (x5 : Bool) (h :
    Memory.wf s.mem = true) : Memory.wf (State.agentWrite s x1 x2 x3 x4 x5).mem = true := by
  unfold State.agentWrite
  simp (maxDischargeDepth := 40) [h]

@[simp] theorem State.hostWrite_wf (s : State) (x1 : Nat) (x2 : List Byte) (h : Memory.wf s.mem = true) :
    Memory.wf (State.hostWrite s x1 x2).mem = true := by
  unfold State.hostWrite
  simp (maxDischargeDepth := 40) [h]

@[simp] theorem State.placeWrite_wf (s : State) (x1 : Pub) (x2 : Nat) (x3 : List Byte) (h : Memory.wf s.mem = true) :
    Memory.wf (State.placeWrite s x1 x2 x3).mem = true := by
  unfold State.placeWrite
  (repeat' split) <;> simp (maxDischargeDepth := 40) [h]

@[simp] theorem State.spanWrite_wf (s : State) (x1 : Pub) (x2 : Option Nat) (x3 : Region) (x4 : Nat) (x5 : List Byte)
    (h : Memory.wf s.mem = true) : Memory.wf (State.spanWrite s x1 x2 x3 x4 x5).mem = true := by
  unfold State.spanWrite
  exact foldl_wf _ (fun t e ht => State.placeWrite_wf _ _ _ _ ht) _ _ h

@[simp] theorem State.errWrite_wf (s : State) (x1 : Nat) (x2 : Nat) (x3 : List Byte) (h : Memory.wf s.mem = true) :
    Memory.wf (State.errWrite s x1 x2 x3).1.mem = true := by
  unfold State.errWrite
  split
  · exact h
  · exact State.spanWrite_wf _ _ _ _ _ _ h

@[simp] theorem State.drainByte_wf (s : State) (x1 : Nat) (h : Memory.wf s.mem = true) :
    Memory.wf (State.drainByte s x1).mem = true := by
  unfold State.drainByte
  dsimp only
  split <;> simp [h]

@[simp] theorem State.scratchStore1_wf (s : State) (x1 : Bool) (x2 : Nat) (x3 : Byte) (h : Memory.wf s.mem = true) :
    Memory.wf (State.scratchStore1 s x1 x2 x3).mem = true := by
  unfold State.scratchStore1
  dsimp only
  split <;> simp (maxDischargeDepth := 40) [h]

@[simp] theorem State.drainFull_wf (s : State) (x1 : Nat) (n : Nat) (h : Memory.wf s.mem = true) :
    Memory.wf (State.drainFull s x1 n).mem = true := by
  induction n generalizing s with
  | zero => exact h
  | succ n ih =>
    simp only [State.drainFull]
    split
    · exact h
    · split
      · exact h
      · split
        · simp [h]
        · exact ih _ (by simp [h])

@[simp] theorem State.drainOver_wf (s : State) (h : Memory.wf s.mem = true) :
    Memory.wf (State.drainOver s).mem = true := by
  unfold State.drainOver
  exact State.drainFull_wf _ _ _ h

@[simp] theorem State.performWindow_wf (s : State) (x1 : Nat) (h : Memory.wf s.mem = true) :
    Memory.wf (State.performWindow s x1).mem = true := by
  unfold State.performWindow
  dsimp only
  split <;> simp [h]

theorem execVjoinComplete_wf (s : State) (h : Memory.wf s.mem = true) : Out.Wf (execVjoinComplete s) := by
  unfold execVjoinComplete
  exact State.when_wf _ _ _ (by simp [h]) h

@[simp] theorem State.scratchStore_wf (s : State) (x1 : Bool) (x2 : Nat) (x3 : List Byte) (h :
    Memory.wf s.mem = true) : Memory.wf (State.scratchStore s x1 x2 x3).mem = true := by
  induction x3 generalizing s x2 with
  | nil => exact h
  | cons e l ih => exact ih _ _ (State.scratchStore1_wf _ _ _ _ h)

@[simp] theorem State.ringPut_wf (s : State) (x1 : Nat) (x2 : Bool) (x3 : TraceRec) (h : Memory.wf s.mem = true) :
    Memory.wf (State.ringPut s x1 x2 x3).mem = true := by
  unfold State.ringPut
  dsimp only
  (repeat' split) <;> simp (maxDischargeDepth := 40) [h]

@[simp] theorem State.interlockRec_wf (s : State) (x1 : VAddr) (h : Memory.wf s.mem = true) :
    Memory.wf (State.interlockRec s x1).mem = true := by
  unfold State.interlockRec
  dsimp only
  split <;> simp (maxDischargeDepth := 40) [h]

@[simp] theorem State.driftStep_wf (s : State) (r : TraceRec) (h : Memory.wf s.mem = true) :
    Memory.wf (State.driftStep s r).mem = true := by
  have hr := State.ringPut_wf s (r.core.toNat / 40) true r h
  unfold State.driftStep
  dsimp only
  (repeat' split) <;> simp [h, hr]

@[simp] theorem State.driftFlush_wf (s : State) (h : Memory.wf s.mem = true) : Memory.wf (State.driftFlush s).mem = true := by
  unfold State.driftFlush
  split
  · exact h
  · exact foldl_wf _ (fun t e ht => State.driftStep_wf _ _ ht) _ _ h

@[simp] theorem State.clocksOver_wf (s : State) (h : Memory.wf s.mem = true) :
    Memory.wf (State.clocksOver s).mem = true := by
  unfold State.clocksOver
  exact State.driftFlush_wf _ (by simp [h])

@[simp] theorem State.openBundle_wf (s : State) (x1 : Fetched) (x2 : List (Nat × Instr)) (x3 : Option Held) (x4 :
    Option Split) (h : Memory.wf s.mem = true) : Memory.wf (State.openBundle s x1 x2 x3 x4).mem = true := by
  unfold State.openBundle
  dsimp only
  (repeat' split) <;> simp (maxDischargeDepth := 40) [h]

@[simp] theorem State.arrive_wf (s : State) (x1 : BitVec 8) (h : Memory.wf s.mem = true) :
    Memory.wf (State.arrive s x1).mem = true := by
  unfold State.arrive
  dsimp only
  (repeat' split) <;> simp (maxDischargeDepth := 40) [h]

theorem State.openOr_wf (s v : State) (x1 : Fetched) (x2 : List (Nat × Instr)) (x3 : Option Held) (x4 :
    Option Split) (h : Memory.wf s.mem = true) : Try.Wf (State.openOr s v x1 x2 x3 x4) := by
  unfold State.openOr
  dsimp only
  split
  · split
    · rename_i hn
      exact (State.notice_mem _ _ _ hn ▸ h : _)
    · exact h
  · split
    · simp [h]
    · exact State.openBundle_wf _ _ _ _ _ (by rw [State.needsMet_mem]; exact h)

theorem State.tryOpen_wf (s : State) (x1 : Fetched) (x2 : List (Nat × Instr)) (x3 : Option Held) (x4 :
    Option Split) (h : Memory.wf s.mem = true) : Try.Wf (State.tryOpen s x1 x2 x3 x4) := by
  unfold State.tryOpen
  dsimp only
  split
  · split
    · split
      · exact h
      · split <;> simp [h]
    · exact State.openOr_wf _ _ _ _ _ _ h
  · exact State.openOr_wf _ _ _ _ _ _ h

theorem State.tryResume_wf (s : State) (x1 : Fetched) (h : Memory.wf s.mem = true) :
    Try.Wf (State.tryResume s x1) := by
  unfold State.tryResume
  dsimp only
  split
  · simp [h]
  · split
    · rename_i s' ht
      have hw := State.tryOpen_wf s x1 (resumedSlots ((s.c.held.map (·.regs)).getD s.c.regs) x1 s.c.sys.slot.toNat)
        s.c.held s.c.split h
      rw [ht] at hw
      exact hw
    · exact State.tryOpen_wf _ _ _ _ _ h

theorem State.tryFetch_wf (s : State) (h : Memory.wf s.mem = true) : Try.Wf (State.tryFetch s) := by
  have hs : ∀ l, Memory.wf (s.needMet (l2Of (coreOf s.id)) l false).mem = true := fun l => by simp [h]
  unfold State.tryFetch
  dsimp only
  split
  · simp [h]
  · split
    · simp [h]
    · split
      · simp [h]
      · split
        · exact State.tryResume_wf _ _ (hs _)
        · split
          · simp [h]
          · split
            · rename_i f _ _ _ slots _ _ s' ht
              have hw := State.tryOpen_wf (s.needMet (l2Of (coreOf s.id)) (if s.coherent then s.fetchLines else []) false)
                f slots none none (hs _)
              rw [ht] at hw
              exact hw
            · exact State.tryOpen_wf _ _ _ _ _ (hs _)

theorem State.tryIssue_wf (s : State) (h : Memory.wf s.mem = true) : Try.Wf (State.tryIssue s) := by
  unfold State.tryIssue
  dsimp only
  split
  · exact h
  · split
    · simp [h]
    · simp [State.stopForSave, h]
    · simp [h]
    · simp [h]
    · exact State.tryFetch_wf _ (by simp [h])

@[simp] theorem State.closeBundle_wf (s : State) (h : Memory.wf s.mem = true) :
    Memory.wf (State.closeBundle s).mem = true := by
  have hd := State.drainOver_wf s h
  unfold State.closeBundle
  dsimp only
  (repeat' split) <;> simp (maxDischargeDepth := 40) [hd]

theorem execSt_wf (x0 : AMem) (x1 : SReg) (s : State) (h : Memory.wf s.mem = true) : Out.Wf (execSt x0 x1 s) := by
  unfold execSt
  apply State.guarded_wf _ _ _ _ h
  dsimp only
  split
  · simp [h]
  · exact State.amemGo_wf _ _ _ (fun t ht => by split <;> simp [ht]) h

@[simp] theorem State.logDrift_wf (s : State) (x1 : Word) (h : Memory.wf s.mem = true) :
    Memory.wf (State.logDrift s x1).mem = true := by
  unfold State.logDrift
  simp (maxDischargeDepth := 40) [h]

theorem execMarker_wf (x0 : BitVec 26) (s : State) (h : Memory.wf s.mem = true) : Out.Wf (execMarker x0 s) := by
  unfold execMarker
  dsimp only
  (repeat' split) <;> simp (maxDischargeDepth := 40) [h]

@[simp] theorem State.storeRow_wf (s : State) (x1 : TAccess) (x2 : Bool) (x3 : Nat) (x4 : Nat) (h :
    Memory.wf s.mem = true) : Memory.wf (State.storeRow s x1 x2 x3 x4).mem = true := by
  unfold State.storeRow
  dsimp only
  (repeat' split) <;> simp (maxDischargeDepth := 40) [h]

@[simp] theorem State.storeRows_wf (s : State) (x1 : TAccess) (x2 : Bool) (h : Memory.wf s.mem = true) :
    Memory.wf (State.storeRows s x1 x2).mem = true := by
  unfold State.storeRows
  apply foldl_wf _ _ _ _ h
  intro t i ht
  split
  · exact State.storeRow_wf _ _ _ _ _ ht
  · exact ht

theorem execTst_wf (x0 : TReg) (x1 : TMem) (x2 : Port) (s : State) (h : Memory.wf s.mem = true) :
    Out.Wf (execTst x0 x1 x2 s) := by
  unfold execTst
  apply State.guarded_wf _ _ _ _ h
  exact State.tGo_wf _ _ _ _ (fun t ht => by simp [ht]) h

theorem execTstl_wf (x0 : TReg) (x1 : TMem) (x2 : Bool) (x3 : Port) (s : State) (h : Memory.wf s.mem = true) :
    Out.Wf (execTstl x0 x1 x2 x3 s) := by
  unfold execTstl
  apply State.guarded_wf _ _ _ _ h
  exact State.tGo_wf _ _ _ _ (fun t ht => by simp [ht]) h

@[simp] theorem State.qFail_wf (s : State) (x1 : Nat) (x2 : QOp) (x3 : Nat) (x4 : BitVec 64) (h :
    Memory.wf s.mem = true) : Memory.wf (State.qFail s x1 x2 x3 x4).mem = true := by
  unfold State.qFail
  exact State.withWalks_wf _ _ _ _ _ _ _ _ (fun t ht => by simp [ht]) h

theorem execMatrixOpExecute_wf (s : State) (h : Memory.wf s.mem = true) : Out.Wf (execMatrixOpExecute s) := by
  unfold execMatrixOpExecute
  dsimp only
  (repeat' split) <;> simp (maxDischargeDepth := 40) [h]

@[simp] theorem State.qRepeat_wf (s : State) (x1 : Nat) (x2 : QOp) (h : Memory.wf s.mem = true) :
    Memory.wf (State.qRepeat s x1 x2).mem = true := by
  unfold State.qRepeat
  dsimp only
  (repeat' split) <;> simp (maxDischargeDepth := 40) [h]

theorem execMatrixOpComplete_wf (s : State) (h : Memory.wf s.mem = true) : Out.Wf (execMatrixOpComplete s) := by
  unfold execMatrixOpComplete
  dsimp only
  split
  · simp [h]
  · apply State.when_wf _ _ _ _ h
    split <;> simp [h]

@[simp] theorem State.engWrite_wf (s : State) (x1 : Nat) (x2 : Cmd) (x3 : Nat) (x4 : Byte) (x5 : Bool) (h :
    Memory.wf s.mem = true) : Memory.wf (State.engWrite s x1 x2 x3 x4 x5).mem = true := by
  have hp := State.perform_wf (s.performOwn x1 x3 1 x2.seq) none (2000 + x1) x2.seq x3 x4 x5 (by simp [h])
  unfold State.engWrite
  exact wf_ite (by rw [State.modCtx_mem]; exact hp) hp

@[simp] theorem State.engWrites_wf (s : State) (x1 : Nat) (x2 : Cmd) (x3 : Nat) (x4 : List Byte) (x5 : Bool) (h :
    Memory.wf s.mem = true) : Memory.wf (State.engWrites s x1 x2 x3 x4 x5).mem = true := by
  induction x4 generalizing s x3 with
  | nil => exact h
  | cons e l ih => exact ih _ _ (State.engWrite_wf _ _ _ _ _ _ h)

@[simp] theorem State.putPiece_wf (s : State) (x1 : Nat) (x2 : Cmd) (x3 : Side) (x4 : Nat) (x5 : Nat) (x6 :
    List Byte) (h : Memory.wf s.mem = true) : Memory.wf (State.putPiece s x1 x2 x3 x4 x5 x6).mem = true := by
  unfold State.putPiece
  dsimp only
  (repeat' split) <;> simp (maxDischargeDepth := 40) [h]

@[simp] theorem State.movePiece_wf (s : State) (x1 : Nat) (x2 : Cmd) (x3 : Side) (x4 : Side) (x5 : Nat) (x6 :
    Nat) (h : Memory.wf s.mem = true) : Memory.wf (State.movePiece s x1 x2 x3 x4 x5 x6).mem = true := by
  unfold State.movePiece
  dsimp only
  (repeat' split) <;> simp (maxDischargeDepth := 40) [h]

@[simp] theorem State.movedPiece_wf (s : State) (x : Nat) (q : Cmd) (a d : Side) (b n : Nat)
    (h : Memory.wf s.mem = true) : Memory.wf (State.movedPiece s x q a d b n).2.mem = true := by
  unfold State.movedPiece
  dsimp only
  split <;> simp [h]

@[simp] theorem State.moveStream_wf (s : State) (x1 : Nat) (x2 : Cmd) (x3 : Side) (x4 : Side) (x5 : Nat) (x6 x7 :
    Nat) (h : Memory.wf s.mem = true) : Memory.wf (State.moveStream s x1 x2 x3 x4 x5 x6 x7).mem = true := by
  induction x5 generalizing s x2 x6 x7 with
  | zero => exact h
  | succ n ih =>
    simp only [State.moveStream]
    split
    · exact h
    · split
      · simp [h]
      · split
        · simp [h]
        · split
          · exact wf_ite (by rw [State.modHead_mem]; exact wf_pair_ite _ (by simp [h]) (by simp [h]))
              (wf_pair_ite _ (by simp [h]) (by simp [h]))
          · refine wf_ite (ih _ _ _ _ ?_) ?_ <;> exact State.movedPiece_wf _ _ _ _ _ _ _ (by simp [h])

theorem execCopyCommandExecute_wf (s : State) (h : Memory.wf s.mem = true) : Out.Wf (execCopyCommandExecute s) := by
  unfold execCopyCommandExecute
  dsimp only
  (repeat' split) <;> simp (maxDischargeDepth := 40) [h]

@[simp] theorem State.plainFlag_wf (s : State) (x : Nat) (q : Cmd) (pa : Nat) (h : Memory.wf s.mem = true) :
    Memory.wf (State.plainFlag s x q pa).mem = true := by
  have he := State.engWrites_wf s x q pa q.flagBytes false h
  unfold State.plainFlag
  rw [State.release_mem, State.pubBytes_mem]
  exact he

@[simp] theorem State.writeFlag_wf (s : State) (x1 : Nat) (x2 : Cmd) (h : Memory.wf s.mem = true) :
    Memory.wf (State.writeFlag s x1 x2).mem = true := by
  have hp := State.plainFlag_wf s x1 x2 (s.flagPa x1 x2) h
  unfold State.writeFlag
  (repeat' split) <;> simp [h, hp]

theorem execCopyCommandComplete_wf (s : State) (h : Memory.wf s.mem = true) : Out.Wf (execCopyCommandComplete s) := by
  unfold execCopyCommandComplete
  dsimp only
  split
  · simp [h]
  · split
    · simp [h]
    · split
      · split
        · simp [h]
        · rw [Out.wf_next]
          apply State.withLines_wf _ _ _ _ _ _ _ _ h
          split <;> simp [h]
      · simp [h]

theorem execCopyEngineFault_wf (s : State) (h : Memory.wf s.mem = true) : Out.Wf (execCopyEngineFault s) := by
  unfold execCopyEngineFault
  dsimp only
  split
  · simp [h]
  · split
    · simp [h]
    · split
      · simp [h]
      · rw [Out.wf_next]
        exact State.withWalks_wf _ _ _ _ _ _ _ _ (fun t ht => by simp [ht]) h

@[simp] theorem State.signalEvent_wf (s : State) (r : Option Region) (x1 : Nat) (x2 : Bool) (h : Memory.wf s.mem = true) :
    Memory.wf (State.signalEvent s r x1 x2).mem = true := by
  unfold State.signalEvent
  dsimp only
  (repeat' split) <;> simp (maxDischargeDepth := 40) [h]

@[simp] theorem State.cpWrite_wf (s : State) (x1 : Nat) (x2 : List Byte) (h : Memory.wf s.mem = true) :
    Memory.wf (State.cpWrite s x1 x2).mem = true := by
  unfold State.cpWrite
  exact State.placeWrite_wf _ _ _ _ h

@[simp] theorem State.setRead_wf (s : State) (x1 : Fin 64) (x2 : Nat) (h : Memory.wf s.mem = true) :
    Memory.wf (State.setRead s x1 x2).mem = true := by
  unfold State.setRead
  exact State.cpWrite_wf _ _ _ h

@[simp] theorem State.startEntry_wf (s : State) (x1 : Fin 64) (x2 : Nat) (x3 : Bool) (h : Memory.wf s.mem = true) :
    Memory.wf (State.startEntry s x1 x2 x3).mem = true := by
  unfold State.startEntry
  simp (maxDischargeDepth := 40) [h]

@[simp] theorem State.haltQueue_wf (s : State) (x1 : Fin 64) (x2 : Nat) (x3 : Nat) (h : Memory.wf s.mem = true) :
    Memory.wf (State.haltQueue s x1 x2 x3).mem = true := by
  unfold State.haltQueue
  simp (maxDischargeDepth := 40) [h]

theorem State.packetStep_wf (s : State) (x1 : Nat) (x2 : Packet8 → State) (h_x2 :
    ∀ p, Memory.wf (x2 p).mem = true) (h : Memory.wf s.mem = true) : Out.Wf (State.packetStep s x1 x2) := by
  unfold State.packetStep
  dsimp only
  split
  · simp [h]
  · split
    · rw [Out.wf_next]
      refine State.atHomes_wf _ _ _ _ _ _ (State.atHomes_wf _ _ _ _ _ _ ?_ h) h
      split <;> simp [h, h_x2]
    · simp [h]

theorem State.checked_wf (s : State) (x1 : Packet8) (x2 : Option Nat) (x3 : State → State) (hg :
    Memory.wf (x3 s).mem = true) (h : Memory.wf s.mem = true) : Memory.wf (State.checked s x1 x2 x3).mem = true := by
  unfold State.checked
  split <;> simp [h, hg]

theorem execNopPacket_wf (s : State) (h : Memory.wf s.mem = true) : Out.Wf (execNopPacket s) := by
  unfold execNopPacket
  exact State.packetStep_wf _ _ _ (fun p => State.checked_wf _ _ _ _ (by simp [h]) h) h

theorem execBarrierPacket_wf (s : State) (h : Memory.wf s.mem = true) : Out.Wf (execBarrierPacket s) := by
  unfold execBarrierPacket
  refine State.packetStep_wf _ _ _ (fun p => ?_) h
  split
  · exact State.checked_wf _ _ _ _ (by simp [h]) h
  · exact h

theorem execEvsignal_wf (s : State) (h : Memory.wf s.mem = true) : Out.Wf (execEvsignal s) := by
  unfold execEvsignal
  refine State.packetStep_wf _ _ _ (fun p => ?_) h
  split
  · simp [h]
  · exact State.atHomes_wf _ _ _ _ _ _ (by simp [h]) h

theorem execEvwaitPacket_wf (s : State) (h : Memory.wf s.mem = true) : Out.Wf (execEvwaitPacket s) := by
  unfold execEvwaitPacket
  refine State.packetStep_wf _ _ _ (fun p => ?_) h
  (repeat' split) <;> simp [h]

@[simp] theorem State.startLaunch_wf (s : State) (x1 : Packet8) (x2 : Launch) (h : Memory.wf s.mem = true) :
    Memory.wf (State.startLaunch s x1 x2).mem = true := by
  unfold State.startLaunch
  simp (maxDischargeDepth := 40) [State.took, h]

theorem execLaunch_wf (s : State) (h : Memory.wf s.mem = true) : Out.Wf (execLaunch s) := by
  unfold execLaunch
  refine State.packetStep_wf _ _ _ (fun p => State.checked_wf _ _ _ _ ?_ h) h
  (repeat' split) <;> simp [h]

theorem execTiletasks_wf (s : State) (h : Memory.wf s.mem = true) : Out.Wf (execTiletasks s) := by
  unfold execTiletasks
  refine State.packetStep_wf _ _ _ (fun p => State.checked_wf _ _ _ _ ?_ h) h
  dsimp only
  (repeat' split) <;> simp [h]

@[simp] theorem State.dropRegion_mem (s : State) (id : BitVec 16) : (s.dropRegion id).mem = s.mem := by
  unfold State.dropRegion
  split
  · rfl
  · dsimp only
    rw [foldl_mem _ (fun t x => State.fabError_mem _ _ _)]
    simp

@[simp] theorem State.writeStatus_wf (s : State) (l : Launch) (h : Memory.wf s.mem = true) :
    Memory.wf (s.writeStatus l).mem = true := by
  unfold State.writeStatus
  split
  · exact State.spanWrite_wf _ _ _ _ _ _ h
  · exact h

@[simp] theorem State.completeLaunch_wf (s : State) (l : Launch) (h : Memory.wf s.mem = true) :
    Memory.wf (s.completeLaunch l).mem = true := by
  unfold State.completeLaunch
  rw [State.dropRegion_mem, State.entryDone_mem]
  dsimp only
  split
  · rw [State.modLaunch_mem]
    exact State.signalEvent_wf _ _ _ _ (State.writeStatus_wf _ _ h)
  · exact State.signalEvent_wf _ _ _ _ (State.writeStatus_wf _ _ h)

theorem execLaunchComplete_wf (s : State) (h : Memory.wf s.mem = true) : Out.Wf (execLaunchComplete s) := by
  unfold execLaunchComplete
  split
  · simp [h]
  · exact Out.wf_ite (by simp [h]) ((Out.wf_next _).2 (State.atHomes_wf _ _ _ _ _ _ (State.completeLaunch_wf _ _ h) h))

@[simp] theorem State.unhalt_wf (s : State) (x1 : Fin 64) (h : Memory.wf s.mem = true) :
    Memory.wf (State.unhalt s x1).mem = true := by
  unfold State.unhalt
  simp (maxDischargeDepth := 40) [h]

@[simp] theorem State.skipEntry_wf (s : State) (q : Fin 64) (h : Memory.wf s.mem = true) :
    Memory.wf (State.skipEntry s q).mem = true := by
  unfold State.skipEntry
  dsimp only
  split <;> simp [h]

@[simp] theorem State.queueCmd_wf (s : State) (q : Fin 64) (skip : Bool) (h : Memory.wf s.mem = true) :
    Memory.wf (State.queueCmd s q skip).mem = true := by
  unfold State.queueCmd
  split
  · simp [h]
  · dsimp only
    rw [State.dropAsker_mem, State.homesMet_mem]
    (repeat' split) <;> simp [h]

@[simp] theorem State.queueCmds_wf (s : State) (h : Memory.wf s.mem = true) : Memory.wf s.queueCmds.mem = true := by
  unfold State.queueCmds
  exact foldl_wf _ (fun t e ht => State.queueCmd_wf _ _ _ ht) _ _ h

theorem State.qctl_wf (s : State) (skip : Bool) (h : Memory.wf s.mem = true) : Out.Wf (s.qctl skip) := by
  unfold State.qctl
  exact State.when_wf _ _ _ (by simp [h]) h

theorem execQctlRetry_wf (s : State) (h : Memory.wf s.mem = true) : Out.Wf (execQctlRetry s) := s.qctl_wf _ h

theorem execQctlSkip_wf (s : State) (h : Memory.wf s.mem = true) : Out.Wf (execQctlSkip s) := s.qctl_wf _ h

theorem execQpost_wf (x0 : SReg) (x1 : BitVec 18) (s : State) (h : Memory.wf s.mem = true) :
    Out.Wf (execQpost x0 x1 s) := by
  unfold execQpost
  dsimp only
  (repeat' split) <;> simp (maxDischargeDepth := 40) [h]

@[simp] theorem State.loadSheaf_wf (s : State) (x1 : Region) (x2 : Nat) (x3 : Nat) (x4 : BitVec 64) (x5 : Nat) (x6 :
    Nat) (h : Memory.wf s.mem = true) : Memory.wf (State.loadSheaf s x1 x2 x3 x4 x5 x6).mem = true := by
  unfold State.loadSheaf
  dsimp only
  rw [State.modCore_mem]
  dsimp only
  generalize List.range _ = l
  generalize s.mem = m at h
  induction l generalizing m with
  | nil => exact h
  | cons e l ih => exact ih _ (memPut_wf _ _ h)

theorem State.withSheaf_wf (s : State) (x1 : Ready) (x2 : Nat) (h : Memory.wf s.mem = true) :
    ∀ t, (State.withSheaf s x1 x2) = some t → Memory.wf t.1.mem = true := by
  intro t ht
  unfold State.withSheaf at ht
  dsimp only at ht
  split at ht
  · cases ht
    exact h
  · split at ht
    · cases ht
    · simp only [Option.map_eq_some_iff] at ht
      obtain ⟨b, -, rfl⟩ := ht
      simp [h]

theorem State.withImage_wf (s : State) (t : Ready) (x : Nat) (go : State → State)
    (hg : ∀ t, Memory.wf t.mem = true → Memory.wf (go t).mem = true) (h : Memory.wf s.mem = true) :
    Memory.wf (s.withImage t x go).mem = true := by
  unfold State.withImage
  dsimp only
  split
  · simp [h]
  · rw [State.dropAsker_mem, State.needMet_mem]
    exact hg _ (by simp [h])

theorem execTaskBind_wf (s : State) (h : Memory.wf s.mem = true) : Out.Wf (execTaskBind s) := by
  unfold execTaskBind
  have hn : Memory.wf s.noteReady.mem = true := by simp [h]
  dsimp only
  split
  · simp [h]
  · split
    · simp [h]
    · rw [Out.wf_next]
      refine State.withImage_wf _ _ _ _ (fun t ht => ?_) hn
      split
      · simp [ht]
      · rename_i hs
        have := State.withSheaf_wf _ _ _ ht _ hs
        simp [this]

theorem execTaskExitRelease_wf (s : State) (h : Memory.wf s.mem = true) : Out.Wf (execTaskExitRelease s) := by
  unfold execTaskExitRelease
  dsimp only
  split
  · split
    · simp [h]
    · split
      · simp [h]
      · rw [Out.wf_next]
        exact State.withLines_wf _ _ _ _ _ _ _ (by simp [h]) h
  · simp [h]

theorem execContextSave_wf (s : State) (h : Memory.wf s.mem = true) : Out.Wf (execContextSave s) := by
  unfold execContextSave
  dsimp only
  split
  · split
    · simp [h]
    · rw [Out.wf_next]
      exact State.withLines_wf _ _ _ _ _ _ _ (by simp [h]) h
  · simp [h]

theorem execResume_wf (s : State) (h : Memory.wf s.mem = true) : Out.Wf (execResume s) := by
  unfold execResume
  have hn : Memory.wf s.noteReady.mem = true := by simp [h]
  dsimp only
  split
  · simp [h]
  · split
    · simp [h]
    · rw [Out.wf_next]
      refine State.withImage_wf _ _ _ _ (fun t ht => ?_) hn
      split
      · rename_i hs _
        have := State.withSheaf_wf _ _ _ ht _ hs
        simp [this]
      · simp [ht]

@[simp] theorem State.switchNext_wf (s : State) (h : Memory.wf s.mem = true) :
    Memory.wf (State.switchNext s).mem = true := by
  unfold State.switchNext
  split <;> simp (maxDischargeDepth := 40) [h]

theorem execContextSwitch_wf (s : State) (h : Memory.wf s.mem = true) : Out.Wf (execContextSwitch s) := by
  unfold execContextSwitch
  dsimp only
  (repeat' split) <;> simp (maxDischargeDepth := 40) [h]

theorem execQuantumExpiry_wf (s : State) (h : Memory.wf s.mem = true) : Out.Wf (execQuantumExpiry s) := by
  unfold execQuantumExpiry
  dsimp only
  (repeat' split) <;> simp (maxDischargeDepth := 40) [h]

theorem State.attempt_wf (s : State) (h : Memory.wf s.mem = true) : Memory.wf s.attempt.mem = true := by
  have hw := State.tryIssue_wf s h
  unfold State.attempt
  revert hw
  generalize s.tryIssue = r
  intro hw
  split
  · exact State.switchNext_wf _ h
  · cases r with
    | instead t => exact State.dropAsker_mem t _ ▸ hw
    | wait w t =>
      dsimp only
      split
      · exact State.switchNext_wf _ hw
      · rw [State.stallClock_mem]
        exact hw
    | opened t => exact State.dropAsker_mem t _ ▸ hw

theorem execIssueBundle_wf (s : State) (h : Memory.wf s.mem = true) : Out.Wf (execIssueBundle s) := by
  unfold execIssueBundle
  dsimp only
  split
  · simp [h]
  · split
    · simp [h]
    · exact (Out.wf_next _).2 (State.attempt_wf _ (by split <;> simp [h]))

theorem execPhaseComplete_wf (s : State) (h : Memory.wf s.mem = true) : Out.Wf (execPhaseComplete s) := by
  unfold execPhaseComplete
  dsimp only
  split
  · simp [h]
  · exact Out.wf_ite (by simp [h]) ((Out.wf_next _).2 (State.withLines_wf _ _ _ _ _ _ _ (by simp [h]) h))

@[simp] theorem State.atomicWrite_wf (s : State) (x1 : Nat) (x2 : Atomic) (h : Memory.wf s.mem = true) :
    Memory.wf (State.atomicWrite s x1 x2).1.mem = true := by
  have h1 : Memory.wf (s.performOwn x1 x2.pa x2.size x2.seq).mem = true := by simp [h]
  unfold State.atomicWrite
  dsimp only
  (repeat' split) <;> simp [h1]

@[simp] theorem State.atomicAtHome_wf (s : State) (x n : Nat) (a : Atomic) (h : Memory.wf s.mem = true) :
    Memory.wf (State.atomicAtHome s x n a).mem = true := by
  unfold State.atomicAtHome
  apply State.withLines_wf _ _ _ _ _ _ _ _ h
  dsimp only
  (repeat' split) <;> simp [h]

@[simp] theorem State.releasePub_wf (s : State) (x n : Nat) (a : Atomic) (scope : BitVec 2) (joined : List Nat)
    (h : Memory.wf s.mem = true) : Memory.wf (State.releasePub s x n a scope joined).mem = true := by
  unfold State.releasePub
  simp [h]

theorem execAtomicPerformed_wf (s : State) (h : Memory.wf s.mem = true) : Out.Wf (execAtomicPerformed s) := by
  unfold execAtomicPerformed
  dsimp only
  split
  · simp [h]
  · split
    · exact Out.wf_ite (by simp [h]) (by simp [h])
    · refine Out.wf_ite (by simp [h]) ?_
      split <;> simp [h]

theorem execStoreBecomesVisible_wf (s : State) (h : Memory.wf s.mem = true) : Out.Wf (execStoreBecomesVisible s) := by
  unfold execStoreBecomesVisible
  dsimp only
  split
  · simp [h]
  · split
    · simp [h]
    · rw [Out.wf_next]
      exact State.withLines_wf _ _ _ _ _ _ _ (by simp [h]) h

theorem execSendtArm_wf (s : State) (h : Memory.wf s.mem = true) : Out.Wf (execSendtArm s) := by
  unfold execSendtArm
  dsimp only
  split
  · simp [h]
  · split
    · simp [h]
    · rw [Out.wf_next]
      apply State.withLines_wf _ _ _ _ _ _ _ _ h
      (repeat' split) <;> simp [h]

theorem execRpostPerform_wf (s : State) (h : Memory.wf s.mem = true) : Out.Wf (execRpostPerform s) := by
  unfold execRpostPerform
  dsimp only
  split
  · simp [h]
  · split
    · simp [h]
    · rw [Out.wf_next]
      apply State.withLines_wf _ _ _ _ _ _ _ _ h
      (repeat' split) <;> simp [h]

theorem State.receive_wf (s : State) (x1 : Packet → Nat → Bool) (x2 : State → Packet → List Nat) (x3 :
    State → Packet → BitVec 16 → State) (h_x3 : ∀ t p e, Memory.wf t.mem = true → Memory.wf (x3 t p e).mem = true) (h :
    Memory.wf s.mem = true) : Out.Wf (State.receive s x1 x2 x3) := by
  unfold State.receive
  dsimp only
  split
  · simp [h]
  · rename_i hs
    have h1 := State.takePkt_mem _ _ hs
    rw [← h1] at h
    have h0 : Memory.wf s.mem = true := by rw [← h1]; exact h
    split
    · simp [h]
    · split
      · simp [h]
      · split
        · split
          · simp [h0]
          · simp [h_x3, h]
        · simp [h0]

theorem execRouteForward_wf (s : State) (h : Memory.wf s.mem = true) : Out.Wf (execRouteForward s) := by
  unfold execRouteForward
  refine State.receive_wf _ _ _ _ (fun t p e h => ?_) h
  simp [h]

@[simp] theorem State.putAgent_wf (s : State) (x1 : Region) (n x2 : Nat) (x3 : Nat) (x4 : List Byte) (h :
    Memory.wf s.mem = true) : Memory.wf (State.putAgent s x1 n x2 x3 x4).mem = true := by
  induction x2 generalizing s x3 x4 with
  | zero => exact h
  | succ n ih =>
    simp only [State.putAgent]
    split
    · exact h
    · apply ih
      split
      · simp [h]
      · split <;> simp [h]
      · simp [h]

@[simp] theorem State.putFlag_wf (s : State) (r : Region) (p : Packet) (h : Memory.wf s.mem = true) :
    Memory.wf (State.putFlag s r p).mem = true := by
  unfold State.putFlag
  dsimp only
  split <;> simp [h]

@[simp] theorem State.deliver_wf (s : State) (x1 : Option (Fin 16)) (x2 : Packet) (x3 : Option (BitVec 6)) (x4 :
    Bool) (h : Memory.wf s.mem = true) : Memory.wf (State.deliver s x1 x2 x3 x4).2.mem = true := by
  unfold State.deliver
  dsimp only
  (repeat' split) <;> simp (maxDischargeDepth := 40) [h]

theorem execRouteDeliver_wf (s : State) (h : Memory.wf s.mem = true) : Out.Wf (execRouteDeliver s) := by
  unfold execRouteDeliver
  refine State.receive_wf _ _ _ _ (fun t p e h => ?_) h
  simp [h]

theorem execRouteDeliverCounter_wf (s : State) (h : Memory.wf s.mem = true) : Out.Wf (execRouteDeliverCounter s) := by
  unfold execRouteDeliverCounter
  refine State.receive_wf _ _ _ _ (fun t p e h => ?_) h
  simp [h]

theorem execRouteDeliverForward_wf (s : State) (h : Memory.wf s.mem = true) : Out.Wf (execRouteDeliverForward s) := by
  unfold execRouteDeliverForward
  refine State.receive_wf _ _ _ _ (fun t p e h => ?_) h
  dsimp only
  (repeat' split) <;> simp [h]

theorem execRouteTileArrival_wf (s : State) (h : Memory.wf s.mem = true) : Out.Wf (execRouteTileArrival s) := by
  unfold execRouteTileArrival
  refine State.receive_wf _ _ _ _ (fun t p e h => ?_) h
  simp [h]

theorem execRouteReduce_wf (s : State) (h : Memory.wf s.mem = true) : Out.Wf (execRouteReduce s) := by
  unfold execRouteReduce
  refine State.receive_wf _ _ _ _ (fun t p e h => ?_) h
  simp [h]

@[simp] theorem State.endColl_wf (s : State) (x1 : Coll) (x2 : Bool) (h : Memory.wf s.mem = true) :
    Memory.wf (State.endColl s x1 x2).mem = true := by
  unfold State.endColl
  simp (maxDischargeDepth := 40) [h]

@[simp] theorem State.startColl_wf (s : State) (x1 : Packet8) (x2 : Region) (x3 : List Byte) (x4 : Nat) (h :
    Memory.wf s.mem = true) : Memory.wf (State.startColl s x1 x2 x3 x4).mem = true := by
  unfold State.startColl
  dsimp only
  (repeat' split) <;> simp (maxDischargeDepth := 40) [h]

theorem execCollective_wf (s : State) (h : Memory.wf s.mem = true) : Out.Wf (execCollective s) := by
  unfold execCollective
  refine State.packetStep_wf _ _ _ (fun p => State.checked_wf _ _ _ _ ?_ h) h
  split
  · split
    · exact h
    · dsimp only
      split
      · simp [h]
      · exact State.atHomes_wf _ _ _ _ _ _ (by simp [h]) h
  · exact h

theorem execCollectiveTimeout_wf (s : State) (h : Memory.wf s.mem = true) : Out.Wf (execCollectiveTimeout s) := by
  unfold execCollectiveTimeout
  split
  · simp [h]
  · exact (Out.wf_next _).2 (State.atHomes_wf _ _ _ _ _ _ (by simp [h]) (by simp [h]))

@[simp] theorem State.chunkDone_wf (s : State) (x1 : BitVec 32) (x2 : BitVec 32) (h : Memory.wf s.mem = true) :
    Memory.wf (State.chunkDone s x1 x2).mem = true := by
  unfold State.chunkDone
  dsimp only
  (repeat' split) <;> simp (maxDischargeDepth := 40) [h]

theorem execAcknowledgement_wf (s : State) (h : Memory.wf s.mem = true) : Out.Wf (execAcknowledgement s) := by
  unfold execAcknowledgement
  refine State.receive_wf _ _ _ _ (fun t p e h => ?_) h
  (repeat' split) <;> simp [h]

theorem execRefusal_wf (s : State) (h : Memory.wf s.mem = true) : Out.Wf (execRefusal s) := by
  unfold execRefusal
  refine State.receive_wf _ _ _ _ (fun t p e h => ?_) h
  (repeat' split) <;> simp [h]

theorem execLapseNotice_wf (s : State) (h : Memory.wf s.mem = true) : Out.Wf (execLapseNotice s) := by
  unfold execLapseNotice
  refine State.receive_wf _ _ _ _ (fun t p e h => ?_) h
  simp [h]

theorem execBarrierArrival_wf (s : State) (h : Memory.wf s.mem = true) : Out.Wf (execBarrierArrival s) := by
  unfold execBarrierArrival
  refine State.receive_wf _ _ _ _ (fun t p e h => ?_) h
  dsimp only
  split
  · simp [h]
  · rw [foldl_mem _ (fun u c => State.sendControl_mem _ _)]
    simp [h]

theorem execBarrierRelease_wf (s : State) (h : Memory.wf s.mem = true) : Out.Wf (execBarrierRelease s) := by
  unfold execBarrierRelease
  refine State.receive_wf _ _ _ _ (fun t p e h => ?_) h
  dsimp only
  (repeat' split) <;> simp [h]

theorem execPackageReset_wf (s : State) (h : Memory.wf s.mem = true) : Out.Wf (execPackageReset s) := by
  simp [execPackageReset, State.reset, Memory.wf]

theorem execTraceFifoDrain_wf (s : State) (h : Memory.wf s.mem = true) : Out.Wf (execTraceFifoDrain s) := by
  unfold execTraceFifoDrain
  dsimp only
  split
  · simp [h]
  · rw [Out.wf_next]
    exact State.atHomes_wf _ _ _ _ _ _ (by simp [h]) h

@[simp] theorem State.hostStore_wf (s : State) (x1 x2 : Nat) (x3 : List Byte) (h : Memory.wf s.mem = true) :
    Memory.wf (State.hostStore s x1 x2 x3).mem = true := by
  unfold State.hostStore
  (repeat' split)
  · exact foldl_wf _ (fun t e ht => by simp [ht]) _ _ h
  · simp [h]
  · exact h

@[simp] theorem State.barWrite_wf (s : State) (x1 x2 : Nat) (x3 : List Byte) (h : Memory.wf s.mem = true) :
    Memory.wf (State.barWrite s x1 x2 x3).mem = true := by
  unfold State.barWrite
  split <;> simp [State.unsupported, h]

theorem execHostWrite_wf (s : State) (h : Memory.wf s.mem = true) : Out.Wf (execHostWrite s) := by
  unfold execHostWrite
  split
  · simp [h]
  split
  · simp [h]
  · split
    · simp [h]
    · rw [Out.wf_next]
      exact State.withLines_wf _ _ _ _ _ _ _ (by simp [h]) h

theorem execHostBisnpResponse_wf (s : State) (h : Memory.wf s.mem = true) : Out.Wf (execHostBisnpResponse s) := by
  unfold execHostBisnpResponse
  apply State.when_wf _ _ _ _ h
  dsimp only
  (repeat' split) <;> simp (maxDischargeDepth := 40) [h]

@[simp] theorem State.regenerate_wf (s : State) (x1 : Nat) (h : Memory.wf s.mem = true) :
    Memory.wf (State.regenerate s x1).mem = true := by
  unfold State.regenerate
  simp (maxDischargeDepth := 40) [h]

theorem execTokenEccError_wf (s : State) (h : Memory.wf s.mem = true) : Out.Wf (execTokenEccError s) := by
  unfold execTokenEccError
  split
  · simp [h]
  · exact State.when_wf _ _ _ (by simp [h]) h

theorem execDieRejoin_wf (s : State) (h : Memory.wf s.mem = true) : Out.Wf (execDieRejoin s) := by
  unfold execDieRejoin
  exact State.when_wf _ _ _ (filter_wf _ h) h

theorem execTokenRecoveryRegenerate_wf (s : State) (h : Memory.wf s.mem = true) :
    Out.Wf (execTokenRecoveryRegenerate s) := by
  unfold execTokenRecoveryRegenerate
  refine State.when_wf _ _ _ ?_ h
  rw [State.msiAll_mem]
  exact foldl_wf _ (fun t l ht => by simp [ht]) _ _
    (foldl_wf _ (fun t l ht => State.regenerate_wf _ _ ht) _ _ h)

/-- Every instruction keeps the canonical form. -/
theorem exec_wf (i : Instr) (s : State) (h : Memory.wf s.mem = true) : Out.Wf (exec i s) := by
  cases i with
  | br g off => exact (execBr_mem g off s).wf h
  | call off => exact (execCall_mem off s).wf h
  | bri r => exact (execBri_mem r s).wf h
  | ret => exact (execRet_mem s).wf h
  | loopImm count len => exact (execLoopImm_mem count len s).wf h
  | loopReg r len => exact (execLoopReg_mem r len s).wf h
  | loopx => exact (execLoopx_mem s).wf h
  | lbuf n => exact (execLbuf_mem n s).wf h
  | marker e => exact execMarker_wf e s h
  | yield => exact (execYield_mem s).wf h
  | exit code => exact (execExit_mem code s).wf h
  | trap code => exact (execTrap_mem code s).wf h
  | eret => exact (execEret_mem s).wf h
  | sysrd r num => exact (execSysrd_mem r num s).wf h
  | syswr r num => exact (execSyswr_mem r num s).wf h
  | rfmode mask => exact (execRfmode_mem mask s).wf h
  | fmtbase b => exact (execFmtbase_mem b s).wf h
  | bkpt code => exact (execBkpt_mem code s).wf h
  | trace r kind => exact (execTrace_mem r kind s).wf h
  | add d a b g => exact (execAdd_mem d a b g s).wf h
  | sub d a b g => exact (execSub_mem d a b g s).wf h
  | mul d a b g => exact (execMul_mem d a b g s).wf h
  | mulh d a b g => exact (execMulh_mem d a b g s).wf h
  | mulhn d a b g => exact (execMulhn_mem d a b g s).wf h
  | div d a b g => exact (execDiv_mem d a b g s).wf h
  | divn d a b g => exact (execDivn_mem d a b g s).wf h
  | rem d a b g => exact (execRem_mem d a b g s).wf h
  | remn d a b g => exact (execRemn_mem d a b g s).wf h
  | and d a b g => exact (execAnd_mem d a b g s).wf h
  | or d a b g => exact (execOr_mem d a b g s).wf h
  | xor d a b g => exact (execXor_mem d a b g s).wf h
  | shl d a b g => exact (execShl_mem d a b g s).wf h
  | shr d a b g => exact (execShr_mem d a b g s).wf h
  | sra d a b g => exact (execSra_mem d a b g s).wf h
  | min d a b g => exact (execMin_mem d a b g s).wf h
  | max d a b g => exact (execMax_mem d a b g s).wf h
  | minn d a b g => exact (execMinn_mem d a b g s).wf h
  | maxn d a b g => exact (execMaxn_mem d a b g s).wf h
  | clz d a g => exact (execClz_mem d a g s).wf h
  | popc d a g => exact (execPopc_mem d a g s).wf h
  | sel d a b g => exact (execSel_mem d a b g s).wf h
  | addi d a imm => exact (execAddi_mem d a imm s).wf h
  | andi d a imm => exact (execAndi_mem d a imm s).wf h
  | ori d a imm => exact (execOri_mem d a imm s).wf h
  | xori d a imm => exact (execXori_mem d a imm s).wf h
  | shli d a amt => exact (execShli_mem d a amt s).wf h
  | shri d a amt => exact (execShri_mem d a amt s).wf h
  | srai d a amt => exact (execSrai_mem d a amt s).wf h
  | muli d a imm => exact (execMuli_mem d a imm s).wf h
  | movi d imm => exact (execMovi_mem d imm s).wf h
  | movk d q v => exact (execMovk_mem d q v s).wf h
  | cmpeq pd a b g alt => exact (execCmpeq_mem pd a b g alt s).wf h
  | cmplt pd a b g alt => exact (execCmplt_mem pd a b g alt s).wf h
  | cmpltn pd a b g alt => exact (execCmpltn_mem pd a b g alt s).wf h
  | pand pd pa pb g na nb => exact (execPand_mem pd pa pb g na nb s).wf h
  | por pd pa pb g na nb => exact (execPor_mem pd pa pb g na nb s).wf h
  | pxor pd pa pb g na nb => exact (execPxor_mem pd pa pb g na nb s).wf h
  | pmov pd pa g na => exact (execPmov_mem pd pa g na s).wf h
  | fadd d a b g rm => exact (execFadd_mem d a b g rm s).wf h
  | fsub d a b g rm => exact (execFsub_mem d a b g rm s).wf h
  | fmul d a b g rm => exact (execFmul_mem d a b g rm s).wf h
  | ffma d a b g rm => exact (execFfma_mem d a b g rm s).wf h
  | fmin d a b g => exact (execFmin_mem d a b g s).wf h
  | fmax d a b g => exact (execFmax_mem d a b g s).wf h
  | fcvti d a g rm => exact (execFcvti_mem d a g rm s).wf h
  | fcvtf d a g rm => exact (execFcvtf_mem d a g rm s).wf h
  | fcmp d a b g rel => exact (execFcmp_mem d a b g rel s).wf h
  | fcvtb d a g rm => exact (execFcvtb_mem d a g rm s).wf h
  | movli d lvl g => exact (execMovli_mem d lvl g s).wf h
  | dchk a b g => exact (execDchk_mem a b g s).wf h
  | amov ad aa g => exact (execAmov_mem ad aa g s).wf h
  | aadd ad aa r g => exact (execAadd_mem ad aa r g s).wf h
  | aaddi ad imm => exact (execAaddi_mem ad imm s).wf h
  | ainc ad aa g => exact (execAinc_mem ad aa g s).wf h
  | agset ad r fld g => exact (execAgset_mem ad r fld g s).wf h
  | agrd r aa fld g => exact (execAgrd_mem r aa fld g s).wf h
  | aidx ad aa r g => exact (execAidx_mem ad aa r g s).wf h
  | ard r aa g => exact (execArd_mem r aa g s).wf h
  | ld r m sign => exact (execLd_mem r m sign s).wf h
  | st m r => exact execSt_wf m r s h
  | pref m => exact (execPref_mem m s).wf h
  | tld t m => exact (execTld_mem t m s).wf h
  | tst t m port => exact execTst_wf t m port s h
  | tldl t m swz => exact (execTldl_mem t m swz s).wf h
  | tstl t m swz port => exact execTstl_wf t m swz port s h
  | spill x slot g port => exact (execSpill_mem x slot g port s).wf h
  | fill x slot g => exact (execFill_mem x slot g s).wf h
  | copy o flags => exact (execCopy_mem o flags s).wf h
  | copyg o flags => exact (execCopyg_mem o flags s).wf h
  | copya o flags => exact (execCopya_mem o flags s).wf h
  | engq r => exact (execEngq_mem r s).wf h
  | engrs ctx => exact (execEngrs_mem ctx s).wf h
  | engrsCancel ctx => exact (execEngrsCancel_mem ctx s).wf h
  | phase scope => exact (execPhase_mem scope s).wf h
  | vjoin => exact (execVjoin_mem s).wf h
  | amo d a r op size order scope => exact (execAmo_mem d a r op size order scope s).wf h
  | waitm d a r cond size scope => exact (execWaitm_mem d a r cond size scope s).wf h
  | qpost r queue => exact execQpost_wf r queue s h
  | evsig a scope => exact (execEvsig_mem a scope s).wf h
  | evwait a scope => exact (execEvwait_mem a scope s).wf h
  | send o flags => exact (execSend_mem o flags s).wf h
  | sendt o flags => exact (execSendt_mem o flags s).wf h
  | rxset r rx => exact (execRxset_mem r rx s).wf h
  | fbar b => exact (execFbar_mem b s).wf h
  | rpost r chip rx => exact (execRpost_mem r chip rx s).wf h
  | tadd td ta tb v => exact (execTadd_mem td ta tb v s).wf h
  | tsub td ta tb v => exact (execTsub_mem td ta tb v s).wf h
  | tmul td ta tb v => exact (execTmul_mem td ta tb v s).wf h
  | tfma td ta tb tc v => exact (execTfma_mem td ta tb tc v s).wf h
  | tmax td ta tb v => exact (execTmax_mem td ta tb v s).wf h
  | tmin td ta tb v => exact (execTmin_mem td ta tb v s).wf h
  | tabs td ta v => exact (execTabs_mem td ta v s).wf h
  | tneg td ta v => exact (execTneg_mem td ta v s).wf h
  | tadds td ta r v => exact (execTadds_mem td ta r v s).wf h
  | tmuls td ta r v => exact (execTmuls_mem td ta r v s).wf h
  | tfmas td ta r v => exact (execTfmas_mem td ta r v s).wf h
  | tcmp kd ta tb rel v => exact (execTcmp_mem kd ta tb rel v s).wf h
  | tsel td ta tb v => exact (execTsel_mem td ta tb v s).wf h
  | tcvt td ta v => exact (execTcvt_mem td ta v s).wf h
  | tiadd td ta tb v => exact (execTiadd_mem td ta tb v s).wf h
  | tisub td ta tb v => exact (execTisub_mem td ta tb v s).wf h
  | timul td ta tb v => exact (execTimul_mem td ta tb v s).wf h
  | tand td ta tb v => exact (execTand_mem td ta tb v s).wf h
  | tor td ta tb v => exact (execTor_mem td ta tb v s).wf h
  | txor td ta tb v => exact (execTxor_mem td ta tb v s).wf h
  | tshl td ta tb v => exact (execTshl_mem td ta tb v s).wf h
  | tshr td ta tb v => exact (execTshr_mem td ta tb v s).wf h
  | timax td ta tb v => exact (execTimax_mem td ta tb v s).wf h
  | timin td ta tb v => exact (execTimin_mem td ta tb v s).wf h
  | tmov td ta v => exact (execTmov_mem td ta v s).wf h
  | tfill td r v => exact (execTfill_mem td r v s).wf h
  | tfilli td imm v => exact (execTfilli_mem td imm v s).wf h
  | tiota td axis base v => exact (execTiota_mem td axis base v s).wf h
  | tshape td rows cols ty p => exact (execTshape_mem td rows cols ty p s).wf h
  | rowmov td drow ta srow sel p => exact (execRowmov_mem td drow ta srow sel p s).wf h
  | tget r ta row col sel p => exact (execTget_mem r ta row col sel p s).wf h
  | tset td row col r sel p => exact (execTset_mem td row col r sel p s).wf h
  | rrot td ta r imm v => exact (execRrot_mem td ta r imm v s).wf h
  | crot td ta r imm v => exact (execCrot_mem td ta r imm v s).wf h
  | rbc td ta r imm v => exact (execRbc_mem td ta r imm v s).wf h
  | cbc td ta r imm v => exact (execCbc_mem td ta r imm v s).wf h
  | rred td ta sub v => exact (execRred_mem td ta sub v s).wf h
  | cred td ta sub v => exact (execCred_mem td ta sub v s).wf h
  | rscan td ta sub v => exact (execRscan_mem td ta sub v s).wf h
  | tchk ta tb sel p => exact (execTchk_mem ta tb sel p s).wf h
  | tlat x slot a b useB recipA recipB neg => exact (execTlat_mem x slot a b useB recipA recipB neg s).wf h
  | tlatc x slots => exact (execTlatc_mem x slots s).wf h
  | tdev x port sel => exact (execTdev_mem x port sel s).wf h
  | lvacc x port lv op extend => exact (execLvacc_mem x port lv op extend s).wf h
  | lvclose lv r scale => exact (execLvclose_mem lv r scale s).wf h
  | lvmovToVector lv x port row => exact (execLvmovToVector_mem lv x port row s).wf h
  | lvmovToRow x row lv => exact (execLvmovToRow_mem x row lv s).wf h
  | lvset lv r leaveOpen => exact (execLvset_mem lv r leaveOpen s).wf h
  | tlatq r x slot => exact (execTlatq_mem r x slot s).wf h
  | treeclr p => exact (execTreeclr_mem p s).wf h
  | treeset ta row p => exact (execTreeset_mem ta row p s).wf h
  | treeadd r parent p => exact (execTreeadd_mem r parent p s).wf h
  | treemask kd blk p => exact (execTreemask_mem kd blk p s).wf h
  | treebias td blk p => exact (execTreebias_mem td blk p s).wf h
  | treepos td r row p => exact (execTreepos_mem td r row p s).wf h
  | treeprune td r row p => exact (execTreeprune_mem td r row p s).wf h
  | treerd r node fld p => exact (execTreerd_mem r node fld p s).wf h
  | fexp2 td ta v => exact (execFexp2_mem td ta v s).wf h
  | flog2 td ta v => exact (execFlog2_mem td ta v s).wf h
  | frcp td ta v => exact (execFrcp_mem td ta v s).wf h
  | frsqrt td ta v => exact (execFrsqrt_mem td ta v s).wf h
  | fsqrt td ta v => exact (execFsqrt_mem td ta v s).wf h
  | ftanh td ta v => exact (execFtanh_mem td ta v s).wf h
  | fsigm td ta v => exact (execFsigm_mem td ta v s).wf h
  | fexp td ta v => exact (execFexp_mem td ta v s).wf h
  | fsin td ta v => exact (execFsin_mem td ta v s).wf h
  | fcos td ta v => exact (execFcos_mem td ta v s).wf h
  | xperm td ta xp => exact (execXperm_mem td ta xp s).wf h
  | xpld xp ta row => exact (execXpld_mem xp ta row s).wf h
  | xshuf td ta kind k => exact (execXshuf_mem td ta kind k s).wf h
  | xbrev td ta => exact (execXbrev_mem td ta s).wf h
  | xtrn td ta => exact (execXtrn_mem td ta s).wf h
  | mlds ta p => exact (execMlds_mem ta p s).wf h
  | mldsl a p => exact (execMldsl_mem a p s).wf h
  | mswap p => exact (execMswap_mem p s).wf h
  | mmul cd ta asel wsel r p => exact (execMmul_mem cd ta asel wsel r p s).wf h
  | mmac cd ta asel wsel r p => exact (execMmac_mem cd ta asel wsel r p s).wf h
  | mmull cd asel wsel r p => exact (execMmull_mem cd asel wsel r p s).wf h
  | mmacl cd asel wsel r p => exact (execMmacl_mem cd asel wsel r p s).wf h
  | mmact cd ta asel wsel r p => exact (execMmact_mem cd ta asel wsel r p s).wf h
  | mzero cd p => exact (execMzero_mem cd p s).wf h
  | mrd td cd sel p => exact (execMrd_mem td cd sel p s).wf h
  | mwr cd ta sel p => exact (execMwr_mem cd ta sel p s).wf h
  | mstat td p => exact (execMstat_mem td p s).wf h
  | issueBundle => exact execIssueBundle_wf s h
  | exposedResultLanding => exact (execExposedResultLanding_mem s).wf h
  | takeInterrupt => exact (execTakeInterrupt_mem s).wf h
  | contextSwitch => exact execContextSwitch_wf s h
  | quantumExpiry => exact execQuantumExpiry_wf s h
  | clusterWake => exact (execClusterWake_mem s).wf h
  | debugRequest => exact (execDebugRequest_mem s).wf h
  | debugRelease => exact (execDebugRelease_mem s).wf h
  | globalLoadComplete => exact (execGlobalLoadComplete_mem s).wf h
  | tileLoadComplete => exact (execTileLoadComplete_mem s).wf h
  | fillComplete => exact (execFillComplete_mem s).wf h
  | atomicPerformed => exact execAtomicPerformed_wf s h
  | phaseComplete => exact execPhaseComplete_wf s h
  | vjoinComplete => exact execVjoinComplete_wf s h
  | coreWindowWrite => exact (execCoreWindowWrite_mem s).wf h
  | matrixOpExecute => exact execMatrixOpExecute_wf s h
  | matrixOpComplete => exact execMatrixOpComplete_wf s h
  | copyCommandExecute => exact execCopyCommandExecute_wf s h
  | copyEngineFault => exact execCopyEngineFault_wf s h
  | copyCommandComplete => exact execCopyCommandComplete_wf s h
  | sendTransmit => exact (execSendTransmit_mem s).wf h
  | sendtArm => exact execSendtArm_wf s h
  | rxsetPerform => exact (execRxsetPerform_mem s).wf h
  | rpostPerform => exact execRpostPerform_wf s h
  | taskExitRelease => exact execTaskExitRelease_wf s h
  | preemptRequest => exact (execPreemptRequest_mem s).wf h
  | preemption => exact (execPreemption_mem s).wf h
  | contextSave => exact execContextSave_wf s h
  | resume => exact execResume_wf s h
  | taskBind => exact execTaskBind_wf s h
  | launch => exact execLaunch_wf s h
  | tiletasks => exact execTiletasks_wf s h
  | collective => exact execCollective_wf s h
  | evsignal => exact execEvsignal_wf s h
  | evwaitPacket => exact execEvwaitPacket_wf s h
  | barrierPacket => exact execBarrierPacket_wf s h
  | nopPacket => exact execNopPacket_wf s h
  | launchComplete => exact execLaunchComplete_wf s h
  | qctlRetry => exact execQctlRetry_wf s h
  | qctlSkip => exact execQctlSkip_wf s h
  | tlbiGo => exact (execTlbiGo_mem s).wf h
  | tlbInvalidationDone => exact (execTlbInvalidationDone_mem s).wf h
  | ttArrive => exact (execTtArrive_mem s).wf h
  | budgetPeriod => exact (execBudgetPeriod_mem s).wf h
  | timecmpMatch => exact (execTimecmpMatch_mem s).wf h
  | notify => exact (execNotify_mem s).wf h
  | registerWrite => exact (execRegisterWrite_mem s).wf h
  | transientReadRequest => exact (execTransientReadRequest_mem s).wf h
  | transientWriteRequest => exact (execTransientWriteRequest_mem s).wf h
  | tokenArrival => exact (execTokenArrival_mem s).wf h
  | transientAttemptTimeout => exact (execTransientAttemptTimeout_mem s).wf h
  | persistentRequest => exact (execPersistentRequest_mem s).wf h
  | persistentActivation => exact (execPersistentActivation_mem s).wf h
  | persistentDeactivation => exact (execPersistentDeactivation_mem s).wf h
  | deactivationAck => exact (execDeactivationAck_mem s).wf h
  | lineEviction => exact (execLineEviction_mem s).wf h
  | tagRecall => exact (execTagRecall_mem s).wf h
  | hostRead => exact (execHostRead_mem s).wf h
  | hostWrite => exact execHostWrite_wf s h
  | hostBisnpResponse => exact execHostBisnpResponse_wf s h
  | hostSnoop => exact (execHostSnoop_mem s).wf h
  | tokenEccError => exact execTokenEccError_wf s h
  | gracefulDieReset => exact (execGracefulDieReset_mem s).wf h
  | dieLost => exact (execDieLost_mem s).wf h
  | tokenRecoveryRegenerate => exact execTokenRecoveryRegenerate_wf s h
  | packageFault => exact (execPackageFault_mem s).wf h
  | routeDeliver => exact execRouteDeliver_wf s h
  | routeForward => exact execRouteForward_wf s h
  | routeReduce => exact execRouteReduce_wf s h
  | routeDeliverCounter => exact execRouteDeliverCounter_wf s h
  | routeDeliverForward => exact execRouteDeliverForward_wf s h
  | routeTileArrival => exact execRouteTileArrival_wf s h
  | acknowledgement => exact execAcknowledgement_wf s h
  | refusal => exact execRefusal_wf s h
  | lapseNotice => exact execLapseNotice_wf s h
  | barrierArrival => exact execBarrierArrival_wf s h
  | barrierRelease => exact execBarrierRelease_wf s h
  | barrierReleaseInstant => exact (execBarrierReleaseInstant_mem s).wf h
  | sendAckTimeout => exact (execSendAckTimeout_mem s).wf h
  | chunkRetransmitTimeout => exact (execChunkRetransmitTimeout_mem s).wf h
  | stagingLeaseExpiry => exact (execStagingLeaseExpiry_mem s).wf h
  | collectiveTimeout => exact execCollectiveTimeout_wf s h
  | portFailure => exact (execPortFailure_mem s).wf h
  | packageReset => exact execPackageReset_wf s h
  | startctlGo => exact (execStartctlGo_mem s).wf h
  | stageAdvance => exact (execStageAdvance_mem s).wf h
  | podTimeRealign => exact (execPodTimeRealign_mem s).wf h
  | worldSwitch => exact (execWorldSwitch_mem s).wf h
  | slewInterval => exact (execSlewInterval_mem s).wf h
  | shapingWindow => exact (execShapingWindow_mem s).wf h
  | traceFifoDrain => exact execTraceFifoDrain_wf s h
  | ringReconfigure => exact (execRingReconfigure_mem s).wf h
  | counterWrap => exact (execCounterWrap_mem s).wf h
  | dieCounterWrap => exact (execDieCounterWrap_mem s).wf h
  | portRetrained => exact (execPortRetrained_mem s).wf h
  | hostCxlCacheResponse => exact (execHostCxlCacheResponse_mem s).wf h
  | dieRejoin => exact execDieRejoin_wf s h
  | storeBecomesVisible => exact execStoreBecomesVisible_wf s h

/-- What goes before a step leaves memory alone. -/
@[simp] theorem State.before_mem (s : State) (i : Instr) : (s.before i).mem = s.mem := by
  unfold State.before
  split
  · rfl
  · exact foldl_mem _ (fun t e => State.reach_mem _ _) _ _

/-- What follows every step keeps memory in its canonical form. -/
theorem State.after_wf (s : State) (h : Memory.wf s.mem = true) : Memory.wf s.after.mem = true := by
  have hc : Memory.wf (s.cores.foldl (fun t e => t.catchUp e.1) s).mem = true := by
    rw [foldl_mem _ (fun t e => State.catchUp_mem _ _)]
    exact h
  have hp := State.clocksOver_wf _ hc
  unfold State.after
  refine wf_ite ?_ ?_ <;> (try rw [State.fireDue_mem]) <;>
    exact wf_ite (wf_ite hp (State.queueCmds_wf _ hp))
      (by rw [State.noteReady_mem, State.rolled_mem]; exact wf_ite hp (State.queueCmds_wf _ hp))

end Sys2Proof.Machine
end

