-- ==== Sys2Proof/Laws/State.lean ====
section
/-! SUPPORT. The fields of the state under its plain updates, one lemma for each: what an update leaves, and what it
changes. Memory's stand in Frames.lean. -/

namespace Sys2Proof.Machine

open Sys2Proof

@[simp] theorem State.mapCtx_id (s : State) (x1 : Nat → Ctx → Ctx) : (State.mapCtx s x1).id = s.id := rfl
@[simp] theorem State.mapCtx_bundle (s : State) (x1 : Nat → Ctx → Ctx) : (State.mapCtx s x1).bundle = s.bundle := rfl
@[simp] theorem State.mapCtx_agenda (s : State) (x1 : Nat → Ctx → Ctx) : (State.mapCtx s x1).agenda = s.agenda := rfl
@[simp] theorem State.mapCtx_move (s : State) (x1 : Nat → Ctx → Ctx) : (State.mapCtx s x1).move = s.move := rfl
@[simp] theorem State.mapCtx_fresh (s : State) (x1 : Nat → Ctx → Ctx) : (State.mapCtx s x1).fresh = s.fresh := rfl
@[simp] theorem State.mapCtx_cores (s : State) (x1 : Nat → Ctx → Ctx) : (State.mapCtx s x1).cores = s.cores := rfl
@[simp] theorem State.mapCtx_sched (s : State) (x1 : Nat → Ctx → Ctx) : (State.mapCtx s x1).sched = s.sched := rfl
@[simp] theorem State.mapCtx_tok (s : State) (x1 : Nat → Ctx → Ctx) : (State.mapCtx s x1).tok = s.tok := rfl
@[simp] theorem State.mapCtx_wholes (s : State) (x1 : Nat → Ctx → Ctx) : (State.mapCtx s x1).wholes = s.wholes := rfl
@[simp] theorem State.mapCtx_rels (s : State) (x1 : Nat → Ctx → Ctx) : (State.mapCtx s x1).rels = s.rels := rfl
@[simp] theorem State.mapCtx_unsys (s : State) (x1 : Nat → Ctx → Ctx) : (State.mapCtx s x1).unsys = s.unsys := rfl
@[simp] theorem State.mapCtx_fab (s : State) (x1 : Nat → Ctx → Ctx) : (State.mapCtx s x1).fab = s.fab := rfl
@[simp] theorem State.mapCtx_wwrites (s : State) (x1 : Nat → Ctx → Ctx) :
    (State.mapCtx s x1).wwrites = s.wwrites := rfl
@[simp] theorem State.mapCtx_pkg (s : State) (x1 : Nat → Ctx → Ctx) : (State.mapCtx s x1).pkg = s.pkg := rfl

@[simp] theorem State.modCore_id (s : State) (x1 : Nat) (x2 : Core → Core) : (State.modCore s x1 x2).id = s.id := rfl
@[simp] theorem State.modCore_c (s : State) (x1 : Nat) (x2 : Core → Core) : (State.modCore s x1 x2).c = s.c := rfl
@[simp] theorem State.modCore_others (s : State) (x1 : Nat) (x2 : Core → Core) :
    (State.modCore s x1 x2).others = s.others := rfl
@[simp] theorem State.modCore_bundle (s : State) (x1 : Nat) (x2 : Core → Core) :
    (State.modCore s x1 x2).bundle = s.bundle := rfl
@[simp] theorem State.modCore_agenda (s : State) (x1 : Nat) (x2 : Core → Core) :
    (State.modCore s x1 x2).agenda = s.agenda := rfl
@[simp] theorem State.modCore_move (s : State) (x1 : Nat) (x2 : Core → Core) :
    (State.modCore s x1 x2).move = s.move := rfl
@[simp] theorem State.modCore_fresh (s : State) (x1 : Nat) (x2 : Core → Core) :
    (State.modCore s x1 x2).fresh = s.fresh := rfl
@[simp] theorem State.modCore_sched (s : State) (x1 : Nat) (x2 : Core → Core) :
    (State.modCore s x1 x2).sched = s.sched := rfl
@[simp] theorem State.modCore_tok (s : State) (x1 : Nat) (x2 : Core → Core) :
    (State.modCore s x1 x2).tok = s.tok := rfl
@[simp] theorem State.modCore_wholes (s : State) (x1 : Nat) (x2 : Core → Core) :
    (State.modCore s x1 x2).wholes = s.wholes := rfl
@[simp] theorem State.modCore_rels (s : State) (x1 : Nat) (x2 : Core → Core) :
    (State.modCore s x1 x2).rels = s.rels := rfl
@[simp] theorem State.modCore_unsys (s : State) (x1 : Nat) (x2 : Core → Core) :
    (State.modCore s x1 x2).unsys = s.unsys := rfl
@[simp] theorem State.modCore_fab (s : State) (x1 : Nat) (x2 : Core → Core) :
    (State.modCore s x1 x2).fab = s.fab := rfl
@[simp] theorem State.modCore_wwrites (s : State) (x1 : Nat) (x2 : Core → Core) :
    (State.modCore s x1 x2).wwrites = s.wwrites := rfl
@[simp] theorem State.modCore_pkg (s : State) (x1 : Nat) (x2 : Core → Core) :
    (State.modCore s x1 x2).pkg = s.pkg := rfl

@[simp] theorem State.until_id (s : State) (x1 : Nat) : (State.until s x1).id = s.id := rfl
@[simp] theorem State.until_c (s : State) (x1 : Nat) : (State.until s x1).c = s.c := rfl
@[simp] theorem State.until_others (s : State) (x1 : Nat) : (State.until s x1).others = s.others := rfl
@[simp] theorem State.until_bundle (s : State) (x1 : Nat) : (State.until s x1).bundle = s.bundle := rfl
@[simp] theorem State.until_agenda (s : State) (x1 : Nat) : (State.until s x1).agenda = s.agenda := rfl
@[simp] theorem State.until_move (s : State) (x1 : Nat) : (State.until s x1).move = s.move := rfl
@[simp] theorem State.until_fresh (s : State) (x1 : Nat) : (State.until s x1).fresh = s.fresh := rfl
@[simp] theorem State.until_cores (s : State) (x1 : Nat) : (State.until s x1).cores = s.cores := rfl
@[simp] theorem State.until_sched (s : State) (x1 : Nat) : (State.until s x1).sched = s.sched := rfl
@[simp] theorem State.until_tok (s : State) (x1 : Nat) : (State.until s x1).tok = s.tok := rfl
@[simp] theorem State.until_wholes (s : State) (x1 : Nat) : (State.until s x1).wholes = s.wholes := rfl
@[simp] theorem State.until_rels (s : State) (x1 : Nat) : (State.until s x1).rels = s.rels := rfl
@[simp] theorem State.until_unsys (s : State) (x1 : Nat) : (State.until s x1).unsys = s.unsys := rfl
@[simp] theorem State.until_fab (s : State) (x1 : Nat) : (State.until s x1).fab = s.fab := rfl
@[simp] theorem State.until_wwrites (s : State) (x1 : Nat) : (State.until s x1).wwrites = s.wwrites := rfl

@[simp] theorem State.wait_id (s : State) (x1 : Nat) : (State.wait s x1).id = s.id := rfl
@[simp] theorem State.wait_c (s : State) (x1 : Nat) : (State.wait s x1).c = s.c := rfl
@[simp] theorem State.wait_others (s : State) (x1 : Nat) : (State.wait s x1).others = s.others := rfl
@[simp] theorem State.wait_bundle (s : State) (x1 : Nat) : (State.wait s x1).bundle = s.bundle := rfl
@[simp] theorem State.wait_agenda (s : State) (x1 : Nat) : (State.wait s x1).agenda = s.agenda := rfl
@[simp] theorem State.wait_move (s : State) (x1 : Nat) : (State.wait s x1).move = s.move := rfl
@[simp] theorem State.wait_fresh (s : State) (x1 : Nat) : (State.wait s x1).fresh = s.fresh := rfl
@[simp] theorem State.wait_cores (s : State) (x1 : Nat) : (State.wait s x1).cores = s.cores := rfl
@[simp] theorem State.wait_sched (s : State) (x1 : Nat) : (State.wait s x1).sched = s.sched := rfl
@[simp] theorem State.wait_tok (s : State) (x1 : Nat) : (State.wait s x1).tok = s.tok := rfl
@[simp] theorem State.wait_wholes (s : State) (x1 : Nat) : (State.wait s x1).wholes = s.wholes := rfl
@[simp] theorem State.wait_rels (s : State) (x1 : Nat) : (State.wait s x1).rels = s.rels := rfl
@[simp] theorem State.wait_unsys (s : State) (x1 : Nat) : (State.wait s x1).unsys = s.unsys := rfl
@[simp] theorem State.wait_fab (s : State) (x1 : Nat) : (State.wait s x1).fab = s.fab := rfl
@[simp] theorem State.wait_wwrites (s : State) (x1 : Nat) : (State.wait s x1).wwrites = s.wwrites := rfl

@[simp] theorem State.emit_id (s : State) (x1 : Nat) (x2 : List Write) (x3 : Flags) :
    (State.emit s x1 x2 x3).id = s.id := rfl
@[simp] theorem State.emit_others (s : State) (x1 : Nat) (x2 : List Write) (x3 : Flags) :
    (State.emit s x1 x2 x3).others = s.others := rfl
@[simp] theorem State.emit_bundle (s : State) (x1 : Nat) (x2 : List Write) (x3 : Flags) :
    (State.emit s x1 x2 x3).bundle = s.bundle := rfl
@[simp] theorem State.emit_agenda (s : State) (x1 : Nat) (x2 : List Write) (x3 : Flags) :
    (State.emit s x1 x2 x3).agenda = s.agenda := rfl
@[simp] theorem State.emit_move (s : State) (x1 : Nat) (x2 : List Write) (x3 : Flags) :
    (State.emit s x1 x2 x3).move = s.move := rfl
@[simp] theorem State.emit_fresh (s : State) (x1 : Nat) (x2 : List Write) (x3 : Flags) :
    (State.emit s x1 x2 x3).fresh = s.fresh := rfl
@[simp] theorem State.emit_cores (s : State) (x1 : Nat) (x2 : List Write) (x3 : Flags) :
    (State.emit s x1 x2 x3).cores = s.cores := rfl
@[simp] theorem State.emit_sched (s : State) (x1 : Nat) (x2 : List Write) (x3 : Flags) :
    (State.emit s x1 x2 x3).sched = s.sched := rfl
@[simp] theorem State.emit_tok (s : State) (x1 : Nat) (x2 : List Write) (x3 : Flags) :
    (State.emit s x1 x2 x3).tok = s.tok := rfl
@[simp] theorem State.emit_wholes (s : State) (x1 : Nat) (x2 : List Write) (x3 : Flags) :
    (State.emit s x1 x2 x3).wholes = s.wholes := rfl
@[simp] theorem State.emit_rels (s : State) (x1 : Nat) (x2 : List Write) (x3 : Flags) :
    (State.emit s x1 x2 x3).rels = s.rels := rfl
@[simp] theorem State.emit_unsys (s : State) (x1 : Nat) (x2 : List Write) (x3 : Flags) :
    (State.emit s x1 x2 x3).unsys = s.unsys := rfl
@[simp] theorem State.emit_fab (s : State) (x1 : Nat) (x2 : List Write) (x3 : Flags) :
    (State.emit s x1 x2 x3).fab = s.fab := rfl
@[simp] theorem State.emit_wwrites (s : State) (x1 : Nat) (x2 : List Write) (x3 : Flags) :
    (State.emit s x1 x2 x3).wwrites = s.wwrites := rfl
@[simp] theorem State.emit_pkg (s : State) (x1 : Nat) (x2 : List Write) (x3 : Flags) :
    (State.emit s x1 x2 x3).pkg = s.pkg := rfl

@[simp] theorem State.modQueue_id (s : State) (x1 : Fin 64) (x2 : Queue → Queue) :
    (State.modQueue s x1 x2).id = s.id := rfl
@[simp] theorem State.modQueue_c (s : State) (x1 : Fin 64) (x2 : Queue → Queue) :
    (State.modQueue s x1 x2).c = s.c := rfl
@[simp] theorem State.modQueue_others (s : State) (x1 : Fin 64) (x2 : Queue → Queue) :
    (State.modQueue s x1 x2).others = s.others := rfl
@[simp] theorem State.modQueue_bundle (s : State) (x1 : Fin 64) (x2 : Queue → Queue) :
    (State.modQueue s x1 x2).bundle = s.bundle := rfl
@[simp] theorem State.modQueue_agenda (s : State) (x1 : Fin 64) (x2 : Queue → Queue) :
    (State.modQueue s x1 x2).agenda = s.agenda := rfl
@[simp] theorem State.modQueue_move (s : State) (x1 : Fin 64) (x2 : Queue → Queue) :
    (State.modQueue s x1 x2).move = s.move := rfl
@[simp] theorem State.modQueue_fresh (s : State) (x1 : Fin 64) (x2 : Queue → Queue) :
    (State.modQueue s x1 x2).fresh = s.fresh := rfl
@[simp] theorem State.modQueue_cores (s : State) (x1 : Fin 64) (x2 : Queue → Queue) :
    (State.modQueue s x1 x2).cores = s.cores := rfl
@[simp] theorem State.modQueue_tok (s : State) (x1 : Fin 64) (x2 : Queue → Queue) :
    (State.modQueue s x1 x2).tok = s.tok := rfl
@[simp] theorem State.modQueue_wholes (s : State) (x1 : Fin 64) (x2 : Queue → Queue) :
    (State.modQueue s x1 x2).wholes = s.wholes := rfl
@[simp] theorem State.modQueue_rels (s : State) (x1 : Fin 64) (x2 : Queue → Queue) :
    (State.modQueue s x1 x2).rels = s.rels := rfl
@[simp] theorem State.modQueue_unsys (s : State) (x1 : Fin 64) (x2 : Queue → Queue) :
    (State.modQueue s x1 x2).unsys = s.unsys := rfl
@[simp] theorem State.modQueue_fab (s : State) (x1 : Fin 64) (x2 : Queue → Queue) :
    (State.modQueue s x1 x2).fab = s.fab := rfl
@[simp] theorem State.modQueue_wwrites (s : State) (x1 : Fin 64) (x2 : Queue → Queue) :
    (State.modQueue s x1 x2).wwrites = s.wwrites := rfl
@[simp] theorem State.modQueue_pkg (s : State) (x1 : Fin 64) (x2 : Queue → Queue) :
    (State.modQueue s x1 x2).pkg = s.pkg := rfl

@[simp] theorem State.modBarrier_id (s : State) (x1 : Nat) (x2 : Barrier → Barrier) :
    (State.modBarrier s x1 x2).id = s.id := rfl
@[simp] theorem State.modBarrier_c (s : State) (x1 : Nat) (x2 : Barrier → Barrier) :
    (State.modBarrier s x1 x2).c = s.c := rfl
@[simp] theorem State.modBarrier_others (s : State) (x1 : Nat) (x2 : Barrier → Barrier) :
    (State.modBarrier s x1 x2).others = s.others := rfl
@[simp] theorem State.modBarrier_bundle (s : State) (x1 : Nat) (x2 : Barrier → Barrier) :
    (State.modBarrier s x1 x2).bundle = s.bundle := rfl
@[simp] theorem State.modBarrier_agenda (s : State) (x1 : Nat) (x2 : Barrier → Barrier) :
    (State.modBarrier s x1 x2).agenda = s.agenda := rfl
@[simp] theorem State.modBarrier_move (s : State) (x1 : Nat) (x2 : Barrier → Barrier) :
    (State.modBarrier s x1 x2).move = s.move := rfl
@[simp] theorem State.modBarrier_fresh (s : State) (x1 : Nat) (x2 : Barrier → Barrier) :
    (State.modBarrier s x1 x2).fresh = s.fresh := rfl
@[simp] theorem State.modBarrier_cores (s : State) (x1 : Nat) (x2 : Barrier → Barrier) :
    (State.modBarrier s x1 x2).cores = s.cores := rfl
@[simp] theorem State.modBarrier_sched (s : State) (x1 : Nat) (x2 : Barrier → Barrier) :
    (State.modBarrier s x1 x2).sched = s.sched := rfl
@[simp] theorem State.modBarrier_tok (s : State) (x1 : Nat) (x2 : Barrier → Barrier) :
    (State.modBarrier s x1 x2).tok = s.tok := rfl
@[simp] theorem State.modBarrier_wholes (s : State) (x1 : Nat) (x2 : Barrier → Barrier) :
    (State.modBarrier s x1 x2).wholes = s.wholes := rfl
@[simp] theorem State.modBarrier_rels (s : State) (x1 : Nat) (x2 : Barrier → Barrier) :
    (State.modBarrier s x1 x2).rels = s.rels := rfl
@[simp] theorem State.modBarrier_unsys (s : State) (x1 : Nat) (x2 : Barrier → Barrier) :
    (State.modBarrier s x1 x2).unsys = s.unsys := rfl
@[simp] theorem State.modBarrier_wwrites (s : State) (x1 : Nat) (x2 : Barrier → Barrier) :
    (State.modBarrier s x1 x2).wwrites = s.wwrites := rfl
@[simp] theorem State.modBarrier_pkg (s : State) (x1 : Nat) (x2 : Barrier → Barrier) :
    (State.modBarrier s x1 x2).pkg = s.pkg := rfl

@[simp] theorem State.modTrace_id (s : State) (x1 : Nat) (x2 : DieTrace → DieTrace) :
    (State.modTrace s x1 x2).id = s.id := rfl
@[simp] theorem State.modTrace_c (s : State) (x1 : Nat) (x2 : DieTrace → DieTrace) :
    (State.modTrace s x1 x2).c = s.c := rfl
@[simp] theorem State.modTrace_others (s : State) (x1 : Nat) (x2 : DieTrace → DieTrace) :
    (State.modTrace s x1 x2).others = s.others := rfl
@[simp] theorem State.modTrace_bundle (s : State) (x1 : Nat) (x2 : DieTrace → DieTrace) :
    (State.modTrace s x1 x2).bundle = s.bundle := rfl
@[simp] theorem State.modTrace_agenda (s : State) (x1 : Nat) (x2 : DieTrace → DieTrace) :
    (State.modTrace s x1 x2).agenda = s.agenda := rfl
@[simp] theorem State.modTrace_move (s : State) (x1 : Nat) (x2 : DieTrace → DieTrace) :
    (State.modTrace s x1 x2).move = s.move := rfl
@[simp] theorem State.modTrace_fresh (s : State) (x1 : Nat) (x2 : DieTrace → DieTrace) :
    (State.modTrace s x1 x2).fresh = s.fresh := rfl
@[simp] theorem State.modTrace_cores (s : State) (x1 : Nat) (x2 : DieTrace → DieTrace) :
    (State.modTrace s x1 x2).cores = s.cores := rfl
@[simp] theorem State.modTrace_sched (s : State) (x1 : Nat) (x2 : DieTrace → DieTrace) :
    (State.modTrace s x1 x2).sched = s.sched := rfl
@[simp] theorem State.modTrace_tok (s : State) (x1 : Nat) (x2 : DieTrace → DieTrace) :
    (State.modTrace s x1 x2).tok = s.tok := rfl
@[simp] theorem State.modTrace_wholes (s : State) (x1 : Nat) (x2 : DieTrace → DieTrace) :
    (State.modTrace s x1 x2).wholes = s.wholes := rfl
@[simp] theorem State.modTrace_rels (s : State) (x1 : Nat) (x2 : DieTrace → DieTrace) :
    (State.modTrace s x1 x2).rels = s.rels := rfl
@[simp] theorem State.modTrace_unsys (s : State) (x1 : Nat) (x2 : DieTrace → DieTrace) :
    (State.modTrace s x1 x2).unsys = s.unsys := rfl
@[simp] theorem State.modTrace_fab (s : State) (x1 : Nat) (x2 : DieTrace → DieTrace) :
    (State.modTrace s x1 x2).fab = s.fab := rfl
@[simp] theorem State.modTrace_wwrites (s : State) (x1 : Nat) (x2 : DieTrace → DieTrace) :
    (State.modTrace s x1 x2).wwrites = s.wwrites := rfl

@[simp] theorem State.modRing_id (s : State) (x1 : Nat) (x2 : Bool) (x3 : Ring → Ring) :
    (State.modRing s x1 x2 x3).id = s.id := rfl
@[simp] theorem State.modRing_c (s : State) (x1 : Nat) (x2 : Bool) (x3 : Ring → Ring) :
    (State.modRing s x1 x2 x3).c = s.c := rfl
@[simp] theorem State.modRing_others (s : State) (x1 : Nat) (x2 : Bool) (x3 : Ring → Ring) :
    (State.modRing s x1 x2 x3).others = s.others := rfl
@[simp] theorem State.modRing_bundle (s : State) (x1 : Nat) (x2 : Bool) (x3 : Ring → Ring) :
    (State.modRing s x1 x2 x3).bundle = s.bundle := rfl
@[simp] theorem State.modRing_agenda (s : State) (x1 : Nat) (x2 : Bool) (x3 : Ring → Ring) :
    (State.modRing s x1 x2 x3).agenda = s.agenda := rfl
@[simp] theorem State.modRing_move (s : State) (x1 : Nat) (x2 : Bool) (x3 : Ring → Ring) :
    (State.modRing s x1 x2 x3).move = s.move := rfl
@[simp] theorem State.modRing_fresh (s : State) (x1 : Nat) (x2 : Bool) (x3 : Ring → Ring) :
    (State.modRing s x1 x2 x3).fresh = s.fresh := rfl
@[simp] theorem State.modRing_cores (s : State) (x1 : Nat) (x2 : Bool) (x3 : Ring → Ring) :
    (State.modRing s x1 x2 x3).cores = s.cores := rfl
@[simp] theorem State.modRing_sched (s : State) (x1 : Nat) (x2 : Bool) (x3 : Ring → Ring) :
    (State.modRing s x1 x2 x3).sched = s.sched := rfl
@[simp] theorem State.modRing_tok (s : State) (x1 : Nat) (x2 : Bool) (x3 : Ring → Ring) :
    (State.modRing s x1 x2 x3).tok = s.tok := rfl
@[simp] theorem State.modRing_wholes (s : State) (x1 : Nat) (x2 : Bool) (x3 : Ring → Ring) :
    (State.modRing s x1 x2 x3).wholes = s.wholes := rfl
@[simp] theorem State.modRing_rels (s : State) (x1 : Nat) (x2 : Bool) (x3 : Ring → Ring) :
    (State.modRing s x1 x2 x3).rels = s.rels := rfl
@[simp] theorem State.modRing_unsys (s : State) (x1 : Nat) (x2 : Bool) (x3 : Ring → Ring) :
    (State.modRing s x1 x2 x3).unsys = s.unsys := rfl
@[simp] theorem State.modRing_fab (s : State) (x1 : Nat) (x2 : Bool) (x3 : Ring → Ring) :
    (State.modRing s x1 x2 x3).fab = s.fab := rfl
@[simp] theorem State.modRing_wwrites (s : State) (x1 : Nat) (x2 : Bool) (x3 : Ring → Ring) :
    (State.modRing s x1 x2 x3).wwrites = s.wwrites := rfl

@[simp] theorem State.emitS_id (s : State) (x1 : Nat) (x2 : SReg) (x3 : Word) (x4 : Flags) :
    (State.emitS s x1 x2 x3 x4).id = s.id := rfl
@[simp] theorem State.emitS_others (s : State) (x1 : Nat) (x2 : SReg) (x3 : Word) (x4 : Flags) :
    (State.emitS s x1 x2 x3 x4).others = s.others := rfl
@[simp] theorem State.emitS_bundle (s : State) (x1 : Nat) (x2 : SReg) (x3 : Word) (x4 : Flags) :
    (State.emitS s x1 x2 x3 x4).bundle = s.bundle := rfl
@[simp] theorem State.emitS_agenda (s : State) (x1 : Nat) (x2 : SReg) (x3 : Word) (x4 : Flags) :
    (State.emitS s x1 x2 x3 x4).agenda = s.agenda := rfl
@[simp] theorem State.emitS_move (s : State) (x1 : Nat) (x2 : SReg) (x3 : Word) (x4 : Flags) :
    (State.emitS s x1 x2 x3 x4).move = s.move := rfl
@[simp] theorem State.emitS_fresh (s : State) (x1 : Nat) (x2 : SReg) (x3 : Word) (x4 : Flags) :
    (State.emitS s x1 x2 x3 x4).fresh = s.fresh := rfl
@[simp] theorem State.emitS_cores (s : State) (x1 : Nat) (x2 : SReg) (x3 : Word) (x4 : Flags) :
    (State.emitS s x1 x2 x3 x4).cores = s.cores := rfl
@[simp] theorem State.emitS_sched (s : State) (x1 : Nat) (x2 : SReg) (x3 : Word) (x4 : Flags) :
    (State.emitS s x1 x2 x3 x4).sched = s.sched := rfl
@[simp] theorem State.emitS_tok (s : State) (x1 : Nat) (x2 : SReg) (x3 : Word) (x4 : Flags) :
    (State.emitS s x1 x2 x3 x4).tok = s.tok := rfl
@[simp] theorem State.emitS_wholes (s : State) (x1 : Nat) (x2 : SReg) (x3 : Word) (x4 : Flags) :
    (State.emitS s x1 x2 x3 x4).wholes = s.wholes := rfl
@[simp] theorem State.emitS_rels (s : State) (x1 : Nat) (x2 : SReg) (x3 : Word) (x4 : Flags) :
    (State.emitS s x1 x2 x3 x4).rels = s.rels := rfl
@[simp] theorem State.emitS_unsys (s : State) (x1 : Nat) (x2 : SReg) (x3 : Word) (x4 : Flags) :
    (State.emitS s x1 x2 x3 x4).unsys = s.unsys := rfl
@[simp] theorem State.emitS_fab (s : State) (x1 : Nat) (x2 : SReg) (x3 : Word) (x4 : Flags) :
    (State.emitS s x1 x2 x3 x4).fab = s.fab := rfl
@[simp] theorem State.emitS_wwrites (s : State) (x1 : Nat) (x2 : SReg) (x3 : Word) (x4 : Flags) :
    (State.emitS s x1 x2 x3 x4).wwrites = s.wwrites := rfl
@[simp] theorem State.emitS_pkg (s : State) (x1 : Nat) (x2 : SReg) (x3 : Word) (x4 : Flags) :
    (State.emitS s x1 x2 x3 x4).pkg = s.pkg := rfl

@[simp] theorem State.emitP_id (s : State) (x1 : PReg) (x2 : Bool) : (State.emitP s x1 x2).id = s.id := rfl
@[simp] theorem State.emitP_others (s : State) (x1 : PReg) (x2 : Bool) :
    (State.emitP s x1 x2).others = s.others := rfl
@[simp] theorem State.emitP_bundle (s : State) (x1 : PReg) (x2 : Bool) :
    (State.emitP s x1 x2).bundle = s.bundle := rfl
@[simp] theorem State.emitP_agenda (s : State) (x1 : PReg) (x2 : Bool) :
    (State.emitP s x1 x2).agenda = s.agenda := rfl
@[simp] theorem State.emitP_move (s : State) (x1 : PReg) (x2 : Bool) : (State.emitP s x1 x2).move = s.move := rfl
@[simp] theorem State.emitP_fresh (s : State) (x1 : PReg) (x2 : Bool) : (State.emitP s x1 x2).fresh = s.fresh := rfl
@[simp] theorem State.emitP_cores (s : State) (x1 : PReg) (x2 : Bool) : (State.emitP s x1 x2).cores = s.cores := rfl
@[simp] theorem State.emitP_sched (s : State) (x1 : PReg) (x2 : Bool) : (State.emitP s x1 x2).sched = s.sched := rfl
@[simp] theorem State.emitP_tok (s : State) (x1 : PReg) (x2 : Bool) : (State.emitP s x1 x2).tok = s.tok := rfl
@[simp] theorem State.emitP_wholes (s : State) (x1 : PReg) (x2 : Bool) : (State.emitP s x1 x2).wholes = s.wholes := rfl
@[simp] theorem State.emitP_rels (s : State) (x1 : PReg) (x2 : Bool) : (State.emitP s x1 x2).rels = s.rels := rfl
@[simp] theorem State.emitP_unsys (s : State) (x1 : PReg) (x2 : Bool) : (State.emitP s x1 x2).unsys = s.unsys := rfl
@[simp] theorem State.emitP_fab (s : State) (x1 : PReg) (x2 : Bool) : (State.emitP s x1 x2).fab = s.fab := rfl
@[simp] theorem State.emitP_wwrites (s : State) (x1 : PReg) (x2 : Bool) :
    (State.emitP s x1 x2).wwrites = s.wwrites := rfl
@[simp] theorem State.emitP_pkg (s : State) (x1 : PReg) (x2 : Bool) : (State.emitP s x1 x2).pkg = s.pkg := rfl

@[simp] theorem State.goto_id (s : State) (x1 : VAddr) : (State.goto s x1).id = s.id := rfl
@[simp] theorem State.goto_c (s : State) (x1 : VAddr) : (State.goto s x1).c = s.c := rfl
@[simp] theorem State.goto_others (s : State) (x1 : VAddr) : (State.goto s x1).others = s.others := rfl
@[simp] theorem State.goto_agenda (s : State) (x1 : VAddr) : (State.goto s x1).agenda = s.agenda := rfl
@[simp] theorem State.goto_move (s : State) (x1 : VAddr) : (State.goto s x1).move = s.move := rfl
@[simp] theorem State.goto_fresh (s : State) (x1 : VAddr) : (State.goto s x1).fresh = s.fresh := rfl
@[simp] theorem State.goto_cores (s : State) (x1 : VAddr) : (State.goto s x1).cores = s.cores := rfl
@[simp] theorem State.goto_sched (s : State) (x1 : VAddr) : (State.goto s x1).sched = s.sched := rfl
@[simp] theorem State.goto_tok (s : State) (x1 : VAddr) : (State.goto s x1).tok = s.tok := rfl
@[simp] theorem State.goto_wholes (s : State) (x1 : VAddr) : (State.goto s x1).wholes = s.wholes := rfl
@[simp] theorem State.goto_rels (s : State) (x1 : VAddr) : (State.goto s x1).rels = s.rels := rfl
@[simp] theorem State.goto_unsys (s : State) (x1 : VAddr) : (State.goto s x1).unsys = s.unsys := rfl
@[simp] theorem State.goto_fab (s : State) (x1 : VAddr) : (State.goto s x1).fab = s.fab := rfl
@[simp] theorem State.goto_wwrites (s : State) (x1 : VAddr) : (State.goto s x1).wwrites = s.wwrites := rfl
@[simp] theorem State.goto_pkg (s : State) (x1 : VAddr) : (State.goto s x1).pkg = s.pkg := rfl

@[simp] theorem State.enqueue_id (s : State) (x1 : Cmd) : (State.enqueue s x1).id = s.id := rfl
@[simp] theorem State.enqueue_others (s : State) (x1 : Cmd) : (State.enqueue s x1).others = s.others := rfl
@[simp] theorem State.enqueue_bundle (s : State) (x1 : Cmd) : (State.enqueue s x1).bundle = s.bundle := rfl
@[simp] theorem State.enqueue_agenda (s : State) (x1 : Cmd) : (State.enqueue s x1).agenda = s.agenda := rfl
@[simp] theorem State.enqueue_move (s : State) (x1 : Cmd) : (State.enqueue s x1).move = s.move := rfl
@[simp] theorem State.enqueue_fresh (s : State) (x1 : Cmd) : (State.enqueue s x1).fresh = s.fresh := rfl
@[simp] theorem State.enqueue_cores (s : State) (x1 : Cmd) : (State.enqueue s x1).cores = s.cores := rfl
@[simp] theorem State.enqueue_sched (s : State) (x1 : Cmd) : (State.enqueue s x1).sched = s.sched := rfl
@[simp] theorem State.enqueue_tok (s : State) (x1 : Cmd) : (State.enqueue s x1).tok = s.tok := rfl
@[simp] theorem State.enqueue_wholes (s : State) (x1 : Cmd) : (State.enqueue s x1).wholes = s.wholes := rfl
@[simp] theorem State.enqueue_rels (s : State) (x1 : Cmd) : (State.enqueue s x1).rels = s.rels := rfl
@[simp] theorem State.enqueue_unsys (s : State) (x1 : Cmd) : (State.enqueue s x1).unsys = s.unsys := rfl
@[simp] theorem State.enqueue_fab (s : State) (x1 : Cmd) : (State.enqueue s x1).fab = s.fab := rfl
@[simp] theorem State.enqueue_wwrites (s : State) (x1 : Cmd) : (State.enqueue s x1).wwrites = s.wwrites := rfl
@[simp] theorem State.enqueue_pkg (s : State) (x1 : Cmd) : (State.enqueue s x1).pkg = s.pkg := rfl

@[simp] theorem State.setHold_id (s : State) (x1 : Nat) (x2 : Hold) : (State.setHold s x1 x2).id = s.id := rfl
@[simp] theorem State.setHold_c (s : State) (x1 : Nat) (x2 : Hold) : (State.setHold s x1 x2).c = s.c := rfl
@[simp] theorem State.setHold_others (s : State) (x1 : Nat) (x2 : Hold) :
    (State.setHold s x1 x2).others = s.others := rfl
@[simp] theorem State.setHold_bundle (s : State) (x1 : Nat) (x2 : Hold) :
    (State.setHold s x1 x2).bundle = s.bundle := rfl
@[simp] theorem State.setHold_agenda (s : State) (x1 : Nat) (x2 : Hold) :
    (State.setHold s x1 x2).agenda = s.agenda := rfl
@[simp] theorem State.setHold_move (s : State) (x1 : Nat) (x2 : Hold) : (State.setHold s x1 x2).move = s.move := rfl
@[simp] theorem State.setHold_fresh (s : State) (x1 : Nat) (x2 : Hold) :
    (State.setHold s x1 x2).fresh = s.fresh := rfl
@[simp] theorem State.setHold_cores (s : State) (x1 : Nat) (x2 : Hold) :
    (State.setHold s x1 x2).cores = s.cores := rfl
@[simp] theorem State.setHold_sched (s : State) (x1 : Nat) (x2 : Hold) :
    (State.setHold s x1 x2).sched = s.sched := rfl
@[simp] theorem State.setHold_fab (s : State) (x1 : Nat) (x2 : Hold) : (State.setHold s x1 x2).fab = s.fab := rfl
@[simp] theorem State.setHold_wwrites (s : State) (x1 : Nat) (x2 : Hold) :
    (State.setHold s x1 x2).wwrites = s.wwrites := rfl
@[simp] theorem State.setHold_pkg (s : State) (x1 : Nat) (x2 : Hold) : (State.setHold s x1 x2).pkg = s.pkg := rfl

@[simp] theorem State.sendTok_id (s : State) (x1 : TokMsg) : (State.sendTok s x1).id = s.id := rfl
@[simp] theorem State.sendTok_c (s : State) (x1 : TokMsg) : (State.sendTok s x1).c = s.c := rfl
@[simp] theorem State.sendTok_others (s : State) (x1 : TokMsg) : (State.sendTok s x1).others = s.others := rfl
@[simp] theorem State.sendTok_bundle (s : State) (x1 : TokMsg) : (State.sendTok s x1).bundle = s.bundle := rfl
@[simp] theorem State.sendTok_agenda (s : State) (x1 : TokMsg) : (State.sendTok s x1).agenda = s.agenda := rfl
@[simp] theorem State.sendTok_move (s : State) (x1 : TokMsg) : (State.sendTok s x1).move = s.move := rfl
@[simp] theorem State.sendTok_fresh (s : State) (x1 : TokMsg) : (State.sendTok s x1).fresh = s.fresh := rfl
@[simp] theorem State.sendTok_cores (s : State) (x1 : TokMsg) : (State.sendTok s x1).cores = s.cores := rfl
@[simp] theorem State.sendTok_sched (s : State) (x1 : TokMsg) : (State.sendTok s x1).sched = s.sched := rfl
@[simp] theorem State.sendTok_fab (s : State) (x1 : TokMsg) : (State.sendTok s x1).fab = s.fab := rfl
@[simp] theorem State.sendTok_wwrites (s : State) (x1 : TokMsg) : (State.sendTok s x1).wwrites = s.wwrites := rfl
@[simp] theorem State.sendTok_pkg (s : State) (x1 : TokMsg) : (State.sendTok s x1).pkg = s.pkg := rfl

@[simp] theorem State.modNeed_id (s : State) (x1 : Agent) (x2 : Nat) (x3 : Need → Need) :
    (State.modNeed s x1 x2 x3).id = s.id := rfl
@[simp] theorem State.modNeed_c (s : State) (x1 : Agent) (x2 : Nat) (x3 : Need → Need) :
    (State.modNeed s x1 x2 x3).c = s.c := rfl
@[simp] theorem State.modNeed_others (s : State) (x1 : Agent) (x2 : Nat) (x3 : Need → Need) :
    (State.modNeed s x1 x2 x3).others = s.others := rfl
@[simp] theorem State.modNeed_bundle (s : State) (x1 : Agent) (x2 : Nat) (x3 : Need → Need) :
    (State.modNeed s x1 x2 x3).bundle = s.bundle := rfl
@[simp] theorem State.modNeed_agenda (s : State) (x1 : Agent) (x2 : Nat) (x3 : Need → Need) :
    (State.modNeed s x1 x2 x3).agenda = s.agenda := rfl
@[simp] theorem State.modNeed_move (s : State) (x1 : Agent) (x2 : Nat) (x3 : Need → Need) :
    (State.modNeed s x1 x2 x3).move = s.move := rfl
@[simp] theorem State.modNeed_fresh (s : State) (x1 : Agent) (x2 : Nat) (x3 : Need → Need) :
    (State.modNeed s x1 x2 x3).fresh = s.fresh := rfl
@[simp] theorem State.modNeed_cores (s : State) (x1 : Agent) (x2 : Nat) (x3 : Need → Need) :
    (State.modNeed s x1 x2 x3).cores = s.cores := rfl
@[simp] theorem State.modNeed_sched (s : State) (x1 : Agent) (x2 : Nat) (x3 : Need → Need) :
    (State.modNeed s x1 x2 x3).sched = s.sched := rfl
@[simp] theorem State.modNeed_fab (s : State) (x1 : Agent) (x2 : Nat) (x3 : Need → Need) :
    (State.modNeed s x1 x2 x3).fab = s.fab := rfl
@[simp] theorem State.modNeed_wwrites (s : State) (x1 : Agent) (x2 : Nat) (x3 : Need → Need) :
    (State.modNeed s x1 x2 x3).wwrites = s.wwrites := rfl
@[simp] theorem State.modNeed_pkg (s : State) (x1 : Agent) (x2 : Nat) (x3 : Need → Need) :
    (State.modNeed s x1 x2 x3).pkg = s.pkg := rfl

@[simp] theorem State.modEntry_id (s : State) (x1 : Agent) (x2 : Nat) (x3 : PEntry → PEntry) :
    (State.modEntry s x1 x2 x3).id = s.id := rfl
@[simp] theorem State.modEntry_c (s : State) (x1 : Agent) (x2 : Nat) (x3 : PEntry → PEntry) :
    (State.modEntry s x1 x2 x3).c = s.c := rfl
@[simp] theorem State.modEntry_others (s : State) (x1 : Agent) (x2 : Nat) (x3 : PEntry → PEntry) :
    (State.modEntry s x1 x2 x3).others = s.others := rfl
@[simp] theorem State.modEntry_bundle (s : State) (x1 : Agent) (x2 : Nat) (x3 : PEntry → PEntry) :
    (State.modEntry s x1 x2 x3).bundle = s.bundle := rfl
@[simp] theorem State.modEntry_agenda (s : State) (x1 : Agent) (x2 : Nat) (x3 : PEntry → PEntry) :
    (State.modEntry s x1 x2 x3).agenda = s.agenda := rfl
@[simp] theorem State.modEntry_move (s : State) (x1 : Agent) (x2 : Nat) (x3 : PEntry → PEntry) :
    (State.modEntry s x1 x2 x3).move = s.move := rfl
@[simp] theorem State.modEntry_fresh (s : State) (x1 : Agent) (x2 : Nat) (x3 : PEntry → PEntry) :
    (State.modEntry s x1 x2 x3).fresh = s.fresh := rfl
@[simp] theorem State.modEntry_cores (s : State) (x1 : Agent) (x2 : Nat) (x3 : PEntry → PEntry) :
    (State.modEntry s x1 x2 x3).cores = s.cores := rfl
@[simp] theorem State.modEntry_sched (s : State) (x1 : Agent) (x2 : Nat) (x3 : PEntry → PEntry) :
    (State.modEntry s x1 x2 x3).sched = s.sched := rfl
@[simp] theorem State.modEntry_fab (s : State) (x1 : Agent) (x2 : Nat) (x3 : PEntry → PEntry) :
    (State.modEntry s x1 x2 x3).fab = s.fab := rfl
@[simp] theorem State.modEntry_wwrites (s : State) (x1 : Agent) (x2 : Nat) (x3 : PEntry → PEntry) :
    (State.modEntry s x1 x2 x3).wwrites = s.wwrites := rfl
@[simp] theorem State.modEntry_pkg (s : State) (x1 : Agent) (x2 : Nat) (x3 : PEntry → PEntry) :
    (State.modEntry s x1 x2 x3).pkg = s.pkg := rfl

@[simp] theorem State.rxSet_id (s : State) (x1 : BitVec 16) (x2 : BitVec 6) (x3 : BitVec 32) :
    (State.rxSet s x1 x2 x3).id = s.id := rfl
@[simp] theorem State.rxSet_c (s : State) (x1 : BitVec 16) (x2 : BitVec 6) (x3 : BitVec 32) :
    (State.rxSet s x1 x2 x3).c = s.c := rfl
@[simp] theorem State.rxSet_others (s : State) (x1 : BitVec 16) (x2 : BitVec 6) (x3 : BitVec 32) :
    (State.rxSet s x1 x2 x3).others = s.others := rfl
@[simp] theorem State.rxSet_bundle (s : State) (x1 : BitVec 16) (x2 : BitVec 6) (x3 : BitVec 32) :
    (State.rxSet s x1 x2 x3).bundle = s.bundle := rfl
@[simp] theorem State.rxSet_agenda (s : State) (x1 : BitVec 16) (x2 : BitVec 6) (x3 : BitVec 32) :
    (State.rxSet s x1 x2 x3).agenda = s.agenda := rfl
@[simp] theorem State.rxSet_move (s : State) (x1 : BitVec 16) (x2 : BitVec 6) (x3 : BitVec 32) :
    (State.rxSet s x1 x2 x3).move = s.move := rfl
@[simp] theorem State.rxSet_fresh (s : State) (x1 : BitVec 16) (x2 : BitVec 6) (x3 : BitVec 32) :
    (State.rxSet s x1 x2 x3).fresh = s.fresh := rfl
@[simp] theorem State.rxSet_cores (s : State) (x1 : BitVec 16) (x2 : BitVec 6) (x3 : BitVec 32) :
    (State.rxSet s x1 x2 x3).cores = s.cores := rfl
@[simp] theorem State.rxSet_sched (s : State) (x1 : BitVec 16) (x2 : BitVec 6) (x3 : BitVec 32) :
    (State.rxSet s x1 x2 x3).sched = s.sched := rfl
@[simp] theorem State.rxSet_tok (s : State) (x1 : BitVec 16) (x2 : BitVec 6) (x3 : BitVec 32) :
    (State.rxSet s x1 x2 x3).tok = s.tok := rfl
@[simp] theorem State.rxSet_wholes (s : State) (x1 : BitVec 16) (x2 : BitVec 6) (x3 : BitVec 32) :
    (State.rxSet s x1 x2 x3).wholes = s.wholes := rfl
@[simp] theorem State.rxSet_rels (s : State) (x1 : BitVec 16) (x2 : BitVec 6) (x3 : BitVec 32) :
    (State.rxSet s x1 x2 x3).rels = s.rels := rfl
@[simp] theorem State.rxSet_unsys (s : State) (x1 : BitVec 16) (x2 : BitVec 6) (x3 : BitVec 32) :
    (State.rxSet s x1 x2 x3).unsys = s.unsys := rfl
@[simp] theorem State.rxSet_wwrites (s : State) (x1 : BitVec 16) (x2 : BitVec 6) (x3 : BitVec 32) :
    (State.rxSet s x1 x2 x3).wwrites = s.wwrites := rfl
@[simp] theorem State.rxSet_pkg (s : State) (x1 : BitVec 16) (x2 : BitVec 6) (x3 : BitVec 32) :
    (State.rxSet s x1 x2 x3).pkg = s.pkg := rfl

@[simp] theorem State.msi_id (s : State) (x1 : Nat) (x2 : Nat) : (State.msi s x1 x2).id = s.id := rfl
@[simp] theorem State.msi_c (s : State) (x1 : Nat) (x2 : Nat) : (State.msi s x1 x2).c = s.c := rfl
@[simp] theorem State.msi_others (s : State) (x1 : Nat) (x2 : Nat) : (State.msi s x1 x2).others = s.others := rfl
@[simp] theorem State.msi_bundle (s : State) (x1 : Nat) (x2 : Nat) : (State.msi s x1 x2).bundle = s.bundle := rfl
@[simp] theorem State.msi_agenda (s : State) (x1 : Nat) (x2 : Nat) : (State.msi s x1 x2).agenda = s.agenda := rfl
@[simp] theorem State.msi_move (s : State) (x1 : Nat) (x2 : Nat) : (State.msi s x1 x2).move = s.move := rfl
@[simp] theorem State.msi_fresh (s : State) (x1 : Nat) (x2 : Nat) : (State.msi s x1 x2).fresh = s.fresh := rfl
@[simp] theorem State.msi_cores (s : State) (x1 : Nat) (x2 : Nat) : (State.msi s x1 x2).cores = s.cores := rfl
@[simp] theorem State.msi_sched (s : State) (x1 : Nat) (x2 : Nat) : (State.msi s x1 x2).sched = s.sched := rfl
@[simp] theorem State.msi_tok (s : State) (x1 : Nat) (x2 : Nat) : (State.msi s x1 x2).tok = s.tok := rfl
@[simp] theorem State.msi_wholes (s : State) (x1 : Nat) (x2 : Nat) : (State.msi s x1 x2).wholes = s.wholes := rfl
@[simp] theorem State.msi_rels (s : State) (x1 : Nat) (x2 : Nat) : (State.msi s x1 x2).rels = s.rels := rfl
@[simp] theorem State.msi_unsys (s : State) (x1 : Nat) (x2 : Nat) : (State.msi s x1 x2).unsys = s.unsys := rfl
@[simp] theorem State.msi_fab (s : State) (x1 : Nat) (x2 : Nat) : (State.msi s x1 x2).fab = s.fab := rfl
@[simp] theorem State.msi_wwrites (s : State) (x1 : Nat) (x2 : Nat) : (State.msi s x1 x2).wwrites = s.wwrites := rfl

@[simp] theorem State.modLaunch_id (s : State) (x1 : Nat) (x2 : Launch → Launch) :
    (State.modLaunch s x1 x2).id = s.id := rfl
@[simp] theorem State.modLaunch_c (s : State) (x1 : Nat) (x2 : Launch → Launch) :
    (State.modLaunch s x1 x2).c = s.c := rfl
@[simp] theorem State.modLaunch_others (s : State) (x1 : Nat) (x2 : Launch → Launch) :
    (State.modLaunch s x1 x2).others = s.others := rfl
@[simp] theorem State.modLaunch_bundle (s : State) (x1 : Nat) (x2 : Launch → Launch) :
    (State.modLaunch s x1 x2).bundle = s.bundle := rfl
@[simp] theorem State.modLaunch_agenda (s : State) (x1 : Nat) (x2 : Launch → Launch) :
    (State.modLaunch s x1 x2).agenda = s.agenda := rfl
@[simp] theorem State.modLaunch_move (s : State) (x1 : Nat) (x2 : Launch → Launch) :
    (State.modLaunch s x1 x2).move = s.move := rfl
@[simp] theorem State.modLaunch_fresh (s : State) (x1 : Nat) (x2 : Launch → Launch) :
    (State.modLaunch s x1 x2).fresh = s.fresh := rfl
@[simp] theorem State.modLaunch_cores (s : State) (x1 : Nat) (x2 : Launch → Launch) :
    (State.modLaunch s x1 x2).cores = s.cores := rfl
@[simp] theorem State.modLaunch_tok (s : State) (x1 : Nat) (x2 : Launch → Launch) :
    (State.modLaunch s x1 x2).tok = s.tok := rfl
@[simp] theorem State.modLaunch_wholes (s : State) (x1 : Nat) (x2 : Launch → Launch) :
    (State.modLaunch s x1 x2).wholes = s.wholes := rfl
@[simp] theorem State.modLaunch_rels (s : State) (x1 : Nat) (x2 : Launch → Launch) :
    (State.modLaunch s x1 x2).rels = s.rels := rfl
@[simp] theorem State.modLaunch_unsys (s : State) (x1 : Nat) (x2 : Launch → Launch) :
    (State.modLaunch s x1 x2).unsys = s.unsys := rfl
@[simp] theorem State.modLaunch_fab (s : State) (x1 : Nat) (x2 : Launch → Launch) :
    (State.modLaunch s x1 x2).fab = s.fab := rfl
@[simp] theorem State.modLaunch_wwrites (s : State) (x1 : Nat) (x2 : Launch → Launch) :
    (State.modLaunch s x1 x2).wwrites = s.wwrites := rfl
@[simp] theorem State.modLaunch_pkg (s : State) (x1 : Nat) (x2 : Launch → Launch) :
    (State.modLaunch s x1 x2).pkg = s.pkg := rfl

@[simp] theorem State.modStage_id (s : State) (x1 : BitVec 32) (x2 : BitVec 32) (x3 : Stage → Stage) :
    (State.modStage s x1 x2 x3).id = s.id := rfl
@[simp] theorem State.modStage_c (s : State) (x1 : BitVec 32) (x2 : BitVec 32) (x3 : Stage → Stage) :
    (State.modStage s x1 x2 x3).c = s.c := rfl
@[simp] theorem State.modStage_others (s : State) (x1 : BitVec 32) (x2 : BitVec 32) (x3 : Stage → Stage) :
    (State.modStage s x1 x2 x3).others = s.others := rfl
@[simp] theorem State.modStage_bundle (s : State) (x1 : BitVec 32) (x2 : BitVec 32) (x3 : Stage → Stage) :
    (State.modStage s x1 x2 x3).bundle = s.bundle := rfl
@[simp] theorem State.modStage_agenda (s : State) (x1 : BitVec 32) (x2 : BitVec 32) (x3 : Stage → Stage) :
    (State.modStage s x1 x2 x3).agenda = s.agenda := rfl
@[simp] theorem State.modStage_move (s : State) (x1 : BitVec 32) (x2 : BitVec 32) (x3 : Stage → Stage) :
    (State.modStage s x1 x2 x3).move = s.move := rfl
@[simp] theorem State.modStage_fresh (s : State) (x1 : BitVec 32) (x2 : BitVec 32) (x3 : Stage → Stage) :
    (State.modStage s x1 x2 x3).fresh = s.fresh := rfl
@[simp] theorem State.modStage_cores (s : State) (x1 : BitVec 32) (x2 : BitVec 32) (x3 : Stage → Stage) :
    (State.modStage s x1 x2 x3).cores = s.cores := rfl
@[simp] theorem State.modStage_sched (s : State) (x1 : BitVec 32) (x2 : BitVec 32) (x3 : Stage → Stage) :
    (State.modStage s x1 x2 x3).sched = s.sched := rfl
@[simp] theorem State.modStage_tok (s : State) (x1 : BitVec 32) (x2 : BitVec 32) (x3 : Stage → Stage) :
    (State.modStage s x1 x2 x3).tok = s.tok := rfl
@[simp] theorem State.modStage_wholes (s : State) (x1 : BitVec 32) (x2 : BitVec 32) (x3 : Stage → Stage) :
    (State.modStage s x1 x2 x3).wholes = s.wholes := rfl
@[simp] theorem State.modStage_rels (s : State) (x1 : BitVec 32) (x2 : BitVec 32) (x3 : Stage → Stage) :
    (State.modStage s x1 x2 x3).rels = s.rels := rfl
@[simp] theorem State.modStage_unsys (s : State) (x1 : BitVec 32) (x2 : BitVec 32) (x3 : Stage → Stage) :
    (State.modStage s x1 x2 x3).unsys = s.unsys := rfl
@[simp] theorem State.modStage_wwrites (s : State) (x1 : BitVec 32) (x2 : BitVec 32) (x3 : Stage → Stage) :
    (State.modStage s x1 x2 x3).wwrites = s.wwrites := rfl
@[simp] theorem State.modStage_pkg (s : State) (x1 : BitVec 32) (x2 : BitVec 32) (x3 : Stage → Stage) :
    (State.modStage s x1 x2 x3).pkg = s.pkg := rfl

@[simp] theorem State.setWindow_id (s : State) (x1 : Window) : (State.setWindow s x1).id = s.id := rfl
@[simp] theorem State.setWindow_c (s : State) (x1 : Window) : (State.setWindow s x1).c = s.c := rfl
@[simp] theorem State.setWindow_others (s : State) (x1 : Window) : (State.setWindow s x1).others = s.others := rfl
@[simp] theorem State.setWindow_bundle (s : State) (x1 : Window) : (State.setWindow s x1).bundle = s.bundle := rfl
@[simp] theorem State.setWindow_agenda (s : State) (x1 : Window) : (State.setWindow s x1).agenda = s.agenda := rfl
@[simp] theorem State.setWindow_move (s : State) (x1 : Window) : (State.setWindow s x1).move = s.move := rfl
@[simp] theorem State.setWindow_fresh (s : State) (x1 : Window) : (State.setWindow s x1).fresh = s.fresh := rfl
@[simp] theorem State.setWindow_cores (s : State) (x1 : Window) : (State.setWindow s x1).cores = s.cores := rfl
@[simp] theorem State.setWindow_sched (s : State) (x1 : Window) : (State.setWindow s x1).sched = s.sched := rfl
@[simp] theorem State.setWindow_tok (s : State) (x1 : Window) : (State.setWindow s x1).tok = s.tok := rfl
@[simp] theorem State.setWindow_wholes (s : State) (x1 : Window) : (State.setWindow s x1).wholes = s.wholes := rfl
@[simp] theorem State.setWindow_rels (s : State) (x1 : Window) : (State.setWindow s x1).rels = s.rels := rfl
@[simp] theorem State.setWindow_unsys (s : State) (x1 : Window) : (State.setWindow s x1).unsys = s.unsys := rfl
@[simp] theorem State.setWindow_wwrites (s : State) (x1 : Window) : (State.setWindow s x1).wwrites = s.wwrites := rfl
@[simp] theorem State.setWindow_pkg (s : State) (x1 : Window) : (State.setWindow s x1).pkg = s.pkg := rfl

@[simp] theorem State.dropStage_id (s : State) (x1 : BitVec 32) (x2 : BitVec 32) :
    (State.dropStage s x1 x2).id = s.id := rfl
@[simp] theorem State.dropStage_c (s : State) (x1 : BitVec 32) (x2 : BitVec 32) :
    (State.dropStage s x1 x2).c = s.c := rfl
@[simp] theorem State.dropStage_others (s : State) (x1 : BitVec 32) (x2 : BitVec 32) :
    (State.dropStage s x1 x2).others = s.others := rfl
@[simp] theorem State.dropStage_bundle (s : State) (x1 : BitVec 32) (x2 : BitVec 32) :
    (State.dropStage s x1 x2).bundle = s.bundle := rfl
@[simp] theorem State.dropStage_agenda (s : State) (x1 : BitVec 32) (x2 : BitVec 32) :
    (State.dropStage s x1 x2).agenda = s.agenda := rfl
@[simp] theorem State.dropStage_move (s : State) (x1 : BitVec 32) (x2 : BitVec 32) :
    (State.dropStage s x1 x2).move = s.move := rfl
@[simp] theorem State.dropStage_fresh (s : State) (x1 : BitVec 32) (x2 : BitVec 32) :
    (State.dropStage s x1 x2).fresh = s.fresh := rfl
@[simp] theorem State.dropStage_cores (s : State) (x1 : BitVec 32) (x2 : BitVec 32) :
    (State.dropStage s x1 x2).cores = s.cores := rfl
@[simp] theorem State.dropStage_sched (s : State) (x1 : BitVec 32) (x2 : BitVec 32) :
    (State.dropStage s x1 x2).sched = s.sched := rfl
@[simp] theorem State.dropStage_tok (s : State) (x1 : BitVec 32) (x2 : BitVec 32) :
    (State.dropStage s x1 x2).tok = s.tok := rfl
@[simp] theorem State.dropStage_wholes (s : State) (x1 : BitVec 32) (x2 : BitVec 32) :
    (State.dropStage s x1 x2).wholes = s.wholes := rfl
@[simp] theorem State.dropStage_rels (s : State) (x1 : BitVec 32) (x2 : BitVec 32) :
    (State.dropStage s x1 x2).rels = s.rels := rfl
@[simp] theorem State.dropStage_unsys (s : State) (x1 : BitVec 32) (x2 : BitVec 32) :
    (State.dropStage s x1 x2).unsys = s.unsys := rfl
@[simp] theorem State.dropStage_wwrites (s : State) (x1 : BitVec 32) (x2 : BitVec 32) :
    (State.dropStage s x1 x2).wwrites = s.wwrites := rfl
@[simp] theorem State.dropStage_pkg (s : State) (x1 : BitVec 32) (x2 : BitVec 32) :
    (State.dropStage s x1 x2).pkg = s.pkg := rfl

@[simp] theorem State.modColl_id (s : State) (x1 : BitVec 32) (x2 : Coll → Coll) :
    (State.modColl s x1 x2).id = s.id := rfl
@[simp] theorem State.modColl_c (s : State) (x1 : BitVec 32) (x2 : Coll → Coll) :
    (State.modColl s x1 x2).c = s.c := rfl
@[simp] theorem State.modColl_others (s : State) (x1 : BitVec 32) (x2 : Coll → Coll) :
    (State.modColl s x1 x2).others = s.others := rfl
@[simp] theorem State.modColl_bundle (s : State) (x1 : BitVec 32) (x2 : Coll → Coll) :
    (State.modColl s x1 x2).bundle = s.bundle := rfl
@[simp] theorem State.modColl_agenda (s : State) (x1 : BitVec 32) (x2 : Coll → Coll) :
    (State.modColl s x1 x2).agenda = s.agenda := rfl
@[simp] theorem State.modColl_move (s : State) (x1 : BitVec 32) (x2 : Coll → Coll) :
    (State.modColl s x1 x2).move = s.move := rfl
@[simp] theorem State.modColl_fresh (s : State) (x1 : BitVec 32) (x2 : Coll → Coll) :
    (State.modColl s x1 x2).fresh = s.fresh := rfl
@[simp] theorem State.modColl_cores (s : State) (x1 : BitVec 32) (x2 : Coll → Coll) :
    (State.modColl s x1 x2).cores = s.cores := rfl
@[simp] theorem State.modColl_sched (s : State) (x1 : BitVec 32) (x2 : Coll → Coll) :
    (State.modColl s x1 x2).sched = s.sched := rfl
@[simp] theorem State.modColl_tok (s : State) (x1 : BitVec 32) (x2 : Coll → Coll) :
    (State.modColl s x1 x2).tok = s.tok := rfl
@[simp] theorem State.modColl_wholes (s : State) (x1 : BitVec 32) (x2 : Coll → Coll) :
    (State.modColl s x1 x2).wholes = s.wholes := rfl
@[simp] theorem State.modColl_rels (s : State) (x1 : BitVec 32) (x2 : Coll → Coll) :
    (State.modColl s x1 x2).rels = s.rels := rfl
@[simp] theorem State.modColl_unsys (s : State) (x1 : BitVec 32) (x2 : Coll → Coll) :
    (State.modColl s x1 x2).unsys = s.unsys := rfl
@[simp] theorem State.modColl_wwrites (s : State) (x1 : BitVec 32) (x2 : Coll → Coll) :
    (State.modColl s x1 x2).wwrites = s.wwrites := rfl
@[simp] theorem State.modColl_pkg (s : State) (x1 : BitVec 32) (x2 : Coll → Coll) :
    (State.modColl s x1 x2).pkg = s.pkg := rfl

@[simp] theorem State.entryCycles_id (s : State) : (State.entryCycles s).id = s.id := rfl
@[simp] theorem State.entryCycles_others (s : State) : (State.entryCycles s).others = s.others := rfl
@[simp] theorem State.entryCycles_bundle (s : State) : (State.entryCycles s).bundle = s.bundle := rfl
@[simp] theorem State.entryCycles_agenda (s : State) : (State.entryCycles s).agenda = s.agenda := rfl
@[simp] theorem State.entryCycles_move (s : State) : (State.entryCycles s).move = s.move := rfl
@[simp] theorem State.entryCycles_fresh (s : State) : (State.entryCycles s).fresh = s.fresh := rfl
@[simp] theorem State.entryCycles_sched (s : State) : (State.entryCycles s).sched = s.sched := rfl
@[simp] theorem State.entryCycles_tok (s : State) : (State.entryCycles s).tok = s.tok := rfl
@[simp] theorem State.entryCycles_wholes (s : State) : (State.entryCycles s).wholes = s.wholes := rfl
@[simp] theorem State.entryCycles_rels (s : State) : (State.entryCycles s).rels = s.rels := rfl
@[simp] theorem State.entryCycles_unsys (s : State) : (State.entryCycles s).unsys = s.unsys := rfl
@[simp] theorem State.entryCycles_fab (s : State) : (State.entryCycles s).fab = s.fab := rfl
@[simp] theorem State.entryCycles_wwrites (s : State) : (State.entryCycles s).wwrites = s.wwrites := rfl
@[simp] theorem State.entryCycles_pkg (s : State) : (State.entryCycles s).pkg = s.pkg := rfl

@[simp] theorem State.raisePub_id (s : State) (x1 : Pub) (x2 : Stale → Bool) :
    (State.raisePub s x1 x2).id = s.id := rfl
@[simp] theorem State.raisePub_bundle (s : State) (x1 : Pub) (x2 : Stale → Bool) :
    (State.raisePub s x1 x2).bundle = s.bundle := rfl
@[simp] theorem State.raisePub_agenda (s : State) (x1 : Pub) (x2 : Stale → Bool) :
    (State.raisePub s x1 x2).agenda = s.agenda := rfl
@[simp] theorem State.raisePub_move (s : State) (x1 : Pub) (x2 : Stale → Bool) :
    (State.raisePub s x1 x2).move = s.move := rfl
@[simp] theorem State.raisePub_fresh (s : State) (x1 : Pub) (x2 : Stale → Bool) :
    (State.raisePub s x1 x2).fresh = s.fresh := rfl
@[simp] theorem State.raisePub_cores (s : State) (x1 : Pub) (x2 : Stale → Bool) :
    (State.raisePub s x1 x2).cores = s.cores := rfl
@[simp] theorem State.raisePub_sched (s : State) (x1 : Pub) (x2 : Stale → Bool) :
    (State.raisePub s x1 x2).sched = s.sched := rfl
@[simp] theorem State.raisePub_tok (s : State) (x1 : Pub) (x2 : Stale → Bool) :
    (State.raisePub s x1 x2).tok = s.tok := rfl
@[simp] theorem State.raisePub_wholes (s : State) (x1 : Pub) (x2 : Stale → Bool) :
    (State.raisePub s x1 x2).wholes = s.wholes := rfl
@[simp] theorem State.raisePub_rels (s : State) (x1 : Pub) (x2 : Stale → Bool) :
    (State.raisePub s x1 x2).rels = s.rels := rfl
@[simp] theorem State.raisePub_fab (s : State) (x1 : Pub) (x2 : Stale → Bool) :
    (State.raisePub s x1 x2).fab = s.fab := rfl
@[simp] theorem State.raisePub_wwrites (s : State) (x1 : Pub) (x2 : Stale → Bool) :
    (State.raisePub s x1 x2).wwrites = s.wwrites := rfl
@[simp] theorem State.raisePub_pkg (s : State) (x1 : Pub) (x2 : Stale → Bool) :
    (State.raisePub s x1 x2).pkg = s.pkg := rfl

@[simp] theorem State.setCtx_id (s : State) (x1 : Nat) (x2 : Ctx) : (State.setCtx s x1 x2).id = s.id := by
  unfold State.setCtx
  split <;> rfl
@[simp] theorem State.setCtx_bundle (s : State) (x1 : Nat) (x2 : Ctx) : (State.setCtx s x1 x2).bundle = s.bundle := by
  unfold State.setCtx
  split <;> rfl
@[simp] theorem State.setCtx_agenda (s : State) (x1 : Nat) (x2 : Ctx) : (State.setCtx s x1 x2).agenda = s.agenda := by
  unfold State.setCtx
  split <;> rfl
@[simp] theorem State.setCtx_move (s : State) (x1 : Nat) (x2 : Ctx) : (State.setCtx s x1 x2).move = s.move := by
  unfold State.setCtx
  split <;> rfl
@[simp] theorem State.setCtx_fresh (s : State) (x1 : Nat) (x2 : Ctx) : (State.setCtx s x1 x2).fresh = s.fresh := by
  unfold State.setCtx
  split <;> rfl
@[simp] theorem State.setCtx_cores (s : State) (x1 : Nat) (x2 : Ctx) : (State.setCtx s x1 x2).cores = s.cores := by
  unfold State.setCtx
  split <;> rfl
@[simp] theorem State.setCtx_sched (s : State) (x1 : Nat) (x2 : Ctx) : (State.setCtx s x1 x2).sched = s.sched := by
  unfold State.setCtx
  split <;> rfl
@[simp] theorem State.setCtx_tok (s : State) (x1 : Nat) (x2 : Ctx) : (State.setCtx s x1 x2).tok = s.tok := by
  unfold State.setCtx
  split <;> rfl
@[simp] theorem State.setCtx_wholes (s : State) (x1 : Nat) (x2 : Ctx) : (State.setCtx s x1 x2).wholes = s.wholes := by
  unfold State.setCtx
  split <;> rfl
@[simp] theorem State.setCtx_rels (s : State) (x1 : Nat) (x2 : Ctx) : (State.setCtx s x1 x2).rels = s.rels := by
  unfold State.setCtx
  split <;> rfl
@[simp] theorem State.setCtx_unsys (s : State) (x1 : Nat) (x2 : Ctx) : (State.setCtx s x1 x2).unsys = s.unsys := by
  unfold State.setCtx
  split <;> rfl
@[simp] theorem State.setCtx_fab (s : State) (x1 : Nat) (x2 : Ctx) : (State.setCtx s x1 x2).fab = s.fab := by
  unfold State.setCtx
  split <;> rfl
@[simp] theorem State.setCtx_wwrites (s : State) (x1 : Nat) (x2 : Ctx) :
    (State.setCtx s x1 x2).wwrites = s.wwrites := by
  unfold State.setCtx
  split <;> rfl
@[simp] theorem State.setCtx_pkg (s : State) (x1 : Nat) (x2 : Ctx) : (State.setCtx s x1 x2).pkg = s.pkg := by
  unfold State.setCtx
  split <;> rfl

@[simp] theorem State.modCtx_id (s : State) (x1 : Nat) (x2 : Ctx → Ctx) : (State.modCtx s x1 x2).id = s.id := by
  simp [State.modCtx]
@[simp] theorem State.modCtx_bundle (s : State) (x1 : Nat) (x2 : Ctx → Ctx) :
    (State.modCtx s x1 x2).bundle = s.bundle := by
  simp [State.modCtx]
@[simp] theorem State.modCtx_agenda (s : State) (x1 : Nat) (x2 : Ctx → Ctx) :
    (State.modCtx s x1 x2).agenda = s.agenda := by
  simp [State.modCtx]
@[simp] theorem State.modCtx_move (s : State) (x1 : Nat) (x2 : Ctx → Ctx) : (State.modCtx s x1 x2).move = s.move := by
  simp [State.modCtx]
@[simp] theorem State.modCtx_fresh (s : State) (x1 : Nat) (x2 : Ctx → Ctx) :
    (State.modCtx s x1 x2).fresh = s.fresh := by
  simp [State.modCtx]
@[simp] theorem State.modCtx_cores (s : State) (x1 : Nat) (x2 : Ctx → Ctx) :
    (State.modCtx s x1 x2).cores = s.cores := by
  simp [State.modCtx]
@[simp] theorem State.modCtx_sched (s : State) (x1 : Nat) (x2 : Ctx → Ctx) :
    (State.modCtx s x1 x2).sched = s.sched := by
  simp [State.modCtx]
@[simp] theorem State.modCtx_tok (s : State) (x1 : Nat) (x2 : Ctx → Ctx) : (State.modCtx s x1 x2).tok = s.tok := by
  simp [State.modCtx]
@[simp] theorem State.modCtx_wholes (s : State) (x1 : Nat) (x2 : Ctx → Ctx) : (State.modCtx s x1 x2).wholes = s.wholes := by
  simp [State.modCtx]
@[simp] theorem State.modCtx_rels (s : State) (x1 : Nat) (x2 : Ctx → Ctx) : (State.modCtx s x1 x2).rels = s.rels := by
  simp [State.modCtx]
@[simp] theorem State.modCtx_unsys (s : State) (x1 : Nat) (x2 : Ctx → Ctx) : (State.modCtx s x1 x2).unsys = s.unsys := by
  simp [State.modCtx]
@[simp] theorem State.modCtx_fab (s : State) (x1 : Nat) (x2 : Ctx → Ctx) : (State.modCtx s x1 x2).fab = s.fab := by
  simp [State.modCtx]
@[simp] theorem State.modCtx_wwrites (s : State) (x1 : Nat) (x2 : Ctx → Ctx) :
    (State.modCtx s x1 x2).wwrites = s.wwrites := by
  simp [State.modCtx]
@[simp] theorem State.modCtx_pkg (s : State) (x1 : Nat) (x2 : Ctx → Ctx) : (State.modCtx s x1 x2).pkg = s.pkg := by
  simp [State.modCtx]

@[simp] theorem State.modHead_id (s : State) (x1 : Nat) (x2 : Cmd → Cmd) : (State.modHead s x1 x2).id = s.id := by
  simp [State.modHead]
@[simp] theorem State.modHead_bundle (s : State) (x1 : Nat) (x2 : Cmd → Cmd) :
    (State.modHead s x1 x2).bundle = s.bundle := by
  simp [State.modHead]
@[simp] theorem State.modHead_agenda (s : State) (x1 : Nat) (x2 : Cmd → Cmd) :
    (State.modHead s x1 x2).agenda = s.agenda := by
  simp [State.modHead]
@[simp] theorem State.modHead_move (s : State) (x1 : Nat) (x2 : Cmd → Cmd) :
    (State.modHead s x1 x2).move = s.move := by
  simp [State.modHead]
@[simp] theorem State.modHead_fresh (s : State) (x1 : Nat) (x2 : Cmd → Cmd) :
    (State.modHead s x1 x2).fresh = s.fresh := by
  simp [State.modHead]
@[simp] theorem State.modHead_cores (s : State) (x1 : Nat) (x2 : Cmd → Cmd) :
    (State.modHead s x1 x2).cores = s.cores := by
  simp [State.modHead]
@[simp] theorem State.modHead_sched (s : State) (x1 : Nat) (x2 : Cmd → Cmd) :
    (State.modHead s x1 x2).sched = s.sched := by
  simp [State.modHead]
@[simp] theorem State.modHead_tok (s : State) (x1 : Nat) (x2 : Cmd → Cmd) : (State.modHead s x1 x2).tok = s.tok := by
  simp [State.modHead]
@[simp] theorem State.modHead_wholes (s : State) (x1 : Nat) (x2 : Cmd → Cmd) : (State.modHead s x1 x2).wholes = s.wholes := by
  simp [State.modHead]
@[simp] theorem State.modHead_rels (s : State) (x1 : Nat) (x2 : Cmd → Cmd) : (State.modHead s x1 x2).rels = s.rels := by
  simp [State.modHead]
@[simp] theorem State.modHead_unsys (s : State) (x1 : Nat) (x2 : Cmd → Cmd) : (State.modHead s x1 x2).unsys = s.unsys := by
  simp [State.modHead]
@[simp] theorem State.modHead_fab (s : State) (x1 : Nat) (x2 : Cmd → Cmd) : (State.modHead s x1 x2).fab = s.fab := by
  simp [State.modHead]
@[simp] theorem State.modHead_wwrites (s : State) (x1 : Nat) (x2 : Cmd → Cmd) :
    (State.modHead s x1 x2).wwrites = s.wwrites := by
  simp [State.modHead]
@[simp] theorem State.modHead_pkg (s : State) (x1 : Nat) (x2 : Cmd → Cmd) : (State.modHead s x1 x2).pkg = s.pkg := by
  simp [State.modHead]

@[simp] theorem State.refresh_id (s : State) (x1 : Nat) (x2 : BitVec 2) : (State.refresh s x1 x2).id = s.id := by
  simp [State.refresh]
@[simp] theorem State.refresh_bundle (s : State) (x1 : Nat) (x2 : BitVec 2) :
    (State.refresh s x1 x2).bundle = s.bundle := by
  simp [State.refresh]
@[simp] theorem State.refresh_agenda (s : State) (x1 : Nat) (x2 : BitVec 2) :
    (State.refresh s x1 x2).agenda = s.agenda := by
  simp [State.refresh]
@[simp] theorem State.refresh_move (s : State) (x1 : Nat) (x2 : BitVec 2) :
    (State.refresh s x1 x2).move = s.move := by
  simp [State.refresh]
@[simp] theorem State.refresh_fresh (s : State) (x1 : Nat) (x2 : BitVec 2) :
    (State.refresh s x1 x2).fresh = s.fresh := by
  simp [State.refresh]
@[simp] theorem State.refresh_cores (s : State) (x1 : Nat) (x2 : BitVec 2) :
    (State.refresh s x1 x2).cores = s.cores := by
  simp [State.refresh]
@[simp] theorem State.refresh_sched (s : State) (x1 : Nat) (x2 : BitVec 2) :
    (State.refresh s x1 x2).sched = s.sched := by
  simp [State.refresh]
@[simp] theorem State.refresh_tok (s : State) (x1 : Nat) (x2 : BitVec 2) : (State.refresh s x1 x2).tok = s.tok := by
  simp [State.refresh]
@[simp] theorem State.refresh_wholes (s : State) (x1 : Nat) (x2 : BitVec 2) : (State.refresh s x1 x2).wholes = s.wholes := by
  simp [State.refresh]
@[simp] theorem State.refresh_rels (s : State) (x1 : Nat) (x2 : BitVec 2) : (State.refresh s x1 x2).rels = s.rels := by
  simp [State.refresh]
@[simp] theorem State.refresh_unsys (s : State) (x1 : Nat) (x2 : BitVec 2) : (State.refresh s x1 x2).unsys = s.unsys := by
  simp [State.refresh]
@[simp] theorem State.refresh_fab (s : State) (x1 : Nat) (x2 : BitVec 2) : (State.refresh s x1 x2).fab = s.fab := by
  simp [State.refresh]
@[simp] theorem State.refresh_wwrites (s : State) (x1 : Nat) (x2 : BitVec 2) :
    (State.refresh s x1 x2).wwrites = s.wwrites := by
  simp [State.refresh]
@[simp] theorem State.refresh_pkg (s : State) (x1 : Nat) (x2 : BitVec 2) : (State.refresh s x1 x2).pkg = s.pkg := by
  simp [State.refresh]

@[simp] theorem State.caughtUp_id (s : State) (x1 : Nat) (x2 : Nat) (x3 : Nat) :
    (State.caughtUp s x1 x2 x3).id = s.id := by
  simp [State.caughtUp]
@[simp] theorem State.caughtUp_bundle (s : State) (x1 : Nat) (x2 : Nat) (x3 : Nat) :
    (State.caughtUp s x1 x2 x3).bundle = s.bundle := by
  simp [State.caughtUp]
@[simp] theorem State.caughtUp_agenda (s : State) (x1 : Nat) (x2 : Nat) (x3 : Nat) :
    (State.caughtUp s x1 x2 x3).agenda = s.agenda := by
  simp [State.caughtUp]
@[simp] theorem State.caughtUp_move (s : State) (x1 : Nat) (x2 : Nat) (x3 : Nat) :
    (State.caughtUp s x1 x2 x3).move = s.move := by
  simp [State.caughtUp]
@[simp] theorem State.caughtUp_fresh (s : State) (x1 : Nat) (x2 : Nat) (x3 : Nat) :
    (State.caughtUp s x1 x2 x3).fresh = s.fresh := by
  simp [State.caughtUp]
@[simp] theorem State.caughtUp_cores (s : State) (x1 : Nat) (x2 : Nat) (x3 : Nat) :
    (State.caughtUp s x1 x2 x3).cores = s.cores := by
  simp [State.caughtUp]
@[simp] theorem State.caughtUp_sched (s : State) (x1 : Nat) (x2 : Nat) (x3 : Nat) :
    (State.caughtUp s x1 x2 x3).sched = s.sched := by
  simp [State.caughtUp]
@[simp] theorem State.caughtUp_tok (s : State) (x1 : Nat) (x2 : Nat) (x3 : Nat) :
    (State.caughtUp s x1 x2 x3).tok = s.tok := by
  simp [State.caughtUp]
@[simp] theorem State.caughtUp_wholes (s : State) (x1 : Nat) (x2 : Nat) (x3 : Nat) :
    (State.caughtUp s x1 x2 x3).wholes = s.wholes := by
  simp [State.caughtUp]
@[simp] theorem State.caughtUp_rels (s : State) (x1 : Nat) (x2 : Nat) (x3 : Nat) :
    (State.caughtUp s x1 x2 x3).rels = s.rels := by
  simp [State.caughtUp]
@[simp] theorem State.caughtUp_unsys (s : State) (x1 : Nat) (x2 : Nat) (x3 : Nat) :
    (State.caughtUp s x1 x2 x3).unsys = s.unsys := by
  simp [State.caughtUp]
@[simp] theorem State.caughtUp_fab (s : State) (x1 : Nat) (x2 : Nat) (x3 : Nat) :
    (State.caughtUp s x1 x2 x3).fab = s.fab := by
  simp [State.caughtUp]
@[simp] theorem State.caughtUp_wwrites (s : State) (x1 : Nat) (x2 : Nat) (x3 : Nat) :
    (State.caughtUp s x1 x2 x3).wwrites = s.wwrites := by
  simp [State.caughtUp]
@[simp] theorem State.caughtUp_pkg (s : State) (x1 : Nat) (x2 : Nat) (x3 : Nat) :
    (State.caughtUp s x1 x2 x3).pkg = s.pkg := by
  simp [State.caughtUp]

@[simp] theorem State.windowStore_id (s : State) (n off : Nat) (b : List Byte) (w k : Option (Nat × Nat)) :
    (s.windowStore n off b w k).id = s.id := by
  unfold State.windowStore
  split <;> rfl
@[simp] theorem State.windowStore_c (s : State) (n off : Nat) (b : List Byte) (w k : Option (Nat × Nat)) :
    (s.windowStore n off b w k).c = s.c := by
  unfold State.windowStore
  split <;> rfl
@[simp] theorem State.windowStore_others (s : State) (n off : Nat) (b : List Byte) (w k : Option (Nat × Nat)) :
    (s.windowStore n off b w k).others = s.others := by
  unfold State.windowStore
  split <;> rfl
@[simp] theorem State.windowStore_bundle (s : State) (n off : Nat) (b : List Byte) (w k : Option (Nat × Nat)) :
    (s.windowStore n off b w k).bundle = s.bundle := by
  unfold State.windowStore
  split <;> rfl
@[simp] theorem State.windowStore_agenda (s : State) (n off : Nat) (b : List Byte) (w k : Option (Nat × Nat)) :
    (s.windowStore n off b w k).agenda = s.agenda := by
  unfold State.windowStore
  split <;> rfl
@[simp] theorem State.windowStore_move (s : State) (n off : Nat) (b : List Byte) (w k : Option (Nat × Nat)) :
    (s.windowStore n off b w k).move = s.move := by
  unfold State.windowStore
  split <;> rfl
@[simp] theorem State.windowStore_fresh (s : State) (n off : Nat) (b : List Byte) (w k : Option (Nat × Nat)) :
    (s.windowStore n off b w k).fresh = s.fresh := by
  unfold State.windowStore
  split <;> rfl
@[simp] theorem State.windowStore_cores (s : State) (n off : Nat) (b : List Byte) (w k : Option (Nat × Nat)) :
    (s.windowStore n off b w k).cores = s.cores := by
  unfold State.windowStore
  split <;> rfl
@[simp] theorem State.windowStore_sched (s : State) (n off : Nat) (b : List Byte) (w k : Option (Nat × Nat)) :
    (s.windowStore n off b w k).sched = s.sched := by
  unfold State.windowStore
  split <;> rfl
@[simp] theorem State.windowStore_tok (s : State) (n off : Nat) (b : List Byte) (w k : Option (Nat × Nat)) :
    (s.windowStore n off b w k).tok = s.tok := by
  unfold State.windowStore
  split <;> rfl
@[simp] theorem State.windowStore_fab (s : State) (n off : Nat) (b : List Byte) (w k : Option (Nat × Nat)) :
    (s.windowStore n off b w k).fab = s.fab := by
  unfold State.windowStore
  split <;> rfl
@[simp] theorem State.windowStore_wholes (s : State) (n off : Nat) (b : List Byte) (w k : Option (Nat × Nat)) :
    (s.windowStore n off b w k).wholes = s.wholes := by
  unfold State.windowStore
  split <;> rfl
@[simp] theorem State.windowStore_rels (s : State) (n off : Nat) (b : List Byte) (w k : Option (Nat × Nat)) :
    (s.windowStore n off b w k).rels = s.rels := by
  unfold State.windowStore
  split <;> rfl
@[simp] theorem State.windowStore_unsys (s : State) (n off : Nat) (b : List Byte) (w k : Option (Nat × Nat)) :
    (s.windowStore n off b w k).unsys = s.unsys := by
  unfold State.windowStore
  split <;> rfl
@[simp] theorem State.windowStore_pkg (s : State) (n off : Nat) (b : List Byte) (w k : Option (Nat × Nat)) :
    (s.windowStore n off b w k).pkg = s.pkg := by
  unfold State.windowStore
  split <;> rfl

@[simp] theorem State.addNeed_id (s : State) (x1 : Agent) (x2 : Nat) (x3 : Bool) (x4 : Asker) (x5 : Option Region) :
    (State.addNeed s x1 x2 x3 x4 x5).id = s.id := by
  unfold State.addNeed
  split <;> rfl
@[simp] theorem State.addNeed_c (s : State) (x1 : Agent) (x2 : Nat) (x3 : Bool) (x4 : Asker) (x5 : Option Region) :
    (State.addNeed s x1 x2 x3 x4 x5).c = s.c := by
  unfold State.addNeed
  split <;> rfl
@[simp] theorem State.addNeed_others (s : State) (x1 : Agent) (x2 : Nat) (x3 : Bool) (x4 : Asker) (x5 : Option Region) :
    (State.addNeed s x1 x2 x3 x4 x5).others = s.others := by
  unfold State.addNeed
  split <;> rfl
@[simp] theorem State.addNeed_bundle (s : State) (x1 : Agent) (x2 : Nat) (x3 : Bool) (x4 : Asker) (x5 : Option Region) :
    (State.addNeed s x1 x2 x3 x4 x5).bundle = s.bundle := by
  unfold State.addNeed
  split <;> rfl
@[simp] theorem State.addNeed_agenda (s : State) (x1 : Agent) (x2 : Nat) (x3 : Bool) (x4 : Asker) (x5 : Option Region) :
    (State.addNeed s x1 x2 x3 x4 x5).agenda = s.agenda := by
  unfold State.addNeed
  split <;> rfl
@[simp] theorem State.addNeed_move (s : State) (x1 : Agent) (x2 : Nat) (x3 : Bool) (x4 : Asker) (x5 : Option Region) :
    (State.addNeed s x1 x2 x3 x4 x5).move = s.move := by
  unfold State.addNeed
  split <;> rfl
@[simp] theorem State.addNeed_fresh (s : State) (x1 : Agent) (x2 : Nat) (x3 : Bool) (x4 : Asker) (x5 : Option Region) :
    (State.addNeed s x1 x2 x3 x4 x5).fresh = s.fresh := by
  unfold State.addNeed
  split <;> rfl
@[simp] theorem State.addNeed_cores (s : State) (x1 : Agent) (x2 : Nat) (x3 : Bool) (x4 : Asker) (x5 : Option Region) :
    (State.addNeed s x1 x2 x3 x4 x5).cores = s.cores := by
  unfold State.addNeed
  split <;> rfl
@[simp] theorem State.addNeed_sched (s : State) (x1 : Agent) (x2 : Nat) (x3 : Bool) (x4 : Asker) (x5 : Option Region) :
    (State.addNeed s x1 x2 x3 x4 x5).sched = s.sched := by
  unfold State.addNeed
  split <;> rfl
@[simp] theorem State.addNeed_fab (s : State) (x1 : Agent) (x2 : Nat) (x3 : Bool) (x4 : Asker) (x5 : Option Region) :
    (State.addNeed s x1 x2 x3 x4 x5).fab = s.fab := by
  unfold State.addNeed
  split <;> rfl
@[simp] theorem State.addNeed_wwrites (s : State) (x1 : Agent) (x2 : Nat) (x3 : Bool) (x4 : Asker) (x5 : Option Region) :
    (State.addNeed s x1 x2 x3 x4 x5).wwrites = s.wwrites := by
  unfold State.addNeed
  split <;> rfl
@[simp] theorem State.addNeed_pkg (s : State) (x1 : Agent) (x2 : Nat) (x3 : Bool) (x4 : Asker) (x5 : Option Region) :
    (State.addNeed s x1 x2 x3 x4 x5).pkg = s.pkg := by
  unfold State.addNeed
  split <;> rfl

@[simp] theorem State.dropAsker_id (s : State) (a : Asker) : (s.dropAsker a).id = s.id := by
  unfold State.dropAsker
  dsimp only
  split <;> rfl
@[simp] theorem State.dropAsker_c (s : State) (a : Asker) : (s.dropAsker a).c = s.c := by
  unfold State.dropAsker
  dsimp only
  split <;> rfl
@[simp] theorem State.dropAsker_others (s : State) (a : Asker) : (s.dropAsker a).others = s.others := by
  unfold State.dropAsker
  dsimp only
  split <;> rfl
@[simp] theorem State.dropAsker_bundle (s : State) (a : Asker) : (s.dropAsker a).bundle = s.bundle := by
  unfold State.dropAsker
  dsimp only
  split <;> rfl
@[simp] theorem State.dropAsker_agenda (s : State) (a : Asker) : (s.dropAsker a).agenda = s.agenda := by
  unfold State.dropAsker
  dsimp only
  split <;> rfl
@[simp] theorem State.dropAsker_move (s : State) (a : Asker) : (s.dropAsker a).move = s.move := by
  unfold State.dropAsker
  dsimp only
  split <;> rfl
@[simp] theorem State.dropAsker_fresh (s : State) (a : Asker) : (s.dropAsker a).fresh = s.fresh := by
  unfold State.dropAsker
  dsimp only
  split <;> rfl
@[simp] theorem State.dropAsker_cores (s : State) (a : Asker) : (s.dropAsker a).cores = s.cores := by
  unfold State.dropAsker
  dsimp only
  split <;> rfl
@[simp] theorem State.dropAsker_fab (s : State) (a : Asker) : (s.dropAsker a).fab = s.fab := by
  unfold State.dropAsker
  dsimp only
  split <;> rfl
@[simp] theorem State.dropAsker_wwrites (s : State) (a : Asker) : (s.dropAsker a).wwrites = s.wwrites := by
  unfold State.dropAsker
  dsimp only
  split <;> rfl
@[simp] theorem State.dropAsker_sched (s : State) (a : Asker) : (s.dropAsker a).sched = s.sched := by
  unfold State.dropAsker
  dsimp only
  split <;> rfl
@[simp] theorem State.dropAsker_pkg (s : State) (a : Asker) : (s.dropAsker a).pkg = s.pkg := by
  unfold State.dropAsker
  dsimp only
  split <;> rfl

@[simp] theorem State.mapSaved_id (s : State) (f : Ctx → Ctx) : (s.mapSaved f).id = s.id := rfl
@[simp] theorem State.mapSaved_c (s : State) (f : Ctx → Ctx) : (s.mapSaved f).c = s.c := rfl
@[simp] theorem State.mapSaved_others (s : State) (f : Ctx → Ctx) : (s.mapSaved f).others = s.others := rfl
@[simp] theorem State.mapSaved_bundle (s : State) (f : Ctx → Ctx) : (s.mapSaved f).bundle = s.bundle := rfl
@[simp] theorem State.mapSaved_agenda (s : State) (f : Ctx → Ctx) : (s.mapSaved f).agenda = s.agenda := rfl
@[simp] theorem State.mapSaved_move (s : State) (f : Ctx → Ctx) : (s.mapSaved f).move = s.move := rfl
@[simp] theorem State.mapSaved_fresh (s : State) (f : Ctx → Ctx) : (s.mapSaved f).fresh = s.fresh := rfl
@[simp] theorem State.mapSaved_cores (s : State) (f : Ctx → Ctx) : (s.mapSaved f).cores = s.cores := rfl
@[simp] theorem State.mapSaved_fab (s : State) (f : Ctx → Ctx) : (s.mapSaved f).fab = s.fab := rfl
@[simp] theorem State.mapSaved_wwrites (s : State) (f : Ctx → Ctx) : (s.mapSaved f).wwrites = s.wwrites := rfl
@[simp] theorem State.mapSaved_pkg (s : State) (f : Ctx → Ctx) : (s.mapSaved f).pkg = s.pkg := rfl
@[simp] theorem State.mapSaved_tok (s : State) (f : Ctx → Ctx) : (s.mapSaved f).tok = s.tok := rfl
@[simp] theorem State.mapSaved_wholes (s : State) (f : Ctx → Ctx) : (s.mapSaved f).wholes = s.wholes := rfl
@[simp] theorem State.mapSaved_rels (s : State) (f : Ctx → Ctx) : (s.mapSaved f).rels = s.rels := rfl
@[simp] theorem State.mapSaved_unsys (s : State) (f : Ctx → Ctx) : (s.mapSaved f).unsys = s.unsys := rfl

@[simp] theorem State.emit_c (s : State) (lat : Nat) (ws : List Write) (f : Flags) :
    (s.emit lat ws f).c = s.c.push ⟨s.c.now + lat, s.bundle.slot, s.c.seq, ws, f⟩ := rfl
@[simp] theorem State.goto_bundle (s : State) (a : VAddr) : (s.goto a).bundle = { s.bundle with target := a } := rfl
@[simp] theorem State.enqueue_c (s : State) (q : Cmd) :
    (s.enqueue q).c = { s.c with queue := s.c.queue ++ [q] } := rfl
@[simp] theorem State.modQueue_sched (s : State) (q : Fin 64) (f : Queue → Queue) :
    (s.modQueue q f).sched = { s.sched with queues := s.sched.queues.set q (f (s.sched.queues.get q)) } := rfl
@[simp] theorem State.setCtx_self (s : State) (c : Ctx) : s.setCtx s.id c = { s with c := c } := by
  simp [State.setCtx]
@[simp] theorem State.ctx_self (s : State) : s.ctx s.id = s.c := by
  simp [State.ctx]
@[simp] theorem State.modCtx_self (s : State) (f : Ctx → Ctx) : s.modCtx s.id f = { s with c := f s.c } := by
  simp [State.modCtx]

@[simp] theorem Ctx.push_task (c : Ctx) (l : Landing) : (c.push l).task = c.task := rfl
@[simp] theorem Ctx.push_pc (c : Ctx) (l : Landing) : (c.push l).pc = c.pc := rfl
@[simp] theorem Ctx.push_sc (c : Ctx) (l : Landing) : (c.push l).sc = c.sc := rfl
@[simp] theorem Ctx.push_ssc (c : Ctx) (l : Landing) : (c.push l).ssc = c.ssc := rfl
@[simp] theorem Ctx.push_priv (c : Ctx) (l : Landing) : (c.push l).priv = c.priv := rfl
@[simp] theorem Ctx.push_wbase (c : Ctx) (l : Landing) : (c.push l).wbase = c.wbase := rfl
@[simp] theorem Ctx.push_wsize (c : Ctx) (l : Landing) : (c.push l).wsize = c.wsize := rfl
@[simp] theorem Ctx.push_regs (c : Ctx) (l : Landing) : (c.push l).regs = c.regs := rfl
@[simp] theorem Ctx.push_sys (c : Ctx) (l : Landing) : (c.push l).sys = c.sys := rfl
@[simp] theorem Ctx.push_hist (c : Ctx) (l : Landing) : (c.push l).hist = c.hist := rfl
@[simp] theorem Ctx.push_aside (c : Ctx) (l : Landing) : (c.push l).aside = c.aside := rfl
@[simp] theorem Ctx.push_held (c : Ctx) (l : Landing) : (c.push l).held = c.held := rfl
@[simp] theorem Ctx.push_split (c : Ctx) (l : Landing) : (c.push l).split = c.split := rfl
@[simp] theorem Ctx.push_ipend (c : Ctx) (l : Landing) : (c.push l).ipend = c.ipend := rfl
@[simp] theorem Ctx.push_lbuf (c : Ctx) (l : Landing) : (c.push l).lbuf = c.lbuf := rfl
@[simp] theorem Ctx.push_clusters (c : Ctx) (l : Landing) : (c.push l).clusters = c.clusters := rfl
@[simp] theorem Ctx.push_silo (c : Ctx) (l : Landing) : (c.push l).silo = c.silo := rfl
@[simp] theorem Ctx.push_siloSlots (c : Ctx) (l : Landing) : (c.push l).siloSlots = c.siloSlots := rfl
@[simp] theorem Ctx.push_spoison (c : Ctx) (l : Landing) : (c.push l).spoison = c.spoison := rfl
@[simp] theorem Ctx.push_loads (c : Ctx) (l : Landing) : (c.push l).loads = c.loads := rfl
@[simp] theorem Ctx.push_tloads (c : Ctx) (l : Landing) : (c.push l).tloads = c.tloads := rfl
@[simp] theorem Ctx.push_fills (c : Ctx) (l : Landing) : (c.push l).fills = c.fills := rfl
@[simp] theorem Ctx.push_atomics (c : Ctx) (l : Landing) : (c.push l).atomics = c.atomics := rfl
@[simp] theorem Ctx.push_queue (c : Ctx) (l : Landing) : (c.push l).queue = c.queue := rfl
@[simp] theorem Ctx.push_halted (c : Ctx) (l : Landing) : (c.push l).halted = c.halted := rfl
@[simp] theorem Ctx.push_mq (c : Ctx) (l : Landing) : (c.push l).mq = c.mq := rfl
@[simp] theorem Ctx.push_mhalted (c : Ctx) (l : Landing) : (c.push l).mhalted = c.mhalted := rfl
@[simp] theorem Ctx.push_pbuf (c : Ctx) (l : Landing) : (c.push l).pbuf = c.pbuf := rfl
@[simp] theorem Ctx.push_stale (c : Ctx) (l : Landing) : (c.push l).stale = c.stale := rfl
@[simp] theorem Ctx.push_unjoined (c : Ctx) (l : Landing) : (c.push l).unjoined = c.unjoined := rfl
@[simp] theorem Ctx.push_joined (c : Ctx) (l : Landing) : (c.push l).joined = c.joined := rfl
@[simp] theorem Ctx.push_unread (c : Ctx) (l : Landing) : (c.push l).unread = c.unread := rfl
@[simp] theorem Ctx.push_phase (c : Ctx) (l : Landing) : (c.push l).phase = c.phase := rfl
@[simp] theorem Ctx.push_vjoin (c : Ctx) (l : Landing) : (c.push l).vjoin = c.vjoin := rfl
@[simp] theorem Ctx.push_barrier (c : Ctx) (l : Landing) : (c.push l).barrier = c.barrier := rfl
@[simp] theorem Ctx.push_seq (c : Ctx) (l : Landing) : (c.push l).seq = c.seq := rfl
@[simp] theorem Ctx.push_mode (c : Ctx) (l : Landing) : (c.push l).mode = c.mode := rfl
@[simp] theorem Ctx.push_flight (c : Ctx) (l : Landing) : (c.push l).flight = insertLanding l c.flight := rfl

@[simp] theorem Ctx.raiseFlags_task (c : Ctx) (f : Flags) : (c.raiseFlags f).task = c.task := rfl
@[simp] theorem Ctx.raiseFlags_pc (c : Ctx) (f : Flags) : (c.raiseFlags f).pc = c.pc := rfl
@[simp] theorem Ctx.raiseFlags_sc (c : Ctx) (f : Flags) : (c.raiseFlags f).sc = c.sc := rfl
@[simp] theorem Ctx.raiseFlags_ssc (c : Ctx) (f : Flags) : (c.raiseFlags f).ssc = c.ssc := rfl
@[simp] theorem Ctx.raiseFlags_priv (c : Ctx) (f : Flags) : (c.raiseFlags f).priv = c.priv := rfl
@[simp] theorem Ctx.raiseFlags_wbase (c : Ctx) (f : Flags) : (c.raiseFlags f).wbase = c.wbase := rfl
@[simp] theorem Ctx.raiseFlags_wsize (c : Ctx) (f : Flags) : (c.raiseFlags f).wsize = c.wsize := rfl
@[simp] theorem Ctx.raiseFlags_regs (c : Ctx) (f : Flags) : (c.raiseFlags f).regs = c.regs := rfl
@[simp] theorem Ctx.raiseFlags_hist (c : Ctx) (f : Flags) : (c.raiseFlags f).hist = c.hist := rfl
@[simp] theorem Ctx.raiseFlags_aside (c : Ctx) (f : Flags) : (c.raiseFlags f).aside = c.aside := rfl
@[simp] theorem Ctx.raiseFlags_held (c : Ctx) (f : Flags) : (c.raiseFlags f).held = c.held := rfl
@[simp] theorem Ctx.raiseFlags_split (c : Ctx) (f : Flags) : (c.raiseFlags f).split = c.split := rfl
@[simp] theorem Ctx.raiseFlags_ipend (c : Ctx) (f : Flags) : (c.raiseFlags f).ipend = c.ipend := rfl
@[simp] theorem Ctx.raiseFlags_lbuf (c : Ctx) (f : Flags) : (c.raiseFlags f).lbuf = c.lbuf := rfl
@[simp] theorem Ctx.raiseFlags_clusters (c : Ctx) (f : Flags) : (c.raiseFlags f).clusters = c.clusters := rfl
@[simp] theorem Ctx.raiseFlags_silo (c : Ctx) (f : Flags) : (c.raiseFlags f).silo = c.silo := rfl
@[simp] theorem Ctx.raiseFlags_siloSlots (c : Ctx) (f : Flags) : (c.raiseFlags f).siloSlots = c.siloSlots := rfl
@[simp] theorem Ctx.raiseFlags_spoison (c : Ctx) (f : Flags) : (c.raiseFlags f).spoison = c.spoison := rfl
@[simp] theorem Ctx.raiseFlags_loads (c : Ctx) (f : Flags) : (c.raiseFlags f).loads = c.loads := rfl
@[simp] theorem Ctx.raiseFlags_tloads (c : Ctx) (f : Flags) : (c.raiseFlags f).tloads = c.tloads := rfl
@[simp] theorem Ctx.raiseFlags_fills (c : Ctx) (f : Flags) : (c.raiseFlags f).fills = c.fills := rfl
@[simp] theorem Ctx.raiseFlags_atomics (c : Ctx) (f : Flags) : (c.raiseFlags f).atomics = c.atomics := rfl
@[simp] theorem Ctx.raiseFlags_queue (c : Ctx) (f : Flags) : (c.raiseFlags f).queue = c.queue := rfl
@[simp] theorem Ctx.raiseFlags_halted (c : Ctx) (f : Flags) : (c.raiseFlags f).halted = c.halted := rfl
@[simp] theorem Ctx.raiseFlags_mq (c : Ctx) (f : Flags) : (c.raiseFlags f).mq = c.mq := rfl
@[simp] theorem Ctx.raiseFlags_mhalted (c : Ctx) (f : Flags) : (c.raiseFlags f).mhalted = c.mhalted := rfl
@[simp] theorem Ctx.raiseFlags_pbuf (c : Ctx) (f : Flags) : (c.raiseFlags f).pbuf = c.pbuf := rfl
@[simp] theorem Ctx.raiseFlags_stale (c : Ctx) (f : Flags) : (c.raiseFlags f).stale = c.stale := rfl
@[simp] theorem Ctx.raiseFlags_unjoined (c : Ctx) (f : Flags) : (c.raiseFlags f).unjoined = c.unjoined := rfl
@[simp] theorem Ctx.raiseFlags_joined (c : Ctx) (f : Flags) : (c.raiseFlags f).joined = c.joined := rfl
@[simp] theorem Ctx.raiseFlags_unread (c : Ctx) (f : Flags) : (c.raiseFlags f).unread = c.unread := rfl
@[simp] theorem Ctx.raiseFlags_phase (c : Ctx) (f : Flags) : (c.raiseFlags f).phase = c.phase := rfl
@[simp] theorem Ctx.raiseFlags_vjoin (c : Ctx) (f : Flags) : (c.raiseFlags f).vjoin = c.vjoin := rfl
@[simp] theorem Ctx.raiseFlags_barrier (c : Ctx) (f : Flags) : (c.raiseFlags f).barrier = c.barrier := rfl
@[simp] theorem Ctx.raiseFlags_seq (c : Ctx) (f : Flags) : (c.raiseFlags f).seq = c.seq := rfl
@[simp] theorem Ctx.raiseFlags_mode (c : Ctx) (f : Flags) : (c.raiseFlags f).mode = c.mode := rfl
@[simp] theorem Ctx.raiseFlags_flight (c : Ctx) (f : Flags) : (c.raiseFlags f).flight = c.flight := rfl
@[simp] theorem Ctx.raiseFlags_sys (c : Ctx) (f : Flags) :
    (c.raiseFlags f).sys = { c.sys with fflags := c.sys.fflags ||| f } := rfl

@[simp] theorem Regs.sget_zero (r : Regs) : r.sget 0 = 0 := rfl
@[simp] theorem Regs.pget_zero (r : Regs) : r.pget 0 = true := rfl
@[simp] theorem Regs.kget_zero (r : Regs) : r.kget 0 = Mask.ones := rfl
@[simp] theorem Regs.sset_zero (r : Regs) (v : Word) : r.sset 0 v = r := rfl
@[simp] theorem Regs.pset_zero (r : Regs) (v : Bool) : r.pset 0 v = r := rfl
@[simp] theorem Regs.guard_always (r : Regs) : r.guard Guard.always = true := rfl

end Sys2Proof.Machine
end

