-- ==== Sys2Proof/Laws/Counting.lean ====
section
/-! SUPPORT. Keyed lists, the contexts and cores of a state, and what counting events and taking an exception can change. -/

namespace Sys2Proof.Machine

open Sys2Proof

theorem alGet_alSet {α : Type} (l : List (Nat × α)) (a b : Nat) (v : α) :
    alGet (alSet l a v) b = if a = b then some v else alGet l b := by
  induction l with
  | nil => simp [alSet, alGet]
  | cons e l ih =>
    obtain ⟨k, w⟩ := e
    simp only [alSet]
    split
    · subst_vars; simp only [alGet]; split <;> simp_all
    · simp only [alGet, ih]; split
      · subst_vars; rw [if_neg (fun h => by omega)]
      · rfl

theorem alGet_filter_ne {α : Type} (l : List (Nat × α)) (x a : Nat) (h : a ≠ x) :
    alGet (l.filter fun e => e.1 != x) a = alGet l a := by
  induction l with
  | nil => rfl
  | cons e l ih =>
    obtain ⟨k, w⟩ := e
    simp only [List.filter_cons, alGet]
    split
    · simp only [alGet, ih]
    · rename_i hk
      have : k = x := by simpa using hk
      rw [ih, if_neg (by omega)]

theorem State.ctx_setCtx (s : State) (x y : Nat) (c : Ctx) :
    (s.setCtx x c).ctx y = if x = y then c else s.ctx y := by
  unfold State.setCtx State.ctx
  split
  · subst_vars; simp only; split <;> simp_all [eq_comm]
  · rename_i h
    simp only [alGet_alSet]
    split
    · subst_vars; simp [h]
    · split <;> rfl

theorem State.ctx_modCtx (s : State) (x y : Nat) (f : Ctx → Ctx) :
    (s.modCtx x f).ctx y = if x = y then f (s.ctx x) else s.ctx y := State.ctx_setCtx ..

/-- Focusing on a context moves states about and changes none of them. -/
theorem State.ctx_focus (s : State) (x y : Nat) : (s.focus x).ctx y = s.ctx y := by
  unfold State.focus State.ctx
  split
  · rfl
  · rename_i h
    simp only [alGet_alSet]
    split
    · subst_vars; simp [h]
    · rename_i h2
      by_cases h3 : s.id = y
      · subst h3; simp
      · rw [if_neg h3, if_neg (fun e => h3 e.symm), alGet_filter_ne _ _ _ h2]

theorem State.core_modCore (s : State) (m n : Nat) (f : Core → Core) :
    (s.modCore m f).core n = if m = n then f (s.core m) else s.core n := by
  simp only [State.modCore, State.core, alGet_alSet]
  split <;> rfl

theorem OnlyCounts.rfl' (s : State) : OnlyCounts s s := ⟨rfl, fun _ => rfl, fun _ => rfl⟩

theorem OnlyCounts.trans {a b c : State} (h : OnlyCounts a b) (k : OnlyCounts b c) : OnlyCounts a c := by
  refine ⟨?_, fun x => ?_, fun n => ?_⟩
  · rw [k.1, h.1]
  · rw [k.2.1, h.2.1]
  · rw [k.2.2, h.2.2]

theorem onlyCounts_modCore (s : State) (n : Nat) (f : Core → Core)
    (hf : ∀ k, f k = { k with evsel := (f k).evsel, evcnt := (f k).evcnt }) : OnlyCounts s (s.modCore n f) := by
  refine ⟨rfl, fun _ => rfl, fun m => ?_⟩
  rw [State.core_modCore]
  split
  · subst_vars; exact hf _
  · rfl

theorem Ctx.raiseIrq_ipend (c : Ctx) (k : BitVec 8) (v : Word) :
    c.raiseIrq k v = { c with ipend := (c.raiseIrq k v).ipend } := by
  unfold Ctx.raiseIrq
  split
  · rfl
  · split
    · split <;> rfl
    · rfl

theorem onlyCounts_raiseIrq (s : State) (x : Nat) (k : BitVec 8) (v : Word) :
    OnlyCounts s (s.modCtx x fun c => c.raiseIrq k v) := by
  refine ⟨?_, fun y => ?_, fun _ => ?_⟩
  · unfold State.modCtx State.setCtx; split <;> rfl
  · rw [State.ctx_modCtx]
    split
    · subst_vars; exact Ctx.raiseIrq_ipend ..
    · rfl
  · unfold State.modCtx State.setCtx State.core; split <;> rfl

theorem onlyCounts_counterOvf (s : State) (core : Nat) (n : Fin 8) : OnlyCounts s (s.counterOvf core n) := by
  unfold State.counterOvf
  dsimp only
  split
  · exact (onlyCounts_modCore s _ _ fun _ => rfl).trans (onlyCounts_raiseIrq ..)
  · exact onlyCounts_modCore s _ _ fun _ => rfl

theorem onlyCounts_countIn (s : State) (x ev k : Nat) (n : Fin 8) : OnlyCounts s (s.countIn x ev k n) := by
  unfold State.countIn
  split
  · exact ⟨rfl, fun _ => rfl, fun _ => rfl⟩
  · exact .rfl' s

theorem onlyCounts_countUp (s : State) (e : Counted) : OnlyCounts s (s.countUp e) := by
  unfold State.countUp
  dsimp only
  split
  · exact (onlyCounts_modCore s _ _ fun _ => rfl).trans (onlyCounts_counterOvf ..)
  · exact onlyCounts_modCore s _ _ fun _ => rfl

/-- Counted events that enter their counters change the counters and pending interrupts alone. -/
theorem onlyCounts_countFlush (s : State) : OnlyCounts s s.countFlush := by
  unfold State.countFlush
  split
  · exact .rfl' s
  · dsimp only
    refine OnlyCounts.trans (b := { s with pkg := { s.pkg with
      counted := s.pkg.counted.filter fun e => s.pkg.tick ≤ e.clock } }) ⟨rfl, fun _ => rfl, fun _ => rfl⟩ ?_
    generalize (s.pkg.counted.filter fun e => decide (e.clock < s.pkg.tick)) = l
    generalize ({ s with pkg := _ } : State) = t
    clear * -
    induction l generalizing t with
    | nil => exact .rfl' t
    | cons e l ih => exact (onlyCounts_countUp t e).trans (ih _)

/-- Counting events changes the counted events of the clock alone. -/
theorem onlyCounts_countEv (s : State) (x ev k : Nat) : OnlyCounts s (s.countEv x ev k) := by
  unfold State.countEv
  split
  · exact .rfl' s
  · generalize List.finRange 8 = l
    clear * -
    induction l generalizing s with
    | nil => exact .rfl' s
    | cons n l ih => exact (onlyCounts_countIn s x ev k n).trans (ih _)

end Sys2Proof.Machine
end

