-- ==== Sys2Proof/Laws/Encode.lean ====
section
/-! SUPPORT. The laws of the encodings: fields that fit their widths are read back, and make a word of the format's width. -/

namespace Sys2Proof

/-- Each field is below the power of two of its width. -/
def Fits : List Nat → List Nat → Prop
  | [], [] => True
  | k :: ks, v :: vs => v < 2 ^ k ∧ Fits ks vs
  | _, _ => False

theorem pack_lt {ks vs : List Nat} (h : Fits ks vs) : pack ks vs < 2 ^ ks.sum := by
  induction ks generalizing vs with
  | nil => cases vs <;> simp [pack]
  | cons k ks ih =>
    cases vs with
    | nil => simp [Fits] at h
    | cons v vs =>
      have hr := ih h.2
      have hv := h.1
      simp only [pack, List.sum_cons, pow_add]
      calc v + 2 ^ k * pack ks vs < 2 ^ k + 2 ^ k * pack ks vs := by omega
        _ = 2 ^ k * (pack ks vs + 1) := by ring
        _ ≤ 2 ^ k * 2 ^ ks.sum := Nat.mul_le_mul_left _ hr

theorem unpack_pack {ks vs : List Nat} (h : Fits ks vs) : unpack ks (pack ks vs) = vs := by
  induction ks generalizing vs with
  | nil => cases vs <;> simp_all [Fits, unpack]
  | cons k ks ih =>
    cases vs with
    | nil => simp [Fits] at h
    | cons v vs =>
      simp only [pack, unpack, Nat.add_mul_mod_self_left, Nat.mod_eq_of_lt h.1, List.cons.injEq, true_and]
      rw [Nat.add_mul_div_left _ _ (Nat.two_pow_pos k), Nat.div_eq_of_lt h.1, Nat.zero_add]
      exact ih h.2

theorem pack_unpack {ks : List Nat} {w : Nat} (h : w < 2 ^ ks.sum) : pack ks (unpack ks w) = w := by
  induction ks generalizing w with
  | nil => simp only [List.sum_nil, pow_zero] at h; simp [pack]; omega
  | cons k ks ih =>
    simp only [pack, unpack]
    rw [ih (by rw [List.sum_cons, pow_add] at h; exact Nat.div_lt_of_lt_mul h)]
    exact Nat.mod_add_div w (2 ^ k)

theorem XReg.toNat_lt (x : XReg) : x.toNat < 40 := by
  cases x <;> simp only [XReg.toNat] <;> omega

@[simp] theorem XReg.ofNat_toNat (x : XReg) : XReg.ofNat x.toNat = x := by
  cases x with
  | t r => simp [XReg.ofNat, XReg.toNat]
  | c r => simp [XReg.ofNat, XReg.toNat]

theorem Rm.code_lt (r : Rm) : r.code < 4 := by cases r <;> decide
theorem FRel.code_lt (r : FRel) : r.code < 4 := by cases r <;> decide
theorem LSlot.code_lt (r : LSlot) : r.code < 4 := by cases r <;> decide

@[simp] theorem Rm.ofCode_code (r : Rm) : Rm.ofCode r.code = r := by cases r <;> rfl
@[simp] theorem FRel.ofCode_code (r : FRel) : FRel.ofCode r.code = r := by cases r <;> rfl
@[simp] theorem LSlot.ofCode_code (r : LSlot) : LSlot.ofCode r.code = r := by cases r <;> rfl

end Sys2Proof
end

