-- ==== Sys2Proof/Laws/Grid.lean ====
section
/-! SUPPORT. Entries of the tables, grids and masks that operations build, and what a tile syllable does once its guard is
true: the one lemma behind every vector instruction. -/

namespace Sys2Proof.Machine

open Sys2Proof

@[simp] theorem tabulate_get {α : Type} (n : Nat) (f : Fin n → α) (i : Fin n) : (tabulate n f).get i = f i := by
  simp only [tabulate, Vector.get]
  simp
  rfl

/-- A mask's bit as a bit of its row. -/
theorem mask_at (m : Mask) (i : Fin 16) (j : Fin 64) : m.at i j = (m.get i).getLsbD j.val := rfl

@[simp] theorem grid_ofFn_at (f : Fin 16 → Fin 64 → Cont) (i : Fin 16) (j : Fin 64) : (Grid.ofFn f).at i j = f i j := by
  simp [Grid.ofFn, Grid.at]

@[simp] theorem grid_merge_at (g vals : Grid) (en : Mask) (i : Fin 16) (j : Fin 64) :
    (Grid.merge g en vals).at i j = if en.at i j = true then vals.at i j else g.at i j := by
  unfold Grid.merge Grid.at
  simp only [tabulate_get]

@[simp] theorem mask_both_at (a b : Mask) (i : Fin 16) (j : Fin 64) :
    (Mask.both a b).at i j = (a.at i j && b.at i j) := by
  simp [Mask.both, mask_at]

@[simp] theorem mask_merge_at (m en vals : Mask) (i : Fin 16) (j : Fin 64) :
    (Mask.merge m en vals).at i j = if en.at i j = true then vals.at i j else m.at i j := by
  have hj := j.isLt
  simp only [Mask.merge, mask_at, tabulate_get, BitVec.getLsbD_or, BitVec.getLsbD_and, BitVec.getLsbD_not]
  rcases Bool.eq_false_or_eq_true ((Vector.get en i).getLsbD j.val) with h | h
  · simp only [h, Bool.not_true, Bool.and_false, Bool.and_true, Bool.false_or, if_true]
  · simp only [h, hj, decide_true, Bool.not_false, Bool.and_true, Bool.and_false, Bool.or_false, Bool.false_eq_true,
      if_false]

@[simp] theorem mask_ofFn_at (f : Fin 16 → Fin 64 → Bool) (i : Fin 16) (j : Fin 64) :
    (Mask.ofFn f).at i j = f i j := by
  have h := j.isLt
  simp only [Mask.ofFn, mask_at, tabulate_get, BitVec.getLsbD_setWidth, BitVec.getLsbD_ofBoolListLE, h, decide_true,
    Bool.true_and]
  rw [List.getD_eq_getElem _ _ (by simp), List.getElem_ofFn]

@[simp] theorem mask_ones_at (i : Fin 16) (j : Fin 64) : Mask.ones.at i j = true := by
  have h := j.isLt
  simp [Mask.ones, mask_at, Vector.get, -BitVec.reduceAllOnes, h]

/-- The active elements of a tile. -/
theorem active_at (t : Tile) (i : Fin 16) (j : Fin 64) :
    t.active.at i j = decide (i.val ≤ t.rows.val ∧ j.val ≤ t.cols.val) := by
  have hj := j.isLt
  have hc := t.cols.isLt
  simp only [Tile.active, mask_at, tabulate_get]
  split
  · rename_i h
    simp [h, -BitVec.reduceAllOnes]
    omega
  · rename_i h
    simp only [h, false_and, decide_false]
    exact BitVec.getLsbD_zero

/-- Folding flags collects every bit of every entry. -/
theorem foldl_or_bit {α : Type} (l : List α) (g : α → Flags) (a : Flags) (n : Nat) :
    (l.foldl (fun (b : Flags) e => b ||| g e) a).getLsbD n = true ↔
      a.getLsbD n = true ∨ ∃ e ∈ l, (g e).getLsbD n = true := by
  induction l generalizing a with
  | nil => simp
  | cons x l ih => simp [ih, or_assoc]

theorem foldl_rows_bit {α : Type} (l : List (List α)) (g : α → Flags) (a : Flags) (n : Nat) :
    (l.foldl (fun (b : Flags) row => row.foldl (fun (b : Flags) e => b ||| g e) b) a).getLsbD n = true ↔
      a.getLsbD n = true ∨ ∃ row ∈ l, ∃ e ∈ row, (g e).getLsbD n = true := by
  induction l generalizing a with
  | nil => simp
  | cons x l ih => simp [ih, foldl_or_bit, or_assoc]

theorem mem_tabulate {α : Type} (n : Nat) (f : Fin n → α) (x : α) :
    x ∈ (tabulate n f).toList ↔ ∃ i, f i = x := by
  simp [tabulate, Vector.toList, List.mem_ofFn]

/-- The container and the flags of an element that an operation leaves out, or writes. -/
def cellOf (en : Mask) (f : Fin 16 → Fin 64 → BitVec 32 × Flags) (i : Fin 16) (j : Fin 64) : BitVec 32 × Flags :=
  if en.at i j = true then f i j else (0, 0)

/-- The grid of results is the table of those elements. -/
theorem gridOf_cells (en : Mask) (f : Fin 16 → Fin 64 → BitVec 32 × Flags) :
    (tabulate 16 fun i => if en.get i = 0 then Vector.replicate 64 ((0, 0) : BitVec 32 × Flags)
      else tabulate 64 fun j => if en.at i j then f i j else (0, 0)) =
    tabulate 16 fun i => tabulate 64 (cellOf en f i) := by
  congr 1
  funext i
  split
  · rename_i h
    have : cellOf en f i = fun _ => (0, 0) := by
      funext j
      unfold cellOf
      rw [if_neg]
      rw [mask_at, h]
      simp
    rw [this]
    rfl
  · rfl

theorem gridOf_at (en : Mask) (f : Fin 16 → Fin 64 → BitVec 32 × Flags) (i : Fin 16) (j : Fin 64) :
    (gridOf en f).1.at i j = (cellOf en f i j).1 := by
  simp only [gridOf, gridOf_cells, Grid.at, tabulate_get]

theorem gridOf_flags (en : Mask) (f : Fin 16 → Fin 64 → BitVec 32 × Flags) (n : Nat) :
    (gridOf en f).2.getLsbD n = true ↔ ∃ i j, en.at i j = true ∧ (f i j).2.getLsbD n = true := by
  simp only [gridOf, gridOf_cells]
  have : ∀ l : List (Vector (BitVec 32 × Flags) 64), l.foldl (fun (a : Flags) row =>
      row.toList.foldl (fun (b : Flags) e => b ||| e.2) a) 0 =
      (l.map Vector.toList).foldl (fun (a : Flags) row => row.foldl (fun (b : Flags) e => b ||| e.2) a) 0 := by
    intro l
    rw [List.foldl_map]
  rw [this, foldl_rows_bit]
  rw [show (0 : Flags).getLsbD n = false from BitVec.getLsbD_zero]
  simp only [Bool.false_eq_true, false_or, List.mem_map, mem_tabulate]
  constructor
  · rintro ⟨row, ⟨v, ⟨i, rfl⟩, rfl⟩, e, he, hn⟩
    obtain ⟨j, rfl⟩ := (mem_tabulate ..).1 he
    refine ⟨i, j, ?_⟩
    unfold cellOf at hn
    split at hn
    · exact ⟨‹_›, hn⟩
    · rw [show (0 : Flags).getLsbD n = false from BitVec.getLsbD_zero] at hn
      cases hn
  · rintro ⟨i, j, h, hn⟩
    refine ⟨_, ⟨_, ⟨i, rfl⟩, rfl⟩, cellOf en f i j, (mem_tabulate ..).2 ⟨j, rfl⟩, ?_⟩
    simpa [cellOf, h] using hn

/-- A tile syllable whose guard is true: the checks of R171 in order, then its one result in flight. -/
theorem vTile_outcome (s : State) (lat : Nat) (td : TReg) (ty : ElemTy) (reads : List TReg) (row : Row)
    (srcs : List TReg) (en : Mask) (f : Fin 16 → Fin 64 → BitVec 32 × Flags) :
    TileOutcome s (.next (s.vTile lat td ty reads row srcs en f)) lat td ty reads row srcs en f := by
  unfold TileOutcome State.vTile State.vChecks
  dsimp only
  refine ⟨?_, ?_, ?_, ?_⟩
  · intro c v h; simp only [h]
  · intro h hc
    have : s.view.typeFault (some (td, ty)) = some (0x08, BitVec.ofNat 64 td.val) := by
      simp [Regs.typeFault, hc]
    simp only [h, this]
  · intro h hc n hn
    have : s.view.typeFault (some (td, ty)) = none := by
      simp only [Regs.typeFault]; rw [if_neg]; simpa using hc
    have hn' : row.run (s.tv td).lat ((srcs.map XReg.t).map fun x => (XReg.num x, (s.view.xget x).lat)) = .error n := by
      rw [← hn]; simp [State.tv, Function.comp_def, XReg.num, Regs.xget]
    simp only [h, this, hn']
  · intro h hc l hl
    have : s.view.typeFault (some (td, ty)) = none := by
      simp only [Regs.typeFault]; rw [if_neg]; simpa using hc
    have hl' : row.run (s.tv td).lat ((srcs.map XReg.t).map fun x => (XReg.num x, (s.view.xget x).lat)) = .ok l := by
      rw [← hl]; simp [State.tv, Function.comp_def, XReg.num, Regs.xget]
    refine ⟨(gridOf en f).1, (gridOf en f).2, ?_, ?_, ?_⟩
    · simp only [h, this, hl']; rfl
    · intro i j hij; rw [gridOf_at]; simp [cellOf, hij]
    · intro n _; exact gridOf_flags en f n

end Sys2Proof.Machine
end

