-- ==== Sys2Proof/Laws/Landing.lean ====
section
/-! SUPPORT. The laws of results in flight (R36, R37): the order in which they land, and what a landing keeps. -/

namespace Sys2Proof.Machine

open Sys2Proof

theorem Landing.before_total (a b : Landing) : a.before b = true ∨ b.before a = true := by
  simp only [Landing.before, Bool.or_eq_true, Bool.and_eq_true, decide_eq_true_eq, beq_iff_eq]
  omega

theorem Landing.before_trans {a b c : Landing} (h : a.before b = true) (k : b.before c = true) : a.before c = true := by
  simp only [Landing.before, Bool.or_eq_true, Bool.and_eq_true, decide_eq_true_eq, beq_iff_eq] at *
  omega

theorem mem_insertLanding {l m : Landing} {ls : List Landing} : m ∈ insertLanding l ls ↔ m = l ∨ m ∈ ls := by
  induction ls with
  | nil => simp [insertLanding]
  | cons k ks ih =>
    by_cases h : k.before l = true
    · simp only [insertLanding, h, if_true, List.mem_cons, ih]
      tauto
    · simp [insertLanding, h]

@[simp] theorem Ctx.landDue_nil {c : Ctx} (h : c.flight = []) : c.landDue = c := by
  cases c
  simp only at h
  subst h
  rfl

@[simp] theorem State.withResult_mem (s : State) (n : Nat) (ws : List Write) (f : Flags) :
    (s.withResult n ws f).mem = s.mem := rfl
@[simp] theorem State.withResult_regs (s : State) (n : Nat) (ws : List Write) (f : Flags) :
    (s.withResult n ws f).c.regs = s.c.regs := rfl
@[simp] theorem State.withResult_sys (s : State) (n : Nat) (ws : List Write) (f : Flags) :
    (s.withResult n ws f).c.sys = s.c.sys := rfl
@[simp] theorem State.withResult_bundle (s : State) (n : Nat) (ws : List Write) (f : Flags) :
    (s.withResult n ws f).bundle = s.bundle := rfl

theorem State.emit_eq (s : State) (n : Nat) (ws : List Write) (f : Flags) : s.emit n ws f = s.withResult n ws f := rfl
theorem State.emitS_eq (s : State) (n : Nat) (d : SReg) (v : Word) : s.emitS n d v = s.withResult n (sWrite d v) 0 := rfl

end Sys2Proof.Machine
end

