-- ==== Sys2Proof/Laws/PerInstr.lean ====
section
/-! SUPPORT. The family Width: the word of an instruction fills its slot and no more, one lemma per instruction. -/

namespace Sys2Proof.Laws.Width

open Sys2Proof

/-- A word that the encoder answers is one of its slot's width (R33). -/
def Statement (i : Instr) : Prop := ∀ k w, encode i = some (k, w) → w < 2 ^ (16 * slotWords k)

theorem br : ∀ g off, Statement (.br g off) := by
  intro g off k w h
  obtain ⟨rfl, rfl⟩ := Prod.mk.inj (Option.some.inj h)
  exact pack_lt ⟨by omega, (Bool.toNat_lt g.n).trans_le (by decide), by omega, by decide, trivial⟩

theorem call : ∀ off, Statement (.call off) := by
  intro off k w h
  obtain ⟨rfl, rfl⟩ := Prod.mk.inj (Option.some.inj h)
  exact pack_lt ⟨by omega, by decide, by decide, by decide, trivial⟩

theorem bri : ∀ s, Statement (.bri s) := by
  intro s k w h
  obtain ⟨rfl, rfl⟩ := Prod.mk.inj (Option.some.inj h)
  exact pack_lt ⟨by decide, by decide, by omega, by decide, trivial⟩

theorem ret : Statement .ret := by
  intro  k w h
  obtain ⟨rfl, rfl⟩ := Prod.mk.inj (Option.some.inj h)
  exact pack_lt ⟨by decide, by decide, trivial⟩

theorem loopImm : ∀ count len, Statement (.loopImm count len) := by
  intro count len k w h
  obtain ⟨rfl, rfl⟩ := Prod.mk.inj (Option.some.inj h)
  exact pack_lt ⟨by omega, by omega, by decide, by decide, trivial⟩

theorem loopReg : ∀ s len, Statement (.loopReg s len) := by
  intro s len k w h
  obtain ⟨rfl, rfl⟩ := Prod.mk.inj (Option.some.inj h)
  exact pack_lt ⟨by omega, by decide, by omega, by decide, by decide, trivial⟩

theorem loopx : Statement .loopx := by
  intro  k w h
  obtain ⟨rfl, rfl⟩ := Prod.mk.inj (Option.some.inj h)
  exact pack_lt ⟨by decide, by decide, trivial⟩

theorem lbuf : ∀ n, Statement (.lbuf n) := by
  intro n k w h
  obtain ⟨rfl, rfl⟩ := Prod.mk.inj (Option.some.inj h)
  exact pack_lt ⟨by omega, by decide, trivial⟩

theorem marker : ∀ e, Statement (.marker e) := by
  intro e k w h
  obtain ⟨rfl, rfl⟩ := Prod.mk.inj (Option.some.inj h)
  exact pack_lt ⟨by omega, by decide, trivial⟩

theorem yield : Statement .yield := by
  intro  k w h
  obtain ⟨rfl, rfl⟩ := Prod.mk.inj (Option.some.inj h)
  exact pack_lt ⟨by decide, by decide, trivial⟩

theorem exit : ∀ code, Statement (.exit code) := by
  intro code k w h
  obtain ⟨rfl, rfl⟩ := Prod.mk.inj (Option.some.inj h)
  exact pack_lt ⟨by omega, by decide, trivial⟩

theorem trap : ∀ code, Statement (.trap code) := by
  intro code k w h
  obtain ⟨rfl, rfl⟩ := Prod.mk.inj (Option.some.inj h)
  exact pack_lt ⟨by omega, by decide, trivial⟩

theorem eret : Statement .eret := by
  intro  k w h
  obtain ⟨rfl, rfl⟩ := Prod.mk.inj (Option.some.inj h)
  exact pack_lt ⟨by decide, by decide, trivial⟩

theorem sysrd : ∀ s num, Statement (.sysrd s num) := by
  intro s num k w h
  obtain ⟨rfl, rfl⟩ := Prod.mk.inj (Option.some.inj h)
  exact pack_lt ⟨by decide, by omega, by omega, by decide, trivial⟩

theorem syswr : ∀ s num, Statement (.syswr s num) := by
  intro s num k w h
  obtain ⟨rfl, rfl⟩ := Prod.mk.inj (Option.some.inj h)
  exact pack_lt ⟨by decide, by omega, by omega, by decide, trivial⟩

theorem rfmode : ∀ mask, Statement (.rfmode mask) := by
  intro mask k w h
  obtain ⟨rfl, rfl⟩ := Prod.mk.inj (Option.some.inj h)
  exact pack_lt ⟨by omega, by decide, trivial⟩

theorem fmtbase : ∀ b, Statement (.fmtbase b) := by
  intro b k w h
  obtain ⟨rfl, rfl⟩ := Prod.mk.inj (Option.some.inj h)
  exact pack_lt ⟨by omega, by decide, trivial⟩

theorem bkpt : ∀ code, Statement (.bkpt code) := by
  intro code k w h
  obtain ⟨rfl, rfl⟩ := Prod.mk.inj (Option.some.inj h)
  exact pack_lt ⟨by omega, by decide, trivial⟩

theorem trace : ∀ s kind, Statement (.trace s kind) := by
  intro s kind k w h
  obtain ⟨rfl, rfl⟩ := Prod.mk.inj (Option.some.inj h)
  exact pack_lt ⟨by omega, by decide, by omega, by decide, trivial⟩

theorem add : ∀ d a b g, Statement (.add d a b g) := by
  intro d a b g k w h
  obtain ⟨rfl, rfl⟩ := Prod.mk.inj (Option.some.inj h)
  exact pack_lt ⟨by decide, (Bool.toNat_lt g.n).trans_le (by decide), by omega, by omega, by omega, by omega, by decide, trivial⟩

theorem sub : ∀ d a b g, Statement (.sub d a b g) := by
  intro d a b g k w h
  obtain ⟨rfl, rfl⟩ := Prod.mk.inj (Option.some.inj h)
  exact pack_lt ⟨by decide, (Bool.toNat_lt g.n).trans_le (by decide), by omega, by omega, by omega, by omega, by decide, trivial⟩

theorem mul : ∀ d a b g, Statement (.mul d a b g) := by
  intro d a b g k w h
  obtain ⟨rfl, rfl⟩ := Prod.mk.inj (Option.some.inj h)
  exact pack_lt ⟨by decide, (Bool.toNat_lt g.n).trans_le (by decide), by omega, by omega, by omega, by omega, by decide, trivial⟩

theorem mulh : ∀ d a b g, Statement (.mulh d a b g) := by
  intro d a b g k w h
  obtain ⟨rfl, rfl⟩ := Prod.mk.inj (Option.some.inj h)
  exact pack_lt ⟨by decide, (Bool.toNat_lt g.n).trans_le (by decide), by omega, by omega, by omega, by omega, by decide, trivial⟩

theorem mulhn : ∀ d a b g, Statement (.mulhn d a b g) := by
  intro d a b g k w h
  obtain ⟨rfl, rfl⟩ := Prod.mk.inj (Option.some.inj h)
  exact pack_lt ⟨by decide, (Bool.toNat_lt g.n).trans_le (by decide), by omega, by omega, by omega, by omega, by decide, trivial⟩

theorem div : ∀ d a b g, Statement (.div d a b g) := by
  intro d a b g k w h
  obtain ⟨rfl, rfl⟩ := Prod.mk.inj (Option.some.inj h)
  exact pack_lt ⟨by decide, (Bool.toNat_lt g.n).trans_le (by decide), by omega, by omega, by omega, by omega, by decide, trivial⟩

theorem divn : ∀ d a b g, Statement (.divn d a b g) := by
  intro d a b g k w h
  obtain ⟨rfl, rfl⟩ := Prod.mk.inj (Option.some.inj h)
  exact pack_lt ⟨by decide, (Bool.toNat_lt g.n).trans_le (by decide), by omega, by omega, by omega, by omega, by decide, trivial⟩

theorem rem : ∀ d a b g, Statement (.rem d a b g) := by
  intro d a b g k w h
  obtain ⟨rfl, rfl⟩ := Prod.mk.inj (Option.some.inj h)
  exact pack_lt ⟨by decide, (Bool.toNat_lt g.n).trans_le (by decide), by omega, by omega, by omega, by omega, by decide, trivial⟩

theorem remn : ∀ d a b g, Statement (.remn d a b g) := by
  intro d a b g k w h
  obtain ⟨rfl, rfl⟩ := Prod.mk.inj (Option.some.inj h)
  exact pack_lt ⟨by decide, (Bool.toNat_lt g.n).trans_le (by decide), by omega, by omega, by omega, by omega, by decide, trivial⟩

theorem and : ∀ d a b g, Statement (.and d a b g) := by
  intro d a b g k w h
  obtain ⟨rfl, rfl⟩ := Prod.mk.inj (Option.some.inj h)
  exact pack_lt ⟨by decide, (Bool.toNat_lt g.n).trans_le (by decide), by omega, by omega, by omega, by omega, by decide, trivial⟩

theorem or : ∀ d a b g, Statement (.or d a b g) := by
  intro d a b g k w h
  obtain ⟨rfl, rfl⟩ := Prod.mk.inj (Option.some.inj h)
  exact pack_lt ⟨by decide, (Bool.toNat_lt g.n).trans_le (by decide), by omega, by omega, by omega, by omega, by decide, trivial⟩

theorem xor : ∀ d a b g, Statement (.xor d a b g) := by
  intro d a b g k w h
  obtain ⟨rfl, rfl⟩ := Prod.mk.inj (Option.some.inj h)
  exact pack_lt ⟨by decide, (Bool.toNat_lt g.n).trans_le (by decide), by omega, by omega, by omega, by omega, by decide, trivial⟩

theorem shl : ∀ d a b g, Statement (.shl d a b g) := by
  intro d a b g k w h
  obtain ⟨rfl, rfl⟩ := Prod.mk.inj (Option.some.inj h)
  exact pack_lt ⟨by decide, (Bool.toNat_lt g.n).trans_le (by decide), by omega, by omega, by omega, by omega, by decide, trivial⟩

theorem shr : ∀ d a b g, Statement (.shr d a b g) := by
  intro d a b g k w h
  obtain ⟨rfl, rfl⟩ := Prod.mk.inj (Option.some.inj h)
  exact pack_lt ⟨by decide, (Bool.toNat_lt g.n).trans_le (by decide), by omega, by omega, by omega, by omega, by decide, trivial⟩

theorem sra : ∀ d a b g, Statement (.sra d a b g) := by
  intro d a b g k w h
  obtain ⟨rfl, rfl⟩ := Prod.mk.inj (Option.some.inj h)
  exact pack_lt ⟨by decide, (Bool.toNat_lt g.n).trans_le (by decide), by omega, by omega, by omega, by omega, by decide, trivial⟩

theorem min : ∀ d a b g, Statement (.min d a b g) := by
  intro d a b g k w h
  obtain ⟨rfl, rfl⟩ := Prod.mk.inj (Option.some.inj h)
  exact pack_lt ⟨by decide, (Bool.toNat_lt g.n).trans_le (by decide), by omega, by omega, by omega, by omega, by decide, trivial⟩

theorem max : ∀ d a b g, Statement (.max d a b g) := by
  intro d a b g k w h
  obtain ⟨rfl, rfl⟩ := Prod.mk.inj (Option.some.inj h)
  exact pack_lt ⟨by decide, (Bool.toNat_lt g.n).trans_le (by decide), by omega, by omega, by omega, by omega, by decide, trivial⟩

theorem minn : ∀ d a b g, Statement (.minn d a b g) := by
  intro d a b g k w h
  obtain ⟨rfl, rfl⟩ := Prod.mk.inj (Option.some.inj h)
  exact pack_lt ⟨by decide, (Bool.toNat_lt g.n).trans_le (by decide), by omega, by omega, by omega, by omega, by decide, trivial⟩

theorem maxn : ∀ d a b g, Statement (.maxn d a b g) := by
  intro d a b g k w h
  obtain ⟨rfl, rfl⟩ := Prod.mk.inj (Option.some.inj h)
  exact pack_lt ⟨by decide, (Bool.toNat_lt g.n).trans_le (by decide), by omega, by omega, by omega, by omega, by decide, trivial⟩

theorem clz : ∀ d a g, Statement (.clz d a g) := by
  intro d a g k w h
  obtain ⟨rfl, rfl⟩ := Prod.mk.inj (Option.some.inj h)
  exact pack_lt ⟨by decide, (Bool.toNat_lt g.n).trans_le (by decide), by omega, by decide, by omega, by omega, by decide, trivial⟩

theorem popc : ∀ d a g, Statement (.popc d a g) := by
  intro d a g k w h
  obtain ⟨rfl, rfl⟩ := Prod.mk.inj (Option.some.inj h)
  exact pack_lt ⟨by decide, (Bool.toNat_lt g.n).trans_le (by decide), by omega, by decide, by omega, by omega, by decide, trivial⟩

theorem sel : ∀ d a b g, Statement (.sel d a b g) := by
  intro d a b g k w h
  obtain ⟨rfl, rfl⟩ := Prod.mk.inj (Option.some.inj h)
  exact pack_lt ⟨by decide, (Bool.toNat_lt g.n).trans_le (by decide), by omega, by omega, by omega, by omega, by decide, trivial⟩

theorem addi : ∀ d a imm, Statement (.addi d a imm) := by
  intro d a imm k w h
  obtain ⟨rfl, rfl⟩ := Prod.mk.inj (Option.some.inj h)
  exact pack_lt ⟨by omega, by omega, by omega, by decide, trivial⟩

theorem andi : ∀ d a imm, Statement (.andi d a imm) := by
  intro d a imm k w h
  obtain ⟨rfl, rfl⟩ := Prod.mk.inj (Option.some.inj h)
  exact pack_lt ⟨by omega, by omega, by omega, by decide, trivial⟩

theorem ori : ∀ d a imm, Statement (.ori d a imm) := by
  intro d a imm k w h
  obtain ⟨rfl, rfl⟩ := Prod.mk.inj (Option.some.inj h)
  exact pack_lt ⟨by omega, by omega, by omega, by decide, trivial⟩

theorem xori : ∀ d a imm, Statement (.xori d a imm) := by
  intro d a imm k w h
  obtain ⟨rfl, rfl⟩ := Prod.mk.inj (Option.some.inj h)
  exact pack_lt ⟨by omega, by omega, by omega, by decide, trivial⟩

theorem shli : ∀ d a amt, Statement (.shli d a amt) := by
  intro d a amt k w h
  obtain ⟨rfl, rfl⟩ := Prod.mk.inj (Option.some.inj h)
  exact pack_lt ⟨by omega, by omega, by omega, by decide, trivial⟩

theorem shri : ∀ d a amt, Statement (.shri d a amt) := by
  intro d a amt k w h
  obtain ⟨rfl, rfl⟩ := Prod.mk.inj (Option.some.inj h)
  exact pack_lt ⟨by omega, by omega, by omega, by decide, trivial⟩

theorem srai : ∀ d a amt, Statement (.srai d a amt) := by
  intro d a amt k w h
  obtain ⟨rfl, rfl⟩ := Prod.mk.inj (Option.some.inj h)
  exact pack_lt ⟨by omega, by omega, by omega, by decide, trivial⟩

theorem muli : ∀ d a imm, Statement (.muli d a imm) := by
  intro d a imm k w h
  obtain ⟨rfl, rfl⟩ := Prod.mk.inj (Option.some.inj h)
  exact pack_lt ⟨by omega, by omega, by omega, by decide, trivial⟩

theorem movi : ∀ d imm, Statement (.movi d imm) := by
  intro d imm k w h
  obtain ⟨rfl, rfl⟩ := Prod.mk.inj (Option.some.inj h)
  exact pack_lt ⟨by omega, by omega, by decide, trivial⟩

theorem movk : ∀ d q v, Statement (.movk d q v) := by
  intro d q v k w h
  obtain ⟨rfl, rfl⟩ := Prod.mk.inj (Option.some.inj h)
  exact pack_lt ⟨by omega, by decide, by omega, by omega, by decide, trivial⟩

theorem cmpeq : ∀ pd a b g alt, Statement (.cmpeq pd a b g alt) := by
  intro pd a b g alt k w h
  obtain ⟨rfl, rfl⟩ := Prod.mk.inj (Option.some.inj h)
  exact pack_lt ⟨(Bool.toNat_lt alt).trans_le (by decide), (Bool.toNat_lt g.n).trans_le (by decide), by omega, by omega, by omega, by decide, by omega, by decide, trivial⟩

theorem cmplt : ∀ pd a b g alt, Statement (.cmplt pd a b g alt) := by
  intro pd a b g alt k w h
  obtain ⟨rfl, rfl⟩ := Prod.mk.inj (Option.some.inj h)
  exact pack_lt ⟨(Bool.toNat_lt alt).trans_le (by decide), (Bool.toNat_lt g.n).trans_le (by decide), by omega, by omega, by omega, by decide, by omega, by decide, trivial⟩

theorem cmpltn : ∀ pd a b g alt, Statement (.cmpltn pd a b g alt) := by
  intro pd a b g alt k w h
  obtain ⟨rfl, rfl⟩ := Prod.mk.inj (Option.some.inj h)
  exact pack_lt ⟨(Bool.toNat_lt alt).trans_le (by decide), (Bool.toNat_lt g.n).trans_le (by decide), by omega, by omega, by omega, by decide, by omega, by decide, trivial⟩

theorem pand : ∀ pd pa pb g na nb, Statement (.pand pd pa pb g na nb) := by
  intro pd pa pb g na nb k w h
  obtain ⟨rfl, rfl⟩ := Prod.mk.inj (Option.some.inj h)
  have hna := Bool.toNat_lt na
  have hnb := Bool.toNat_lt nb
  exact pack_lt ⟨by omega, (Bool.toNat_lt g.n).trans_le (by decide), by omega, by omega, by omega, by decide, by omega, by decide, trivial⟩

theorem por : ∀ pd pa pb g na nb, Statement (.por pd pa pb g na nb) := by
  intro pd pa pb g na nb k w h
  obtain ⟨rfl, rfl⟩ := Prod.mk.inj (Option.some.inj h)
  have hna := Bool.toNat_lt na
  have hnb := Bool.toNat_lt nb
  exact pack_lt ⟨by omega, (Bool.toNat_lt g.n).trans_le (by decide), by omega, by omega, by omega, by decide, by omega, by decide, trivial⟩

theorem pxor : ∀ pd pa pb g na nb, Statement (.pxor pd pa pb g na nb) := by
  intro pd pa pb g na nb k w h
  obtain ⟨rfl, rfl⟩ := Prod.mk.inj (Option.some.inj h)
  have hna := Bool.toNat_lt na
  have hnb := Bool.toNat_lt nb
  exact pack_lt ⟨by omega, (Bool.toNat_lt g.n).trans_le (by decide), by omega, by omega, by omega, by decide, by omega, by decide, trivial⟩

theorem pmov : ∀ pd pa g na, Statement (.pmov pd pa g na) := by
  intro pd pa g na k w h
  obtain ⟨rfl, rfl⟩ := Prod.mk.inj (Option.some.inj h)
  exact pack_lt ⟨(Bool.toNat_lt na).trans_le (by decide), (Bool.toNat_lt g.n).trans_le (by decide), by omega, by decide, by omega, by decide, by omega, by decide, trivial⟩

theorem fadd : ∀ d a b g rm, Statement (.fadd d a b g rm) := by
  intro d a b g rm k w h
  obtain ⟨rfl, rfl⟩ := Prod.mk.inj (Option.some.inj h)
  exact pack_lt ⟨rm.code_lt, (Bool.toNat_lt g.n).trans_le (by decide), by omega, by omega, by omega, by omega, by decide, trivial⟩

theorem fsub : ∀ d a b g rm, Statement (.fsub d a b g rm) := by
  intro d a b g rm k w h
  obtain ⟨rfl, rfl⟩ := Prod.mk.inj (Option.some.inj h)
  exact pack_lt ⟨rm.code_lt, (Bool.toNat_lt g.n).trans_le (by decide), by omega, by omega, by omega, by omega, by decide, trivial⟩

theorem fmul : ∀ d a b g rm, Statement (.fmul d a b g rm) := by
  intro d a b g rm k w h
  obtain ⟨rfl, rfl⟩ := Prod.mk.inj (Option.some.inj h)
  exact pack_lt ⟨rm.code_lt, (Bool.toNat_lt g.n).trans_le (by decide), by omega, by omega, by omega, by omega, by decide, trivial⟩

theorem ffma : ∀ d a b g rm, Statement (.ffma d a b g rm) := by
  intro d a b g rm k w h
  obtain ⟨rfl, rfl⟩ := Prod.mk.inj (Option.some.inj h)
  exact pack_lt ⟨rm.code_lt, (Bool.toNat_lt g.n).trans_le (by decide), by omega, by omega, by omega, by omega, by decide, trivial⟩

theorem fmin : ∀ d a b g, Statement (.fmin d a b g) := by
  intro d a b g k w h
  obtain ⟨rfl, rfl⟩ := Prod.mk.inj (Option.some.inj h)
  exact pack_lt ⟨by decide, (Bool.toNat_lt g.n).trans_le (by decide), by omega, by omega, by omega, by omega, by decide, trivial⟩

theorem fmax : ∀ d a b g, Statement (.fmax d a b g) := by
  intro d a b g k w h
  obtain ⟨rfl, rfl⟩ := Prod.mk.inj (Option.some.inj h)
  exact pack_lt ⟨by decide, (Bool.toNat_lt g.n).trans_le (by decide), by omega, by omega, by omega, by omega, by decide, trivial⟩

theorem fcvti : ∀ d a g rm, Statement (.fcvti d a g rm) := by
  intro d a g rm k w h
  obtain ⟨rfl, rfl⟩ := Prod.mk.inj (Option.some.inj h)
  exact pack_lt ⟨rm.code_lt, (Bool.toNat_lt g.n).trans_le (by decide), by omega, by decide, by omega, by omega, by decide, trivial⟩

theorem fcvtf : ∀ d a g rm, Statement (.fcvtf d a g rm) := by
  intro d a g rm k w h
  obtain ⟨rfl, rfl⟩ := Prod.mk.inj (Option.some.inj h)
  exact pack_lt ⟨rm.code_lt, (Bool.toNat_lt g.n).trans_le (by decide), by omega, by decide, by omega, by omega, by decide, trivial⟩

theorem fcmp : ∀ d a b g rel, Statement (.fcmp d a b g rel) := by
  intro d a b g rel k w h
  obtain ⟨rfl, rfl⟩ := Prod.mk.inj (Option.some.inj h)
  exact pack_lt ⟨rel.code_lt, (Bool.toNat_lt g.n).trans_le (by decide), by omega, by omega, by omega, by omega, by decide, trivial⟩

theorem fcvtb : ∀ d a g rm, Statement (.fcvtb d a g rm) := by
  intro d a g rm k w h
  obtain ⟨rfl, rfl⟩ := Prod.mk.inj (Option.some.inj h)
  exact pack_lt ⟨rm.code_lt, (Bool.toNat_lt g.n).trans_le (by decide), by omega, by decide, by omega, by omega, by decide, trivial⟩

theorem movli : ∀ d lvl g, Statement (.movli d lvl g) := by
  intro d lvl g k w h
  obtain ⟨rfl, rfl⟩ := Prod.mk.inj (Option.some.inj h)
  exact pack_lt ⟨by decide, (Bool.toNat_lt g.n).trans_le (by decide), by omega, by decide, by omega, by omega, by decide, trivial⟩

theorem dchk : ∀ a b g, Statement (.dchk a b g) := by
  intro a b g k w h
  obtain ⟨rfl, rfl⟩ := Prod.mk.inj (Option.some.inj h)
  exact pack_lt ⟨by decide, (Bool.toNat_lt g.n).trans_le (by decide), by omega, by omega, by omega, by decide, by decide, trivial⟩

theorem amov : ∀ ad aa g, Statement (.amov ad aa g) := by
  intro ad aa g k w h
  obtain ⟨rfl, rfl⟩ := Prod.mk.inj (Option.some.inj h)
  exact pack_lt ⟨by decide, (Bool.toNat_lt g.n).trans_le (by decide), by omega, by decide, by omega, by omega, by decide, trivial⟩

theorem aadd : ∀ ad aa s g, Statement (.aadd ad aa s g) := by
  intro ad aa s g k w h
  obtain ⟨rfl, rfl⟩ := Prod.mk.inj (Option.some.inj h)
  exact pack_lt ⟨by decide, (Bool.toNat_lt g.n).trans_le (by decide), by omega, by omega, by omega, by omega, by decide, trivial⟩

theorem aaddi : ∀ ad imm, Statement (.aaddi ad imm) := by
  intro ad imm k w h
  obtain ⟨rfl, rfl⟩ := Prod.mk.inj (Option.some.inj h)
  exact pack_lt ⟨by omega, by omega, by decide, trivial⟩

theorem ainc : ∀ ad aa g, Statement (.ainc ad aa g) := by
  intro ad aa g k w h
  obtain ⟨rfl, rfl⟩ := Prod.mk.inj (Option.some.inj h)
  exact pack_lt ⟨by decide, (Bool.toNat_lt g.n).trans_le (by decide), by omega, by decide, by omega, by omega, by decide, trivial⟩

theorem agset : ∀ ad s fld g, Statement (.agset ad s fld g) := by
  intro ad s fld g k w h
  obtain ⟨rfl, rfl⟩ := Prod.mk.inj (Option.some.inj h)
  exact pack_lt ⟨by omega, (Bool.toNat_lt g.n).trans_le (by decide), by omega, by omega, by decide, by omega, by decide, trivial⟩

theorem agrd : ∀ s aa fld g, Statement (.agrd s aa fld g) := by
  intro s aa fld g k w h
  obtain ⟨rfl, rfl⟩ := Prod.mk.inj (Option.some.inj h)
  exact pack_lt ⟨by omega, (Bool.toNat_lt g.n).trans_le (by decide), by omega, by omega, by omega, by decide, by decide, trivial⟩

theorem aidx : ∀ ad aa s g, Statement (.aidx ad aa s g) := by
  intro ad aa s g k w h
  obtain ⟨rfl, rfl⟩ := Prod.mk.inj (Option.some.inj h)
  exact pack_lt ⟨by decide, (Bool.toNat_lt g.n).trans_le (by decide), by omega, by omega, by omega, by omega, by decide, trivial⟩

theorem ard : ∀ s aa g, Statement (.ard s aa g) := by
  intro s aa g k w h
  obtain ⟨rfl, rfl⟩ := Prod.mk.inj (Option.some.inj h)
  exact pack_lt ⟨by decide, (Bool.toNat_lt g.n).trans_le (by decide), by omega, by omega, by omega, by decide, by decide, trivial⟩

theorem ld : ∀ s m sign, Statement (.ld s m sign) := by
  intro s m sign k w h
  obtain ⟨rfl, rfl⟩ := Prod.mk.inj (Option.some.inj h)
  exact pack_lt ⟨by omega, (Bool.toNat_lt m.post).trans_le (by decide), (Bool.toNat_lt m.loc).trans_le (by decide), (Bool.toNat_lt sign).trans_le (by decide), by omega, (Bool.toNat_lt m.g.n).trans_le (by decide), by omega, by omega, by omega, by decide, trivial⟩

theorem st : ∀ m s, Statement (.st m s) := by
  intro m s k w h
  obtain ⟨rfl, rfl⟩ := Prod.mk.inj (Option.some.inj h)
  exact pack_lt ⟨by omega, (Bool.toNat_lt m.post).trans_le (by decide), (Bool.toNat_lt m.loc).trans_le (by decide), by decide, by omega, (Bool.toNat_lt m.g.n).trans_le (by decide), by omega, by omega, by omega, by decide, trivial⟩

theorem pref : ∀ m, Statement (.pref m) := by
  intro m k w h
  obtain ⟨rfl, rfl⟩ := Prod.mk.inj (Option.some.inj h)
  exact pack_lt ⟨by omega, (Bool.toNat_lt m.post).trans_le (by decide), (Bool.toNat_lt m.loc).trans_le (by decide), by decide, by omega, (Bool.toNat_lt m.g.n).trans_le (by decide), by omega, by omega, by decide, by decide, trivial⟩

theorem tld : ∀ t m, Statement (.tld t m) := by
  intro t m k w h
  obtain ⟨rfl, rfl⟩ := Prod.mk.inj (Option.some.inj h)
  exact pack_lt ⟨by decide, by decide, (Bool.toNat_lt m.g.n).trans_le (by decide), by omega, (Bool.toNat_lt m.post).trans_le (by decide), by decide, by omega, by omega, by omega, by decide, trivial⟩

theorem tst : ∀ t m port, Statement (.tst t m port) := by
  intro t m port k w h
  obtain ⟨rfl, rfl⟩ := Prod.mk.inj (Option.some.inj h)
  exact pack_lt ⟨by decide, by omega, (Bool.toNat_lt m.g.n).trans_le (by decide), by omega, (Bool.toNat_lt m.post).trans_le (by decide), by decide, by omega, by omega, by omega, by decide, trivial⟩

theorem tldl : ∀ t m swz, Statement (.tldl t m swz) := by
  intro t m swz k w h
  obtain ⟨rfl, rfl⟩ := Prod.mk.inj (Option.some.inj h)
  exact pack_lt ⟨by decide, by decide, (Bool.toNat_lt m.g.n).trans_le (by decide), by omega, (Bool.toNat_lt m.post).trans_le (by decide), (Bool.toNat_lt swz).trans_le (by decide), by omega, by omega, by omega, by decide, trivial⟩

theorem tstl : ∀ t m swz port, Statement (.tstl t m swz port) := by
  intro t m swz port k w h
  obtain ⟨rfl, rfl⟩ := Prod.mk.inj (Option.some.inj h)
  exact pack_lt ⟨by decide, by omega, (Bool.toNat_lt m.g.n).trans_le (by decide), by omega, (Bool.toNat_lt m.post).trans_le (by decide), (Bool.toNat_lt swz).trans_le (by decide), by omega, by omega, by omega, by decide, trivial⟩

theorem spill : ∀ x slot g port, Statement (.spill x slot g port) := by
  intro x slot g port k w h
  obtain ⟨rfl, rfl⟩ := Prod.mk.inj (Option.some.inj h)
  have h0 := x.toNat_lt
  exact pack_lt ⟨by decide, by omega, (Bool.toNat_lt g.n).trans_le (by decide), by omega, by omega, by omega, by decide, trivial⟩

theorem fill : ∀ x slot g, Statement (.fill x slot g) := by
  intro x slot g k w h
  obtain ⟨rfl, rfl⟩ := Prod.mk.inj (Option.some.inj h)
  have h0 := x.toNat_lt
  exact pack_lt ⟨by decide, by decide, (Bool.toNat_lt g.n).trans_le (by decide), by omega, by omega, by omega, by decide, trivial⟩

theorem copy : ∀ o flags, Statement (.copy o flags) := by
  intro o flags k w h
  obtain ⟨rfl, rfl⟩ := Prod.mk.inj (Option.some.inj h)
  exact pack_lt ⟨by omega, by omega, by omega, by omega, by omega, by decide, trivial⟩

theorem copyg : ∀ o flags, Statement (.copyg o flags) := by
  intro o flags k w h
  obtain ⟨rfl, rfl⟩ := Prod.mk.inj (Option.some.inj h)
  exact pack_lt ⟨by omega, by omega, by omega, by omega, by omega, by decide, trivial⟩

theorem copya : ∀ o flags, Statement (.copya o flags) := by
  intro o flags k w h
  obtain ⟨rfl, rfl⟩ := Prod.mk.inj (Option.some.inj h)
  exact pack_lt ⟨by omega, by omega, by omega, by omega, by omega, by decide, trivial⟩

theorem engq : ∀ s, Statement (.engq s) := by
  intro s k w h
  obtain ⟨rfl, rfl⟩ := Prod.mk.inj (Option.some.inj h)
  exact pack_lt ⟨by decide, by omega, by decide, by decide, trivial⟩

theorem engrs : ∀ ctx, Statement (.engrs ctx) := by
  intro ctx k w h
  obtain ⟨rfl, rfl⟩ := Prod.mk.inj (Option.some.inj h)
  exact pack_lt ⟨by omega, by decide, by decide, by decide, trivial⟩

theorem engrsCancel : ∀ ctx, Statement (.engrsCancel ctx) := by
  intro ctx k w h
  obtain ⟨rfl, rfl⟩ := Prod.mk.inj (Option.some.inj h)
  exact pack_lt ⟨by omega, by decide, by decide, by decide, trivial⟩

theorem phase : ∀ scope, Statement (.phase scope) := by
  intro scope k w h
  obtain ⟨rfl, rfl⟩ := Prod.mk.inj (Option.some.inj h)
  exact pack_lt ⟨by decide, by decide, by omega, by decide, trivial⟩

theorem vjoin : Statement .vjoin := by
  intro  k w h
  obtain ⟨rfl, rfl⟩ := Prod.mk.inj (Option.some.inj h)
  exact pack_lt ⟨by decide, by decide, by decide, by decide, trivial⟩

theorem amo : ∀ d a s op size order scope, Statement (.amo d a s op size order scope) := by
  intro d a s op size order scope k w h
  obtain ⟨rfl, rfl⟩ := Prod.mk.inj (Option.some.inj h)
  exact pack_lt ⟨by omega, by omega, by omega, by omega, by omega, by omega, by omega, by decide, trivial⟩

theorem waitm : ∀ d a s cond size scope, Statement (.waitm d a s cond size scope) := by
  intro d a s cond size scope k w h
  obtain ⟨rfl, rfl⟩ := Prod.mk.inj (Option.some.inj h)
  exact pack_lt ⟨by omega, by decide, by omega, by omega, by omega, by omega, by omega, by decide, trivial⟩

theorem qpost : ∀ s queue, Statement (.qpost s queue) := by
  intro s queue k w h
  obtain ⟨rfl, rfl⟩ := Prod.mk.inj (Option.some.inj h)
  exact pack_lt ⟨by omega, by omega, by decide, by decide, trivial⟩

theorem evsig : ∀ a scope, Statement (.evsig a scope) := by
  intro a scope k w h
  obtain ⟨rfl, rfl⟩ := Prod.mk.inj (Option.some.inj h)
  exact pack_lt ⟨by omega, by decide, by decide, by decide, by decide, by omega, by decide, by decide, trivial⟩

theorem evwait : ∀ a scope, Statement (.evwait a scope) := by
  intro a scope k w h
  obtain ⟨rfl, rfl⟩ := Prod.mk.inj (Option.some.inj h)
  exact pack_lt ⟨by omega, by decide, by decide, by decide, by decide, by omega, by decide, by decide, trivial⟩

theorem send : ∀ o flags, Statement (.send o flags) := by
  intro o flags k w h
  obtain ⟨rfl, rfl⟩ := Prod.mk.inj (Option.some.inj h)
  exact pack_lt ⟨by omega, by omega, by omega, by omega, by omega, by decide, trivial⟩

theorem sendt : ∀ o flags, Statement (.sendt o flags) := by
  intro o flags k w h
  obtain ⟨rfl, rfl⟩ := Prod.mk.inj (Option.some.inj h)
  exact pack_lt ⟨by omega, by omega, by omega, by omega, by omega, by decide, trivial⟩

theorem rxset : ∀ s rx, Statement (.rxset s rx) := by
  intro s rx k w h
  obtain ⟨rfl, rfl⟩ := Prod.mk.inj (Option.some.inj h)
  exact pack_lt ⟨by omega, by omega, by decide, by decide, trivial⟩

theorem fbar : ∀ b, Statement (.fbar b) := by
  intro b k w h
  obtain ⟨rfl, rfl⟩ := Prod.mk.inj (Option.some.inj h)
  exact pack_lt ⟨by omega, by decide, by decide, by decide, trivial⟩

theorem rpost : ∀ s chip rx, Statement (.rpost s chip rx) := by
  intro s chip rx k w h
  obtain ⟨rfl, rfl⟩ := Prod.mk.inj (Option.some.inj h)
  exact pack_lt ⟨by omega, by omega, by decide, by decide, trivial⟩

theorem tadd : ∀ td ta tb v, Statement (.tadd td ta tb v) := by
  intro td ta tb v k w h
  obtain ⟨rfl, rfl⟩ := Prod.mk.inj (Option.some.inj h)
  exact pack_lt ⟨by omega, by omega, by omega, by decide, by omega, by omega, by omega, by omega, by omega, by decide, trivial⟩

theorem tsub : ∀ td ta tb v, Statement (.tsub td ta tb v) := by
  intro td ta tb v k w h
  obtain ⟨rfl, rfl⟩ := Prod.mk.inj (Option.some.inj h)
  exact pack_lt ⟨by omega, by omega, by omega, by decide, by omega, by omega, by omega, by omega, by omega, by decide, trivial⟩

theorem tmul : ∀ td ta tb v, Statement (.tmul td ta tb v) := by
  intro td ta tb v k w h
  obtain ⟨rfl, rfl⟩ := Prod.mk.inj (Option.some.inj h)
  exact pack_lt ⟨by omega, by omega, by omega, by decide, by omega, by omega, by omega, by omega, by omega, by decide, trivial⟩

theorem tfma : ∀ td ta tb tc v, Statement (.tfma td ta tb tc v) := by
  intro td ta tb tc v k w h
  obtain ⟨rfl, rfl⟩ := Prod.mk.inj (Option.some.inj h)
  exact pack_lt ⟨by omega, by omega, by omega, by omega, by omega, by omega, by omega, by omega, by omega, by omega, by decide, trivial⟩

theorem tmax : ∀ td ta tb v, Statement (.tmax td ta tb v) := by
  intro td ta tb v k w h
  obtain ⟨rfl, rfl⟩ := Prod.mk.inj (Option.some.inj h)
  exact pack_lt ⟨by omega, by omega, by omega, by decide, by omega, by omega, by omega, by omega, by omega, by decide, trivial⟩

theorem tmin : ∀ td ta tb v, Statement (.tmin td ta tb v) := by
  intro td ta tb v k w h
  obtain ⟨rfl, rfl⟩ := Prod.mk.inj (Option.some.inj h)
  exact pack_lt ⟨by omega, by omega, by omega, by decide, by omega, by omega, by omega, by omega, by omega, by decide, trivial⟩

theorem tabs : ∀ td ta v, Statement (.tabs td ta v) := by
  intro td ta v k w h
  obtain ⟨rfl, rfl⟩ := Prod.mk.inj (Option.some.inj h)
  exact pack_lt ⟨by omega, by omega, by omega, by decide, by decide, by decide, by omega, by omega, by omega, by decide, trivial⟩

theorem tneg : ∀ td ta v, Statement (.tneg td ta v) := by
  intro td ta v k w h
  obtain ⟨rfl, rfl⟩ := Prod.mk.inj (Option.some.inj h)
  exact pack_lt ⟨by omega, by omega, by omega, by decide, by decide, by decide, by omega, by omega, by omega, by decide, trivial⟩

theorem tadds : ∀ td ta s v, Statement (.tadds td ta s v) := by
  intro td ta s v k w h
  obtain ⟨rfl, rfl⟩ := Prod.mk.inj (Option.some.inj h)
  exact pack_lt ⟨by omega, by omega, by omega, by decide, by decide, by omega, by omega, by omega, by omega, by decide, trivial⟩

theorem tmuls : ∀ td ta s v, Statement (.tmuls td ta s v) := by
  intro td ta s v k w h
  obtain ⟨rfl, rfl⟩ := Prod.mk.inj (Option.some.inj h)
  exact pack_lt ⟨by omega, by omega, by omega, by decide, by decide, by omega, by omega, by omega, by omega, by decide, trivial⟩

theorem tfmas : ∀ td ta s v, Statement (.tfmas td ta s v) := by
  intro td ta s v k w h
  obtain ⟨rfl, rfl⟩ := Prod.mk.inj (Option.some.inj h)
  exact pack_lt ⟨by omega, by omega, by omega, by decide, by decide, by omega, by omega, by omega, by omega, by decide, trivial⟩

theorem tcmp : ∀ kd ta tb rel v, Statement (.tcmp kd ta tb rel v) := by
  intro kd ta tb rel v k w h
  obtain ⟨rfl, rfl⟩ := Prod.mk.inj (Option.some.inj h)
  exact pack_lt ⟨by omega, by omega, by omega, by omega, by omega, by omega, by omega, by omega, by omega, by decide, trivial⟩

theorem tsel : ∀ td ta tb v, Statement (.tsel td ta tb v) := by
  intro td ta tb v k w h
  obtain ⟨rfl, rfl⟩ := Prod.mk.inj (Option.some.inj h)
  exact pack_lt ⟨by omega, by omega, by omega, by decide, by omega, by omega, by omega, by omega, by omega, by decide, trivial⟩

theorem tcvt : ∀ td ta v, Statement (.tcvt td ta v) := by
  intro td ta v k w h
  obtain ⟨rfl, rfl⟩ := Prod.mk.inj (Option.some.inj h)
  exact pack_lt ⟨by omega, by omega, by omega, by decide, by decide, by decide, by omega, by omega, by omega, by decide, trivial⟩

theorem tiadd : ∀ td ta tb v, Statement (.tiadd td ta tb v) := by
  intro td ta tb v k w h
  obtain ⟨rfl, rfl⟩ := Prod.mk.inj (Option.some.inj h)
  exact pack_lt ⟨by omega, by omega, by omega, by decide, by omega, by omega, by omega, by omega, by omega, by decide, trivial⟩

theorem tisub : ∀ td ta tb v, Statement (.tisub td ta tb v) := by
  intro td ta tb v k w h
  obtain ⟨rfl, rfl⟩ := Prod.mk.inj (Option.some.inj h)
  exact pack_lt ⟨by omega, by omega, by omega, by decide, by omega, by omega, by omega, by omega, by omega, by decide, trivial⟩

theorem timul : ∀ td ta tb v, Statement (.timul td ta tb v) := by
  intro td ta tb v k w h
  obtain ⟨rfl, rfl⟩ := Prod.mk.inj (Option.some.inj h)
  exact pack_lt ⟨by omega, by omega, by omega, by decide, by omega, by omega, by omega, by omega, by omega, by decide, trivial⟩

theorem tand : ∀ td ta tb v, Statement (.tand td ta tb v) := by
  intro td ta tb v k w h
  obtain ⟨rfl, rfl⟩ := Prod.mk.inj (Option.some.inj h)
  exact pack_lt ⟨by omega, by omega, by omega, by decide, by omega, by omega, by omega, by omega, by omega, by decide, trivial⟩

theorem tor : ∀ td ta tb v, Statement (.tor td ta tb v) := by
  intro td ta tb v k w h
  obtain ⟨rfl, rfl⟩ := Prod.mk.inj (Option.some.inj h)
  exact pack_lt ⟨by omega, by omega, by omega, by decide, by omega, by omega, by omega, by omega, by omega, by decide, trivial⟩

theorem txor : ∀ td ta tb v, Statement (.txor td ta tb v) := by
  intro td ta tb v k w h
  obtain ⟨rfl, rfl⟩ := Prod.mk.inj (Option.some.inj h)
  exact pack_lt ⟨by omega, by omega, by omega, by decide, by omega, by omega, by omega, by omega, by omega, by decide, trivial⟩

theorem tshl : ∀ td ta tb v, Statement (.tshl td ta tb v) := by
  intro td ta tb v k w h
  obtain ⟨rfl, rfl⟩ := Prod.mk.inj (Option.some.inj h)
  exact pack_lt ⟨by omega, by omega, by omega, by decide, by omega, by omega, by omega, by omega, by omega, by decide, trivial⟩

theorem tshr : ∀ td ta tb v, Statement (.tshr td ta tb v) := by
  intro td ta tb v k w h
  obtain ⟨rfl, rfl⟩ := Prod.mk.inj (Option.some.inj h)
  exact pack_lt ⟨by omega, by omega, by omega, by decide, by omega, by omega, by omega, by omega, by omega, by decide, trivial⟩

theorem timax : ∀ td ta tb v, Statement (.timax td ta tb v) := by
  intro td ta tb v k w h
  obtain ⟨rfl, rfl⟩ := Prod.mk.inj (Option.some.inj h)
  exact pack_lt ⟨by omega, by omega, by omega, by decide, by omega, by omega, by omega, by omega, by omega, by decide, trivial⟩

theorem timin : ∀ td ta tb v, Statement (.timin td ta tb v) := by
  intro td ta tb v k w h
  obtain ⟨rfl, rfl⟩ := Prod.mk.inj (Option.some.inj h)
  exact pack_lt ⟨by omega, by omega, by omega, by decide, by omega, by omega, by omega, by omega, by omega, by decide, trivial⟩

theorem tmov : ∀ td ta v, Statement (.tmov td ta v) := by
  intro td ta v k w h
  obtain ⟨rfl, rfl⟩ := Prod.mk.inj (Option.some.inj h)
  exact pack_lt ⟨by omega, by omega, by omega, by decide, by decide, by decide, by omega, by omega, by omega, by decide, trivial⟩

theorem tfill : ∀ td s v, Statement (.tfill td s v) := by
  intro td s v k w h
  obtain ⟨rfl, rfl⟩ := Prod.mk.inj (Option.some.inj h)
  exact pack_lt ⟨by omega, by omega, by omega, by decide, by decide, by omega, by decide, by decide, by omega, by decide, trivial⟩

theorem tfilli : ∀ td imm v, Statement (.tfilli td imm v) := by
  intro td imm v k w h
  obtain ⟨rfl, rfl⟩ := Prod.mk.inj (Option.some.inj h)
  exact pack_lt ⟨by omega, by omega, by omega, by omega, by decide, by decide, by omega, by decide, trivial⟩

theorem tiota : ∀ td axis base v, Statement (.tiota td axis base v) := by
  intro td axis base v k w h
  obtain ⟨rfl, rfl⟩ := Prod.mk.inj (Option.some.inj h)
  exact pack_lt ⟨by omega, by omega, by omega, by omega, by decide, by decide, by omega, by decide, trivial⟩

theorem tshape : ∀ td rows cols ty p, Statement (.tshape td rows cols ty p) := by
  intro td rows cols ty p k w h
  obtain ⟨rfl, rfl⟩ := Prod.mk.inj (Option.some.inj h)
  exact pack_lt ⟨by omega, by decide, by decide, by omega, by decide, by decide, by omega, by decide, trivial⟩

theorem rowmov : ∀ td drow ta srow sel p, Statement (.rowmov td drow ta srow sel p) := by
  intro td drow ta srow sel p k w h
  obtain ⟨rfl, rfl⟩ := Prod.mk.inj (Option.some.inj h)
  exact pack_lt ⟨by omega, by decide, by omega, by omega, by omega, by omega, by omega, by decide, trivial⟩

theorem tget : ∀ s ta row col sel p, Statement (.tget s ta row col sel p) := by
  intro s ta row col sel p k w h
  obtain ⟨rfl, rfl⟩ := Prod.mk.inj (Option.some.inj h)
  exact pack_lt ⟨by omega, by decide, by omega, by decide, by omega, by omega, by omega, by omega, by omega, by decide, trivial⟩

theorem tset : ∀ td row col s sel p, Statement (.tset td row col s sel p) := by
  intro td row col s sel p k w h
  obtain ⟨rfl, rfl⟩ := Prod.mk.inj (Option.some.inj h)
  exact pack_lt ⟨by omega, by decide, by omega, by decide, by omega, by omega, by decide, by omega, by omega, by decide, trivial⟩

theorem rrot : ∀ td ta s imm v, Statement (.rrot td ta s imm v) := by
  intro td ta s imm v k w h
  obtain ⟨rfl, rfl⟩ := Prod.mk.inj (Option.some.inj h)
  exact pack_lt ⟨by omega, by omega, by omega, by decide, by omega, by omega, by omega, by omega, by omega, by decide, trivial⟩

theorem crot : ∀ td ta s imm v, Statement (.crot td ta s imm v) := by
  intro td ta s imm v k w h
  obtain ⟨rfl, rfl⟩ := Prod.mk.inj (Option.some.inj h)
  exact pack_lt ⟨by omega, by omega, by omega, by decide, by omega, by omega, by omega, by omega, by omega, by decide, trivial⟩

theorem rbc : ∀ td ta s imm v, Statement (.rbc td ta s imm v) := by
  intro td ta s imm v k w h
  obtain ⟨rfl, rfl⟩ := Prod.mk.inj (Option.some.inj h)
  exact pack_lt ⟨by omega, by omega, by omega, by decide, by omega, by omega, by omega, by omega, by omega, by decide, trivial⟩

theorem cbc : ∀ td ta s imm v, Statement (.cbc td ta s imm v) := by
  intro td ta s imm v k w h
  obtain ⟨rfl, rfl⟩ := Prod.mk.inj (Option.some.inj h)
  exact pack_lt ⟨by omega, by omega, by omega, by decide, by omega, by omega, by omega, by omega, by omega, by decide, trivial⟩

theorem rred : ∀ td ta sub v, Statement (.rred td ta sub v) := by
  intro td ta sub v k w h
  obtain ⟨rfl, rfl⟩ := Prod.mk.inj (Option.some.inj h)
  exact pack_lt ⟨by omega, by omega, by omega, by omega, by decide, by decide, by omega, by omega, by omega, by decide, trivial⟩

theorem cred : ∀ td ta sub v, Statement (.cred td ta sub v) := by
  intro td ta sub v k w h
  obtain ⟨rfl, rfl⟩ := Prod.mk.inj (Option.some.inj h)
  exact pack_lt ⟨by omega, by omega, by omega, by omega, by decide, by decide, by omega, by omega, by omega, by decide, trivial⟩

theorem rscan : ∀ td ta sub v, Statement (.rscan td ta sub v) := by
  intro td ta sub v k w h
  obtain ⟨rfl, rfl⟩ := Prod.mk.inj (Option.some.inj h)
  exact pack_lt ⟨by omega, by omega, by omega, by omega, by decide, by decide, by omega, by omega, by omega, by decide, trivial⟩

theorem tchk : ∀ ta tb sel p, Statement (.tchk ta tb sel p) := by
  intro ta tb sel p k w h
  obtain ⟨rfl, rfl⟩ := Prod.mk.inj (Option.some.inj h)
  exact pack_lt ⟨by omega, by decide, by omega, by decide, by omega, by omega, by omega, by omega, by decide, by decide, trivial⟩

theorem tlat : ∀ x slot a b useB recipA recipB neg, Statement (.tlat x slot a b useB recipA recipB neg) := by
  intro x slot a b useB recipA recipB neg k w h
  obtain ⟨rfl, rfl⟩ := Prod.mk.inj (Option.some.inj h)
  have h0 := x.toNat_lt
  exact pack_lt ⟨by decide, by decide, by decide, (Bool.toNat_lt neg).trans_le (by decide), (Bool.toNat_lt recipB).trans_le (by decide), (Bool.toNat_lt recipA).trans_le (by decide), (Bool.toNat_lt useB).trans_le (by decide), by omega, by omega, slot.code_lt, by omega, by decide, trivial⟩

theorem tlatc : ∀ x slots, Statement (.tlatc x slots) := by
  intro x slots k w h
  obtain ⟨rfl, rfl⟩ := Prod.mk.inj (Option.some.inj h)
  have h0 := x.toNat_lt
  exact pack_lt ⟨by omega, by decide, by decide, by decide, by decide, by decide, by decide, by decide, by decide, by decide, by omega, by decide, trivial⟩

theorem tdev : ∀ x port sel, Statement (.tdev x port sel) := by
  intro x port sel k w h
  obtain ⟨rfl, rfl⟩ := Prod.mk.inj (Option.some.inj h)
  have h0 := x.toNat_lt
  exact pack_lt ⟨by omega, by omega, by decide, by decide, by decide, by decide, by decide, by decide, by decide, by decide, by omega, by decide, trivial⟩

theorem lvacc : ∀ x port lv op extend, Statement (.lvacc x port lv op extend) := by
  intro x port lv op extend k w h
  obtain ⟨rfl, rfl⟩ := Prod.mk.inj (Option.some.inj h)
  have h0 := x.toNat_lt
  have hextend := Bool.toNat_lt extend
  exact pack_lt ⟨by omega, by omega, by decide, by decide, by decide, by decide, by decide, by decide, by omega, by decide, by omega, by decide, trivial⟩

theorem lvclose : ∀ lv s scale, Statement (.lvclose lv s scale) := by
  intro lv s scale k w h
  obtain ⟨rfl, rfl⟩ := Prod.mk.inj (Option.some.inj h)
  exact pack_lt ⟨(Bool.toNat_lt scale).trans_le (by decide), by decide, by omega, by decide, by decide, by decide, by decide, by decide, by omega, by decide, by decide, by decide, trivial⟩

theorem lvmovToVector : ∀ lv x port row, Statement (.lvmovToVector lv x port row) := by
  intro lv x port row k w h
  obtain ⟨rfl, rfl⟩ := Prod.mk.inj (Option.some.inj h)
  have h0 := x.toNat_lt
  exact pack_lt ⟨by omega, by omega, by decide, by decide, by decide, by decide, by decide, by decide, by omega, by decide, by omega, by decide, trivial⟩

theorem lvmovToRow : ∀ x row lv, Statement (.lvmovToRow x row lv) := by
  intro x row lv k w h
  obtain ⟨rfl, rfl⟩ := Prod.mk.inj (Option.some.inj h)
  have h0 := x.toNat_lt
  exact pack_lt ⟨by omega, by decide, by decide, by decide, by decide, by decide, by decide, by decide, by omega, by decide, by omega, by decide, trivial⟩

theorem lvset : ∀ lv s leaveOpen, Statement (.lvset lv s leaveOpen) := by
  intro lv s leaveOpen k w h
  obtain ⟨rfl, rfl⟩ := Prod.mk.inj (Option.some.inj h)
  exact pack_lt ⟨(Bool.toNat_lt leaveOpen).trans_le (by decide), by decide, by omega, by decide, by decide, by decide, by decide, by decide, by omega, by decide, by decide, by decide, trivial⟩

theorem tlatq : ∀ s x slot, Statement (.tlatq s x slot) := by
  intro s x slot k w h
  obtain ⟨rfl, rfl⟩ := Prod.mk.inj (Option.some.inj h)
  have h0 := x.toNat_lt
  exact pack_lt ⟨by decide, by decide, by omega, by decide, by decide, by decide, by decide, by decide, by decide, slot.code_lt, by omega, by decide, trivial⟩

theorem treeclr : ∀ p, Statement (.treeclr p) := by
  intro p k w h
  obtain ⟨rfl, rfl⟩ := Prod.mk.inj (Option.some.inj h)
  exact pack_lt ⟨by omega, by decide, by decide, by decide, by decide, by decide, by decide, by decide, by decide, by decide, trivial⟩

theorem treeset : ∀ ta row p, Statement (.treeset ta row p) := by
  intro ta row p k w h
  obtain ⟨rfl, rfl⟩ := Prod.mk.inj (Option.some.inj h)
  exact pack_lt ⟨by omega, by decide, by decide, by omega, by decide, by decide, by omega, by omega, by decide, by decide, trivial⟩

theorem treeadd : ∀ s parent p, Statement (.treeadd s parent p) := by
  intro s parent p k w h
  obtain ⟨rfl, rfl⟩ := Prod.mk.inj (Option.some.inj h)
  exact pack_lt ⟨by omega, by decide, by decide, by decide, by omega, by omega, by decide, by decide, by decide, by decide, trivial⟩

theorem treemask : ∀ kd blk p, Statement (.treemask kd blk p) := by
  intro kd blk p k w h
  obtain ⟨rfl, rfl⟩ := Prod.mk.inj (Option.some.inj h)
  exact pack_lt ⟨by omega, by decide, by decide, by omega, by decide, by decide, by decide, by decide, by omega, by decide, trivial⟩

theorem treebias : ∀ td blk p, Statement (.treebias td blk p) := by
  intro td blk p k w h
  obtain ⟨rfl, rfl⟩ := Prod.mk.inj (Option.some.inj h)
  exact pack_lt ⟨by omega, by decide, by decide, by omega, by decide, by decide, by decide, by decide, by omega, by decide, trivial⟩

theorem treepos : ∀ td s row p, Statement (.treepos td s row p) := by
  intro td s row p k w h
  obtain ⟨rfl, rfl⟩ := Prod.mk.inj (Option.some.inj h)
  exact pack_lt ⟨by omega, by decide, by decide, by decide, by omega, by omega, by decide, by decide, by omega, by decide, trivial⟩

theorem treeprune : ∀ td s row p, Statement (.treeprune td s row p) := by
  intro td s row p k w h
  obtain ⟨rfl, rfl⟩ := Prod.mk.inj (Option.some.inj h)
  exact pack_lt ⟨by omega, by decide, by decide, by decide, by omega, by omega, by decide, by decide, by omega, by decide, trivial⟩

theorem treerd : ∀ s node fld p, Statement (.treerd s node fld p) := by
  intro s node fld p k w h
  obtain ⟨rfl, rfl⟩ := Prod.mk.inj (Option.some.inj h)
  exact pack_lt ⟨by omega, by decide, by decide, by decide, by omega, by omega, by decide, by decide, by decide, by decide, trivial⟩

theorem fexp2 : ∀ td ta v, Statement (.fexp2 td ta v) := by
  intro td ta v k w h
  obtain ⟨rfl, rfl⟩ := Prod.mk.inj (Option.some.inj h)
  exact pack_lt ⟨by decide, by omega, by omega, by omega, by omega, by omega, by omega, by decide, trivial⟩

theorem flog2 : ∀ td ta v, Statement (.flog2 td ta v) := by
  intro td ta v k w h
  obtain ⟨rfl, rfl⟩ := Prod.mk.inj (Option.some.inj h)
  exact pack_lt ⟨by decide, by omega, by omega, by omega, by omega, by omega, by omega, by decide, trivial⟩

theorem frcp : ∀ td ta v, Statement (.frcp td ta v) := by
  intro td ta v k w h
  obtain ⟨rfl, rfl⟩ := Prod.mk.inj (Option.some.inj h)
  exact pack_lt ⟨by decide, by omega, by omega, by omega, by omega, by omega, by omega, by decide, trivial⟩

theorem frsqrt : ∀ td ta v, Statement (.frsqrt td ta v) := by
  intro td ta v k w h
  obtain ⟨rfl, rfl⟩ := Prod.mk.inj (Option.some.inj h)
  exact pack_lt ⟨by decide, by omega, by omega, by omega, by omega, by omega, by omega, by decide, trivial⟩

theorem fsqrt : ∀ td ta v, Statement (.fsqrt td ta v) := by
  intro td ta v k w h
  obtain ⟨rfl, rfl⟩ := Prod.mk.inj (Option.some.inj h)
  exact pack_lt ⟨by decide, by omega, by omega, by omega, by omega, by omega, by omega, by decide, trivial⟩

theorem ftanh : ∀ td ta v, Statement (.ftanh td ta v) := by
  intro td ta v k w h
  obtain ⟨rfl, rfl⟩ := Prod.mk.inj (Option.some.inj h)
  exact pack_lt ⟨by decide, by omega, by omega, by omega, by omega, by omega, by omega, by decide, trivial⟩

theorem fsigm : ∀ td ta v, Statement (.fsigm td ta v) := by
  intro td ta v k w h
  obtain ⟨rfl, rfl⟩ := Prod.mk.inj (Option.some.inj h)
  exact pack_lt ⟨by decide, by omega, by omega, by omega, by omega, by omega, by omega, by decide, trivial⟩

theorem fexp : ∀ td ta v, Statement (.fexp td ta v) := by
  intro td ta v k w h
  obtain ⟨rfl, rfl⟩ := Prod.mk.inj (Option.some.inj h)
  exact pack_lt ⟨by decide, by omega, by omega, by omega, by omega, by omega, by omega, by decide, trivial⟩

theorem fsin : ∀ td ta v, Statement (.fsin td ta v) := by
  intro td ta v k w h
  obtain ⟨rfl, rfl⟩ := Prod.mk.inj (Option.some.inj h)
  exact pack_lt ⟨by decide, by omega, by omega, by omega, by omega, by omega, by omega, by decide, trivial⟩

theorem fcos : ∀ td ta v, Statement (.fcos td ta v) := by
  intro td ta v k w h
  obtain ⟨rfl, rfl⟩ := Prod.mk.inj (Option.some.inj h)
  exact pack_lt ⟨by decide, by omega, by omega, by omega, by omega, by omega, by omega, by decide, trivial⟩

theorem xperm : ∀ td ta xp, Statement (.xperm td ta xp) := by
  intro td ta xp k w h
  obtain ⟨rfl, rfl⟩ := Prod.mk.inj (Option.some.inj h)
  exact pack_lt ⟨by decide, by omega, by omega, by omega, by omega, by decide, trivial⟩

theorem xpld : ∀ xp ta row, Statement (.xpld xp ta row) := by
  intro xp ta row k w h
  obtain ⟨rfl, rfl⟩ := Prod.mk.inj (Option.some.inj h)
  exact pack_lt ⟨by omega, by omega, by omega, by omega, by decide, by decide, trivial⟩

theorem xshuf : ∀ td ta kind k, Statement (.xshuf td ta kind k) := by
  intro td ta kind k k w h
  obtain ⟨rfl, rfl⟩ := Prod.mk.inj (Option.some.inj h)
  exact pack_lt ⟨by omega, by decide, by omega, by omega, by omega, by decide, trivial⟩

theorem xbrev : ∀ td ta, Statement (.xbrev td ta) := by
  intro td ta k w h
  obtain ⟨rfl, rfl⟩ := Prod.mk.inj (Option.some.inj h)
  exact pack_lt ⟨by decide, by decide, by omega, by omega, by omega, by decide, trivial⟩

theorem xtrn : ∀ td ta, Statement (.xtrn td ta) := by
  intro td ta k w h
  obtain ⟨rfl, rfl⟩ := Prod.mk.inj (Option.some.inj h)
  exact pack_lt ⟨by decide, by decide, by omega, by omega, by omega, by decide, trivial⟩

theorem mlds : ∀ ta p, Statement (.mlds ta p) := by
  intro ta p k w h
  obtain ⟨rfl, rfl⟩ := Prod.mk.inj (Option.some.inj h)
  exact pack_lt ⟨by decide, by omega, by decide, by decide, by decide, by decide, by decide, by omega, by omega, by decide, by decide, trivial⟩

theorem mldsl : ∀ a p, Statement (.mldsl a p) := by
  intro a p k w h
  obtain ⟨rfl, rfl⟩ := Prod.mk.inj (Option.some.inj h)
  exact pack_lt ⟨by decide, by omega, by decide, by omega, by decide, by decide, by decide, by decide, by decide, by decide, by decide, trivial⟩

theorem mswap : ∀ p, Statement (.mswap p) := by
  intro p k w h
  obtain ⟨rfl, rfl⟩ := Prod.mk.inj (Option.some.inj h)
  exact pack_lt ⟨by decide, by omega, by decide, by decide, by decide, by decide, by decide, by decide, by decide, by decide, by decide, trivial⟩

theorem mmul : ∀ cd ta asel wsel r p, Statement (.mmul cd ta asel wsel r p) := by
  intro cd ta asel wsel r p k w h
  obtain ⟨rfl, rfl⟩ := Prod.mk.inj (Option.some.inj h)
  exact pack_lt ⟨by decide, by omega, by omega, by omega, by omega, by omega, by omega, by omega, by omega, by omega, by decide, trivial⟩

theorem mmac : ∀ cd ta asel wsel r p, Statement (.mmac cd ta asel wsel r p) := by
  intro cd ta asel wsel r p k w h
  obtain ⟨rfl, rfl⟩ := Prod.mk.inj (Option.some.inj h)
  exact pack_lt ⟨by decide, by omega, by omega, by omega, by omega, by omega, by omega, by omega, by omega, by omega, by decide, trivial⟩

theorem mmull : ∀ cd asel wsel r p, Statement (.mmull cd asel wsel r p) := by
  intro cd asel wsel r p k w h
  obtain ⟨rfl, rfl⟩ := Prod.mk.inj (Option.some.inj h)
  exact pack_lt ⟨by decide, by omega, by omega, by omega, by omega, by omega, by omega, by decide, by decide, by omega, by decide, trivial⟩

theorem mmacl : ∀ cd asel wsel r p, Statement (.mmacl cd asel wsel r p) := by
  intro cd asel wsel r p k w h
  obtain ⟨rfl, rfl⟩ := Prod.mk.inj (Option.some.inj h)
  exact pack_lt ⟨by decide, by omega, by omega, by omega, by omega, by omega, by omega, by decide, by decide, by omega, by decide, trivial⟩

theorem mmact : ∀ cd ta asel wsel r p, Statement (.mmact cd ta asel wsel r p) := by
  intro cd ta asel wsel r p k w h
  obtain ⟨rfl, rfl⟩ := Prod.mk.inj (Option.some.inj h)
  exact pack_lt ⟨by decide, by omega, by omega, by omega, by omega, by omega, by omega, by omega, by omega, by omega, by decide, trivial⟩

theorem mzero : ∀ cd p, Statement (.mzero cd p) := by
  intro cd p k w h
  obtain ⟨rfl, rfl⟩ := Prod.mk.inj (Option.some.inj h)
  exact pack_lt ⟨by decide, by omega, by decide, by decide, by decide, by decide, by decide, by decide, by decide, by omega, by decide, trivial⟩

theorem mrd : ∀ td cd sel p, Statement (.mrd td cd sel p) := by
  intro td cd sel p k w h
  obtain ⟨rfl, rfl⟩ := Prod.mk.inj (Option.some.inj h)
  exact pack_lt ⟨by decide, by omega, by decide, by decide, by decide, by decide, by omega, by decide, by omega, by omega, by decide, trivial⟩

theorem mwr : ∀ cd ta sel p, Statement (.mwr cd ta sel p) := by
  intro cd ta sel p k w h
  obtain ⟨rfl, rfl⟩ := Prod.mk.inj (Option.some.inj h)
  exact pack_lt ⟨by decide, by omega, by decide, by decide, by decide, by decide, by omega, by omega, by omega, by omega, by decide, trivial⟩

theorem mstat : ∀ td p, Statement (.mstat td p) := by
  intro td p k w h
  obtain ⟨rfl, rfl⟩ := Prod.mk.inj (Option.some.inj h)
  exact pack_lt ⟨by decide, by omega, by decide, by decide, by decide, by decide, by decide, by decide, by omega, by decide, by decide, trivial⟩

theorem issueBundle : Statement .issueBundle := by
  intro  k w h
  exact nomatch h

theorem exposedResultLanding : Statement .exposedResultLanding := by
  intro  k w h
  exact nomatch h

theorem takeInterrupt : Statement .takeInterrupt := by
  intro  k w h
  exact nomatch h

theorem contextSwitch : Statement .contextSwitch := by
  intro  k w h
  exact nomatch h

theorem quantumExpiry : Statement .quantumExpiry := by
  intro  k w h
  exact nomatch h

theorem clusterWake : Statement .clusterWake := by
  intro  k w h
  exact nomatch h

theorem debugRequest : Statement .debugRequest := by
  intro  k w h
  exact nomatch h

theorem debugRelease : Statement .debugRelease := by
  intro  k w h
  exact nomatch h

theorem globalLoadComplete : Statement .globalLoadComplete := by
  intro  k w h
  exact nomatch h

theorem tileLoadComplete : Statement .tileLoadComplete := by
  intro  k w h
  exact nomatch h

theorem fillComplete : Statement .fillComplete := by
  intro  k w h
  exact nomatch h

theorem atomicPerformed : Statement .atomicPerformed := by
  intro  k w h
  exact nomatch h

theorem phaseComplete : Statement .phaseComplete := by
  intro  k w h
  exact nomatch h

theorem vjoinComplete : Statement .vjoinComplete := by
  intro  k w h
  exact nomatch h

theorem coreWindowWrite : Statement .coreWindowWrite := by
  intro  k w h
  exact nomatch h

theorem matrixOpExecute : Statement .matrixOpExecute := by
  intro  k w h
  exact nomatch h

theorem matrixOpComplete : Statement .matrixOpComplete := by
  intro  k w h
  exact nomatch h

theorem copyCommandExecute : Statement .copyCommandExecute := by
  intro  k w h
  exact nomatch h

theorem copyEngineFault : Statement .copyEngineFault := by
  intro  k w h
  exact nomatch h

theorem copyCommandComplete : Statement .copyCommandComplete := by
  intro  k w h
  exact nomatch h

theorem sendTransmit : Statement .sendTransmit := by
  intro  k w h
  exact nomatch h

theorem sendtArm : Statement .sendtArm := by
  intro  k w h
  exact nomatch h

theorem rxsetPerform : Statement .rxsetPerform := by
  intro  k w h
  exact nomatch h

theorem rpostPerform : Statement .rpostPerform := by
  intro  k w h
  exact nomatch h

theorem taskExitRelease : Statement .taskExitRelease := by
  intro  k w h
  exact nomatch h

theorem preemptRequest : Statement .preemptRequest := by
  intro  k w h
  exact nomatch h

theorem preemption : Statement .preemption := by
  intro  k w h
  exact nomatch h

theorem contextSave : Statement .contextSave := by
  intro  k w h
  exact nomatch h

theorem resume : Statement .resume := by
  intro  k w h
  exact nomatch h

theorem taskBind : Statement .taskBind := by
  intro  k w h
  exact nomatch h

theorem launch : Statement .launch := by
  intro  k w h
  exact nomatch h

theorem tiletasks : Statement .tiletasks := by
  intro  k w h
  exact nomatch h

theorem collective : Statement .collective := by
  intro  k w h
  exact nomatch h

theorem evsignal : Statement .evsignal := by
  intro  k w h
  exact nomatch h

theorem evwaitPacket : Statement .evwaitPacket := by
  intro  k w h
  exact nomatch h

theorem barrierPacket : Statement .barrierPacket := by
  intro  k w h
  exact nomatch h

theorem nopPacket : Statement .nopPacket := by
  intro  k w h
  exact nomatch h

theorem launchComplete : Statement .launchComplete := by
  intro  k w h
  exact nomatch h

theorem qctlRetry : Statement .qctlRetry := by
  intro  k w h
  exact nomatch h

theorem qctlSkip : Statement .qctlSkip := by
  intro  k w h
  exact nomatch h

theorem tlbiGo : Statement .tlbiGo := by
  intro  k w h
  exact nomatch h

theorem tlbInvalidationDone : Statement .tlbInvalidationDone := by
  intro  k w h
  exact nomatch h

theorem ttArrive : Statement .ttArrive := by
  intro  k w h
  exact nomatch h

theorem budgetPeriod : Statement .budgetPeriod := by
  intro  k w h
  exact nomatch h

theorem timecmpMatch : Statement .timecmpMatch := by
  intro  k w h
  exact nomatch h

theorem notify : Statement .notify := by
  intro  k w h
  exact nomatch h

theorem registerWrite : Statement .registerWrite := by
  intro  k w h
  exact nomatch h

theorem transientReadRequest : Statement .transientReadRequest := by
  intro  k w h
  exact nomatch h

theorem transientWriteRequest : Statement .transientWriteRequest := by
  intro  k w h
  exact nomatch h

theorem tokenArrival : Statement .tokenArrival := by
  intro  k w h
  exact nomatch h

theorem transientAttemptTimeout : Statement .transientAttemptTimeout := by
  intro  k w h
  exact nomatch h

theorem persistentRequest : Statement .persistentRequest := by
  intro  k w h
  exact nomatch h

theorem persistentActivation : Statement .persistentActivation := by
  intro  k w h
  exact nomatch h

theorem persistentDeactivation : Statement .persistentDeactivation := by
  intro  k w h
  exact nomatch h

theorem deactivationAck : Statement .deactivationAck := by
  intro  k w h
  exact nomatch h

theorem lineEviction : Statement .lineEviction := by
  intro  k w h
  exact nomatch h

theorem tagRecall : Statement .tagRecall := by
  intro  k w h
  exact nomatch h

theorem hostRead : Statement .hostRead := by
  intro  k w h
  exact nomatch h

theorem hostWrite : Statement .hostWrite := by
  intro  k w h
  exact nomatch h

theorem hostBisnpResponse : Statement .hostBisnpResponse := by
  intro  k w h
  exact nomatch h

theorem hostSnoop : Statement .hostSnoop := by
  intro  k w h
  exact nomatch h

theorem tokenEccError : Statement .tokenEccError := by
  intro  k w h
  exact nomatch h

theorem gracefulDieReset : Statement .gracefulDieReset := by
  intro  k w h
  exact nomatch h

theorem dieLost : Statement .dieLost := by
  intro  k w h
  exact nomatch h

theorem tokenRecoveryRegenerate : Statement .tokenRecoveryRegenerate := by
  intro  k w h
  exact nomatch h

theorem packageFault : Statement .packageFault := by
  intro  k w h
  exact nomatch h

theorem routeDeliver : Statement .routeDeliver := by
  intro  k w h
  exact nomatch h

theorem routeForward : Statement .routeForward := by
  intro  k w h
  exact nomatch h

theorem routeReduce : Statement .routeReduce := by
  intro  k w h
  exact nomatch h

theorem routeDeliverCounter : Statement .routeDeliverCounter := by
  intro  k w h
  exact nomatch h

theorem routeDeliverForward : Statement .routeDeliverForward := by
  intro  k w h
  exact nomatch h

theorem routeTileArrival : Statement .routeTileArrival := by
  intro  k w h
  exact nomatch h

theorem acknowledgement : Statement .acknowledgement := by
  intro  k w h
  exact nomatch h

theorem refusal : Statement .refusal := by
  intro  k w h
  exact nomatch h

theorem lapseNotice : Statement .lapseNotice := by
  intro  k w h
  exact nomatch h

theorem barrierArrival : Statement .barrierArrival := by
  intro  k w h
  exact nomatch h

theorem barrierRelease : Statement .barrierRelease := by
  intro  k w h
  exact nomatch h

theorem barrierReleaseInstant : Statement .barrierReleaseInstant := by
  intro  k w h
  exact nomatch h

theorem sendAckTimeout : Statement .sendAckTimeout := by
  intro  k w h
  exact nomatch h

theorem chunkRetransmitTimeout : Statement .chunkRetransmitTimeout := by
  intro  k w h
  exact nomatch h

theorem stagingLeaseExpiry : Statement .stagingLeaseExpiry := by
  intro  k w h
  exact nomatch h

theorem collectiveTimeout : Statement .collectiveTimeout := by
  intro  k w h
  exact nomatch h

theorem portFailure : Statement .portFailure := by
  intro  k w h
  exact nomatch h

theorem packageReset : Statement .packageReset := by
  intro  k w h
  exact nomatch h

theorem startctlGo : Statement .startctlGo := by
  intro  k w h
  exact nomatch h

theorem stageAdvance : Statement .stageAdvance := by
  intro  k w h
  exact nomatch h

theorem podTimeRealign : Statement .podTimeRealign := by
  intro  k w h
  exact nomatch h

theorem worldSwitch : Statement .worldSwitch := by
  intro  k w h
  exact nomatch h

theorem slewInterval : Statement .slewInterval := by
  intro  k w h
  exact nomatch h

theorem shapingWindow : Statement .shapingWindow := by
  intro  k w h
  exact nomatch h

theorem traceFifoDrain : Statement .traceFifoDrain := by
  intro  k w h
  exact nomatch h

theorem ringReconfigure : Statement .ringReconfigure := by
  intro  k w h
  exact nomatch h

theorem counterWrap : Statement .counterWrap := by
  intro  k w h
  exact nomatch h

theorem dieCounterWrap : Statement .dieCounterWrap := by
  intro  k w h
  exact nomatch h

theorem portRetrained : Statement .portRetrained := by
  intro  k w h
  exact nomatch h

theorem hostCxlCacheResponse : Statement .hostCxlCacheResponse := by
  intro  k w h
  exact nomatch h

theorem dieRejoin : Statement .dieRejoin := by
  intro  k w h
  exact nomatch h

theorem storeBecomesVisible : Statement .storeBecomesVisible := by
  intro  k w h
  exact nomatch h

end Sys2Proof.Laws.Width
end

