-- ==== Sys2Proof/Tests/Slice0.lean ====
section
/-! SUPPORT. Tests: ill-formed terms that the checks refuse, words of the spec decoded, one step of instructions on small
states with results from the spec or worked by hand from its rules, and for every statement with hypotheses a state and
operands that meet them. -/

namespace Sys2Proof.Tests

open Sys2Proof Sys2Proof.Machine

/-! ## Small states -/

/-- A state whose first context runs a task with some registers, its bundle open at slot 1. -/
def run (r : Regs) : State :=
  { State.reset with
    c := { Ctx.fresh with task := some loadTask, regs := r, pc := 0x400000 }
    bundle := { Bundle.none with
      isOpen := true, view := r, slot := 1, pc := 0x400000, np := 0x400006, target := 0x400006 } }

/-- Registers with some scalars. -/
def regs (l : List (SReg × Word)) : Regs := l.foldl (fun r e => r.sset e.1 e.2) Regs.fresh

/-- A state whose first context runs a task with some scalars. -/
def sc (l : List (SReg × Word)) : State := run (regs l)

/-- A state with its focused context changed. -/
def withC (s : State) (f : Ctx → Ctx) : State := { s with c := f s.c }

/-- The same in supervisor mode. -/
def sup (s : State) : State := withC s fun c => { c with priv := .sup }

/-- The operands of a step. -/
def moved (s : State) (m : Move) : State := { s with move := m }

/-- A state between bundles. -/
def closed (s : State) : State := { s with bundle := Bundle.none }

/-- What a step leaves, its results in flight landed; the reset state where it does not go on. -/
def after : Out → State
  | .next t => { t with c := t.c.landAll }
  | _ => State.reset

/-- The scalar that a step leaves. -/
def sAfter (o : Out) (d : SReg) : Word := (after o).c.regs.sget d

/-- A guard that is always true: p0. -/
def always : Guard := ⟨0, false⟩

/-- A slot fault's mark in a task with no handler: the exit code of its end. -/
def ends (o : Out) : Option (BitVec 26) :=
  match (after o).c.mode with
  | .exiting code true => some code
  | _ => none

/-- Memory with the page tables that map the 2 MiB at 0x400000 onto themselves, and some little-endian numbers: address,
bytes, value. -/
def words (l : List (Nat × Nat × Nat)) : Memory := l.foldl (fun m e => memWrite m e.1 e.2.1 e.2.2) (loadTables [])

/-- A state with its memory, as it stood at issue too. -/
def inMem (s : State) (l : List (Nat × Nat × Nat)) : State :=
  { s with mem := words l, bundle := { s.bundle with mem := words l, table := words l } }

/-- A handler. -/
def handler (s : State) : State := withC s fun c => { c with sys := { c.sys with tvec := 0x500000 } }

/-- A step that goes on. -/
def goes : Out → Bool
  | .next _ => true
  | _ => false

/-- A step that goes on, to a state of which something holds. -/
def leaves (o : Out) (p : State → Bool) : Bool :=
  match o with
  | .next t => p t
  | _ => false

/-- A loop level. -/
def level (n i : Nat) : Loop := ⟨0x400000, 0x400040, BitVec.ofNat 32 n, BitVec.ofNat 32 i⟩

/-- A tile of a type with the containers of its first rows. -/
def til (ty : ElemTy) (l : List (List Nat)) : Tile :=
  { Tile.fresh with
    ty := ty
    rows := Fin.ofNat 16 (l.length - 1)
    cols := Fin.ofNat 64 ((l.headD []).length - 1)
    cells := Grid.ofFn fun i j => BitVec.ofNat 32 ((l.getD i.val []).getD j.val 0) }

/-- Registers with some tiles. -/
def withTiles (r : Regs) (l : List (TReg × Tile)) : Regs := l.foldl (fun r e => r.xset (.t e.1) e.2) r

/-- A state with some tiles. -/
def ts (l : List (TReg × Tile)) : State := run (withTiles Regs.fresh l)

/-- The first containers of a row that a step leaves in a tile. -/
def row (o : Out) (t : TReg) (i n : Nat) : List Nat :=
  (List.range n).map fun j => (((after o).c.regs.t.get t).cells.at (Fin.ofNat 16 i) (Fin.ofNat 64 j)).toNat

/-- Every element, the implied record, no guard. -/
def plain : VCtl := ⟨31, 0, 0⟩

/-- A latent state with one factor attached. -/
def factor : Machine.Lat := { Machine.Lat.id with rs := 0x8000 }

set_option maxRecDepth 100000
set_option Elab.async false

/-! ## Ill-formed terms -/

theorem test_wf_loop_length_zero : (Instr.loopImm 1 0).wf = false := by decide
theorem test_wf_lbuf_range : (Instr.lbuf 0).wf = false ∧ (Instr.lbuf 65).wf = false ∧ (Instr.lbuf 64).wf = true := by decide
theorem test_wf_system_register : (Instr.sysrd 1 0x00B).wf = false ∧ (Instr.syswr 1 0x0A8).wf = false := by decide
theorem test_wf_movli_level : (Instr.movli 1 6 always).wf = false ∧ (Instr.movli 1 5 always).wf = true := by decide
theorem test_wf_descriptor_field : (Instr.agset 0 1 0x16 always).wf = false ∧ (Instr.agrd 1 0 0x16 always).wf = false := by
  decide
theorem test_wf_signed_doubleword : (Instr.ld 1 ⟨0, always, 3, false, false, 0⟩ true).wf = false := by decide
theorem test_wf_accumulator_port : (Instr.spill (.c 0) 0 always 1).wf = false ∧ (Instr.tdev (.c 0) 1 0x1F).wf = false := by
  decide
theorem test_wf_copy_flags : (Instr.copy ⟨1, 2, 3, 4⟩ 0x10).wf = false ∧ (Instr.copya ⟨1, 2, 3, 4⟩ 0x30).wf = false ∧
    (Instr.copyg ⟨1, 2, 3, 4⟩ 8).wf = false ∧ (Instr.send ⟨1, 2, 3, 4⟩ 1).wf = false := by decide
theorem test_wf_scope : (Instr.phase 3).wf = false ∧ (Instr.evsig 0 3).wf = false ∧ (Instr.evwait 0 3).wf = false := by decide
theorem test_wf_amo : (Instr.amo 1 2 3 0xC 0 0 1).wf = false ∧ (Instr.amo 1 2 3 0xA 0 0 1).wf = false ∧
    (Instr.amo 1 2 3 0xB 0 0 1).wf = false ∧ (Instr.amo 1 2 3 0 2 0 1).wf = false := by decide
theorem test_wf_waitm : (Instr.waitm 1 2 3 3 0 1).wf = false ∧ (Instr.waitm 1 2 3 0 2 1).wf = false := by decide
theorem test_wf_qpost_queue : (Instr.qpost 1 64).wf = false ∧ (Instr.qpost 1 63).wf = true := by decide
theorem test_wf_vector_subcodes : (Instr.tcmp 1 ⟨1, 0⟩ ⟨2, 1⟩ 5 ⟨31, 0, 0⟩).wf = false ∧
    (Instr.tiota 1 3 0 ⟨31, 0, 0⟩).wf = false ∧ (Instr.tshape 1 0 0 0xB 0).wf = false ∧
    (Instr.rred 1 ⟨1, 0⟩ 5 ⟨31, 0, 0⟩).wf = false ∧ (Instr.cred 1 ⟨1, 0⟩ 5 ⟨31, 0, 0⟩).wf = false ∧
    (Instr.rscan 1 ⟨1, 0⟩ 3 ⟨31, 0, 0⟩).wf = false := by decide
theorem test_wf_latent : (Instr.tlat (.t 1) .rs 0 1 false false false false).wf = false ∧ (Instr.tlatc (.t 1) 0).wf = false ∧
    (Instr.lvclose 0 1 false).wf = false ∧ (Instr.lvacc (.c 1) 1 0 0 false).wf = false ∧
    (Instr.lvmovToVector 0 (.c 1) 1 0).wf = false := by decide
theorem test_wf_shuffle : (Instr.xshuf 1 ⟨1, 0⟩ 0 1).wf = false ∧ (Instr.xshuf 1 ⟨1, 0⟩ 3 6).wf = false := by decide
theorem test_wf_matrix : (Instr.mlds ⟨1, 0⟩ 0).wf = false ∧ (Instr.mmul 0 ⟨0, 0⟩ 31 31 ⟨0, 1, 0⟩ 0).wf = false := by decide
theorem test_wf_port_range : (Instr.tadd 1 ⟨1, 6⟩ ⟨2, 0⟩ ⟨31, 0, 0⟩).wf = false := by decide
theorem test_wf_port_twice : (Instr.tadd 1 ⟨1, 0⟩ ⟨2, 0⟩ ⟨31, 0, 0⟩).wf = false := by decide
theorem test_wf_selector : (Instr.tadd 1 ⟨1, 0⟩ ⟨2, 1⟩ ⟨0x16, 0, 0⟩).wf = false ∧
    (Instr.tadd 1 ⟨1, 0⟩ ⟨2, 1⟩ ⟨0x1E, 0, 0⟩).wf = false := by decide

/-! ## Words of the spec (R138, R154, R160, R187, R195, R200, R242, R329, R342, R354, R380, R382, R397, R421, R469) -/

theorem test_decode_c : decodeSlot .c 0x1400C00F = .ok (.loopImm 6 15) ∧ decodeSlot .c 0x0FC00000 = .ok (.bri 60) ∧
    decodeSlot .c 0x200000C9 = .ok (.marker 201) ∧ decodeSlot .c 0x38700200 = .ok (.syswr 7 2) := by decide
theorem test_decode_a : decodeSlot .a 0x1C880000 = .ok (.aidx 2 2 0 always) ∧
    decodeSlot .a 0x40920440 = .ok (.ld 9 ⟨2, always, 2, false, true, 0⟩ false) ∧
    decodeSlot .a 0x1480300E = .ok (.agset 2 3 0x0E always) ∧ decodeSlot .a 0x451D04C0 = .ok (.st ⟨13, always, 2, true, true, 0⟩ 17) ∧
    decodeSlot .a 0x45A30642 = .ok (.st ⟨3, always, 3, false, true, 2⟩ 26) := by decide
theorem test_decode_m : decodeSlot .m 0x16314000 = .ok (.spill (.c 3) 5 always 0) ∧
    decodeSlot .m 0x18914000 = .ok (.fill (.t 9) 5 always) ∧ decodeSlot .m 0x400454C1 = .ok (.copy ⟨0, 4, 5, 19⟩ 1) ∧
    decodeSlot .m 0xA7403455 = .ok (.waitm 52 0 13 1 1 1) ∧ decodeSlot .m 0xE8240005 = .ok (.rxset 9 5) ∧
    decodeSlot .m 0xC0300028 = .ok (.qpost 12 40) := by decide
theorem test_decode_v : decodeSlot .v 0x4810010C4F80 = .ok (.tshape 1 1 3 1 0) ∧
    decodeSlot .v 0x448000000F80 = .ok (.tfilli 8 0 ⟨31, 0, 0⟩) ∧
    decodeSlot .v 0xC20200001F80 = .ok (.treeset ⟨4, 0⟩ 1 0) ∧ decodeSlot .v 0xCE0001910F80 = .ok (.treerd 6 4 1 0) ∧
    decodeSlot .v 0x860800000000 = .ok (.lvacc (.t 1) 0 0 0 false) := by decide
theorem test_decode_x : decodeSlot .x 0x04410000 = .ok (.xperm 2 ⟨1, 0⟩ 0) ∧ decodeSlot .x 0x08040803 = .ok (.xpld 1 ⟨4, 0⟩ 3) ∧
    decodeSlot .x 0x10210000 = .ok (.xbrev 1 ⟨1, 0⟩) ∧ decodeSlot .x 0x14E32000 = .ok (.xtrn 7 ⟨3, 1⟩) := by decide
theorem test_decode_f : decodeSlot .f 0x05491F00 = .ok (.fexp2 10 ⟨9, 0⟩ ⟨31, 0, 0⟩) ∧
    decodeSlot .f 0x118B4324 = .ok (.frsqrt 12 ⟨11, 2⟩ ⟨3, 1, 2⟩) := by decide
theorem test_decode_latent : decodeSlot .v 0x800800800000 = .ok (.tlat (.t 1) .rs 0 0 false true false false) ∧
    decodeSlot .v 0x802240200000 = .ok (.tlat (.t 4) .rb 2 0 false false false true) ∧
    decodeSlot .v 0x81146B400000 = .ok (.tlat (.c 2) .cs 3 5 true false true false) ∧
    decodeSlot .v 0x880000028001 = .ok (.lvclose 0 5 true) ∧ decodeSlot .v 0x8E0C00038000 = .ok (.tlatq 7 (.t 1) .cs) ∧
    decodeSlot .v 0x8C0060000001 = .ok (.lvset 3 0 true) := by decide
theorem test_decode_commands : decodeSlot .m 0x400892C2 = .ok (.copy ⟨0, 8, 9, 11⟩ 2) ∧
    decodeSlot .m 0xE4E673C6 = .ok (.sendt ⟨14, 6, 7, 15⟩ 6) ∧ decodeSlot .x 0x0CC50302 = .ok (.xshuf 6 ⟨5, 0⟩ 3 2) ∧
    decodeSlot .v 0xCCB005800F80 = .ok (.treeprune 11 22 0 0) ∧ decodeSlot .c 0x38308000 = .ok (.syswr 3 0x080) := by decide

/-- R45 to R68, one word per slot whose table gives no worked word, written bit by bit from its format: ADD s3, s1, s2 is
opcode 1, d 3, a 1, b 2, p0; MZERO c2 is opcode 9, cd 2. -/
theorem test_decode_by_hand : decodeSlot .s (1 * 2 ^ 25 + 3 * 2 ^ 19 + 1 * 2 ^ 13 + 2 * 2 ^ 7) = .ok (.add 3 1 2 always) ∧
    decodeSlot .q (9 * 2 ^ 42 + 2 * 2 ^ 39) = .ok (.mzero 2 0) := by decide
theorem test_decode_refuses : decodeSlot .c 0 = .error .opcodeZero ∧ decodeSlot .c 0x4C000000 = .error .unassigned ∧
    decodeSlot .c 0x18000001 = .error .reserved ∧ decodeAt 6 0xC00000000F80 = .error .unassigned := by decide

/-! ## Scalar instructions: results worked by hand from R94 to R105 -/


theorem test_add_sub_wrap : sAfter (exec (.add 3 1 2 always) (sc [(1, -1), (2, 1)])) 3 = 0 ∧
    sAfter (exec (.sub 3 1 2 always) (sc [(1, 0), (2, 1)])) 3 = 0xFFFFFFFFFFFFFFFF := by decide
theorem test_mul : sAfter (exec (.mul 3 1 2 always) (sc [(1, -1), (2, -3)])) 3 = 3 ∧
    sAfter (exec (.mulh 3 1 2 always) (sc [(1, -1), (2, 3)])) 3 = 0xFFFFFFFFFFFFFFFF ∧
    sAfter (exec (.mulhn 3 1 2 always) (sc [(1, -1), (2, -1)])) 3 = 0xFFFFFFFFFFFFFFFE := by decide
theorem test_div : sAfter (exec (.div 3 1 2 always) (sc [(1, -7), (2, 2)])) 3 = -3 ∧
    sAfter (exec (.rem 3 1 2 always) (sc [(1, -7), (2, 2)])) 3 = -1 ∧
    sAfter (exec (.divn 3 1 2 always) (sc [(1, -7), (2, 2)])) 3 = 0x7FFFFFFFFFFFFFFC ∧
    sAfter (exec (.remn 3 1 2 always) (sc [(1, 7), (2, 4)])) 3 = 3 := by decide
theorem test_div_corners : sAfter (exec (.div 3 1 2 always) (sc [(1, 5)])) 3 = 0xFFFFFFFFFFFFFFFF ∧
    sAfter (exec (.rem 3 1 2 always) (sc [(1, 5)])) 3 = 5 ∧
    sAfter (exec (.div 3 1 2 always) (sc [(1, 0x8000000000000000), (2, -1)])) 3 = 0x8000000000000000 := by decide
theorem test_logic : sAfter (exec (.and 3 1 2 always) (sc [(1, 0xC), (2, 0xA)])) 3 = 8 ∧
    sAfter (exec (.or 3 1 2 always) (sc [(1, 0xC), (2, 0xA)])) 3 = 0xE ∧
    sAfter (exec (.xor 3 1 2 always) (sc [(1, 0xC), (2, 0xA)])) 3 = 6 := by decide
theorem test_shift : sAfter (exec (.shl 3 1 2 always) (sc [(1, 3), (2, 65)])) 3 = 6 ∧
    sAfter (exec (.shr 3 1 2 always) (sc [(1, -1), (2, 60)])) 3 = 15 ∧
    sAfter (exec (.sra 3 1 2 always) (sc [(1, -16), (2, 2)])) 3 = -4 := by decide
theorem test_min_max : sAfter (exec (.min 3 1 2 always) (sc [(1, -1), (2, 1)])) 3 = -1 ∧
    sAfter (exec (.max 3 1 2 always) (sc [(1, -1), (2, 1)])) 3 = 1 ∧
    sAfter (exec (.minn 3 1 2 always) (sc [(1, -1), (2, 1)])) 3 = 1 ∧
    sAfter (exec (.maxn 3 1 2 always) (sc [(1, -1), (2, 1)])) 3 = -1 := by decide
theorem test_clz_popc : sAfter (exec (.clz 3 1 always) (sc [(1, 1)])) 3 = 63 ∧ sAfter (exec (.clz 3 1 always) (sc [])) 3 = 64 ∧
    sAfter (exec (.popc 3 1 always) (sc [(1, 0xF0F)])) 3 = 8 := by decide
theorem test_immediates : sAfter (exec (.addi 3 1 (-1)) (sc [(1, 0)])) 3 = -1 ∧
    sAfter (exec (.andi 3 1 0x1FF0) (sc [(1, -1)])) 3 = -16 ∧ sAfter (exec (.ori 3 1 1) (sc [(1, 6)])) 3 = 7 ∧
    sAfter (exec (.xori 3 1 0x1FFF) (sc [(1, 0)])) 3 = -1 ∧ sAfter (exec (.shli 3 1 4) (sc [(1, 1)])) 3 = 16 ∧
    sAfter (exec (.shri 3 1 4) (sc [(1, -1)])) 3 = 0x0FFFFFFFFFFFFFFF ∧ sAfter (exec (.srai 3 1 4) (sc [(1, -32)])) 3 = -2 ∧
    sAfter (exec (.muli 3 1 (-2)) (sc [(1, 5)])) 3 = -10 ∧ sAfter (exec (.movi 3 0x40000) (sc [])) 3 = -262144 ∧
    sAfter (exec (.movk 3 2 0xABCD) (sc [(3, -1)])) 3 = 0xFFFFABCDFFFFFFFF := by decide
theorem test_sel : sAfter (exec (.sel 3 1 2 ⟨0, false⟩) (sc [(1, 5), (2, 6)])) 3 = 5 ∧
    sAfter (exec (.sel 3 1 2 ⟨0, true⟩) (sc [(1, 5), (2, 6)])) 3 = 6 := by decide
theorem test_compare : (after (exec (.cmpeq 1 1 2 always false) (sc [(1, 5), (2, 5)]))).c.regs.pget 1 = true ∧
    (after (exec (.cmplt 1 1 2 always false) (sc [(1, -1), (2, 1)]))).c.regs.pget 1 = true ∧
    (after (exec (.cmpltn 1 1 2 always false) (sc [(1, -1), (2, 1)]))).c.regs.pget 1 = false ∧
    (after (exec (.cmplt 1 1 2 always true) (sc [(1, 1), (2, 1)]))).c.regs.pget 1 = true := by decide
theorem test_predicates : (after (exec (.pand 1 0 0 always false true) (sc []))).c.regs.pget 1 = false ∧
    (after (exec (.por 1 0 2 always false false) (sc []))).c.regs.pget 1 = true ∧
    (after (exec (.pxor 1 0 0 always false false) (sc []))).c.regs.pget 1 = false ∧
    (after (exec (.pmov 1 2 always true) (sc []))).c.regs.pget 1 = true := by decide
theorem test_float_arith : sAfter (exec (.fadd 3 1 2 always .rne) (sc [(1, 0x3F800000), (2, 0x40000000)])) 3 = 0x40400000 ∧
    sAfter (exec (.fsub 3 1 2 always .rne) (sc [(1, 0x3F800000), (2, 0x40000000)])) 3 = 0xBF800000 ∧
    sAfter (exec (.fmul 3 1 2 always .rne) (sc [(1, 0x40400000), (2, 0x40000000)])) 3 = 0x40C00000 ∧
    sAfter (exec (.ffma 3 1 2 always .rne) (sc [(1, 0x40000000), (2, 0x40000000), (3, 0x3F800000)])) 3 = 0x40A00000 := by decide +kernel
theorem test_float_other : sAfter (exec (.fmin 3 1 2 always) (sc [(1, 0x3F800000), (2, 0xC0000000)])) 3 = 0xC0000000 ∧
    sAfter (exec (.fmax 3 1 2 always) (sc [(1, 0x3F800000), (2, 0xC0000000)])) 3 = 0x3F800000 ∧
    sAfter (exec (.fcmp 3 1 2 always .lt) (sc [(1, 0x3F800000), (2, 0x40000000)])) 3 = 1 ∧
    sAfter (exec (.fcmp 3 1 2 always .un) (sc [(1, 0x7FC00000), (2, 0x40000000)])) 3 = 1 := by decide +kernel
theorem test_float_convert : sAfter (exec (.fcvti 3 1 always .rne) (sc [(1, 0x40200000)])) 3 = 2 ∧
    sAfter (exec (.fcvtf 3 1 always .rne) (sc [(1, -1)])) 3 = 0xBF800000 ∧
    sAfter (exec (.fcvtb 3 1 always .rne) (sc [(1, 0x3F808000)])) 3 = 0x3F80 := by decide +kernel
theorem test_movli_dchk : ends (exec (.movli 3 2 always) (sc [])) = some 0x2001100 ∧
    ends (exec (.dchk 1 2 always) (sc [(1, 1)])) = some 0x2000900 ∧ ends (exec (.dchk 1 2 always) (sc [])) = none := by decide

/-! ### Operands that meet the hypotheses of the statements about scalar instructions -/

theorem test_witness_IntegerResults : (sc [(1, 7), (2, 0)]).view.guard always = true ∧ ((sc [(1, 7), (2, 0)]).view.sget 2).toNat = 0 ∧
    ((sc [(1, 7), (2, 3)]).view.sget 2).toNat ≠ 0 := by decide
theorem test_witness_PredicateResults : (sc [(1, 7)]).view.guard ⟨1, true⟩ = true := by decide
theorem test_witness_FloatResults :
    let s := sc [(1, 0x3F800000), (2, 0x40000000), (3, 0x3F800000)]
    s.view.guard always = true ∧ f32Num ((s.view.sget 1).setWidth 32) = .fin 1 ∧ f32Num ((s.view.sget 2).setWidth 32) = .fin 2 ∧
    (1 : Rat) + 2 ≠ 0 ∧ (1 : Rat) - 2 ≠ 0 ∧ (1 : Rat) * 2 + 1 ≠ 0 := by decide +kernel
theorem test_witness_FcmpRelations :
    let s := sc [(1, 0x7FC00000), (2, 0x80000000), (3, 0), (4, 0x7F800000), (5, 0x3F800000)]
    let n := fun (r : SReg) => f32Num ((s.view.sget r).setWidth 32)
    s.view.guard always = true ∧ ((n 1).isNaN || (n 2).isNaN) = true ∧ ((n 2).isNaN || (n 3).isNaN) = false ∧
    n 2 = .zero true ∧ n 3 = .zero false ∧ n 4 = .inf false ∧ (n 5).isInf = false ∧ (n 4).isNaN = false := by decide +kernel
theorem test_witness_MovliAndDchk :
    let s := sc [(1, 3)]
    let t := run { Regs.fresh with loops := [level 4 1] }
    s.view.guard always = true ∧ s.view.loops.length ≤ 0 ∧ t.view.loops[(0 : Nat)]? = some (level 4 1) ∧
    t.view.loops.length ≤ 1 ∧ s.view.sget 1 ≠ s.view.sget 2 ∧ s.view.sget 1 = s.view.sget 1 := by decide

/-! ## Control, exceptions and steps: results worked by hand from R106 to R122, R370 to R381 and R33 to R43 -/

theorem test_transfers : leaves (exec (.br always 6) (sc [])) (·.bundle.target == 0x40000C) ∧
    leaves (exec (.br ⟨0, true⟩ 6) (sc [])) (·.bundle.target == 0x400006) ∧
    leaves (exec (.call (-2)) (sc [])) (·.bundle.target == 0x3FFFFC) ∧ sAfter (exec (.call (-2)) (sc [])) 62 = 0x400006 ∧
    leaves (exec (.bri 1) (sc [(1, 0xFFFF000000401000)])) (·.bundle.target == 0x401000) ∧
    leaves (exec .ret (sc [(62, 0x402000)])) (·.bundle.target == 0x402000) := by decide +kernel
theorem test_loop : leaves (exec (.loopImm 4 20) (sc [])) (fun t => t.c.regs.loops == [⟨0x400006, 0x40002E, 4, 0⟩]) ∧
    leaves (exec (.loopReg 1 20) (sc [(1, 0xF00000007)])) (fun t => t.c.regs.loops == [⟨0x400006, 0x40002E, 7, 0⟩]) ∧
    leaves (exec (.loopImm 0 20) (sc [])) (fun t => t.bundle.target == 0x40002E && t.c.regs.loops == []) ∧
    ends (exec .loopx (sc [])) = some 0x2001100 := by decide +kernel
theorem test_control : leaves (exec (.lbuf 12) (sc [])) (·.c.lbuf.left == 12) ∧ leaves (exec .yield (sc [])) (·.bundle.yields) ∧
    leaves (exec (.exit 7) (sc [])) (·.bundle.exit == some 7) ∧
    leaves (exec (.rfmode 1) (sc [])) (fun t => t.c.asleep (.t 8) && !t.c.asleep (.t 7)) ∧
    (after (exec (.fmtbase 5) (sc []))).c.regs.fbase = 5 := by decide +kernel
/-- R112: an execution 3 cycles later than marked is below the threshold, one 2,000 later is not. -/
theorem test_marker : leaves (exec (.marker 97) (withC (sc []) fun c => { c with sc := 100 })) (·.c.interlock == 0) ∧
    leaves (exec (.marker 100) (withC (sc []) fun c => { c with sc := 2100 })) (fun t =>
      t.c.interlock == 256 && t.c.sys.driftLast == 2000) := by decide +kernel
theorem test_trace : leaves (exec (.trace 1 7) (sc [(1, 99)])) (fun t =>
    t.pkg.traced.map (fun e => (e.payload, e.kind, e.pc)) == [(99, 7, 0x400000)]) := by decide +kernel
theorem test_traps : leaves (exec (.trap 5) (handler (sc []))) (·.bundle.soft == some (0x0F, 5)) ∧
    leaves (exec (.bkpt 3) (handler (sc []))) (·.bundle.soft == some (0x10, 3)) ∧
    leaves (exec .eret (sup (sc []))) (·.bundle.eret) ∧
    leaves (exec .eret (handler (sc []))) (fun t => t.c.sys.tcause == 0x0E && t.c.sys.tval == 0x10C && t.c.pc == 0x500000) := by
  decide +kernel
theorem test_sysreg : sAfter (exec (.sysrd 3 0x90) (sc [])) 3 = 1024 ∧
    (after (exec (.syswr 1 6) (sc [(1, 0xFF)]))).c.sys.fflags = 0x1F ∧
    leaves (exec (.sysrd 3 5) (handler (sc []))) (fun t => t.c.sys.tcause == 0x0E && t.c.sys.tval == 0x510D) ∧
    leaves (exec (.syswr 1 9) (sc [(1, 5000)])) (·.c.flight == []) := by decide +kernel

/-! ### Operands that meet the hypotheses of the statements about control and exceptions -/

theorem test_witness_TransfersSetTheFetchAddress : (sc []).view.guard always = true ∧ (Instr.bri 1 = .bri 1 ∧ Instr.ret = .ret) ∧
    (0x401000 : Word).toNat % 2 = 0 ∧ (0x401001 : Word).toNat % 2 = 1 := by decide +kernel
/-- R27: a target with bit 0 set is the slot fault 0x0A of the branch bundle. -/
theorem test_odd_target : leaves (exec (.bri 1) (handler (sc [(1, 0x401001)]))) (fun t =>
    t.c.sys.tcause == 0x0A && t.c.sys.tval == 0x401001 && t.c.sys.tepc == 0x400000 && t.c.sys.slotv) := by decide +kernel
theorem test_witness_LoopsPushAndPop :
    let s := sc []
    let six := run { Regs.fresh with loops := [level 1 0, level 2 0, level 3 0, level 4 0, level 5 0, level 6 0] }
    let skip := inMem s [(0x400006, 2, 0xFFFE)]
    let fin : BitVec 13 → VAddr := fun len => s.bundle.np + BitVec.ofNat 48 (2 * len.toNat)
    (Instr.loopImm 9 3 = .loopImm 9 3 ∧ (9 : BitVec 32).toNat = (9 : BitVec 12).toNat) ∧
    ((9 : BitVec 32) = ((sc [(1, 9)]).view.sget 1).setWidth 32) ∧ s.onlySkips s.bundle.np (fin 3) = false ∧ (9 : BitVec 32) ≠ 0 ∧
    s.c.regs.loops.length < 6 ∧ skip.onlySkips skip.bundle.np (fin 1) = true ∧
    six.onlySkips six.bundle.np (fin 8191) = false ∧ 6 ≤ six.c.regs.loops.length ∧
    six.c.regs.loops = [level 1 0, level 2 0, level 3 0, level 4 0, level 5 0] ++ [level 6 0] ∧ s.c.regs.loops = [] := by
  decide +kernel
theorem test_witness_ControlEffects :
    let s := withC (sc []) fun c => { c with sc := 1124 }
    let drift := fun (e : BitVec 26) => (BitVec.ofNat 26 (s.c.sc + s.c.stalled) - e).toInt
    (sup s).c.isSup = true ∧ s.c.isSup = false ∧ (drift 100).natAbs ≤ s.c.sys.driftThresh.toNat ∧
    s.c.sys.driftThresh.toNat < (drift 99).natAbs ∧ s.c.sys.driftThresh.toNat < (drift 2149).natAbs ∧
    (s.pkg.traces.get 0).fifo.length < 1024 ∧
    1024 ≤ (List.replicate 1024 (s.traceRec 0 0 0 0)).length := by decide +kernel
theorem test_witness_SystemRegisterAccess :
    let s := sc []
    let barred := fun (s : State) (n : Nat) => s.c.isSup = false ∧ (n ≤ 5 ∨ n = 0x00A ∨ (0x0A0 ≤ n ∧ n ≤ 0x0A7))
    ¬barred s 6 ∧ ¬barred s 9 ∧ ¬barred s 0xA8 ∧ ¬barred s 0x90 ∧ barred s 5 ∧ barred s 0xA ∧ barred s 0xA0 ∧ barred s 0xA7 ∧
    ¬barred (sup s) 0 ∧ ¬barred (sup s) 0xA7 ∧ (0x080 ≤ 0x8F ∧ 0x8F < 0x090) ∧
    ¬(9 = 9 ∧ (sup s).c.isSup = false) ∧ s.c.isSup = false := by decide +kernel
theorem test_witness_AFaultEntersTheHandler :
    let s := sc []
    let t := handler s
    (s.c.sys.tvec = 0 ∨ s.c.isSup = true) ∧ ((sup t).c.sys.tvec = 0 ∨ (sup t).c.isSup = true) ∧ t.c.sys.tvec ≠ 0 ∧
    t.c.isSup = false := by decide +kernel
theorem test_witness_SoftwareTrapsAndEret :
    let s := sc []
    let t : State := { s with bundle := { s.bundle with slots := [(2, .add 3 1 2 always), (5, .treeset ⟨4, 0⟩ 1 0)] } }
    t.bundle.slots = (2, .add 3 1 2 always) :: [(5, .treeset ⟨4, 0⟩ 1 0)] ∧ s.bundle.slots = [] ∧ (sup s).c.isSup = true ∧
    s.c.isSup = false := by decide +kernel

/-- A supervisor's bundle that ends with ERET, with a task set aside. -/
def returning : State :=
  let s := withC (sup (sc [])) fun c => { c with aside := some ⟨[level 3 1], LoopBuf.none, [⟨9, 3, 0, [.s 4 7], 0⟩], Hist.none⟩ }
  { s with bundle := { s.bundle with eret := true } }

theorem test_witness_EretReturnsToTheTask : returning.bundle.isOpen = true ∧ returning.bundle.eret = true ∧
    returning.bundle.exit = none ∧ returning.c.isSup = true ∧
    returning.c.aside = some ⟨[level 3 1], LoopBuf.none, [⟨9, 3, 0, [.s 4 7], 0⟩], Hist.none⟩ ∧ returning.c.flight = [] ∧
    returning.c.pbuf.length ≤ 0x8000 := by
  decide +kernel
/-- R381: ERET takes the task back to TEPC. -/
theorem test_eret_returns : (withC returning fun c => { c with sys := { c.sys with tepc := 0x400100 } }).closeBundle.c.pc = 0x400100 ∧
    returning.closeBundle.c.regs.loops = [level 3 1] := by decide +kernel

/-! ### Encodings and steps -/

/-- A queue whose header is not in HBM. -/
def far : Queue := { Queue.fresh with base := 0x20000000, en := true, region := 0x100 }


/-- A literal bundle of one S syllable, ADD s3, s1, s2, where the next one is fetched. -/
def adding : State :=
  let s := State.reset.withFetchWord 32 (1 * 2 ^ 25 + 3 * 2 ^ 19 + 1 * 2 ^ 13 + 2 * 2 ^ 7)
  withC s fun c => { c with regs := regs [(1, 5), (2, 7)] }

/-- The bundle that a state would fetch, with what its checks make of it. -/
def checked (s : State) (p : Ctx → Fetched → List (Nat × Instr) → Bool) : Bool :=
  match s.fetch with
  | .ok f => match s.c.issueChecks f with
    | .ok slots => p s.c f slots
    | .error _ => false
  | .error _ => false

/-- The bundle of `adding` with other words. -/
def bundle (ws : List Nat) : Fetched := ⟨ws, false, 0x400000, 0x400008⟩

/-- The checks of a bundle that fail: its cause. -/
def refusedBy (c : Ctx) (f : Fetched) : Option (BitVec 8 × Word) :=
  match c.issueChecks f with
  | .error e => some e
  | .ok _ => none

/-- R34, R36: the step that issues ADD commits it: 12 lands in s3 one schedule cycle later. -/
theorem test_step_adds : leaves (step adding) (fun t => t.c.landDue.regs.sget 3 == 12 && t.c.sc == 1 && t.c.pc == 0x400008
    && !t.bundle.isOpen) := by decide +kernel
/-- R40, R42: header bit 15 set is an illegal bundle, slot 0xF and reason 1; an S word of zero is reason 2 in slot 1; a V0 one
cycle after another is an illegal schedule, reason 2; a tile of a sleeping cluster is trap 0x05. -/
theorem test_checks : refusedBy Ctx.fresh (bundle [0x8000]) = some (0x02, 0xF01) ∧
    refusedBy Ctx.fresh (bundle [2, 0, 0]) = some (0x02, 0x102) ∧
    refusedBy { Ctx.fresh with sc := 8, hist := { Hist.none with v0 := some 7 } } (bundle [0x0020, 0x4F80, 0x010C, 0x4810]) =
      some (0x03, 2) ∧
    refusedBy { Ctx.fresh with clusters := .replicate 4 .asleep } (bundle [0x0020, 0x4F80, 0x010C, 0x4810]) = some (0x05, 0x501) := by
  decide +kernel

theorem test_witness_AnEncodedSyllableDecodesToItself : (Instr.movi 63 0x7FFFF).wf = true ∧
    encode (.movi 63 0x7FFFF) = (encode (.movi 63 0x7FFFF)).map (fun e => (SlotKind.s, e.2)) ∧
    (encode (.movi 63 0x7FFFF)).isSome = true := by decide +kernel
theorem test_witness_ADecodedWordIsTheEncoding : 0x14E32000 < 2 ^ (16 * slotWords .x) ∧
    decodeSlot .x 0x14E32000 = .ok (.xtrn 7 ⟨3, 1⟩) := by decide +kernel
theorem test_witness_AStepExecutesOneMove :
    let s : State := { adding with agenda := [(.debugRequest, Move.ctx 0 0)] }
    let e : Nat × SReg × BitVec 64 := (1, 4, 0x400100)
    let bad : State := { sc [] with bundle := { (sc []).bundle with bad := some e } }
    s.agenda = (.debugRequest, Move.ctx 0 0) :: [] ∧ adding.agenda = [] ∧ goes (exec (.add 3 1 2 always) (sc [])) = true ∧
    (sc []).sched.launches = [] ∧ (sc []).fab.armed = [] ∧ (sc []).bundle.isOpen = true ∧ adding.bundle.isOpen = false ∧
    (sc []).bundle.bad = none ∧ (bad.bundle.isOpen = true ∧ bad.bundle.bad = some e ∧ e.1 = 1) := by decide +kernel
/-- R153: the slot that reads the register that a poisoned load left busy takes trap 0x14 with the line in TVAL. -/
theorem test_poisoned_read : leaves (commitSlots [(1, .add 3 4 2 always)]
    { handler (sc []) with bundle := { (sc []).bundle with bad := some (1, 4, 0x400100) } }) (fun t =>
      t.c.sys.tcause == 0x14 && t.c.sys.tval == 0x400100 && t.c.sys.slotv && t.c.sys.slot == 1) := by decide +kernel
/-- The state of the statement about the step that issues, with its boundary. -/
def issuing : State := { adding with agenda := [(.issueBundle, Move.ctx 0 0)] }
theorem test_witness_AStepRunsTheDecodedBundle :
    let u := ({ issuing with agenda := [], move := Move.ctx 0 0 } : State).boundary
    issuing.agenda = (.issueBundle, Move.ctx 0 0) :: [] ∧ (Move.ctx 0 0).x = issuing.id ∧
    (issuing.core (issuing.id / 4)).holder.val = issuing.id % 4 ∧ issuing.pkg.stage ≠ 0xE ∧
    (issuing.c.task.isSome = true ∧ issuing.c.mode = .run) ∧ u.c.task.isSome = true ∧
    u.c.mode = .run ∧ issuing.nextReady = none ∧ u.c.debugReq = false ∧ u.c.preemptReq = false ∧ u.breakpoint = none ∧
    (u.c.ipend = [] ∧ u.c.sys.slotv = false) ∧ u.c.pc.getLsbD 0 = false ∧
    (let w := u.needMet (l2Of (coreOf u.id)) [] false
     u.coherent = false ∧ w.missing (l2Of (coreOf u.id)) [] false = none ∧
     checked w (fun _ f slots => decide (slots = [(1, .add 3 1 2 always)]) && decide (fbarOf slots = none) &&
       decide (w.bundleWait false slots = none) && decide (w.bundleNeeds f slots = []) &&
       decide ((w.openBundle f slots none none).bundle.bad = none) &&
       goes (exec (.add 3 1 2 always) { sc [] with bundle := { (sc []).bundle with slot := 1, slots := [] } })) = true) := by
  decide +kernel
theorem test_witness_IssuedSlotsAreTheDecodedWords : checked adding (fun _ f slots =>
    decide (slots = [(1, .add 3 1 2 always)]) && decide (f.words.headD 0 = 2)) = true := by decide +kernel
theorem test_witness_ChecksApplyInOrder :
    let err := fun (f : Fetched) => match bundleCheck Regs.fresh f with
      | .error e => some e
      | .ok _ => none
    let oks := fun (f : Fetched) => match bundleCheck Regs.fresh f with
      | .error _ => none
      | .ok l => some l
    let f := bundle [0x0020, 0x4F80, 0x010C, 0x4810]
    let slots := [(5, (.tshape 1 1 3 1 0 : Instr))]
    err (bundle [0x4000]) = some (15, 1) ∧ oks f = some slots ∧
    ({ Ctx.fresh with sc := 8, hist := { Hist.none with v0 := some 7 } } : Ctx).scheduleCheck slots = some 2 ∧
    Ctx.fresh.scheduleCheck slots = none ∧
    ({ Ctx.fresh with clusters := .replicate 4 .asleep } : Ctx).sleepCheck slots = some (5, 1) ∧
    Ctx.fresh.sleepCheck slots = none ∧
    (({ Ctx.fresh with sys := { Sys.fresh with checkmode := true }, flight := [⟨9, 3, 0, [.s 1 7], 0⟩] } : Ctx).earlyCheck
      [(1, .add 3 1 2 always)] = some (1, .s 1)) ∧
    Ctx.fresh.earlyCheck slots = none := by decide +kernel
theorem test_witness_ABundleClosesWithTheEndCheck :
    let s := sc []
    let skip := inMem s [(0x40003E, 2, 0xFFFE)]
    s.bundle.isOpen = true ∧ s.bundle.exit = none ∧ s.bundle.eret = false ∧ s.bundle.soft = none ∧ s.bundle.yields = false ∧
    s.c.pbuf.length ≤ 0x8000 ∧ ((0x40003E : VAddr) ≠ (level 4 2).fin ∧ s.onlySkips 0x40003E (level 4 2).fin = false) ∧
    (level 4 2).index.toNat + 1 < (level 4 2).count.toNat ∧ (level 4 3).count.toNat ≤ (level 4 3).index.toNat + 1 ∧
    skip.onlySkips 0x40003E (level 4 2).fin = true := by decide +kernel
theorem test_witness_EveryStepKeepsTheInvariant : Memory.wf adding.mem = true ∧ adding.bundle.isOpen = false ∧
    goes (step adding) = true := by decide +kernel
/-- R18, R347: of a queue that is not present the command processor starts no entry, and the machine goes on. -/
theorem test_absent_queue :
    let t : State := { sc [] with sched := { Sched.fresh with queues := Sched.fresh.queues.set 3 far } }
    goes (exec .nopPacket { t with move := Move.ctx 3 0 }) = true := by decide +kernel
theorem test_witness_AFalseGuardCommitsNothing : (encode (.add 3 1 2 ⟨1, false⟩)).isSome = true ∧
    (sc []).view.guard (Instr.add 3 1 2 ⟨1, false⟩).guard = false := by decide +kernel

/-! ## Vector instructions: results worked by hand from R164 to R186 -/

/-- 1.0 2.0 beside 3.0 -1.0. -/
def ab : State := ts [(1, til .f32 [[0x3F800000, 0x40000000]]), (2, til .f32 [[0x40400000, 0xBF800000]]), (3, til .f32 [[0, 0]])]

theorem test_tadd : row (exec (.tadd 3 ⟨1, 0⟩ ⟨2, 1⟩ plain) ab) 3 0 3 = [0x40800000, 0x3F800000, 0] ∧
    row (exec (.tsub 3 ⟨1, 0⟩ ⟨2, 1⟩ plain) ab) 3 0 2 = [0xC0000000, 0x40400000] ∧
    row (exec (.tmul 3 ⟨1, 0⟩ ⟨2, 1⟩ plain) ab) 3 0 2 = [0x40400000, 0xC0000000] := by decide +kernel
theorem test_tmax : row (exec (.tmax 3 ⟨1, 0⟩ ⟨2, 1⟩ plain) ab) 3 0 2 = [0x40400000, 0x40000000] ∧
    row (exec (.tmin 3 ⟨1, 0⟩ ⟨2, 1⟩ plain) ab) 3 0 2 = [0x3F800000, 0xBF800000] := by decide +kernel
theorem test_tfma : row (exec (.tfma 3 ⟨1, 0⟩ ⟨2, 1⟩ ⟨1, 2⟩ plain) ab) 3 0 2 = [0x40800000, 0] ∧
    (let s := run { withTiles (regs [(5, 0x40000000)]) [(1, til .f32 [[0x3F800000]]), (3, til .f32 [[0x40400000]])] with p := 1 }
     row (exec (.tadds 3 ⟨1, 0⟩ 5 plain) s) 3 0 1 = [0x40400000] ∧ row (exec (.tmuls 3 ⟨1, 0⟩ 5 plain) s) 3 0 1 = [0x40000000] ∧
     row (exec (.tfmas 3 ⟨1, 0⟩ 5 plain) s) 3 0 1 = [0x40A00000]) := by decide +kernel
/-- R175: 1.5 as BF16 is 0x3FC0. -/
theorem test_tcvt : (let s := ts [(1, til .bf16 [[0x3FC0]]), (2, til .f32 [[0]])]
    row (exec (.tcvt 2 ⟨1, 0⟩ plain) s) 2 0 1 = [0x3FC00000] ∧ row (exec (.tcvt 1 ⟨2, 0⟩ plain) s) 1 0 1 = [0]) := by decide +kernel
theorem test_tcmp : ((after (exec (.tcmp 2 ⟨1, 0⟩ ⟨2, 1⟩ 2 plain) ab)).c.regs.kget 2).at 0 0 = true ∧
    ((after (exec (.tcmp 2 ⟨1, 0⟩ ⟨2, 1⟩ 2 plain) ab)).c.regs.kget 2).at 0 1 = false := by decide +kernel
/-- 8-bit integers: 127 + 1 wraps to −128; −1 is 255; the shift amount is taken modulo 8. -/
def ints : State := ts [(1, til .i8 [[127, 0xF0]]), (2, til .i8 [[1, 9]]), (3, til .i8 [[0, 0]])]
theorem test_integers : row (exec (.tiadd 3 ⟨1, 0⟩ ⟨2, 1⟩ plain) ints) 3 0 2 = [0x80, 0xF9] ∧
    row (exec (.tisub 3 ⟨1, 0⟩ ⟨2, 1⟩ plain) ints) 3 0 2 = [126, 0xE7] ∧
    row (exec (.timul 3 ⟨1, 0⟩ ⟨2, 1⟩ plain) ints) 3 0 2 = [127, 0x70] ∧
    row (exec (.timax 3 ⟨1, 0⟩ ⟨2, 1⟩ plain) ints) 3 0 2 = [127, 9] ∧
    row (exec (.timin 3 ⟨1, 0⟩ ⟨2, 1⟩ plain) ints) 3 0 2 = [1, 0xF0] := by decide +kernel
theorem test_bits : row (exec (.tand 3 ⟨1, 0⟩ ⟨2, 1⟩ plain) ints) 3 0 2 = [1, 0] ∧
    row (exec (.tor 3 ⟨1, 0⟩ ⟨2, 1⟩ plain) ints) 3 0 2 = [127, 0xF9] ∧
    row (exec (.txor 3 ⟨1, 0⟩ ⟨2, 1⟩ plain) ints) 3 0 2 = [126, 0xF9] ∧
    row (exec (.tshl 3 ⟨1, 0⟩ ⟨2, 1⟩ plain) ints) 3 0 2 = [0xFE, 0xE0] ∧
    row (exec (.tshr 3 ⟨1, 0⟩ ⟨2, 1⟩ plain) ints) 3 0 2 = [63, 0xF8] := by decide +kernel
theorem test_signs : row (exec (.tabs 3 ⟨1, 0⟩ plain) ints) 3 0 2 = [127, 16] ∧
    row (exec (.tneg 3 ⟨2, 0⟩ plain) ab) 3 0 2 = [0xC0400000, 0x3F800000] := by decide +kernel

/-- One row of four columns. -/
def four : State := ts [(1, til .i32 [[10, 11, 12, 13], [20, 21, 22, 23]]), (3, til .i32 [[0, 0, 0, 0], [0, 0, 0, 0]])]
theorem test_tmov : row (exec (.tmov 3 ⟨1, 0⟩ plain) four) 3 1 4 = [20, 21, 22, 23] ∧
    row (exec (.tsel 3 ⟨1, 0⟩ ⟨3, 1⟩ ⟨31, 1, 0⟩) four) 3 1 4 = [0, 0, 0, 0] := by decide +kernel
/-- R182: amounts of −1 and 1; a broadcast of column or row 2 and 1. -/
theorem test_rotations :
    let s := run (withTiles (regs [(5, -1)]) [(1, til .i32 [[10, 11, 12, 13], [20, 21, 22, 23]]), (3, til .i32 [[0, 0, 0, 0], [0, 0, 0, 0]])])
    row (exec (.rrot 3 ⟨1, 0⟩ 5 0 plain) s) 3 0 4 = [13, 10, 11, 12] ∧ row (exec (.crot 3 ⟨1, 0⟩ 0 1 plain) s) 3 0 4 = [20, 21, 22, 23] ∧
    row (exec (.rbc 3 ⟨1, 0⟩ 0 2 plain) s) 3 1 4 = [22, 22, 22, 22] ∧ row (exec (.cbc 3 ⟨1, 0⟩ 5 2 plain) s) 3 0 4 = [20, 21, 22, 23] := by
  decide +kernel
theorem test_rowmov : row (exec (.rowmov 3 0 ⟨1, 0⟩ 1 31 0) four) 3 0 4 = [20, 21, 22, 23] ∧
    row (exec (.rowmov 3 0 ⟨1, 0⟩ 1 31 0) four) 3 1 4 = [0, 0, 0, 0] := by decide +kernel
theorem test_fills :
    let s := run (withTiles (regs [(5, 0x3F800000), (6, 300)]) [(1, til .bf16 [[0, 0]]), (2, til .i8 [[0, 0]])])
    row (exec (.tfill 1 5 plain) s) 1 0 2 = [0x3F80, 0x3F80] ∧ row (exec (.tfill 2 6 plain) s) 2 0 2 = [127, 127] ∧
    row (exec (.tfilli 1 0x4000 plain) s) 1 0 2 = [0x4000, 0x4000] ∧ row (exec (.tiota 2 0 3 plain) s) 2 0 2 = [3, 4] := by decide +kernel
theorem test_tget_tset :
    let s := run (withTiles (regs [(5, 0x40000000)]) [(1, til .i8 [[0xFF, 0]]), (2, til .bf16 [[0x3F80, 0]])])
    sAfter (exec (.tget 7 ⟨1, 0⟩ 0 0 31 0) s) 7 = -1 ∧ sAfter (exec (.tget 7 ⟨2, 0⟩ 0 0 31 0) s) 7 = 0x3F800000 ∧
    row (exec (.tset 2 0 1 5 31 0) s) 2 0 2 = [0x3F80, 0x4000] := by decide +kernel
/-- R166's example: a reinterpretation keeps the bits; with a row scale attached it faults 0x08. -/
theorem test_tshape :
    ((after (exec (.tshape 3 1 3 1 0) four)).c.regs.t.get 3).ty = .bf16 ∧
    ends (exec (.tshape 3 15 63 1 0) (ts [(3, { til .f32 [[0x3F804000]] with lat := factor })])) = some 0x2000800 := by decide +kernel
theorem test_reductions : row (exec (.rred 3 ⟨1, 0⟩ 0 plain) ab) 3 0 1 = [0x40400000] ∧
    row (exec (.rred 3 ⟨2, 0⟩ 4 plain) ab) 3 0 1 = [0x41200000] ∧ row (exec (.cred 3 ⟨2, 0⟩ 3 plain) ab) 3 0 2 = [0x40400000, 0x3F800000] ∧
    row (exec (.rscan 3 ⟨1, 0⟩ 0 plain) ab) 3 0 2 = [0x3F800000, 0x40400000] ∧
    row (exec (.rscan 3 ⟨1, 0⟩ 1 plain) ab) 3 0 2 = [0, 0x3F800000] := by decide +kernel
/-- R186: shapes differ, and containers differ at element (0, 1). -/
theorem test_tchk : ends (exec (.tchk ⟨1, 0⟩ ⟨2, 1⟩ 31 0) ab) = some 0x2000900 ∧ ends (exec (.tchk ⟨1, 0⟩ ⟨1, 1⟩ 31 0) ab) = none := by
  decide +kernel

/-! ### Operands that meet the hypotheses of the statements about landings, numbers and vector instructions -/

/-- Two advances of a1 that would land at one cycle from different bundles, and one from the same bundle. -/
def step1 (seq : Nat) : Landing := ⟨6, 2, seq, [.a 1 5, .ctr 1 1 Gen.fresh.ctr false], 0⟩
theorem test_witness_ResultsLandInOrder :
    (decide ((⟨3, 1, 0, [.s 1 5], 0⟩ : Landing).before ⟨4, 1, 0, [.s 1 6], 0⟩ = true)) = true ∧
    ((step1 4).due = (step1 5).due ∧ (step1 4).seq ≠ (step1 5).seq ∧ 1 ∈ (step1 4).advances ∧ 1 ∈ (step1 5).advances) ∧
    ((step1 4).seq = (step1 4).seq ∧ 2 ∉ (step1 5).advances) := by decide +kernel
theorem test_witness_ResultsInOrder : InOrder [⟨3, 1, 0, [.s 1 5], 0⟩, ⟨4, 1, 0, [.s 1 6], 0⟩] := by
  unfold InOrder
  exact .cons (by simp only [List.mem_singleton, forall_eq]; decide +kernel) (List.pairwise_singleton _ _)
theorem test_witness_ALandingWritesItsDestinationAlone :
    let c := Ctx.fresh
    let b : Ctx := { c with loads := [⟨1, 0, none, [], none⟩] }
    let z : Ctx := { c with clusters := .replicate 4 .asleep }
    c.sBusy 1 = false ∧ b.sBusy 1 = true ∧ (1 : BitVec 7) ≠ 0 ∧ (1 : BitVec 7).toNat ≤ 0x15 ∧ (0x15 : BitVec 7).toNat ≤ 0x15 ∧
    c.asleep (.t 31) = false ∧ c.asleep (.c 7) = false ∧ z.asleep (.t 31) = true ∧
    ((c.regs.lv.get 3).pend = 0 ∧ ({ LatVec.fresh with pend := 1, closing := true } : LatVec).pend ≠ 0 ∧
      ({ LatVec.fresh with pend := 2 } : LatVec).pend ≠ 1 ∧ 0 < ({ LatVec.fresh with pend := 2 } : LatVec).pend) ∧
    (let q : Cmd := { (sc []).bareCmd 0x10 with flags := 8, dstReg := 3 }
     q.op = 0x10 ∧ q.latent = true ∧ q.lv = 3) := by decide +kernel
theorem test_witness_ExactArithmetic : Machine.Num.default.isNaN = true ∧ (Machine.Num.inf true).isNaN = false ∧
    Machine.Num.default.isSNaN = false ∧ (Machine.Num.nan false true 1).isSNaN = true ∧ (3 : Rat) ≠ 0 ∧
    (Machine.Num.zero true = .zero true ∧ Machine.Num.inf false = .inf false) := by decide +kernel
/-- Lists with a NaN, with both infinities, with one, and finite ones of a total that is not zero and of one that is. -/
theorem test_witness_ExactArithmetic_lists :
    let xs : List Machine.Num := [.fin 1, .fin (-1), .zero true]
    (∃ k ∈ [Machine.Num.default], k.isNaN = true) ∧ (∀ k ∈ xs, k.isNaN = false) ∧
    (Machine.Num.inf false ∈ [Machine.Num.inf false, .inf true] ∧ Machine.Num.inf true ∈ [Machine.Num.inf false, .inf true]) ∧
    (Machine.Num.inf false ∉ xs ∧ Machine.Num.inf true ∉ xs) ∧ (xs.map Machine.Num.rat).sum = 0 ∧
    ([Machine.Num.fin 1].map Machine.Num.rat).sum ≠ 0 ∧ xs ≠ [] := by decide +kernel
/-- A rational in FP32's range, one below its smallest normal value and one beyond its largest; integers beyond a range, within
it and below. -/
theorem test_witness_RoundingAndStoredValues_range :
    (Rec.f32 .rne).e = 0 ∧ (5 / 2 : Rat) ≠ 0 ∧ (2 : Rat) ^ (1 : Int) ≤ 5 / 2 ∧ (5 / 2 : Rat) < 2 ^ (2 : Int) ∧
    (1 / 2 ^ 126 : Rat) ≤ 5 / 2 ∧ (5 / 2 : Rat) ≤ ((Rec.f32 .rne).decode 0x7F7FFFFF).rat ∧
    (2 : Rat) ^ (-127 : Int) < 1 / 2 ^ 126 ∧ ((Rec.f32 .rne).decode 0x7F7FFFFF).rat < 2 ^ (128 : Int) ∧
    ((-8 : Int) ≤ 7 ∧ (7 : Int) < 9 ∧ (-9 : Int) < -8 ∧ (-8 : Int) ≤ 0) := by decide +kernel
theorem test_witness_RoundingAndStoredValues : (0 : Rat) ≤ 5 / 2 ∧ (5 : Rat) = (5 : Nat) ∧
    ElemTy.bf16.fmt = some ⟨7, 8, 127, true⟩ ∧ (Rec.bf16 .rup).ty = .bf16 ∧ (Rec.bf16 .rup).e = 0 ∧
    (0x7F7F : BitVec 32).toNat < 2 ^ ElemTy.bf16.width ∧ ((Rec.bf16 .rup).decode 0x7F7F).isNaN = false ∧
    ((Rec.bf16 .rup).decode 0x7F7F).isInf = false ∧
    |(5 / 2 : Rat) - roundMag .rne false (5 / 2)| = |(5 / 2 : Rat) - (3 : Nat)| ∧ 3 ≠ roundMag .rne false (5 / 2) := by decide +kernel
/-- The four outcomes of a syllable with a tile result: a marked tile, a type against factors, factors that do not commute,
and a result. -/
theorem test_witness_TileOutcome :
    let m := ts [(1, { til .f32 [[0]] with invalid := true }), (2, { til .f32 [[0]] with lat := factor })]
    m.view.marks [.t 1] = some (0x06, 1) ∧ m.view.marks [.t 2, .t 3] = none ∧
    (ElemTy.f32 ≠ .bf16 ∧ (m.view.t.get 2).lat.isId = false) ∧ ¬(ElemTy.f32 ≠ .f32 ∧ (m.view.t.get 2).lat.isId = false) ∧
    (match (⟨.same, .ident, .same, .ident⟩ : Row).run Machine.Lat.id [(2, factor), (3, Machine.Lat.id)] with
      | .error _ => true
      | .ok _ => false) = true ∧
    (match (⟨.same, .ident, .same, .ident⟩ : Row).run Machine.Lat.id [(2, factor), (3, factor)] with
      | .error _ => false
      | .ok l => decide (l = factor)) = true := by decide +kernel
theorem test_witness_FloatVectorResults : ab.view.pget plain.p = true := by decide +kernel
/-- A row of the tile's and one beyond it, for marked sources and for those with no factor. -/
theorem test_witness_MoveResults : four.view.pget plain.p = true ∧ (1 : Fin 16).val ≤ (four.view.t.get 3).rows.val ∧
    ¬((2 : Fin 16).val ≤ (four.view.t.get 3).rows.val) ∧ four.view.marks [.t 1] = none ∧
    ((match (⟨.identKeep, .identKeep, .sameKeep, .sameKeep⟩ : Row).run Machine.Lat.id [(1, factor)] with
      | .error _ => true
      | .ok _ => false) = true) ∧
    (ts [(1, { til .i32 [[0]] with invalid := true })]).view.marks [.t 1] = some (0x06, 1) := by decide +kernel
/-- R179, R181: a row or an element that td does not have takes nothing, and nothing lands. -/
theorem test_row_outside : leaves (exec (.rowmov 3 2 ⟨1, 0⟩ 1 31 0) four) (fun t => t.c.flight.map (·.writes) == [[]]) ∧
    leaves (exec (.tset 3 0 4 5 31 0) four) (fun t => t.c.flight.map (·.writes) == [[]]) := by decide +kernel
theorem test_witness_IntegerVectorResults : ints.view.pget plain.p = true := by decide +kernel
theorem test_witness_FillResults :
    let s := ts [(1, til .i8 [[0xFF, 0]]), (2, til .bf16 [[0x3F80, 0]]), (3, { til .f32 [[0]] with lat := factor })]
    let same := fun (t : TReg) (rows : BitVec 4) (cols : BitVec 6) (ty : ElemTy) =>
      (s.view.t.get t).rows.val = rows.toNat ∧ (s.view.t.get t).cols.val = cols.toNat ∧ (s.view.t.get t).ty = ty
    s.view.pget plain.p = true ∧ (2 : BitVec 2) ≠ 3 ∧
    ((s.view.t.get 1).invalid = false ∧ (s.view.t.get 1).poison = none ∧ (s.view.t.get 1).lat.isId = true) ∧
    (s.view.record 31 (s.view.t.get 1).ty).ty.isInt = true ∧ (s.view.record 31 (s.view.t.get 2).ty).ty.isInt = false ∧
    (s.view.t.get 1).lat.isId = true ∧ same 3 0 0 .f32 ∧ (s.view.t.get 3).lat.isId = false ∧ ¬same 3 0 1 .f32 ∧
    ((0 : Fin 16).val ≤ (s.view.t.get 1).rows.val ∧ (1 : Fin 64).val ≤ (s.view.t.get 1).cols.val) ∧
    ¬((2 : Fin 64).val ≤ (s.view.t.get 1).cols.val) := by decide +kernel
theorem test_witness_ReductionResults :
    let A := ab.view.t.get 1
    let B := ab.view.t.get 2
    ab.view.pget plain.p = true ∧ A.invalid = false ∧ A.poison = none ∧ B.invalid = false ∧ B.poison = none ∧
    A.lat.isId = true ∧ B.lat.isId = true ∧ (A.cols ≠ (til .f32 [[0]]).cols) ∧
    ¬(A.rows ≠ A.rows ∨ A.cols ≠ A.cols ∨ A.ty ≠ A.ty ∨ A.lat.same A.lat = false) ∧
    ((0 : Fin 16) ≤ A.rows ∧ (1 : Fin 64) ≤ A.cols) := by decide +kernel
/-- R186: two tiles alike but at element (0, 1). -/
def unlike : State := ts [(1, til .f32 [[5, 6]]), (2, til .f32 [[5, 7]])]
theorem test_tchk_element : leaves (exec (.tchk ⟨1, 0⟩ ⟨2, 1⟩ 31 0) (handler unlike)) (fun t =>
    t.c.sys.tcause == 9 && t.c.sys.tval == 0x0000000100000001) := by decide +kernel
theorem test_witness_ReductionResults_element :
    let A := unlike.view.t.get 1
    let B := unlike.view.t.get 2
    ¬(A.rows ≠ B.rows ∨ A.cols ≠ B.cols ∨ A.ty ≠ B.ty ∨ A.lat.same B.lat = false) ∧ (1 : Fin 64).val ≤ A.cols.val ∧
    (A.cells.at 0 0).toNat % 2 ^ 32 = (B.cells.at 0 0).toNat % 2 ^ 32 ∧ (A.cells.at 0 1).toNat % 2 ^ 32 ≠ (B.cells.at 0 1).toNat % 2 ^ 32 := by
  decide +kernel

/-! ## Addresses and memory: results worked by hand from R124 to R160 -/

/-- Registers with some address registers. -/
def withAddr (r : Regs) (l : List (AReg × Word)) : Regs := l.foldl (fun r e => { r with a := r.a.set e.1 e.2 }) r

/-- A state with address register a1, and some memory. -/
def at1 (a : Word) (l : List (Nat × Nat × Nat)) : State := inMem (run (withAddr (regs [(5, 0x1122334455667788)]) [(1, a)])) l

/-- The value of a1 that a step leaves. -/
def aAfter (o : Out) (d : AReg) : Word := (after o).c.regs.a.get d

/-- A descriptor of one dimension: step 16, four elements; CTRL with no indirect dimension. -/
def gen1 : Gen := { Gen.fresh with step := Gen.fresh.step.set 0 16, count := Gen.fresh.count.set 0 4 }

/-- A state with descriptor 1. -/
def desc (g : Gen) : State :=
  inMem (run { withAddr (regs [(5, 2)]) [(1, 0x1000)] with ag := Regs.fresh.ag.set 1 g }) [(0x200000000108, 4, 0xFFFFFFFE)]

theorem test_address : aAfter (exec (.amov 2 1 always) (at1 7 [])) 2 = 7 ∧ aAfter (exec (.aadd 2 1 5 always) (at1 1 [])) 2 = 0x1122334455667789 ∧
    aAfter (exec (.aaddi 1 (-1)) (at1 0 [])) 1 = -1 ∧ sAfter (exec (.ard 3 1 always) (at1 9 [])) 3 = 9 ∧
    sAfter (exec (.agrd 3 1 1 always) (desc gen1)) 3 = 16 ∧
    ((after (exec (.agset 1 5 0x0E always) (at1 0 []))).c.regs.ag.get 1).ctrl = 0x88 := by decide +kernel
/-- R128: from counter 3 of 4 the advance wraps, back by 48; R129: a counter at its count is reason 2. -/
theorem test_ainc : aAfter (exec (.ainc 1 1 always) (desc gen1)) 1 = 0x1010 ∧
    aAfter (exec (.ainc 1 1 always) (desc { gen1 with ctr := gen1.ctr.set 0 3 })) 1 = 0x0FD0 ∧
    ends (exec (.ainc 1 1 always) (desc { gen1 with ctr := gen1.ctr.set 0 4 })) = some 0x2000C00 := by decide +kernel
/-- R133: entry 2 of the table at offset 0x100 is −2; ISCALE 8. -/
theorem test_aidx : aAfter (exec (.aidx 2 1 5 always) (desc { gen1 with ctrl := 0, itab := 0x100, iscale := 8 })) 2 = 0x0FF0 ∧
    ends (exec (.aidx 2 1 5 always) (desc gen1)) = some 0x2000C00 := by decide +kernel
/-- R134: a local load of 16 signed bits at offset 2 of scratchpad, and a misaligned one. -/
theorem test_ld : sAfter (exec (.ld 3 ⟨1, always, 1, true, false, 1⟩ true) (at1 0 [(0x200000000002, 2, 0xFFFE)])) 3 = -2 ∧
    sAfter (exec (.ld 3 ⟨1, always, 1, true, false, 1⟩ false) (at1 0 [(0x200000000002, 2, 0xFFFE)])) 3 = 0xFFFE ∧
    ends (exec (.ld 3 ⟨1, always, 1, true, false, 0⟩ false) (at1 1 [])) = some 0x2000A00 ∧
    leaves (exec (.ld 3 ⟨1, always, 2, false, false, 0⟩ false) (at1 0x400100 [(0x400100, 4, 77)])) (fun t =>
      t.c.loads.map (fun l => (l.dst, l.val)) == [(3, 77)]) := by decide +kernel
theorem test_st : leaves (exec (.st ⟨1, always, 2, true, false, 0⟩ 5) (at1 0x100 [])) (fun t =>
      memRead t.mem 0x200000000100 8 == 0x55667788) ∧
    leaves (exec (.st ⟨1, always, 0, false, false, 0⟩ 5) (at1 0x400100 [])) (fun t =>
      t.c.pbuf == [⟨0x400100, 0x88, 0⟩] && memGet t.mem 0x400100 == 0) ∧
    leaves (exec (.pref ⟨1, always, 0, false, false, 0⟩) (at1 0x400100 [])) (fun t => (t.core 0).tlb.length == 1) := by decide +kernel

/-- A 2 × 2 tile of 16-bit integers in t2 with a row pitch of 64 bytes, its base in a1. -/
def tileAt (a : Word) (l : List (Nat × Nat × Nat)) : State :=
  inMem (run { withAddr (withTiles Regs.fresh [(2, til .i16 [[1, 0xFFFF], [3, 4]])]) [(1, a)] with
    ag := Regs.fresh.ag.set 1 { Gen.fresh with pitch := 64 } }) l

/-- The operand of the tile accesses: through a1, the tile's own type, no post-increment. -/
def tm : TMem := ⟨1, 31, false, always⟩

theorem test_tldl : row (exec (.tldl 2 tm false) (tileAt 0x80 [(0x200000000080, 4, 0x00060005), (0x2000000000C0, 4, 0x00080007)])) 2 1 2
    = [7, 8] ∧ ends (exec (.tldl 2 tm false) (tileAt 0x81 [])) = some 0x2000A00 := by decide +kernel
theorem test_tstl : leaves (exec (.tstl 2 tm false 0) (tileAt 0x80 [])) (fun t =>
      memRead t.mem 0x200000000080 8 == 0xFFFF0001 && memRead t.mem 0x2000000000C0 4 == 0x00040003) ∧
    ends (exec (.tstl 2 tm false 0) (tileAt 0x1FFFFC [])) = some 0x2000B00 := by decide +kernel
theorem test_tld : leaves (exec (.tld 2 tm) (tileAt 0x400080 [(0x400080, 4, 0x00060005), (0x4000C0, 4, 0x00080007)])) (fun t =>
      t.c.tloads.map (fun l => (l.t, l.vals.at 0 1, l.vals.at 1 0)) == [(2, 6, 7)]) ∧
    leaves (exec (.tst 2 tm 0) (tileAt 0x400080 [])) (fun t => t.c.pbuf.map (fun e => (e.addr, e.val)) ==
      [(0x400080, 1), (0x400081, 0), (0x400082, 0xFF), (0x400083, 0xFF), (0x4000C0, 3), (0x4000C1, 0), (0x4000C2, 4), (0x4000C3, 0)]) := by
  decide +kernel

/-- One silo slot, with a tile spilled into it. -/
def silo1 : State := withC (tileAt 0 []) fun c => { c with siloSlots := 1 }
theorem test_silo : leaves (exec (.spill (.t 2) 0 always 0) silo1) (fun t =>
      t.c.silo.get 0 == some ⟨false, til .i16 [[1, 0xFFFF], [3, 4]]⟩) ∧
    ends (exec (.spill (.t 2) 1 always 0) silo1) = some 0x2000C00 ∧
    leaves (exec (.fill (.c 1) 0 always) silo1) (fun t => t.c.fills == [⟨.c 1, none⟩]) := by decide +kernel

/-- Three operations outstanding. -/
def outstanding : State := withC (moved (tileAt 0 []) (Move.ctx 0 0)) fun c =>
  { c with
    loads := [⟨3, 77, none, [0x8000], none⟩, ⟨4, 78, some 0x400000, [], none⟩]
    tloads := [⟨2, .i16, Mask.zero, Grid.zero, false, none, [0x8000], none⟩]
    fills := [⟨.t 2, some ⟨false, til .f32 [[9]]⟩⟩, ⟨.t 2, none⟩] }
theorem test_loads_complete : leaves (exec .globalLoadComplete outstanding) (fun t => t.c.regs.sget 3 == 77 && t.c.loads.length == 1) ∧
    leaves (exec .fillComplete outstanding) (fun t => (t.c.regs.t.get 2).cells.at 0 0 == 9) ∧
    leaves (exec .tileLoadComplete outstanding) (fun t => t.c.tloads == []) := by decide +kernel

/-! ### The crossbar and the special functions -/

/-- A row of 64 columns numbered. -/
def across : State := ts [(1, til .i32 [List.range 64]), (3, til .i32 [List.range 64])]
theorem test_xbar : row (exec (.xshuf 3 ⟨1, 0⟩ 0 0) across) 3 0 3 = [63, 62, 61] ∧ row (exec (.xshuf 3 ⟨1, 0⟩ 1 0) across) 3 0 4 = [0, 32, 1, 33] ∧
    row (exec (.xshuf 3 ⟨1, 0⟩ 2 0) across) 3 0 3 = [0, 2, 4] ∧ row (exec (.xshuf 3 ⟨1, 0⟩ 3 2) across) 3 0 5 = [4, 5, 6, 7, 0] ∧
    row (exec (.xbrev 3 ⟨1, 0⟩) across) 3 0 3 = [0, 32, 16] ∧ row (exec (.xtrn 3 ⟨1, 0⟩) across) 3 0 4 = [0, 0, 0, 0] := by decide +kernel
theorem test_xperm : row (exec (.xperm 3 ⟨1, 0⟩ 1) across) 3 0 3 = [0, 1, 2] ∧
    ((after (exec (.xpld 1 ⟨1, 0⟩ 0) across)).c.regs.xp.get 1).get 5 = 5 := by decide +kernel
/-- R198: exact images: 2^3, log2 of 8, 1/4, 1/√4, √4, and the functions of 0. -/
theorem test_sfu :
    let s := ts [(1, til .f32 [[0x40400000, 0x41000000, 0x40800000, 0]]), (3, til .f32 [[0, 0, 0, 0]])]
    row (exec (.fexp2 3 ⟨1, 0⟩ plain) s) 3 0 1 = [0x41000000] ∧ (row (exec (.flog2 3 ⟨1, 0⟩ plain) s) 3 0 2).getD 1 0 = 0x40400000 ∧
    (row (exec (.frcp 3 ⟨1, 0⟩ plain) s) 3 0 3).getD 2 0 = 0x3E800000 ∧ (row (exec (.frsqrt 3 ⟨1, 0⟩ plain) s) 3 0 3).getD 2 0 = 0x3F000000 ∧
    (row (exec (.fsqrt 3 ⟨1, 0⟩ plain) s) 3 0 3).getD 2 0 = 0x40000000 := by decide +kernel
theorem test_sfu_zero :
    let s := ts [(1, til .f32 [[0]]), (3, til .f32 [[7]])]
    row (exec (.ftanh 3 ⟨1, 0⟩ plain) s) 3 0 1 = [0] ∧ row (exec (.fsigm 3 ⟨1, 0⟩ plain) s) 3 0 1 = [0x3F000000] ∧
    row (exec (.fexp 3 ⟨1, 0⟩ plain) s) 3 0 1 = [0x3F800000] ∧ row (exec (.fsin 3 ⟨1, 0⟩ plain) s) 3 0 1 = [0] ∧
    row (exec (.fcos 3 ⟨1, 0⟩ plain) s) 3 0 1 = [0x3F800000] := by decide +kernel

/-! ### Operands that meet the hypotheses of the statements about addresses, memory, the crossbar and the special functions -/

/-- An advance that succeeds. -/
def advances (s : State) (a : AReg) : Option Nat :=
  match (s.advance (s.gv a) (s.av a)).1 with
  | .ok _ => none
  | .error n => some n

theorem test_witness_AddressRegisterResults : (at1 7 []).view.guard always = true := by decide +kernel
/-- Each reason of R129 at a boundary, and each of the clauses of AIDX. -/
theorem test_witness_DescriptorsAreChecked :
    let bad := fun (g : Gen) => g.bad
    let ind : Gen := { gen1 with ctrl := 0 }
    (desc gen1).view.guard always = true ∧ bad { gen1 with ctrl := 0x40 } = some 1 ∧ bad { gen1 with ctrl := 0x10 } = some 1 ∧
    bad { gen1 with ctr := gen1.ctr.set 0 4 } = some 2 ∧ bad { gen1 with ctrl := 0x71 } = some 3 ∧
    bad { gen1 with ctrl := 0x73, modLen := 6 } = some 4 ∧ bad { gen1 with ctrl := 0x72, count := gen1.count.set 0 3 } = some 5 ∧
    bad { gen1 with ctrl := 0x02 } = some 5 ∧ bad gen1 = none ∧ bad ind = none ∧
    advances (desc gen1) 1 = none ∧ advances (desc { ind with itab := 1 }) 1 = some 6 ∧
    gen1.ctrl.toNat / 16 % 8 = 7 ∧ ind.ctrl.toNat / 16 % 8 = 0 ∧ (4 ≤ 4 ∧ ind.countOf 0 = 4) ∧ (3 < ind.countOf 0) ∧
    (0x1FFFFC < 0x1FFFF8 + 4 * 2 ∧ 0x1FFFF4 + 4 * 2 ≤ 0x1FFFFC) := by decide +kernel
theorem test_witness_Quiet : (desc { gen1 with ctrl := 0 }).Quiet := by
  unfold State.Quiet
  decide +kernel
theorem test_witness_AnAdvanceCountsAndMoves : gen1.bad = none ∧ gen1.ctrl.toNat / 16 % 8 = 7 ∧ gen1.ctrl.toNat % 4 = 0 ∧
    ({ gen1 with ctrl := 0x71, modLen := 32 } : Gen).bad = none ∧ ({ gen1 with ctrl := 0x72 } : Gen).bad = none ∧
    ({ gen1 with ctrl := 0x73, modLen := 32 } : Gen).bad = none := by decide +kernel
/-- Each check at a boundary, and an access of each kind that passes them, with a post-increment and without. -/
theorem test_witness_ScalarAccesses :
    let s := at1 0x400100 [(0x400100, 4, 77)]
    let d := desc gen1
    let e := desc { gen1 with ctr := gen1.ctr.set 0 4 }
    let span := fun (a : Word) (acc : Access) (n : Nat) => s.checkSpan (some 0) s.c.region s.c.isSup acc a.toNat n
    s.view.guard always = true ∧ (0x400101 : Word).toNat % 2 ≠ 0 ∧ (0x400100 : Word).toNat % 8 = 0 ∧ 0x200000 ≤ (0x200000 : Word).toNat ∧
    span 0x400100 .read 8 = none ∧ span 0x400100 .write 8 = none ∧ span 0x600000 .read 8 ≠ none ∧ span 0x600000 .write 8 ≠ none ∧
    (0x1FFFF8 : Word).toNat < 0x200000 ∧ advances e 1 = some 2 ∧ advances d 1 = none ∧ s.c.stale = [] ∧ s.c.unjoined = [] ∧
    s.bundle.pbuf = [] ∧ s.translate (some 0) s.c.region (0x400100 % 2 ^ 48) .read false = .ok 0x400100 ∧
    s.translate (some 0) s.c.region (0x400100 % 2 ^ 48) .write false = .ok 0x400100 ∧ plainPlace (s.place 0x400107) = true ∧
    s.c.atomics = [] ∧ Memory.wf s.mem = true ∧ Memory.wf d.mem = true ∧ Memory.wf e.mem = true := by decide +kernel
theorem test_witness_TileAccesses :
    let s := tileAt 0x400080 []
    let m : State := ts [(2, { til .i16 [[0]] with invalid := true })]
    let k : State := ts [(2, { til .i16 [[0]] with lat := factor })]
    let span := fun (a : Word) (acc : Access) => s.checkSpan (some 0) s.c.region s.c.isSup acc a.toNat 4
    s.view.guard tm.g = true ∧ m.view.marks [.t 2] = some (0x06, 2) ∧ ((s.view.t.get 2).invalid = false ∧ (s.view.t.get 2).poison = none) ∧
    (¬((s.view.record 31 .i16).ty = .f32 ∨ (k.view.t.get 2).lat.isId = true)) ∧ (s.view.record 31 .i16).ty = .i16 ∧
    (8 ≤ ElemTy.i16.width ∧ (0x81 : Word).toNat % 2 ≠ 0) ∧ (8 ≤ ElemTy.i16.width ∧ (63 : BitVec 32).toInt % 2 ≠ 0) ∧
    ((0x1FFFC0 : Word).toNat + 4 ≤ 0x200000 ∧ 0x200000 < (0x1FFFC0 : Word).toNat + 64 + 4) ∧
    span 0x400080 .read = none ∧ span 0x4000C0 .write = none ∧ span 0x600000 .read ≠ none ∧ span 0x600000 .write ≠ none ∧
    advances (desc { gen1 with ctr := gen1.ctr.set 0 4 }) 1 = some 2 ∧ advances (desc gen1) 1 = none ∧
    (s.c.stale = [] ∧ s.c.unjoined = [] ∧ s.bundle.pbuf = []) ∧
    s.translate (some 0) s.c.region (0x4000C3 % 2 ^ 48) .read false = .ok 0x4000C3 ∧
    s.translate (some 0) s.c.region (0x4000C3 % 2 ^ 48) .write false = .ok 0x4000C3 ∧ plainPlace (s.place 0x4000C3) = true ∧
    (64 + 4 ≥ 4 ∧ (0x80 : Word).toNat + 4 ≤ 0xC0) ∧ s.c.pbuf = [] ∧ s.tok.poison = [] ∧
    Memory.wf s.mem = true ∧ Memory.wf m.mem = true ∧ Memory.wf k.mem = true := by decide +kernel
theorem test_witness_SiloInstructions : silo1.view.guard always = true ∧ silo1.c.siloSlots ≤ (1 : BitVec 6).toNat ∧
    (0 : BitVec 6).toNat < silo1.c.siloSlots ∧
    (let s := ts [(2, { til .i16 [[0]] with invalid := true })]
     (s.view.xget (.t 2)).invalid = true ∧ (s.view.xget (.t 2)).poison = none) ∧ (silo1.view.xget (.t 2)).invalid = false ∧
    (outstanding.ctx outstanding.move.x).fills[outstanding.move.n]? = some ⟨.t 2, some ⟨false, til .f32 [[9]]⟩⟩ ∧
    (false = (match (XReg.t 2) with | .t _ => false | .c _ => true)) ∧
    (outstanding.ctx 0).fills[1]? = some ⟨.t 2, none⟩ := by decide +kernel
/-- A machine in stage 4 with one memory-side die: its L2 holds no token of line 0x8000. -/
def coherentPkg (s : State) : State := { s with pkg := { s.pkg with stage := 4, mdMask := 1 } }
theorem test_witness_LoadsComplete :
    let s := outstanding
    let c := s.ctx s.move.x
    let d : Ctx := { c with atomics := [⟨none, 0, 8, 0x400000, 3, 0, none, none, false, [0x8000], 2⟩] }
    c.loads[s.move.n]? = some ⟨3, 77, none, [0x8000], none⟩ ∧ c.loads[1]? = some ⟨4, 78, some 0x400000, [], none⟩ ∧
    d.awaits 3 [0x400004] = true ∧ c.awaits 3 [0x400004] = false ∧ [[0x400000], [0x400004]].flatten = [0x400000, 0x400004] ∧
    (∀ k ∈ [0x8000], s.canUse (.cd 0) k false = true) ∧ (4 : SReg) ≠ 0 ∧ [0x8000] = [] ++ 0x8000 :: [] ∧
    (coherentPkg s).canUse (.cd 0) 0x8000 false = false ∧
    c.tloads[s.move.n]? = some ⟨2, .i16, Mask.zero, Grid.zero, false, none, [0x8000], none⟩ ∧ Mask.zero ≠ Mask.ones := by decide +kernel
theorem test_witness_CrossbarResults :
    let pat := across.view.xp.get 1
    (∀ j : Fin 64, (pat.get j).toNat < 64 → id (Fin.ofNat 64 (pat.get j).toNat) = j) ∧ (3 : BitVec 3).toNat ≤ 5 ∧
    (∀ (j : Fin 64) (n : Fin 6), (Fin.ofNat 64 (bitRev j.val 6)).val.testBit n = j.val.testBit (5 - n)) ∧
    (ts [(1, { til .i16 [[0]] with invalid := true })]).view.marks [.t 1] = some (0x06, 1) ∧
    (across.view.t.get 1).invalid = false ∧ (across.view.t.get 1).poison = none := by decide +kernel
theorem test_witness_SpecialFunctionResults : across.view.pget plain.p = true ∧ Machine.Num.default.isNaN = true ∧ ((-1 : Rat) < 0) ∧
    ((1000 : Int) ≠ 0 ∧ -1000 ≤ (1000 : Int) ∧ (1000 : Int) ≤ 1000) ∧ ((0 : Rat) < 1 / 2) := by decide +kernel

/-! ## Latent factors, the token tree and the matrix unit: results worked by hand from R225 to R242, R319 to R328 and R204 to R220 -/

/-- A latent vector with one value throughout. -/
def lvOf (v : BitVec 32) : LatVec := { LatVec.fresh with e := .replicate 64 v }

/-- Vector lv0 holds 2.0, lv1 is open, lv2 has failed, lv3 is closing. -/
def lats : State :=
  run { withTiles (regs [(5, 0x40000000)]) [(1, { til .f32 [[0x40400000, 0x3F800000]] with lat := factor }), (2, til .f32 [[0x3F800000, 0x40000000]])] with
    lv := (((Regs.fresh.lv.set 0 (lvOf 0x40000000)).set 1 { lvOf 0 with isOpen := true }).set 2 { lvOf 0 with err := true }).set 3
      { lvOf 0 with isOpen := true, closing := true } }

/-- Whether a step faults its slot with a cause, in a task with a handler; and TVAL. -/
def trapped (o : State → Out) (s : State) : Option (BitVec 8 × Word) :=
  match o (handler s) with
  | .next t => if t.c.isSup then some (t.c.sys.tcause, t.c.sys.tval) else none
  | _ => none

theorem test_tdev : row (exec (.tdev (.t 1) 0 31) lats) 1 0 2 = [0x40C00000, 0x40000000] ∧
    ((after (exec (.tdev (.t 1) 0 31) lats)).c.regs.t.get 1).lat = Machine.Lat.id := by decide +kernel
/-- R242: TLAT t1.rs, lv0.rcp sets the descriptor 0x8100. -/
theorem test_tlat : ((after (exec (.tlat (.t 2) .rs 0 0 false true false false) lats)).c.regs.t.get 2).lat.rs = 0x8100 ∧
    ((after (exec (.tlatc (.t 1) 1) lats)).c.regs.t.get 1).lat = Machine.Lat.id ∧
    sAfter (exec (.tlatq 7 (.t 1) .rs) lats) 7 = 0x8000 := by decide +kernel
/-- R235: a sum over the rows of 1.0 and 2.0; its close with a scale of 2.0. -/
theorem test_lvacc : ((after (exec (.lvacc (.t 2) 0 4 0 false) lats)).c.regs.lv.get 4).e.get 0 = 0x40400000 ∧
    ((after (exec (.lvacc (.t 2) 0 4 0 false) lats)).c.regs.lv.get 4).isOpen = true ∧
    ((after (exec (.lvclose 1 5 true) lats)).c.regs.lv.get 1).isOpen = false ∧
    trapped (exec (.lvclose 0 5 true)) lats = some (0x16, 4) := by decide +kernel
theorem test_lvmov : ((after (exec (.lvmovToVector 4 (.t 2) 0 0) lats)).c.regs.lv.get 4).e.get 1 = 0x40000000 ∧
    row (exec (.lvmovToRow (.t 2) 0 0) lats) 2 0 2 = [0x40000000, 0x40000000] ∧
    ((after (exec (.lvset 4 5 true) lats)).c.regs.lv.get 4).isOpen = true ∧ trapped (exec (.lvmovToRow (.t 2) 0 2)) lats = some (0x16, 0x202) := by
  decide +kernel

theorem test_witness_LatentInstructions :
    let v := fun (n : LvReg) => lats.view.lv.get n
    let X := lats.view.xget (.t 1)
    let Y := lats.view.xget (.t 2)
    (v 3).closing = true ∧ ((v 1).isOpen = true ∧ (v 1).closing = false) ∧ ((v 2).err = true ∧ ¬((v 2).isOpen = true ∧ (v 2).closing = false)) ∧
    (ts [(2, { til .f32 [[0]] with invalid := true })]).view.marks [.t 2] = some (0x06, 2) ∧ (X.invalid = false ∧ X.poison = none) ∧
    X.lat.isId = false ∧ Y.lat.isId = true ∧ (Y.invalid = false ∧ Y.poison = none) ∧ (X.lat.rs.getLsbD 15 = true ∧ 0 = X.lat.rs.toNat % 16) ∧
    (lats.view.record 31 .f32).ty = .f32 ∧ ¬((lats.view.record 0 .f32).ty = .i16) ∧ (v 0).isOpen = false ∧ ¬((v 0).pend > 0 ∨ (v 0).closing = true) ∧
    ((v 3).isOpen = false ∨ (v 3).closing = true) ∧
    (∀ n : Fin 3, ¬((n.val = 1 ∧ (v 0).isOpen = true ∧ (v 0).closing = false) ∨
      (n.val = 2 ∧ ¬((v 0).isOpen = true ∧ (v 0).closing = false) ∧ (v 0).err = true))) ∧
    (.rs : LSlot) = .rs ∧ X.rows.val < (1 : Fin 16).val ∧ (0 : Fin 16).val ≤ X.rows.val := by decide +kernel
/-- R237: a row that the tile does not have takes nothing, and nothing lands. -/
theorem test_lvmov_outside : leaves (exec (.lvmovToRow (.t 2) 1 0) lats) (fun t => t.c.flight.map (·.writes) == [[]]) := by
  decide +kernel
theorem test_witness_DevelopedValues : Machine.Lat.id.isId = true ∧ f32Num ((lvOf 0x40000000).e.get 5) = .fin 2 ∧ (2 : Rat) ≠ 0 ∧
    (3 : Rat) ≠ 0 ∧ (3 : Rat) + 0 + 0 ≠ 0 ∧ [factor.rs, factor.rb, factor.cs, factor.cb].all (fun D => D.getLsbD 15 || D == 0) = true := by
  decide +kernel
theorem test_witness_SourceChecks :
    let r := withTiles Regs.fresh [(1, { til .f32 [[0]] with invalid := true }), (2, { til .f32 [[0]] with poison := some 0x8000 })]
    [XReg.t 3, .c 1].all (fun y => !(r.xget y).invalid && (r.xget y).poison == none) = true ∧ (r.xget (.t 2)).poison = some 0x8000 ∧
    (r.xget (.t 1)).poison = none ∧ (r.xget (.t 1)).invalid = true ∧ (0x8001 : BitVec 16) ≠ 0 ∧ [(0 : BitVec 16), 0].all (· == 0) = true ∧
    [(0x8000 : BitVec 16)].all (· == 0x8000) = true ∧ (0x8001 : BitVec 16) ≠ 0x8000 ∧
    ((0x8001 : BitVec 16).getLsbD 15 = true ∧ (0x8001 : BitVec 16).getLsbD 10 = false) ∧
    ((0x8421 : BitVec 16).getLsbD 15 = true ∧ (0x8421 : BitVec 16).getLsbD 10 = true) := by decide +kernel

/-! ### The token tree -/

/-- The tree with node 1 under the root and node 2 under it. -/
def three : Tree := (Tree.fresh.set 1 ⟨0, true, 1, 7, false⟩).set 2 ⟨1, true, 2, 8, false⟩

/-- A state with that tree, tile t1 naming the parents 0 and 0, t2 of 32-bit integers, t3 of FP32. -/
def treed : State :=
  run { withTiles (regs [(5, 2), (6, 1)])
      [(1, til .i32 [0 :: 0 :: List.replicate 62 0x80000000]), (2, til .i32 [[0, 0, 0], [0, 0, 0]]), (3, til .f32 [[0, 0], [0, 0]])] with tree := three }

/-- The tree that a step leaves. -/
def treeAfter (o : Out) (n : Nat) : Node := Vector.get (after o).c.regs.tree (Fin.ofNat 64 n)

theorem test_tree : treeAfter (exec (.treeclr 0) treed) 1 = ⟨0, false, 0, 0, false⟩ ∧ treeAfter (exec (.treeset ⟨1, 0⟩ 0 0) treed) 1 = ⟨0, true, 1, 7, false⟩ ∧
    (treeAfter (exec (.treeset ⟨1, 0⟩ 0 0) treed) 2).valid = false ∧ treeAfter (exec (.treeadd 6 2 0) treed) 3 = ⟨2, true, 3, 1, false⟩ ∧
    trapped (exec (.treeadd 6 9 0)) treed = some (0x13, 0x301) := by decide +kernel
theorem test_tree_rows : ((after (exec (.treemask 1 0 0) treed)).c.regs.kget 1).at 2 1 = true ∧
    ((after (exec (.treemask 1 0 0) treed)).c.regs.kget 1).at 1 2 = false ∧
    row (exec (.treebias 3 0 0) treed) 3 0 2 = [0, 0xFF800000] ∧ row (exec (.treepos 2 5 0 0) treed) 2 0 3 = [2, 3, 4] := by decide +kernel
theorem test_treeprune : row (exec (.treeprune 2 6 0 0) treed) 2 0 3 = [0, 1, 0x3F] ∧ sAfter (exec (.treeprune 2 6 0 0) treed) 6 = 2 ∧
    sAfter (exec (.treerd 7 2 2 0) treed) 7 = 8 ∧ sAfter (exec (.treerd 7 2 1 0) treed) 7 = 2 := by decide +kernel

theorem test_witness_TreeInstructions :
    let T := treed.view.tree
    let n := fun (t : Tree) (k : Nat) => Vector.get t (Fin.ofNat 64 k)
    let A := (treed.view.t.get 1).cells
    treed.view.pget 0 = true ∧ (n T 0).valid = true ∧ (n T 0).parent = 0 ∧ (n T 0).depth = 0 ∧
    (∀ k : Fin 64, (n T k).valid = true → k ≠ 0 → (n T (n T k).parent.toNat).valid = true ∧
      (n T k).depth.toNat = (n T (n T k).parent.toNat).depth.toNat + 1) ∧
    (∀ k : Fin 64, ¬(n T k).valid = true → n T k = ⟨0, false, 0, 0, false⟩) ∧
    (treed.view.t.get 1).invalid = false ∧ (treed.view.t.get 1).poison = none ∧ (treed.view.t.get 1).lat.isId = true ∧
    (∀ k : Fin 64, (k = 0 ∨ (A.at 0 k).getLsbD 31 = false) ↔ k.val < 2) ∧ A.at 0 0 = 0 ∧
    (¬(n T 3).valid = true ∧ (n T 2).valid = true ∧ ¬(n T 9).valid = true) ∧
    ((treed.view.t.get 3).ty = .f32 ∧ (treed.view.t.get 2).ty = .i32) ∧ (treed.view.sget 6).toNat < 64 ∧ 64 ≤ (64 : Word).toNat ∧
    (15 : Fin 16) = 15 ∧ ((2 : Fin 16).val ≤ (treed.view.t.get 2).rows.val ↔ False) ∧ ((1 : Fin 16).val ≤ (treed.view.t.get 2).rows.val) ∧ ([(0 : Fin 64), 1].length = (n T 1).depth.toNat + 1 ∧ [(0 : Fin 64), 1].getLast? = some 1) ∧
    (∀ k : Fin 64, (n (Vector.replicate 64 (⟨0, true, 0, 0, false⟩ : Node)) k).valid = true) := by decide +kernel

/-! ### The matrix unit -/

/-- A plane that holds the identity of the first two columns in BF16. -/
def unitPlane : Plane :=
  { Plane.fresh with valid := true, ty := .bf16, rows := (Plane.fresh.rows.set 0 0x3F80).set 1 (0x3F80#2048 <<< 32) }

/-- A state with two columns of BF16 in t4 and an active plane. -/
def matrix : State :=
  withC (run (withTiles Regs.fresh [(4, til .bf16 [[0x4040, 0x4000]]), (5, til .f32 [[0]]), (8, til .i32 [[0]])])) fun c =>
    { c with active := unitPlane }

/-- An operation at the head of the queue, executed. -/
def queued (q : QOp) (op : BitVec 6) : State :=
  withC (moved matrix (Move.ctx 0 0)) fun c => { c with mq := [{ q with op := op, executed := true }] }

/-- The product of t4 with the active plane into c1. -/
def prod4 : QOp := { matrix.qop 4 with cd := 1, ta := 4, tiles := [matrix.view.t.get 4], arec := some 1, wImplied := true }

/-- A container of an accumulator that a step leaves. -/
def accAfter (o : Out) (c : CReg) (i j : Nat) : Nat := (((after o).c.regs.c.get c).cells.at (Fin.ofNat 16 i) (Fin.ofNat 64 j)).toNat

theorem test_matrix_accepts : leaves (exec (.mmul 1 ⟨4, 0⟩ 31 31 ⟨0, 0, 0⟩ 0) matrix) (fun t => t.c.mq.map (fun q => (q.op, q.cd, q.ta)) == [(4, 1, 4)]) ∧
    leaves (exec (.mmac 1 ⟨4, 0⟩ 31 31 ⟨0, 0, 0⟩ 0) matrix) (fun t => t.c.mq.length == 1) ∧
    leaves (exec (.mmact 1 ⟨4, 0⟩ 31 31 ⟨0, 0, 0⟩ 0) matrix) (fun t => t.c.mq.length == 1) ∧
    leaves (exec (.mmull 1 0 31 ⟨0, 0, 0⟩ 0) matrix) (fun t => t.c.mq.length == 1) ∧
    leaves (exec (.mmacl 1 0 31 ⟨0, 0, 0⟩ 0) matrix) (fun t => t.c.mq.length == 1) ∧
    trapped (exec (.mmul 1 ⟨4, 0⟩ 31 31 ⟨0, 0, 0⟩ 0)) (ts []) = some (0x06, 0x40) := by decide +kernel
theorem test_matrix_others : leaves (exec (.mlds ⟨4, 0⟩ 0) matrix) (fun t => t.c.mq.map (·.tiles.length) == [4]) ∧
    leaves (exec (.mldsl 1 0) matrix) (fun t => t.c.mq.map (·.addrs) == [[0, 0, 0, 0]]) ∧
    leaves (exec (.mswap 0) matrix) (fun t => t.c.mq.length == 1) ∧ leaves (exec (.mzero 2 0) matrix) (fun t => t.c.mq.length == 1) ∧
    leaves (exec (.mrd 8 1 0 0) matrix) (fun t => t.c.mq.length == 1) ∧ leaves (exec (.mwr 1 ⟨4, 0⟩ 31 0) matrix) (fun t => t.c.mq.length == 1) ∧
    leaves (exec (.mstat 8 0) matrix) (fun t => t.c.mq.length == 1) := by decide +kernel
/-- 3 and 2 times the identity; the sum of that with itself; its transposed product. -/
theorem test_matrix_products : accAfter (exec .matrixOpComplete (queued prod4 4)) 1 0 0 = 0x40400000 ∧
    accAfter (exec .matrixOpComplete (queued prod4 4)) 1 0 1 = 0x40000000 ∧
    accAfter (exec .matrixOpComplete (queued { prod4 with accs := [(1, { Tile.fresh with cells := Grid.ofFn fun _ _ => 0x3F800000 })] } 5)) 1 0 0 = 0x40800000 ∧
    accAfter (exec .matrixOpComplete (queued prod4 8)) 1 0 1 = 0x40000000 := by decide +kernel
theorem test_matrix_moves : leaves (exec .matrixOpComplete (queued prod4 3)) (fun t => t.c.shadow.valid && !t.c.active.valid) ∧
    (after (exec .matrixOpComplete (queued { prod4 with tiles := [matrix.view.t.get 4, matrix.view.t.get 5, matrix.view.t.get 6, matrix.view.t.get 7] } 1))).c.shadow.bits 16 0 1
      = 0x4000 ∧ leaves (exec .matrixOpExecute { queued prod4 4 with c := { (queued prod4 4).c with mq := [prod4] } }) (fun t => t.c.mq.all (·.executed)) := by
  decide +kernel

theorem test_witness_MatrixOperationsAreAccepted :
    let s := matrix
    let c := s.qNow
    let walk := s.streamWalk 1 (some 32) (some 256) 4 { s.view.ag.get 1 with ctrl := (s.view.ag.get 1).ctrl &&& 0x7F }
    s.view.pget 0 = true ∧ s.c.mq = [] ∧ ({ til .f32 [[0]] with invalid := true } : Tile).markFault 4 = some (0x06, 4) ∧
    (s.view.t.get 4).markFault 4 = none ∧ c.active.valid = true ∧ (ts []).qNow.active.valid = false ∧ (c.regs.c.get 1).markFault 33 = none ∧
    ((s.view.t.get 4).lat.rb = 0 ∧ (s.view.t.get 4).lat.cs = 0 ∧ (s.view.t.get 4).lat.cb = 0) ∧
    ¬(({ Machine.Lat.id with rb := 0x8000 } : Machine.Lat).rb = 0) ∧
    ((c.regs.c.get 1).lat.rs = (s.view.t.get 4).lat.rs ∧ (c.regs.c.get 1).lat.cs = c.active.cs) ∧ factor.rs ≠ 0 ∧
    (match (walk 0).1 with | .ok _ => true | .error _ => false) = true ∧ (match (walk 1).1 with | .ok _ => false | .error _ => true) = true ∧
    4 % 4 = 0 ∧ recBad 0 = false ∧ (Rec.ofWord 0 s.view.cb).ty ≠ .i32 ∧ (s.view.t.get 8).ty = .i32 ∧ (s.view.t.get 4).ty ≠ .i32 := by
  decide +kernel
theorem test_witness_MatrixOperationsComplete :
    let s := queued prod4 4
    (s.ctx s.move.x).mq = { prod4 with executed := true } :: [] ∧ prod4.executed = false ∧ prod4.execBad unitPlane = none ∧
    (({ prod4 with arec := some 0xF } : QOp).execBad unitPlane).isSome = true ∧ (prod4.op = 4 ∧ prod4.next = 0 ∧ prod4.rep = 0) ∧
    prod4.tiles = [matrix.view.t.get 4] ∧ prod4.types unitPlane = some (.f32, (prod4.types unitPlane).elim 0 (·.2)) ∧
    prod4.aRec.isSome = true ∧ (prod4.wRec unitPlane).isSome = true ∧ (matrix.c.regs.c.get 1).ty = .f32 ∧
    matrix.c.mode = .run ∧ matrix.c.task.isSome = true ∧ ((s.errLines 0 0x20).all fun k => s.canUse (.cd 0) k true) = true ∧
    ((s.errWalks 0 0x20).all fun k => s.canUse (.cd 0) k false) = true ∧ (3 : Rat) * 1 + 2 * 0 ≠ 0 := by decide +kernel
/-- The last repeat of three of an accumulating product of streamed tiles, into accumulator 3. -/
def repeated : QOp := { prod4 with op := 7, tiles := [], rep := 2, inc := 1, next := 2, addrs := [0, 0, 0x100], pitch := 128 }
/-- R209, R214: the last repeat of a streamed product adds tile 3's row 0, which holds 3 and 2, into accumulator 3; the first
of three leaves the operation in the queue. -/
theorem test_matrix_repeats :
    let s : State := { queued repeated 7 with mem := memWrite [] 0x200000000100 4 0x40004040 }
    leaves (exec .matrixOpComplete s) (fun t => t.c.mq == [] && (t.c.regs.c.get 3).cells.at 0 0 == 0x40400000 &&
      (t.c.regs.c.get 3).cells.at 0 1 == 0x40000000 && (t.c.regs.c.get 3).cells.at 1 0 == 0) ∧
    leaves (exec .matrixOpComplete (queued { repeated with next := 0 } 7)) (fun t => t.c.mq.map (·.next) == [1]) := by decide +kernel
/-- R212, R215, R216: a streamed plane, an accumulator read as BF16, a tile of BF16 in an accumulator, and the status row. -/
theorem test_matrix_results :
    let a : QOp := { prod4 with ta := 5, cd := 1, accs := [(1, { Tile.fresh with cells := Grid.ofFn fun _ _ => 0x40400000 })] }
    leaves (exec .matrixOpComplete { queued { prod4 with addrs := [0, 0, 0, 0x100], pitch := 256 } 2 with
      mem := memWrite [] 0x200000000100 4 0x40004040 }) (fun t => t.c.shadow.packed && t.c.shadow.bits 16 48 1 == 0x4000 && t.c.mq == []) ∧
    leaves (exec .matrixOpComplete (queued a 0x0A)) (fun t => (t.c.regs.t.get 5).cells.at 0 0 == 0x4040 && (t.c.regs.t.get 5).ty == .bf16) ∧
    leaves (exec .matrixOpComplete (queued a 0x0B)) (fun t => (t.c.regs.c.get 1).cells.at 0 1 == 0x40000000 && (t.c.regs.c.get 1).ty == .f32) ∧
    leaves (exec .matrixOpComplete (queued { a with stat := [5, 6] } 0x0C)) (fun t => (t.c.regs.t.get 5).cells.at 0 1 == 6 &&
      (t.c.regs.t.get 5).ty == .i32) := by decide +kernel
theorem test_witness_MatrixOperationsComplete_more :
    let c := (queued repeated 7).c
    (c.stale = [] ∧ c.unjoined = [] ∧ repeated.before = []) ∧ repeated.isProd = true ∧ (repeated.next = repeated.rep) ∧
    (repeated.types unitPlane).map (·.1) = some .f32 ∧ repeated.aRec.isSome = true ∧ (repeated.wRec unitPlane).isSome = true ∧
    (c.regs.c.get 3).ty = .f32 ∧ ({ Tile.fresh with ty := .i32 } : Tile).ty ≠ .f32 ∧ ({ repeated with next := 0 } : QOp).next ≠ 2 ∧
    (({ prod4 with arec := some (BitVec.ofNat 64 ElemTy.i8.code) } : QOp).aRec.map fun r => r.ty.isInt) = some true ∧ (prod4.aRec.map fun r => r.ty.isInt) = some false := by
  decide +kernel

/-! ## Commands, ordering, synchronisation and the steps of a context: results worked by hand from R253 to R292, R34 to R37
and R353 to R387 -/

/-- A copy of 8 bytes from scratchpad offset 0x100 to 0x400200: LEN in s6, the operands in a2 and a3, the token s7. -/
def copying : State :=
  inMem (run (withAddr (regs [(6, 8)]) [(2, 0x400200), (3, 0x8000000000000100)])) [(0x200000000100, 8, 0x1122334455667788)]

/-- The command's operands: token s7, destination a2, source a3, LEN s6. -/
def ops : CopyOps := ⟨7, 2, 3, 6⟩

/-- A state with its command at the head of its queue, and a step about context 0. -/
def commanded (f : Cmd → Cmd) : State :=
  withC (moved copying (Move.ctx 0 0)) fun c => { c with queue := [f (copying.command 0x10 ops 0)] }

theorem test_ops_order : copying.command 0x10 ops 0 = { copying.command 0x10 ops 0 with
    tok := 7, dstReg := 0x400200, srcReg := 0x8000000000000100, len := 8 } := by decide +kernel
theorem test_copy_issue : leaves (exec (.copy ops 1) copying) (fun t => t.c.queue.map (fun q => (q.op, q.len, q.flags)) == [(0x10, 8, 1)]) ∧
    leaves (exec (.copyg ops 0) copying) (fun t => t.c.queue.length == 1) ∧ leaves (exec (.copya ops 0) copying) (fun t => t.c.queue.length == 1) ∧
    leaves (exec (.send ops 0) copying) (fun t => t.c.queue.length == 1) ∧ leaves (exec (.sendt ops 0) copying) (fun t => t.c.queue.length == 1) ∧
    leaves (exec (.rxset 6 5) copying) (fun t => t.c.queue.map (fun q => (q.ctl, q.rx)) == [(8, 5)]) ∧
    leaves (exec (.rpost 6 12 4) copying) (fun t => t.c.queue.map (fun q => (q.chip, q.rx)) == [(12, 4)]) := by decide +kernel
theorem test_copy_execute : leaves (exec .copyCommandExecute (commanded id)) (fun t =>
      memRead t.mem 0x400200 8 == 0x1122334455667788 && t.c.queue.map (·.done) == [8]) ∧
    leaves (exec .copyCommandComplete (commanded fun q => { q with done := 8, finished := true })) (fun t => t.c.queue == [] && t.c.regs.sget 7 == 8) ∧
    leaves (exec .copyEngineFault (commanded fun q => { q with done := 3, stop := some (0x0C, 0x400203) })) (fun t => t.c.halted) := by decide +kernel
theorem test_engq : sAfter (exec (.engq 4) (withC (commanded fun q => { q with stop := some (0x0C, 0) }) fun c => { c with halted := true })) 4 = 0xC11 ∧
    trapped (exec (.engrs 0)) copying = some (0x0E, 0x114) ∧
    leaves (exec (.engrs 0) (withC (commanded fun q => { q with stop := some (0x0C, 0) }) fun c => { c with halted := true, priv := .sup })) (fun t => !t.c.halted) ∧
    leaves (exec (.engrsCancel 0) (withC (commanded fun q => { q with stop := some (0x0C, 0) }) fun c => { c with halted := true, priv := .sup }))
      (fun t => t.c.queue == [] && t.c.regs.sget 7 == 0x80000C0000000000) := by decide +kernel

/-- A state for the syllables that order and synchronise: a1 at an event of 8 bytes COUNT and 8 of THRESHOLD. -/
def event : State := inMem (run (withAddr (regs [(5, 3), (6, 9)]) [(1, 0x400100)])) [(0x400100, 8, 7), (0x400108, 8, 7)]

theorem test_ordering : leaves (exec (.phase 1) event) (fun t => t.c.phase == some (1, [])) ∧ leaves (exec .vjoin event) (·.c.vjoin) ∧
    leaves (exec (.amo 2 1 5 0 1 0 1) event) (fun t => t.c.atomics.map (fun a => (a.dst, a.pa, a.v)) == [(some 2, 0x400100, 3)]) ∧
    leaves (exec (.evsig 1 1) event) (fun t => t.c.atomics.map (fun a => (a.dst, a.pa, a.v)) == [(none, 0x400100, 1)]) ∧
    trapped (exec (.amo 2 1 5 0 1 0 1)) (at1 0x400104 []) = some (0x0A, 0x400104) := by decide +kernel
theorem test_waits : sAfter (exec (.waitm 2 1 5 0 1 1) event) 2 = 7 ∧ goes (exec (.evwait 1 1) event) = true ∧
    trapped (exec (.fbar 3)) event = some (0x0C, 0x8400000000000003) ∧
    leaves (exec (.fbar 3) { event with fab := { event.fab with bars := [(3, { Barrier.fresh with en := true })] } }) (fun t => t.c.barrier == none) := by
  decide +kernel

/-- A queue at 0x400400 that a device region may post to. -/
def queue3 : Queue := { Queue.fresh with base := 0x400400, en := true, dev := true, region := 0x100 }

/-- A task whose region may post to queue 3, and a packet of type 4 at scratchpad offset 0. -/
def posting : State :=
  let s := inMem (run (regs [(5, 0)])) [(0x200000000000, 8, 0x0000000000000004), (0x400400, 8, 2)]
  { withC s fun c => { c with task := some { loadTask with region := { loadRegion with chain := [(0x100, 1)] } } } with
    sched := { Sched.fresh with queues := Sched.fresh.queues.set 3 queue3 } }
theorem test_qpost : leaves (exec (.qpost 5 3) posting) (fun t => memRead t.mem 0x400400 8 == 3 && memRead t.mem 0x4004C0 8 == 4) ∧
    trapped (exec (.qpost 5 4)) posting = some (0x15, 0x401) := by decide +kernel

/-! ### Steps of a context -/

/-- Something of everything outstanding in context 0. -/
def busy : State := withC (moved (closed event) (Move.ctx 0 0)) fun c =>
  { c with
    atomics := [⟨some 2, 0, 8, 0x400100, 3, 0, none, none, false, [0x8002], 0⟩]
    phase := some (1, [])
    vjoin := true
    pbuf := [⟨0x400200, 5, 0⟩, ⟨0x400201, 6, 0⟩] }
theorem test_performed : leaves (exec .atomicPerformed busy) (fun t => t.c.regs.sget 2 == 7 && memRead t.mem 0x400100 8 == 10) ∧
    leaves (exec .phaseComplete busy) (fun t => t.c.phase == none && memRead t.mem 0x400200 2 == 0x0605 && t.c.pbuf == []) ∧
    leaves (exec .vjoinComplete busy) (fun t => !t.c.vjoin) ∧
    leaves (exec .storeBecomesVisible busy) (fun t => memGet t.mem 0x400200 == 5 && t.c.pbuf.length == 1) := by decide +kernel
/-- R155: the scalar s3 stands at 0x29018 of its context's window. -/
def windowed : State :=
  let s := moved (closed event) (Move.ctx 0 0)
  { withC s fun c => { c with task := some { loadTask with region := { loadRegion with windows := 1 } } } with wwrites := [⟨0, 0x229018, [1, 2, 3, 4, 5, 6, 7, 8], none, none⟩] }
theorem test_window_write : leaves (exec .coreWindowWrite windowed) (fun t => t.c.regs.sget 3 == 0x0807060504030201 && t.wwrites == []) := by
  decide +kernel

/-- A context with an interrupt pending, a cluster to wake, a timer, and results in flight, about which steps are made. -/
def ticking : State := withC (moved { handler (sc [(1, 9)]) with bundle := Bundle.none } (Move.ctx 0 0)) fun c =>
  { c with ipend := [(0x84, 5)], timecmp := 50, sc := 40, clusters := c.clusters.set 0 (.waking false 40) }
theorem test_context_steps : leaves (exec .exposedResultLanding (withC ticking fun c => { c with flight := [⟨40, 1, 0, [.s 2 7], 0⟩] })) (fun t => t.c.regs.sget 2 == 7) ∧
    leaves (exec .clusterWake ticking) (fun t => t.c.clusters.get 0 == .awake && (t.c.regs.t.get 7).invalid && !(t.c.regs.t.get 8).invalid) ∧
    leaves (exec .takeInterrupt ticking) (fun t => t.c.isSup && t.c.sys.tcause == 0x84 && t.c.sys.tval == 5 && t.c.pc == 0x500000) ∧
    leaves (exec .timecmpMatch ticking) (fun t => t.c.timecmp == 0 && t.c.ipend.any (·.1 == 0x81) && decide (50 ≤ t.time)) ∧
    leaves (exec .notify { ticking with move := { Move.ctx 0 0 with val := 77 } }) (fun t => t.c.ipend == [(0x84, 77)]) := by decide +kernel
theorem test_debug : leaves (exec .debugRequest ticking) (·.c.debugReq) ∧
    leaves (exec .debugRelease (withC ticking fun c => { c with mode := .debug 3 })) (fun t => t.c.mode == .run && t.c.bpSkip) ∧
    leaves (exec .preemption (withC ticking fun c => { c with preemptReq := true })) (fun t => t.c.mode == .preempting) ∧
    leaves (exec .budgetPeriod ticking) (fun t => decide (1 ≤ t.pkg.period)) := by decide +kernel

/-- Two contexts of a core: the first runs nothing, the second can issue. -/
def pair : State := { moved adding (Move.ctx 0 0) with c := Ctx.fresh, others := [(1, adding.c)] }

/-- A context whose bundle waits for s1, beside one that can issue. -/
def waiting : State :=
  { moved adding (Move.ctx 0 0) with
    c := { adding.c with
      loads := [⟨1, 5, none, [], none⟩], waitRun := 64, waitCause := 1
      sys := { adding.c.sys with quantum := 4096 } }
    others := [(1, adding.c)] }
theorem test_switch : leaves (exec .contextSwitch pair) (fun t => t.id == 1 && (t.core 0).holder == 1) ∧
    leaves (exec .contextSwitch waiting) (fun t => t.id == 1) ∧
    leaves (exec .quantumExpiry { withC waiting fun c => { c with sys := { c.sys with quantum := 64 } } with cores := [(0, { Core.fresh with held := 64 })] })
      (fun t => t.id == 1) ∧
    leaves (exec .issueBundle waiting) (fun t => t.id == 1) ∧
    leaves (exec .issueBundle (withC waiting fun c => { c with waitRun := 63 })) (fun t => t.id == 0 && t.c.waitRun == 64 && t.c.sc == 0) := by decide +kernel

/-! ### Operands that meet the hypotheses of the statements about commands, ordering and contexts -/

theorem test_witness_CommandsEnterTheQueue :
    let s := withC (commanded fun q => { q with stop := some (0x0C, 0) }) fun c => { c with halted := true, priv := .sup }
    let two := withC s fun c => { c with queue := c.queue ++ [{ copying.command 0x10 ops 0 with tok := 9 }] }
    (0 : BitVec 6).getLsbD 3 = false ∧ (8 : BitVec 6).getLsbD 3 = true ∧ copying.c.priv = .task ∧ s.c.priv = .sup ∧
    ((s.ctx 0).task.isSome = true ∧ (s.ctx 0).region.id = s.c.region.id) ∧ ¬((s.ctx 3).task.isSome = true) ∧
    (sup copying).c.halted = false ∧ (s.ctx 0).halted = true ∧ (s.ctx 0).queue = (s.ctx 0).queue.headD (s.bareCmd 0) :: [] ∧
    ((s.ctx 0).queue.headD (s.bareCmd 0)).tok ≠ 0 ∧
    (two.ctx 0).queue.tail = [] ++ { copying.command 0x10 ops 0 with tok := 9 } :: [] := by decide +kernel
theorem test_witness_OrderAndSynchronisation :
    let s := event
    let ea := s.view.a.get 1
    let tr := fun (a : Word) (acc : Access) => s.translate (some 0) s.c.region (a.toNat % 2 ^ 48) acc s.c.isSup
    let p : State := { s with tok := { s.tok with poison := [(0x8002, 0)] } }
    let q := posting
    let k := q.sched.queues.get 3
    let k4 := q.sched.queues.get 4
    (0x400104 : Word).toNat % 8 ≠ 0 ∧ ea.toNat % 16 = 0 ∧ tr 0x600000 .both = .error 0x0B ∧ tr ea .both = .ok 0x400100 ∧ tr ea .read = .ok 0x400100 ∧
    tr ea .write = .ok 0x400100 ∧ plainPlace (s.place 0x400100) = true ∧ plainPlace (.pctl 0) = false ∧ p.poisonIn 0x400100 8 = some 0x400100 ∧
    s.poisonIn 0x400100 16 = none ∧ s.bundle.pbuf = [] ∧ ((2 : BitVec 2) = 2 ∧ ¬((1 : BitVec 2) = 2 ∨ (1 : BitVec 2) = 3)) ∧
    (({ Barrier.fresh with en := true } : Barrier).region = s.c.region.id) ∧ (s.barrierOf 3).en = false ∧
    ¬(k4.en = true ∧ k4.dev = true) ∧ (k.en = true ∧ k.dev = true) ∧ q.c.region.chain = [(k.region.toNat, 1)] ∧ s.c.region.chain = [] ∧
    (0 % 64 = 0 ∧ 0x1FFFC0 ≤ 0x1FFFC0) ∧ ¬(0x1FFFC1 % 64 = 0) ∧ ((memBytes q.bundle.mem 0x200000000000 64).headD 0).toNat = 4 ∧
    (q.place 0x400400 = .hbm ∧ q.place 0x20000000 = .absent) ∧
    (q.c.stale = [] ∧ q.c.unjoined = [] ∧ q.bundle.pbuf = [] ∧ q.bundle.tpbuf = []) ∧
    ([0, 7].all fun j => plainPlace (q.place (0x400400 + j))) = true ∧ memRead q.mem 0x400400 8 = 2 ∧
    plainPlace (q.place (0x400400 + 64 + 64 * (2 % 2 ^ 4))) = true ∧
    ({ q with mem := memWrite q.mem 0x0FFFFF80 8 1 } : State).place (0x0FFFFF80 + 64 + 64 * (1 % 2 ^ 4)) = .absent ∧
    Memory.wf s.mem = true ∧ Memory.wf q.mem = true ∧ Memory.wf (memWrite q.mem 0x0FFFFF80 8 1) = true := by decide +kernel
/-- R18, R354: a QPOST to a queue that is not present, and one whose next entry is not, take 0x0B with the address. -/
theorem test_qpost_absent :
    let at' := fun (n : Nat) => { posting with sched := { Sched.fresh with queues := Sched.fresh.queues.set 3 { queue3 with base := BitVec.ofNat 48 n } } }
    trapped (exec (.qpost 5 3)) (at' 0x20000000) = some (0x0B, 0x20000000) ∧
    trapped (exec (.qpost 5 3)) (at' 0x0FFFFFC0) = some (0x0B, 0x10000000) := by decide +kernel
theorem test_witness_ContextSteps :
    let s := ticking
    let c := s.ctx s.move.x
    let tried := fun (s : State) => match s.tryIssue with
      | .instead _ => 0
      | .wait w _ => 10 + w.cause
      | .opened _ => 2
    let q := withC s fun c => { c with clusters := .replicate 4 .awake }
    (s.move.x = s.id ∧ (s.core 0).holder.val = 0 ∧ s.pkg.stage ≠ 0xE ∧ c.task.isSome = true) ∧ tried (moved adding (Move.ctx 0 0)) = 2 ∧
    tried waiting = 11 ∧ tried s = 0 ∧ (c.clusters.get 0 = .waking false 40 ∧ 40 ≤ c.sc) ∧ (c.mode = .run ∧ c.priv = .task ∧ c.flight = []) ∧
    (∀ k, q.c.clusters.get k = .awake ∨ q.c.clusters.get k = .asleep) ∧
    ([(0x86 : BitVec 8), 0x82, 0x84, 0x81, 0x83, 0x87] = [0x86, 0x82] ++ 0x84 :: [0x81, 0x83, 0x87]) ∧
    c.ipend.all (fun e => e.1 != 0x86 && e.1 != 0x82) = true ∧ c.ipend.find? (fun e => e.1 == 0x84) = some (0x84, 5) ∧ c.sys.tvec ≠ 0 ∧
    (sc []).c.sys.tvec = 0 ∧ (pair.id = 4 * 0 + (pair.core 0).holder.val ∧ pair.nextReady = some 1 ∧ pair.c.task = none) ∧
    (waiting.nextReady = some 1 ∧ Wait.scoreboard.switchAfter = some 64 ∧ waiting.c.waitCause = BitVec.ofNat 8 Wait.scoreboard.cause ∧ 64 ≤ waiting.c.waitRun) ∧
    pair.c.sys.quantum.toNat ≤ (pair.core 0).held ∧ c.timecmp ≠ 0 ∧ (Ctx.fresh.task = none) ∧
    (waiting.c.mode = .run ∧ ¬waiting.c.sys.quantum.toNat ≤ (waiting.core 0).held) ∧
    ¬(64 ≤ (withC waiting fun c => { c with waitRun := 63 }).c.waitRun) ∧ (c.debugReq = false ∧ c.preemptReq = false ∧ s.breakpoint = none) ∧
    ({ s with move := { s.move with edit := some ⟨c.regs, c.sys, c.pc, c.active, c.shadow, c.silo, c.held, c.aside, c.flight, c.lbuf, c.pbuf, c.clusters⟩ } } : State).move.edit.isSome = true ∧
    s.move.edit = none ∧ (withC s fun c => { c with mode := .debug 3 }).c.mode = .debug 3 ∧
    (withC s fun c => { c with preemptReq := true }).c.preemptReq = true ∧ c.mode ≠ .debug 3 := by decide +kernel
/-- A quantum that is over where no wait of the context has begun, or one that lets its core go; trees well formed and not. -/
theorem test_witness_ContextSteps_stuck :
    let long := withC waiting fun c => { c with sys := { c.sys with quantum := 64 } }
    let out : State := { long with cores := [(0, { Core.fresh with held := 64 })] }
    Wait.matrix.switchAfter = none ∧ Wait.scoreboard.switchAfter ≠ none ∧ waiting.c.waitRun ≠ 0 ∧
    out.c.sys.quantum.toNat ≤ (out.core 0).held ∧ out.nextReady = some 1 ∧ pair.c.waitRun = 0 ∧
    Tree.bad Tree.fresh = none ∧ Tree.bad (Tree.fresh.set 1 ⟨5, true, 1, 0, false⟩) ≠ none := by decide +kernel
theorem test_witness_StoresArePerformed :
    let s := busy
    let c := s.ctx s.move.x
    let p : State := { s with tok := { s.tok with poison := [(0x8002, 0)] } }
    c.pbuf[s.move.n]? = some ⟨0x400200, 5, 0⟩ ∧ c.pbuf.take s.move.n = [] ∧ s.canUse (.cd 0) (0x400200 / 128) true = true ∧
    c.phase = some (1, []) ∧ (s.bufferLines 0 c.seq).all (fun l => s.canUse (.cd 0) l true) = true ∧ c.vjoin = true ∧
    c.storeHeld ⟨0x400200, 5, 0⟩ = false ∧ s.canPublish 0 c.seq = true ∧
    c.atomics[s.move.n]? = some ⟨some 2, 0, 8, 0x400100, 3, 0, none, none, false, [0x8002], 0⟩ ∧ s.canUse (s.homeOf 0x8002) 0x8002 true = true ∧
    p.poisonIn 0x400100 8 = some 0x400100 ∧ s.poisonIn 0x400100 8 = none ∧ event.c.pbuf = [] ∧
    windowed.wwrites[windowed.move.n]? = some ⟨0, 0x229018, [1, 2, 3, 4, 5, 6, 7, 8], none, none⟩ ∧ windowed.wwrites.take 0 = [] ∧
    (windowed.ctx 0).task.map (fun b => b.region.windows.getLsbD 0) = some true ∧ (windowed.ctx 0).flight = [] ∧ (windowed.ctx 5).task = none ∧
    s.c.task.map (fun b => b.region.windows.getLsbD 0) = some false ∧
    ({ windowed with wwrites := [⟨0, 0x200000, [1], some (3, 4), none⟩] } : State).wwrites.map (·.whole) = [some (3, 4)] ∧
    ([1, 2, 3, 4, 5, 6, 7, 8] : List Byte)[7]? = some 8 ∧ windowed.c.clusters.get 3 = .awake ∧
    (c.atomics.all fun a => !ownWindow 0 a.pa) = true ∧
    c.atomicHeld s.move.n ⟨some 2, 0, 8, 0x400100, 3, 0, none, none, false, [0x8002], 0⟩ = false := by decide +kernel
/-- A release of context 0 that has not published, its stores of bundle 0 before it. -/
def releasing : State := withC busy fun c =>
  { c with
    atomics := [⟨none, 0, 8, 0x400100, 3, 0, none, some (1, []), false, [0x8002], 0⟩] }
theorem test_witness_StoresArePerformed_release :
    let s := releasing
    let c := s.ctx s.move.x
    let a : Atomic := ⟨none, 0, 8, 0x400100, 3, 0, none, some (1, []), false, [0x8002], 0⟩
    c.atomics[s.move.n]? = some a ∧ a.release = some (1, []) ∧ a.published = false ∧ c.atomicHeld s.move.n a = false ∧ s.canPublish 0 a.seq = true ∧
    (s.bufferLines 0 a.seq).all (fun l => s.canUse (.cd 0) l true) = true ∧ ({ a with published := true } : Atomic).published = true ∧
    leaves (exec .atomicPerformed s) (fun t => memRead t.mem 0x400200 2 == 0x0605 && memRead t.mem 0x400100 8 == 10 && t.c.pbuf == [] &&
      t.c.atomics == []) = true := by decide +kernel

/-- The premise of the statements about memory holds of the states that meet their other premises. -/
theorem test_witness_StoresArePerformed_inv : busy.Inv ∧ releasing.Inv ∧ windowed.Inv ∧
    ({ busy with tok := { busy.tok with poison := [(0x8002, 0)] } } : State).Inv ∧
    ({ windowed with wwrites := [⟨0, 0x200000, [1], some (3, 4), none⟩] } : State).Inv := by
  unfold State.Inv
  decide +kernel

/-! ## The scheduler: results worked by hand from R343 to R363, R376 and R384 to R386 -/

/-- The region block of the tests at 0x8000: REGION_ID 5, the page tables at 0x1000, MAXCTX 1, core 0. -/
def block : List (Nat × Nat × Nat) := [(0x8000, 8, 5), (0x8020, 8, 0x1000), (0x8038, 8, 1), (0x8040, 8, 1)]

/-- Queue 3, whose next entry has the words. -/
def entry (l : List Nat) : List (Nat × Nat × Nat) :=
  (0x400400, 8, 1) :: l.zipIdx.map fun e => (0x400440 + 8 * e.2, 8, e.1)

/-- An event at 0x400100 that is not signalled, and the header of a sheaf of one entry at 0x400800 (R29). -/
def base : List (Nat × Nat × Nat) :=
  block ++ [(0x400100, 8, 1), (0x400108, 8, 2), (0x400800, 8, 0x0001000153464B01), (0x400808, 8, 77)]

/-- The command processor at queue 3 with an entry, and launches in progress. -/
def served (l : List Nat) (launches : List Launch) : State :=
  let s := inMem { State.reset with move := Move.ctx 3 0 } (base ++ entry l)
  { s with sched := { Sched.fresh with queues := Sched.fresh.queues.set 3 queue3, launches := launches } }

/-- A LAUNCH of two tasks with STATUS. -/
def launch2 : List Nat := [0x0000000200000201, 0x8000, 0x400800, 0x400000, 0x400900, 0, 0, 0x400100]

/-- TILETASKS of two tasks, from id 7. -/
def tiles2 : List Nat := [0x0000000200000002, 0x8000, 0x400800, 0x400000, 0x400900, 7, 0, 0x400100]

/-- READ of queue 3 as a step leaves it, and ERROR. -/
def readErr (t : State) : Nat × Nat := (memRead t.mem 0x400408 8, memRead t.mem 0x400410 8)

theorem test_packets_without_tasks : leaves (exec .nopPacket (served [7] [])) (fun t => readErr t == (1, 0)) ∧
    leaves (exec .barrierPacket (served [6] [])) (fun t => readErr t == (1, 0)) ∧
    leaves (exec .nopPacket (served [9] [])) (fun t => readErr t == (0, 2 ^ 63 + 0x109) && (t.sched.queues.get 3).halted) ∧
    leaves (exec .evsignal (served [4, 0x8000, 0x400100] [])) (fun t => memRead t.mem 0x400100 8 == 2 && readErr t == (1, 0)) ∧
    leaves (exec .evsignal (served [4, 0x8000, 0x400104] [])) (fun t => readErr t == (0, 2 ^ 63 + 0x404)) ∧
    leaves (exec .evwaitPacket (served [5, 0x8000, 0x400100] [])) (fun t => readErr t == (0, 0)) ∧
    leaves (exec .evwaitPacket (served [5, 0x8000, 0] [])) (fun t => readErr t == (1, 0)) := by decide +kernel

/-- The launch that `launch2` starts. -/
def launched (tile : Bool) (r : Region) : Launch where
  id := 1
  tile := tile
  region := r
  queue := 3
  entry := 0
  count := 2
  sheaf := 0x400800
  sheafId := 77
  entryPc := 0x400000
  args := 0x400900
  wait0 := 0
  wait1 := 0
  signal := 0x400100
  status := !tile
  parent := 0
  baseId := if tile then 7 else 0
  fresh := 0
  readyAt := some 0
  tasks := []
  ended := 0
  bad := 0
  code := 0
  err := false

theorem test_launch : leaves (exec .launch (served launch2 [])) (fun t => readErr t == (1, 0) &&
      t.sched.launches.map (fun l => (l.count, l.region.id, l.region.maxCtx, l.readyAt)) == [(2, 5, 1, some 0)]) ∧
    leaves (exec .tiletasks (served tiles2 [])) (fun t => t.sched.launches.map (fun l => (l.tile, l.tasks.map (·.index))) == [(true, [0, 1])]) := by
  decide +kernel

/-- The region of the block. -/
def region5 : Region := ((served [7] []).regionAt 0x8000).getD loadRegion

theorem test_region : ((served launch2 []).regionAt 0x8000 == some region5) = true ∧ region5.id = 5 ∧ region5.ptroot = 0x1000 ∧
    region5.chain = [(0x8000, 1)] := by decide +kernel

/-- A launch of tasks in progress, its tiles' counts 1 and 0. -/
def going (tile : Bool) : Launch :=
  let l := launched tile region5
  if tile then { l with tasks := [⟨0, 0x400910, .waiting 1 none⟩, ⟨1, 0x400920, .waiting 0 (some 0)⟩] } else l

theorem test_arrival : leaves (exec .ttArrive { served [7] [going true] with
      move := { Move.none with line := 2 ^ 64 - 1, val := 7 } }) (fun t =>
        t.sched.launches.map (fun l => l.tasks.map (·.st)) == [[.waiting 0 (some 0), .waiting 0 (some 0)]]) ∧
    leaves (exec .ttArrive { served [7] [going true] with move := { Move.none with line := 2 ^ 64 - 1, val := 0x20007 } }) (fun t =>
        t.sched.launches.map (fun l => l.tasks.map (·.st)) == [[.waiting 1 none, .waiting 0 (some 0)]]) := by decide +kernel

/-- Queue 3 halted on an entry. -/
def halted3 : State :=
  let s := served [1] [going false]
  { s with sched := { s.sched with queues := s.sched.queues.set 3 { queue3 with halted := true } } }
theorem test_qctl : leaves (exec .qctlRetry halted3) (fun t => readErr t == (0, 0) && !(t.sched.queues.get 3).halted) ∧
    leaves (exec .qctlSkip halted3) (fun t => readErr t == (1, 0) && !(t.sched.queues.get 3).halted) := by decide +kernel

/-- A launch whose tasks have ended, one with exit code 3. -/
def ended (s : State) : State :=
  { s with
    move := Move.ctx 1 0
    sched := { s.sched with launches := [{ going false with ended := 2, bad := 1, code := 3, err := true, fresh := 2, args := 0x400908 }] } }
theorem test_launch_complete : leaves (exec .launchComplete (ended (served [7] []))) (fun t => t.sched.launches.isEmpty &&
    memRead t.mem 0x400900 8 == 2 ^ 63 + 3 * 2 ^ 32 + 1 && memRead t.mem 0x400100 8 == 2 && memRead t.mem 0x400108 8 == 2 ^ 63 + 2) := by
  decide +kernel

/-- Ready tasks, about context 0; the sheaf of `launched` stands on core 0. -/
def ready (l : List Launch) : State :=
  { served [7] l with
    move := Move.ctx 0 0
    cores := [(0, { Core.fresh with sheaves := [⟨0x400800, 77, 8, 1⟩] })] }
theorem test_bind : leaves (exec .taskBind (ready [going false])) (fun t => t.c.pc == 0x400000 && t.c.wbase == 8 && t.c.wsize == 1 &&
      t.c.sys.taskId == 0 && t.c.sys.launchId == 1 && t.c.sys.regionId == 5 && t.c.sys.ntasks == 2 && t.c.sys.args == 0x400900) ∧
    leaves (exec .taskBind (ready [going true])) (fun t => t.c.sys.taskId == 1 && t.c.sys.args == 0x400920) := by decide +kernel
/-- R30: a sheaf fits where the sheaves in use leave room. -/
theorem test_sheaf_fits : (ready []).sheafFits 0 0x400800 77 1 = true ∧ (ready []).sheafFits 0 0x400800 78 4096 = true ∧
    (ready []).sheafFits 0 0x400800 78 4097 = false := by decide +kernel

/-- Context 0 with a task of `going`, bound. -/
def bound (f : Ctx → Ctx) : State :=
  let s := ready [{ going false with fresh := 1, tasks := [⟨0, 0x400900, .bound 0⟩] }]
  { s with c := f { Ctx.fresh with task := some ⟨1, 0, region5, 0, 0, (0x400800, 77)⟩, seq := 4, pbuf := [⟨0x400200, 5, 2⟩] } }
theorem test_exit_release : leaves (exec .taskExitRelease (bound fun c => { c with mode := .exiting 3 false })) (fun t =>
      t.c.task.isNone && memGet t.mem 0x400200 == 5 && t.sched.launches.map (fun l => (l.ended, l.bad, l.code, l.err, l.tasks.length)) == [(1, 1, 3, true, 0)]) ∧
    leaves (exec .taskExitRelease (bound fun c => { c with mode := .exiting 3 true })) (fun t =>
      t.sched.launches.map (fun l => (l.ended, l.bad, l.fresh)) == [(2, 2, 2)]) ∧
    leaves (exec .taskExitRelease (bound fun c => { c with mode := .exiting 3 false, halted := true })) (fun t =>
      t.c.mode == .exiting 0x2008200 true) := by decide +kernel

/-- What CONTEXT_SAVE leaves of a task with a scalar. -/
def saved : State :=
  match exec .contextSave (bound fun c => { c with mode := .preempting, regs := c.regs.sset 1 9 }) with
  | .next t => t
  | _ => State.reset
theorem test_save_resume : saved.c.task.isNone = true ∧ saved.sched.launches.map (fun l => l.tasks.map (·.index)) = [[0]] ∧
    memGet saved.mem 0x400200 = 5 ∧
    leaves (exec .resume saved) (fun t => t.c.regs.sget 1 == 9 && t.c.mode == .run && t.c.wbase == 8 && t.c.task.isSome) := by decide +kernel

/-- A task of PRIO 1 that wants core 0, whose four contexts hold tasks of PRIO 0. -/
def crowded : State :=
  let b : Bound := ⟨1, 0, { region5 with block := 0x9000, chain := [(0x9000, 9)] }, 0, 0, (0x400800, 77)⟩
  let c : Ctx := { Ctx.fresh with task := some b }
  { ready [{ going false with region := { region5 with prio := 1, chain := [(0x8000, 9)], errMax := 9 } }] with
    c := c
    others := [(1, c), (2, { c with task := some { b with boundAt := 5 } }), (3, c)]
    move := Move.ctx 2 0 }
theorem test_preempt_request : leaves (exec .preemptRequest crowded) (fun t => (t.ctx 2).preemptReq && !(t.ctx 0).preemptReq) := by
  decide +kernel
theorem test_preempt_not_requested : leaves (exec .preemptRequest { crowded with move := Move.ctx 1 0 }) (fun t => !(t.ctx 1).preemptReq) := by
  decide +kernel

/-- Package control with a translation of page 0x400 of region 5 held. -/
def tlb5 : State :=
  let s := ready []
  { s with pkg := { s.pkg with tlbiRegion := 5, tlbiVa := 0x400000, tlbiCount := 1 }, cores := [(0, { s.core 0 with tlb := [⟨5, 0x400, 1, 0x400, true, true, true, false⟩] })] }
theorem test_registers : leaves (exec .registerWrite { ready [] with move := Move.reg 0x3008 0x25 0xFF }) (fun t => (t.sched.queues.get 0).log2n == 5) ∧
    leaves (exec .tlbiGo tlb5) (fun t => t.pkg.tlbiBusy && t.pkg.tlbiNow == (5, 0x400000, 1) && t.pkg.tlbiCount == 0) ∧
    leaves (exec .tlbInvalidationDone { tlb5 with pkg := { tlb5.pkg with tlbiBusy := true, tlbiNow := (5, 0x400000, 1) } }) (fun t =>
      !t.pkg.tlbiBusy && (t.core 0).tlb.isEmpty) := by decide +kernel
/-- Operands that meet the hypotheses of `Obligations.SchedulerSteps`. -/
theorem test_witness_SchedulerSteps :
    let pkt := fun (l : List Nat) => ((served l []).nextEntry 3).getD ⟨0, 0, []⟩
    let next := fun (l : List Nat) => ((served l []).nextEntry 3).map fun p => (p.ty, p.plainBad, p.words.drop 2)
    let e := [4, 0x8000, 0x400100]
    let s := served launch2 [going true]
    let p := pkt launch2
    let q := pkt tiles2
    let r := region5
    (s.place queue3.base.toNat = .hbm) ∧
    (next [9] = some (9, false, List.replicate 6 0) ∧ next [7] = some (7, false, List.replicate 6 0) ∧
      next [6] = some (6, false, List.replicate 6 0)) ∧
    ({ queue3 with live := [0] }.live ≠ [] ∧ queue3.live = []) ∧
    ((served e []).eventPacket (pkt e) .both).toOption = some 0x400100 ∧ ((served e []).eventPacket (pkt e) .read).toOption = some 0x400100 ∧
    ((served [4, 0x9004, 0] []).eventPacket (pkt [4, 0x9004, 0]) .both).toOption = none ∧
    ((served [5, 2 ^ 48, 0] []).eventPacket (pkt [5, 2 ^ 48, 0]) .read).toOption = none ∧
    (({ s with tok := { s.tok with poison := [(0x8002, 0)] } } : State).poisonIn 0x400100 16 ≠ none ∧ s.poisonIn 0x400100 16 = none) ∧
    (¬(memRead s.mem 0x400100 8 ≥ memRead s.mem (0x400100 + 8) 8 % 2 ^ 32 ∨ 2 ^ 63 ≤ memRead s.mem (0x400100 + 8) 8)) ∧
    p.w 1 = 0x8000 ∧ (s.sheafHead r (p.w 2)).isSome = true ∧ p.w 0 / 2 ^ 10 % 64 = 0 ∧ p.w 3 % 2 = 0 ∧
    ([1, 2, 3, 4, 5, 6, 7].all fun j => decide (p.w j < 2 ^ 48)) = true ∧ (s.eventPa r (p.w 7) .both).isSome = true ∧ p.count = 2 ∧
    p.parent = 0 ∧ s.sched.launches.length < 4096 ∧ p.ty = 1 ∧ (s.virtRead r 1 (p.w 4) 1).isSome = true ∧
    (s.eventPa r (p.w 5) .read).isSome = true ∧ (s.eventPa r (p.w 6) .read).isSome = true ∧ (s.launchOf 1).isSome = true ∧
    q.ty = 2 ∧ q.w 4 % 16 = 0 ∧ q.w 5 < 2 ^ 14 ∧ q.w 6 = 0 ∧ (s.virtRead r 66 (q.w 4) (16 * q.count)).isSome = true ∧
    idsMeet 7 2 (q.w 5) q.count = true ∧ idsMeet 9 2 (q.w 5) q.count = false := by decide +kernel
theorem test_witness_SchedulerSteps_collective :
    let l := [3, 0x8000, 0x400800, 0x400000, 0x0000000700000040, 0, 0, 0x0100000000400100]
    let s := served l []
    let p := ((s.nextEntry 3).getD ⟨0, 0, []⟩)
    let r := region5
    p.ty = 3 ∧ p.collBad = false ∧ p.w 1 = 0x8000 ∧ (s.newestBytes r (p.w 2) (p.w 4 % 2 ^ 32)).map (·.length) = some 64 ∧
    s.eventPa r (p.w 7 % 2 ^ 48) .both = some 0x400100 ∧ s.fab.colls.length < 16 ∧ s.tok.poison = [] ∧
    leaves (exec .collective s) (fun t => readErr t == (1, 0) && t.fab.colls.map (·.collid) == [7]) = true := by decide +kernel
/-- The queue's header in memory, packets with a parent that is live or not, a buffer whose homes lack nothing, and ready
tasks for which no task is being pre-empted. -/
theorem test_witness_SchedulerSteps_parents :
    let live := served [7 + 2 ^ 16] [going true]
    let none' := served [7 + 9 * 2 ^ 16] [going true]
    let parent := fun (s : State) => ((s.nextEntry 3).map fun p => (p.ty, p.parent, (s.launchOf p.parent).isSome))
    let n := crowded.noteReady
    ((List.range 24).all fun j => plainPlace (live.place (0x400400 + j))) = true ∧ queue3.dev = true ∧
    parent live = some (7, 1, true) ∧ parent none' = some (7, 9, false) ∧
    live.homeMissing (live.newestLines region5 0x400800 64) false = none ∧ live.fab.colls = [] ∧
    (n.boundTasks.filter fun e => (n.ctx e.1).preemptReq || (n.ctx e.1).mode == .preempting) = [] ∧
    ((unserved (n.readyTasks.filter n.wantsRoom) []).map fun e => n.victim e) = [some 2] := by decide +kernel
theorem test_witness_SchedulerSteps_tasks :
    let s := ended (served [7] [])
    let l := s.sched.launches.headD (going false)
    let va := l.args.toNat + 2 ^ 48 - 8
    halted3.sched.queues.get 3 = { queue3 with halted := true } ∧ (queue3.halted = false) ∧
    s.launchOf 1 = some l ∧ l.count ≤ l.ended ∧ l.parent = 0 ∧ l.status = true ∧
    ((List.range 8).all fun i => (s.translate none l.region ((va + i) % 2 ^ 48) .write true).toOption == some (0x400900 + i) &&
      plainPlace (s.place (0x400900 + i))) = true ∧
    ((ready [going false]).noteReady.taskFor 0 (ready [going false]).noteReady.readyTasks).map (fun t => (t.order, t.index, t.saved)) = some (0, 0, false) ∧
    ((ready []).core 0).sheaves.find? (fun e => e.image == 0x400800 && e.id == 77) = some ⟨0x400800, 77, 8, 1⟩ ∧
    (saved.noteReady.taskFor 0 saved.noteReady.readyTasks).map (fun t => (t.index, t.saved)) = some (0, true) ∧
    (saved.sched.launches.all fun l => l.tasks.all fun e => match e.st with
      | .saved c _ => c.task.isSome
      | _ => false) = true ∧
    (crowded.noteReady.boundTasks.all fun e => !(crowded.noteReady.ctx e.1).preemptReq && (crowded.noteReady.ctx e.1).mode != .preempting) = true ∧
    (crowded.noteReady.readyTasks.any fun e => crowded.noteReady.wantsRoom e && crowded.noteReady.victim e == some 2) = true := by decide +kernel
theorem test_witness_SchedulerSteps_ends :
    let s := bound fun c => { c with mode := .exiting 3 false }
    let p := bound fun c => { c with mode := .preempting }
    let h := bound fun c => { c with mode := .exiting 3 false, halted := true }
    s.c.task = some ⟨1, 0, region5, 0, 0, (0x400800, 77)⟩ ∧ s.c.drained = true ∧
    ((s.bufferLines 0 s.c.seq).all fun l => s.canUse (.cd (Fin.ofNat 8 (0 / 4 / 40))) l true) = true ∧ s.c.mode = .exiting 3 false ∧ s.c.halted = false ∧
    s.c.queue = [] ∧ p.c.mode = .preempting ∧ p.c.phase = none ∧ h.c.halted = true ∧
    (ready []).pkg.tlbiBusy = false ∧ (ready []).move.flag = false ∧
    ({ tlb5 with pkg := { tlb5.pkg with tlbiBusy := true } } : State).pkg.tlbiBusy = true ∧
    ((0x3008 : Nat), (0x1F : Nat)) ∈ [(0xE00, 0x3FF), (0x3008, 0x1F)] := by decide +kernel
/-- The package fault, the cores of the first and the last TIMECMP, the home of an event, no child posted, no drift that a
release would log, and the premise about memory. -/
theorem test_witness_SchedulerSteps_premises :
    let e := [4, 0x8000, 0x400100]
    let all : State := { ready [] with pkg := { State.reset.pkg with stage := 4, cdMask := 0xFF } }
    ({ halted3 with pkg := { halted3.pkg with stage := 0xE } } : State).pkg.stage = 0xE ∧ halted3.pkg.stage ≠ 0xE ∧
    (ready []).coreHere 0 = true ∧ all.coreHere 319 = true ∧ eventLines 0x400100 = [0x8002] ∧
    (served e []).canUse ((served e []).homeOf 0x8002) 0x8002 true = true ∧
    (ended (served [7] [])).postedChild 1 = false ∧ (served ((1 + 2 ^ 16) :: launch2.tail) [going false]).postedChild 1 = true ∧
    (bound id).pkg.drifts = [] := by decide +kernel
theorem test_witness_SchedulerSteps_inv :
    [served launch2 [going true], served tiles2 [], served [4, 0x8000, 0x400100] [], served [5, 0x8000, 0x400100] [], halted3,
      ended (served [7] []), ready [going false], saved, crowded, bound id, tlb5].all
        (fun s => Memory.wf s.mem && !s.bundle.isOpen) = true := by decide +kernel

/-! ## Tokens: results worked by hand from R301 to R315 -/

/-- The package with coherence on, one memory-side die, and a token state; a step about an agent, another, and line 0x8002
of HBM. -/
def tokens (who peer : Agent) (f : Tok → Tok) : State :=
  let s := coherentPkg (ready [])
  { s with
    tok := f s.tok
    move := { Move.none with who := who, peer := peer, line := 0x8002 } }

/-- A need of compute die 0. -/
def need (write : Bool) (failed : Nat) : Need := ⟨.cd 0, 0x8002, write, [], 0, failed, false, false, none, []⟩

/-- Compute die 0 holds some tokens of the line, the owner token if `o`; memory-side die 0, its home, the rest. -/
def holding (n : Nat) (o : Bool) : LineTok := ⟨0x8002, [⟨.cd 0, n, o, true, false⟩, ⟨.md 0, 16 - n, !o, true, false⟩]⟩

/-- Two needs and the line as the home has it: it sends one token with the data for a read, all for a write. -/
theorem test_transient : leaves (exec .transientReadRequest (tokens (.cd 0) (.md 0) fun t => { t with needs := [need false 0] })) (fun t =>
      t.tok.msgs == [⟨.cd 0, 0x8002, 1, false, true, false⟩] && (t.holdOf (.md 0) 0x8002).count == 15) ∧
    leaves (exec .transientWriteRequest (tokens (.cd 0) (.md 0) fun t => { t with needs := [need true 0] })) (fun t =>
      t.tok.msgs == [⟨.cd 0, 0x8002, 16, true, true, false⟩] && (t.holdOf (.md 0) 0x8002).count == 0) := by decide +kernel
theorem test_arrives : leaves (exec .tokenArrival (tokens (.cd 0) .proxy fun t =>
      { t with needs := [need true 0], lines := [holding 3 false], msgs := [⟨.cd 0, 0x8002, 2, false, false, false⟩] }))
        (fun t => (t.holdOf (.cd 0) 0x8002).count == 5 && t.tok.msgs == []) ∧
    leaves (exec .tokenArrival (tokens (.cd 0) .proxy fun t => { t with msgs := [⟨.proxy, 0x8002, 2, false, false, false⟩] }))
        (fun t => t.tok.msgs == [⟨.md 0, 0x8002, 2, false, false, false⟩]) := by decide +kernel
theorem test_attempts_fail : leaves (exec .transientAttemptTimeout (tokens (.cd 0) .proxy fun t => { t with needs := [need true 0] })) (fun t =>
      t.tok.needs.map (fun n => (n.failed, n.persistent)) == [(1, false)] && decide (2000 ≤ t.time)) ∧
    leaves (exec .transientAttemptTimeout (tokens (.cd 0) .proxy fun t => { t with needs := [need true 1] })) (fun t =>
      t.tok.needs.map (·.persistent) == [true]) := by decide +kernel

/-- A persistent request of compute die 0 at the home. -/
def request : PEntry := ⟨.md 0, 0, .cd 0, 0x8002, 0, true, [], false, [], 0⟩
theorem test_persistent : leaves (exec .persistentRequest (tokens (.cd 0) .proxy fun t => { t with needs := [need true 1] })) (fun t =>
      t.tok.table == [request]) ∧
    leaves (exec .persistentActivation (tokens (.md 0) (.md 0) fun t => { t with table := [request], lines := [holding 3 false] })) (fun t =>
      t.tok.msgs == [⟨.cd 0, 0x8002, 13, true, true, false⟩]) ∧
    leaves (exec .persistentDeactivation (tokens (.cd 0) (.md 0) fun t => { t with table := [request], lines := [holding 16 true] })) (fun t =>
      t.tok.table.map (fun e => (e.closing, e.unacked)) == [(true, [.cd 0, .md 0, .proxy])]) ∧
    leaves (exec .deactivationAck (tokens (.cd 0) (.md 0) fun t => { t with table := [{ request with closing := true }] })) (fun t =>
      t.tok.table == []) := by decide +kernel
theorem test_evict_recall : leaves (exec .lineEviction (tokens (.cd 0) .proxy fun t => { t with lines := [holding 3 false] })) (fun t =>
      t.tok.msgs == [⟨.md 0, 0x8002, 3, false, false, false⟩]) ∧
    leaves (exec .tagRecall (tokens (.cd 0) .proxy fun t => { t with lines := [holding 3 false] })) (fun t =>
      t.tok.needs.map (fun n => (n.who, n.write, n.persistent)) == [(.md 0, true, true)]) := by decide +kernel

/-- A step of the host about 8 bytes at 0x400100, with no coherence needed. -/
def hosted (m : Move) : State := { ready [] with move := m }
theorem test_host : leaves (exec .hostRead (hosted { Move.none with n := 0x400100, x := 2 })) (fun t => t.pkg.hostData == [1, 0] && !t.pkg.hostPoison) ∧
    leaves (exec .hostWrite (hosted { Move.none with n := 0x400100, bytes := [9, 8] })) (fun t => memRead t.mem 0x400100 2 == 0x0809) ∧
    leaves (exec .hostBisnpResponse (tokens .proxy .proxy fun t => { t with hostCached := [0x8002], bisnp := [0x8002] })) (fun t =>
      t.tok.bisnp == [] && t.tok.hostCached == []) ∧
    leaves (exec .hostSnoop { hosted { Move.none with line := hostLine } with
      tok := { Tok.fresh with hostHeld := [(hostLine, [7])] } }) (fun t => t.pkg.hostData == [7] && t.tok.hostHeld.isEmpty) ∧
    leaves (exec .hostCxlCacheResponse { hosted { Move.none with line := hostLine, bytes := [7] } with
      tok := { Tok.fresh with hostAsked := [hostLine] } }) (fun t => t.tok.hostHeld == [(hostLine, [7])]) := by decide +kernel
theorem test_ecc : leaves (exec .tokenEccError { tokens (.md 0) .proxy id with move := { Move.none with line := 0x8002, flag := true } })
      (fun t => t.tok.corrected == 1) ∧
    leaves (exec .tokenEccError (tokens (.md 0) .proxy fun t => { t with lines := [holding 3 true] })) (fun t =>
      memRead t.mem 0x400100 8 == 0 && t.tok.poison == [(0x8002, 0)] && (t.holdOf (.md 0) 0x8002).count == 16) := by decide +kernel
theorem test_dies : leaves (exec .gracefulDieReset (tokens .proxy .proxy fun t => { t with lines := [holding 3 true] })) (fun t =>
      t.pkg.resetting == 1 && t.tok.msgs == [⟨.md 0, 0x8002, 3, true, true, false⟩]) ∧
    leaves (exec .dieRejoin { tokens .proxy .proxy id with pkg := { (coherentPkg (ready [])).pkg with resetting := 1 } }) (fun t =>
      t.pkg.resetting == 0) ∧
    leaves (exec .dieLost { coherentPkg (bound id) with move := Move.ctx 0 0 }) (fun t => t.pkg.lost == 1 && (t.ctx 0).task.isNone &&
      t.sched.launches.map (fun l => (l.err, l.ended)) == [(true, 1)] && t.pkg.msix == [(0, 65)]) := by decide +kernel
/-- The home of the line recovers it as poison. -/
def recover : State := tokens (.md 0) .proxy fun t =>
  { t with
    homes := t.homes.set 0 ⟨0, true⟩
    lines := [⟨0x8002, [⟨.md 0, 13, false, true, false⟩]⟩] }
theorem test_recovery : leaves (exec .tokenRecoveryRegenerate recover) (fun t =>
    !(t.tok.homes.get 0).recovering && t.tok.poison == [(0x8002, 0)] && t.tok.lines == []) := by decide +kernel
/-- Operands that meet the hypotheses of `Obligations.TokenSteps`. -/
theorem test_witness_TokenSteps_requests :
    let s := tokens (.cd 0) (.md 0) fun t => { t with needs := [need true 1], lines := [holding 3 false] }
    let p := tokens (.cd 0) .proxy fun t => { t with
      needs := [need true 0]
      hostCached := [0x8002]
      lines := [⟨0x8002, [⟨.proxy, 16, true, true, false⟩]⟩] }
    let m : TokMsg := ⟨.cd 0, 0x8002, 2, false, false, false⟩
    let away := tokens (.cd 0) .proxy fun t => { t with table := [{ request with seen := [.md 0, .cd 0] }] }
    s.needOf (.cd 0) 0x8002 = some (need true 1) ∧ s.recovering 0x8002 = false ∧ s.agents = [.cd 0, .md 0, .proxy] ∧
    (need false 0).write = false ∧ (p.holdOf .proxy 0x8002).count = 16 ∧ p.needOf (.cd 0) 0x8002 = some (need true 0) ∧
    ((tokens (.cd 0) .proxy id).holdOf .proxy 0x8002).count = 0 ∧
    (s.holdOf (.md 0) 0x8002 = ⟨.md 0, 13, true, true, false⟩ ∧ s.holdOf (.cd 0) 0x8002 = ⟨.cd 0, 3, false, true, false⟩) ∧
    ((tokens (.cd 0) (.md 0) fun t => { t with lines := [holding 15 false] }).holdOf (.md 0) 0x8002 = ⟨.md 0, 1, true, true, false⟩) ∧
    (s.tok.lines.all fun l => l.holds.all fun h => h.who != .md 0 || h.count != 16) = true ∧
    ([m][0]? = some m ∧ [m].eraseIdx 0 = []) ∧ (away.activeFor (.md 0) 0x8002 = some { request with seen := [.md 0, .cd 0] }) ∧
    (away.activeFor (.cd 0) 0x8002 = some { request with seen := [.md 0, .cd 0] }) ∧ s.activeFor (.cd 0) 0x8002 = none ∧
    s.activeFor .proxy 0x8002 = none ∧ (s.holdOf .proxy 0x8002).count = 0 ∧ s.needOf .proxy 0x8002 = none ∧
    s.canUse (.cd 0) 0x8002 true = false ∧ (s.tok.table.filter fun e => e.home == .md 0 && e.who == .cd 0) = [] ∧
    6 ≤ (List.replicate 6 request).length := by decide +kernel
theorem test_witness_TokenSteps_persistent :
    let s := tokens (.md 0) (.md 0) fun t => { t with table := [request], lines := [holding 3 false] }
    let w := tokens (.cd 0) (.md 0) fun t => { t with table := [request], lines := [holding 16 true] }
    let c := tokens (.cd 0) (.md 0) fun t => { t with table := [{ request with closing := true }] }
    s.entryOf (.md 0) 0 = some request ∧ request.active = true ∧ Agent.md 0 ∉ request.seen ∧ request.closing = false ∧ Agent.md 0 ∈ s.agents ∧
    (w.holdOf (.cd 0) 0x8002).count = 16 ∧ c.entryOf (.md 0) 0 = some { request with closing := true } ∧
    ({ request with closing := true } : PEntry).unacked = [] ∧ (s.holdOf (.md 0) 0x8002).count ≠ 0 ∧ s.needOf (.md 0) 0x8002 = none := by
  decide +kernel
theorem test_witness_TokenSteps_host :
    let s := coherentPkg (hosted { Move.none with n := 0x400100, x := 2, bytes := [9, 8] })
    let t := tokens .proxy .proxy fun t => { t with hostCached := [0x8002], bisnp := [0x8002] }
    let h : State := { hosted { Move.none with line := hostLine } with tok := { Tok.fresh with hostHeld := [(hostLine, [7])] } }
    (s.pkg.hdmBase ≤ 0x400100 ∧ 0x400100 + 2 ≤ s.pkg.hdmBase + s.pkg.hbmBytes) ∧ ¬(0x400100 + 2 ^ 28 ≤ s.pkg.hdmBase + s.pkg.hbmBytes) ∧
    linesOf 0x400100 2 = [0x8002] ∧ s.canUse .proxy 0x8002 true = false ∧
    (hosted { Move.none with n := 0x400100, x := 2 }).canUse .proxy 0x8002 true = true ∧ 0x8002 ∈ t.tok.bisnp ∧
    t.recovering 0x8002 = false ∧ hostLine ≤ h.move.line ∧ h.canUse .proxy hostLine true = true ∧
    h.tok.hostHeld.find? (fun e => e.1 == hostLine) = some (hostLine, [7]) ∧ s.tokened 0x8002 = true := by decide +kernel
theorem test_witness_TokenSteps_dies :
    let s := tokens .proxy .proxy fun t => { t with lines := [holding 0 false] }
    let b := coherentPkg (bound id)
    Agent.cd 0 ∈ s.agents ∧ s.dieTasks 0 = [] ∧ b.dieTasks 0 ≠ [] ∧ (b.ctx 0).task.isSome = true ∧ s.mdPresent ≠ [] ∧
    ({ s with pkg := { s.pkg with resetting := 1 } } : State).pkg.resetting.getLsbD 0 = true ∧
    (s.tok.lines.all fun l => l.holds.all fun k => k.who != .cd 0 || k.count == 0) = true ∧ s.tok.msgs = [] ∧ s.tok.needs = [] ∧
    Memory.wf s.mem = true ∧ (recover.tok.homes.get 0).recovering = true ∧ homeAgent 0 = .md 0 ∧ recover.tok.msgs = [] ∧
    (recover.tok.lines.all fun l => l.holds.all fun a => a.who == .md 0) = true ∧ recover.homeOf 0x8002 = .md 0 := by decide +kernel

/-- An agent that gathers a line for its own active request; the host's accesses to package control, refused and not; a
request that still wants its line, and ones that do not. -/
theorem test_witness_TokenSteps_more :
    let g := tokens (.cd 0) (.cd 1) fun t => { t with table := [{ request with who := .cd 1 }], needs := [need false 0] }
    let w := tokens (.cd 0) (.md 0) fun t => { t with table := [request], lines := [holding 16 true], needs := [need true 1] }
    let m := tokens (.cd 0) (.md 0) fun t => { t with needs := [{ need true 1 with met := true }] }
    let h := tokens (.cd 0) .proxy fun t => { t with hostCached := [0x8002], lines := [⟨0x8002, [⟨.proxy, 16, true, true, false⟩]⟩] }
    let f := tokens (.cd 0) .proxy id
    (g.gathers (.cd 1) 0x8002 = true ∧ w.gathers (.md 0) 0x8002 = false) ∧
    (f.askHost 0x8002 = none ∧ h.askHost 0x8002 ≠ none ∧ (h.holdOf .proxy 0x8002).count ≠ 0 ∧ 0x8002 ∈ h.tok.hostCached) ∧
    (w.needOf (.cd 0) 0x8002 = some (need true 1) ∧ (need true 1).met = false ∧ w.move.flag = false) ∧
    (m.needOf (.cd 0) 0x8002 = some { need true 1 with met := true }) ∧
    (f.hostRefused 0 0x4000 8 false = true ∧ f.hostRefused 0 0x4000 8 true = false ∧ f.hostRefused 0 0x2000 8 true = true ∧
      f.hostRefused 0 0x2000 8 false = false) ∧
    f.tokened 0x8002 = true ∧ f.activeFor (.md 0) 0x8002 = none ∧ (f.tok.table.all fun e => e.line != 0x8002) = true := by decide +kernel
/-- A function's BAR0 where no firmware has passed, an access that no function sees, HDM before stage 4, what the proxy owns,
a write that its line still awaits at another agent than the home, and the premise about memory. -/
theorem test_witness_TokenSteps_premises :
    let f := tokens (.cd 0) .proxy id
    let z := hosted { Move.none with n := 0x400100, x := 2, val := 3 }
    let o := tokens .proxy .proxy fun t => { t with lines := [⟨0x8002, [⟨.proxy, 16, true, true, false⟩]⟩] }
    ({ z with pkg := { z.pkg with stage := 0xF } } : State).pkg.stage = 0xF ∧ z.move.val.toNat - 1 ≠ 0 ∧
    f.fnView 0 0x4000 = true ∧ f.fnView 2 0x1000 = false ∧ z.pkg.stage = 1 ∧ f.fullOn = true ∧
    ({ z with pkg := { z.pkg with stage := 2 } } : State).fullOn = false ∧ o.proxyOwns 0x8002 = true ∧ f.proxyOwns 0x8002 = false ∧
    ((need true 1).write = true ∧ Agent.cd 0 ≠ request.home) ∧
    ([f, o, z, recover].all fun s => Memory.wf s.mem && !s.bundle.isOpen) = true := by decide +kernel
/-- R148: a host's read of the write-only register completes as an unsupported request, and its read of CAPS goes on. -/
theorem test_host_refused : leaves (exec .hostRead (hosted { Move.none with n := 0x4000, x := 8, val := 1 })) (·.pkg.hostUr) ∧
    leaves (exec .hostRead (hosted { Move.none with n := 0x2000, x := 8, val := 1 })) (fun t => !t.pkg.hostUr && t.pkg.hostData.length == 8) := by
  decide +kernel

/-! ## The package and its monitors: results worked by hand from R442 to R467 -/

/-- A step about the package. -/
def pkg (f : Pkg → Pkg) (m : Move) : State :=
  let s := ready []
  { s with
    pkg := f s.pkg
    move := m }

/-- Firmware that passes, version 3; and training that finds dies 0 and 1 of each kind, a port, and the pod's TIME. -/
def firmware : Firmware := ⟨true, true, 3, 2, 7, false⟩
def trained : Trained := ⟨3, 3, true, true, 0x101, 2 ^ 40, 2 ^ 41, some 5000⟩

theorem test_package_reset : leaves (exec .packageReset (pkg id { Move.none with fw := firmware })) (fun t =>
      (t.pkg.stage, t.pkg.reason, t.pkg.svn, t.pkg.chipId) == (1, 0, 3, 7) && t.mem.isEmpty) ∧
    leaves (exec .packageReset (pkg id { Move.none with fw := { firmware with minSvn := 4 } })) (fun t =>
      (t.pkg.stage, t.pkg.reason) == (0xF, 3)) := by decide +kernel
theorem test_stages : leaves (exec .startctlGo (pkg id Move.none)) (fun t => t.pkg.go) ∧
    leaves (exec .stageAdvance (pkg (fun p => { p with go := true }) Move.none)) (fun t => t.pkg.stage == 2 && t.pkg.msix == [(0, 66)]) ∧
    leaves (exec .stageAdvance (pkg (fun p => { p with stage := 2 }) { Move.none with trained := { trained with pd0 := false } })) (fun t =>
      (t.pkg.stage, t.pkg.reason) == (0xF, 0x10)) ∧
    leaves (exec .stageAdvance (pkg (fun p => { p with stage := 3, mdMask := 3, startChip := 9 }) { Move.none with trained := trained })) (fun t =>
      (t.pkg.stage, t.pkg.clock, t.pkg.chipId) == (4, 2000, 9) && t.pkg.hbmBytes == 2 ^ 37 && t.pkg.ports == 1 && t.time == 5000) ∧
    leaves (exec .packageFault (pkg id { Move.none with n := 0x21 })) (fun t => (t.pkg.stage, t.pkg.reason) == (0xE, 0x21) &&
      (t.sched.queues.get 9).halted) := by decide +kernel
theorem test_time_and_power : leaves (exec .podTimeRealign (pkg (fun p => { p with ports := 1 }) { Move.none with n := 20000, val := 19000 }))
      (fun t => t.time == 19998) ∧
    leaves (exec .slewInterval (pkg id { Move.none with n := 5000 })) (fun t => (t.pkg.slewLimit, t.pkg.slewEstimate) == (200, 200)) ∧
    leaves (exec .shapingWindow (pkg id Move.none)) (fun t => (t.core 0).window == 1 && t.time == 1000) := by decide +kernel

/-- Queue 3 serves virtual function 2, whose root block is 0x8000. -/
def worlds : State :=
  let s := pkg (fun p => { p with fnRoots := [(2, 0x8000)] }) (Move.ctx 2 0)
  { s with sched := { s.sched with queues := s.sched.queues.set 3 { queue3 with fn := 2 } } }
theorem test_world_switch : leaves (exec .worldSwitch worlds) (fun t => t.pkg.fn == 2 && t.pkg.fnSince == 1000000) := by decide +kernel

/-- A trace record in die 0's FIFO, with a ring of 2^7 records at 0x600000 or none. -/
def traced (n : BitVec 5) : State :=
  pkg (fun p => { p with traces := p.traces.set 0 ⟨[⟨3, 4, 0, 0, false, 1, 0x400000, 0, 9, 0⟩], ⟨0x600000, n, 2, 1, 0⟩, ⟨0, 0, 0, 0, 0⟩⟩ }) Move.none
theorem test_trace_ring : leaves (exec .traceFifoDrain (traced 7)) (fun t => memGet t.mem 0x600040 == 3 && (t.pkg.traces.get 0).ring0.head == 3) ∧
    leaves (exec .traceFifoDrain (traced 0)) (fun t => (t.pkg.traces.get 0).ring0.lost == 1 && (t.pkg.traces.get 0).fifo.isEmpty) ∧
    leaves (exec .ringReconfigure { traced 7 with move := Move.reg 0x30008 9 0xFF }) (fun t => (t.pkg.traces.get 0).ring0 == ⟨0x600000, 9, 0, 0, 0⟩) := by
  decide +kernel

/-- Core counter 1, which counts event 0x000D of context 0, and die counter 5, which counts event 0x0100, at their last value,
with an interrupt to context 0. -/
def counting : State :=
  let s := bound id
  { s with
    cores := [(0, { Core.fresh with evsel := Core.fresh.evsel.set 1 0xC10000000D, evcnt := Core.fresh.evcnt.set 1 0xFFFFFFFFFFFF })]
    pkg := { s.pkg with dctrs := [(5, ⟨0xC000000000000100, 0xFFFFFFFFFFFF⟩)] }
    move := Move.ctx 0 1 }
/-- The same with two events of this clock counted. -/
def counted2 : State := { counting with pkg := { counting.pkg with counted := [⟨counting.pkg.tick, 0, 1, 2⟩] } }
theorem test_wraps : leaves (exec .counterWrap counting) (fun t => ((t.core 0).evcnt.get 1, (t.core 0).evsel.get 1) == (0, 0x1C10000000D) &&
      t.c.ipend.any fun e => e.1 == 0x83) ∧
    leaves (exec .counterWrap counted2) (fun t => (t.core 0).evcnt.get 1 == 1 && (t.core 0).evcnt.get 0 == 0) ∧
    leaves (exec .dieCounterWrap { counting with move := Move.ctx 0 5 }) (fun t => t.dctr 5 == ⟨0xC000000000000100, 0x8000000000000000⟩ &&
      t.c.ipend.any fun e => e.1 == 0x83) := by decide +kernel
/-- Operands that meet the hypotheses of `Obligations.PackageSteps`. -/
theorem test_witness_PackageSteps :
    let t := traced 7
    let r := (t.pkg.traces.get 0).ring0
    let q := worlds.sched.queues.get 3
    let e := (counting.core 0).evsel.get 1
    let d := counting.dctr 5
    firmware.ecdsa = true ∧ firmware.lms = true ∧ firmware.minSvn ≤ firmware.svn ∧ ({ firmware with minSvn := 4 } : Firmware).svn < 4 ∧
    State.reset.pkg.stage = 1 ∧ State.reset.sched.launches = [] ∧ (trained.cdMask.getLsbD 0 = true ∧ trained.pd0 = true ∧
      trained.mdMask &&& 0xFF ≠ 0) ∧ (trained.ports ≠ 0 ∧ trained.podTime = some 5000 ∧ State.reset.time ≤ 5000) ∧
    ((ready []).time + 20000 - 2 ≤ 20000 ∧ 20000 ≤ (ready []).time + 20000 + 2) ∧
    (2 ≠ worlds.pkg.fn ∧ 2 ∈ worlds.functions ∧ q.fn = 2 ∧ q.en = true ∧ (worlds.queueIdx q).1 ≠ (worlds.queueIdx q).2) ∧
    (t.pkg.traces.get 0).fifo ≠ [] ∧ ¬(7 = 0 ∨ 2 ^ 7 ≤ (r.head - r.tail).toNat) ∧ (r.head - r.tail).toNat = 1 ∧
    t.place (0x600000 + 32 * 2) = .hbm ∧ ((ready []).pkg.traces.get 0).fifo = [] ∧ (0x30008 : Nat) = 0x30000 + 0x100 * 0 + 0x40 * 0 + 8 * 1 ∧
    t.canUse (t.homeOf (0x600040 / 128)) (0x600040 / 128) true = true ∧
    (e.toNat % 2 ^ 16 = 0x0D ∧ e.getLsbD 38 = true ∧ ((counting.core 0).evcnt.get 1).toNat = 2 ^ 48 - 1 ∧ bitsOf e 36 2 = 0) ∧
    ((counting.ctx 0).task.isSome = true ∧ counting.countsFor 0 0x0D 1 = true ∧ counting.pkg.counted = []) ∧
    ((∀ k ∈ counted2.pkg.counted, (k.core = 0 ∧ k.ctr = 1) ∧ k.clock ≤ counted2.pkg.tick) ∧ (counted2.pkg.counted.map (·.n)).sum = 2) ∧
    (d.cfg.getLsbD 63 = true ∧ d.cfg.toNat % 2 ^ 16 = 0x100 ∧ d.cnt.toNat % 2 ^ 48 = 2 ^ 48 - 1 ∧ counting.admits d.cfg none = true) ∧
    (d.cfg.getLsbD 62 = true ∧ bitsOf d.cfg 60 2 = 0 ∧ (counting.dctr 6).cfg.getLsbD 63 = false ∧
      ((counting.core 0).evcnt.get 2).toNat ≠ 2 ^ 48 - 1) := by decide +kernel
/-- What Watia assigns: nothing, a function with a queue, and two functions whose root regions share a core. -/
theorem test_witness_PackageSteps_functions :
    let one : List FnAssign := [⟨2, 0x8000, [3]⟩]
    let two : List FnAssign := [⟨2, 0x8000, [3]⟩, ⟨1, 0x8000, []⟩]
    (ready []).move.fns = none ∧ (ready []).fnsOk one = true ∧ (ready []).fnsOk two = false ∧
    (((ready []).assignFns (some one)).sched.queues.get 3).fn = 2 ∧ (((ready []).assignFns (some one)).sched.queues.get 4).fn = 0 ∧
    2 ∈ ((ready []).assignFns (some one)).functions ∧ (trained.tier0 = 2 ^ 40 ∧ trained.tier1 = 2 ^ 41 ∧ trained.ports &&& 0xFF = 1) := by
  decide +kernel

/-! ## The fabric: results worked by hand from R408 to R431 -/

/-- Chip 9 is reached by port 2, and chip 0, this one, within the package; ports 2 and 3 are up. -/
def linked (s : State) : State :=
  { closed s with
    fab := { s.fab with routes := [(9, 0x2100, 0)] }
    pkg := { s.pkg with ports := 0xC } }

/-- A command of the fabric at the head of context 0's queue: a send of the 8 bytes at scratchpad offset 0x100 to 0x400200 of
chip 9, and what `f` makes of it. -/
def sending (f : Cmd → Cmd) : State :=
  linked (commanded fun q => f { q with op := 0x38, chip := 9, ctl := 0, started := true })
theorem test_send : leaves (exec .sendTransmit (sending id)) (fun t =>
      t.c.queue.map (fun q => q.tx.map (·.index)) == [[0]] && t.fab.out.map (fun e => (e.1, e.2.dst, e.2.route, e.2.last, leNat e.2.payload)) ==
        [(2, 0x400200, [0], true, 0x1122334455667788)]) ∧
    leaves (exec .rxsetPerform (sending fun q => { q with op := 0x3A, rx := 5, ctl := 7 })) (fun t =>
      t.c.queue == [] && t.rxOf t.c.region.id 5 == 7) ∧
    leaves (exec .rpostPerform (sending fun q => { q with op := 0x3C, rx := 5, ctl := 7, chip := 0 })) (fun t =>
      t.c.queue == [] && t.rxOf t.c.region.id 5 == 7) ∧
    leaves (exec .rpostPerform (sending fun q => { q with op := 0x3C, rx := 5, ctl := 7 })) (fun t =>
      t.fab.out.map (fun e => (e.1, e.2.kind, e.2.flagV, e.2.route)) == [(2, 1, 7, [0x0305])]) ∧
    leaves (exec .sendtArm (sending fun q => { q with op := 0x39, ctl := 1 })) (fun t =>
      t.c.queue == [] && t.fab.armed.length == 1 && t.c.regs.sget 7 == 0) := by decide +kernel
/-- The send with its packet in flight under tag 6. -/
def inFlight : State := sending fun q => { q with tx := [⟨0, 6, 0⟩] }
theorem test_send_ends : leaves (exec .sendAckTimeout { inFlight with move := Move.ctx 6 0 }) (fun t => decide (1000000 ≤ t.time) &&
    t.c.queue.map (·.stop) == [some (0x2D, 0)]) := by decide +kernel

/-- A packet of three bytes to 0x400200 of region 5, from this chip to itself. -/
def packet (f : Packet → Packet) : Packet :=
  f { Packet.blank with last := true, region := 5, dst := 0x400200, route := [0], seq := 6, payload := [1, 2, 3] }

/-- The packet within the package, or at port 3, with launches of region 5. -/
def arriving (p : Packet) : State :=
  let s := linked (ready [going false])
  { s with
    fab := { s.fab with loop := [p] }
    move := { Move.none with pkt := p } }
theorem test_deliver : leaves (exec .routeDeliver (arriving (packet id))) (fun t => memRead t.mem 0x400200 3 == 0x030201 &&
      t.fab.loop.map (fun a => (a.kind, a.seq, a.flagV)) == [(4, 6, 3)]) ∧
    leaves (exec .routeDeliverCounter (arriving (packet fun p => { p with route := [0x0304] }))) (fun t =>
      memRead t.mem 0x400200 3 == 0x030201 && t.rxOf 5 4 == 1) ∧
    leaves (exec .routeDeliverForward (arriving (packet fun p => { p with route := [0x2400, 0], dstChip := 9 }))) (fun t =>
      memRead t.mem 0x400200 3 == 0x030201 && t.fab.out.map (fun e => (e.1, e.2.hops, e.2.route)) == [(2, 1, [0])]) := by decide +kernel
theorem test_forward : leaves (exec .routeForward { arriving (packet id) with
      move := { Move.none with port := some 3, pkt := packet fun p => { p with route := [0x2100, 0], dstChip := 9, hops := 1 } } })
        (fun t => t.fab.out.map (fun e => (e.1, e.2.hops, e.2.route)) == [(2, 2, [0])]) ∧
    leaves (exec .routeDeliver (arriving (packet fun p => { p with dst := 0x900000 }))) (fun t =>
      t.fab.errs0.map (·.reason) == [6] && t.fab.loop.map (fun a => (a.kind, a.flagV)) == [(5, 0x2A)]) ∧
    leaves (exec .routeDeliver (arriving (packet fun p => { p with route := [0, 0] }))) (fun t =>
      t.fab.errs0.map (·.reason) == [4] && t.fab.loop.map (fun a => (a.kind, a.flagV)) == [(5, 0x28)]) := by decide +kernel

/-- A store to tile task 7 of the tests' tiles. -/
def tilePacket : Packet := packet fun p => { p with route := [0x0500], dst := 7, payload := [] }
def tileArriving : State :=
  let s := arriving tilePacket
  { s with sched := { s.sched with launches := [going true] } }
theorem test_tile_arrival : leaves (exec .routeTileArrival tileArriving) (fun t =>
    t.sched.launches.map (fun l => l.tasks.map (·.st)) == [[.waiting 0 (some 0), .waiting 0 (some 0)]] &&
      t.fab.loop.map (·.kind) == [4]) := by decide +kernel

/-- A contribution of the i32 5 to collective 8 at a hop of two, summed, to go out of port 2 and end at chip 9. -/
def part (src : BitVec 12) (v : Byte) (route : List (BitVec 16)) : Packet :=
  packet fun p => { p with srcChip := src, dstChip := 9, collid := 8, seq := 0, redType := 2, payload := [v, 0, 0, 0], route := route }

/-- The hop's staging of the chunk, with the contribution of chip 1. -/
def stage8 : Stage := ⟨8, 0, 2, 2, [part 1 3 [0]], 100000, false⟩
def gathering : State :=
  let s := arriving (part 2 5 [0x2202, 0])
  { s with fab := { s.fab with stages := [stage8], windows := [⟨8, 1, 0, 1⟩] } }
theorem test_reduce : leaves (exec .routeReduce gathering) (fun t =>
      t.fab.out.map (fun e => (e.1, e.2.payload, e.2.srcChip, e.2.route)) == [(2, [8, 0, 0, 0], 0, [0])]) ∧
    leaves (exec .stagingLeaseExpiry { gathering with move := Move.ctx 8 0 }) (fun t => t.fab.stages.isEmpty &&
      (t.windowOf 8 1).bits == 0 && t.time == 100000) := by decide +kernel

/-- Collective 8 of this chip, its chunk in flight. -/
def coll8 : Coll := ⟨8, 3, 0, { region5 with collTimeout := 1 }, 0x400100, 0, [(part 0 5 [0x2100, 0], 1)], false⟩
def collecting (p : Packet) : State :=
  let s := arriving p
  { s with fab := { s.fab with colls := [coll8] } }

/-- An answer to chunk 0 of collective 8, or to tag 6. -/
def reply (kind : BitVec 4) (v : BitVec 64) (coll : BitVec 32) : Packet :=
  packet fun p => { p with kind := kind, payload := [], flagV := v, collid := coll, seq := if coll = 0 then 6 else 0 }

/-- An answer to the send in flight. -/
def answering (p : Packet) : State :=
  { inFlight with
    fab := { inFlight.fab with loop := [p] }
    move := { Move.none with pkt := p } }
theorem test_answers : leaves (exec .acknowledgement (answering (reply 4 8 0))) (fun t => t.c.queue.map (fun q => (q.done, q.finished)) == [(8, true)]) ∧
    leaves (exec .refusal (answering (reply 5 0x29 0))) (fun t => t.c.queue.map (·.stop) == [some (0x29, 0)]) ∧
    leaves (exec .acknowledgement (collecting (reply 4 4 8))) (fun t => t.fab.colls.isEmpty && memRead t.mem 0x400100 8 == 2) ∧
    leaves (exec .refusal (collecting (reply 5 0x2C 8))) (fun t => t.fab.out.map (·.1) == [2]) ∧
    leaves (exec .lapseNotice (collecting (reply 6 0 8))) (fun t => t.fab.out.map (·.1) == [2]) := by decide +kernel
theorem test_collective_times : leaves (exec .chunkRetransmitTimeout { collecting (reply 6 0 8) with move := Move.ctx 8 0 }) (fun t =>
      t.fab.out.map (·.1) == [2] && t.time == 200000) ∧
    leaves (exec .collectiveTimeout { collecting (reply 6 0 8) with move := Move.ctx 8 0 }) (fun t =>
      t.fab.colls.isEmpty && memRead t.mem 0x400108 8 == 2 ^ 63 + 2 && t.time == 1000000) := by decide +kernel

/-- Barrier 4: this chip alone, rank 2, its one context arrived; a context waits at generation 0. -/
def bar4 : Barrier := { Barrier.fresh with en := true, region := 5, localN := 1, arrived := 1, rank := 2, stagger := 300 }
def atBarrier (p : Packet) (b : Barrier) : State :=
  let s := arriving p
  { s with
    c := { Ctx.fresh with task := some loadTask, barrier := some ⟨4, 0, false⟩ }
    fab := { s.fab with bars := [(4, b)] } }

/-- An arrival at barrier 4, and its release for time 4,000 with a stagger of 300 ns. -/
def arrival : Packet := packet fun p => { p with kind := 2, dst := 4, seq := 0, payload := [] }
def release : Packet := packet fun p => { p with kind := 3, dst := 4, seq := 0, payload := [], flagA := 300, flagV := 4000 }
theorem test_barriers : leaves (exec .barrierArrival (atBarrier arrival bar4)) (fun t =>
      t.fab.loop.map (fun r => (r.kind, r.flagA, r.flagV)) == [(3, 300, 4000)]) ∧
    leaves (exec .barrierRelease (atBarrier release bar4)) (fun t => (t.barrierOf 4).release == [(4600, 0)] && (t.barrierOf 4).gen == 1) ∧
    leaves (exec .barrierReleaseInstant { atBarrier release { bar4 with release := [(4600, 0)] } with move := Move.ctx 4 0 }) (fun t =>
      t.c.barrier == some ⟨4, 0, true⟩) := by decide +kernel
theorem test_ports : leaves (exec .portFailure { linked (ready []) with move := Move.ctx 3 0 }) (fun t => t.pkg.ports == 4 &&
      t.fab.errs0.map (fun e => (e.reason, e.port)) == [(9, 3)]) ∧
    leaves (exec .portRetrained { coherentPkg (ready []) with move := Move.ctx 3 0 }) (fun t => t.pkg.ports == 8) := by decide +kernel
/-- Operands that meet the hypotheses of `Obligations.FabricSteps`. -/
theorem test_witness_FabricSteps_commands :
    let s := sending id
    let q := s.c.queue.headD (s.bareCmd 0)
    let k := (commanded fun q => { q with done := 0 })
    let far := withC (moved copying (Move.ctx 0 0)) fun c => { c with queue := [{ copying.command 0x10 ops 0 with dstReg := 0x8000000000000200 }] }
    let h := far.c.queue.headD (far.bareCmd 0)
    let flagged := (commanded fun q => { q with done := 8, finished := true, flags := 2, dstGen := { q.dstGen with flagA := 0x400300, flagV := 9 } })
    let g := flagged.c.queue.headD (flagged.bareCmd 0)
    let arm := { q with op := 0x39, ctl := 1 }
    (k.c.halted = false ∧ h.op = 0x10 ∧ h.latent = false ∧ h.flag = false ∧ h.started = false ∧ h.finished = false ∧ h.stop = none ∧
      h.done = 0 ∧ far.exhausted far.c.region 0 = false ∧ h.srcGen.pitch = 0 ∧ h.dstGen.pitch = 0 ∧ h.srcReg.toNat = 2 ^ 63 + 0x100 ∧
      h.dstReg.toNat = 2 ^ 63 + 0x200 ∧ h.len.toNat = 8) ∧
    (far.c.mode = .run ∧ g.finished = true ∧ g.flag = true ∧ g.isCopy = true ∧ flagged.wwrites = [] ∧
      flagged.place (flagged.flagPa 0 g) = .hbm ∧ flagged.flagPa 0 g = 0x400300 ∧ g.flagged = false ∧
      flagged.canUse (.cd 0) (0x400300 / 128) true = true) ∧
    (q.op = 0x38 ∧ q.started = true ∧ q.srcGen.pitch = 0 ∧ q.srcReg.toNat = 2 ^ 63 + 0x100 ∧ q.len.toNat = 8 ∧ s.coherent = false ∧
      s.routeTo q.chip q.rxWanted = some [0x2100, 0] ∧ entOp 0x2100 = 1 ∧ s.portUp (entPort 0x2100) = true ∧ q.nextPacket = 0 ∧
      q.packets = 1 ∧ q.tx = []) ∧
    (s.sendThrottled s.c.region = false ∧ s.canPublish 0 q.seq = true ∧ (s.bufferLines 0 q.seq).all (fun l => s.canUse (.cd 0) l true) = true ∧ s.c.mode = .run ∧
      s.fab.armed = [] ∧ s.isDue ⟨s.c.region.id, arm, 0, false⟩ = false) ∧ q.chip ≠ s.pkg.chipId := by decide +kernel
/-- NaNs of F32 and BF16; a stopped command; a triggered send whose checks pass; a collective's and a barrier's steps. -/
theorem test_witness_FabricSteps_more :
    let s := sending fun q => { q with op := 0x39, ctl := 1 }
    let q := s.c.queue.headD (s.bareCmd 0)
    let u := s.publish 0 (Pub.only 0 1) q.seq q.joined
    let e := withC (commanded fun q => { q with stop := some (0x0C, 3) }) id
    (0x7F800001 ∈ [0x3F800000, 0x7F800001] ∧ 0x7F800001 < 2 ^ 32 ∧ 0x7F800001 / 2 ^ 23 % 2 ^ 8 = 255 ∧ 0x7F800001 % 2 ^ 23 ≠ 0) ∧
    (0x7FC0 < 2 ^ 16 ∧ 0x7FC0 / 2 ^ 7 % 2 ^ 8 = 255 ∧ 0x7FC0 % 2 ^ 7 ≠ 0) ∧
    (q.op = 0x39 ∧ u.earlyBad 0 q (Config.freeWord u.fresh) = none) ∧
    ((e.errLines 0 0).all fun l => e.canUse (.cd 0) l true) = true ∧ e.c.mode = .run ∧
    ((commanded fun q => { q with flagged := true }).c.queue.map (·.flagged)) = [true] ∧ s.coherent = false ∧ s.tagsOut = [] ∧
    ((e.errWalks 0 0).all fun l => e.canUse (.cd 0) l false) = true := by
  decide +kernel
/-- A flag's page that may be written and one that may not, a flag written to a register window that no step awaits, the
homes of a collective's event, a supervisor that waits at a barrier, and the premise about memory. -/
theorem test_witness_FabricSteps_premises :
    let at' := fun (a : Word) => closed (commanded fun q => { q with
      done := 8, finished := true, flags := 2, flagged := true, dstGen := { q.dstGen with flagA := a, flagV := 9 } })
    let f := at' 0x400300
    let g := f.c.queue.headD (f.bareCmd 0)
    let h := at' 0x900000
    let d := collecting (reply 4 4 8)
    let b := atBarrier release bar4
    let w := withC b fun c => { c with barrier := none, supBarrier := some ⟨4, 0, false⟩ }
    f.flagBad 0 g = none ∧ (h.flagBad 0 (h.c.queue.headD (h.bareCmd 0))).isSome = true ∧ f.stepsOf (0, g.seq) = false ∧
    ((eventLines coll8.event).all fun l => d.canUse (d.homeOf l) l true) = true ∧ w.c.supBarrier = some ⟨4, 0, false⟩ ∧
    ([f, d, b, w, sending id, inFlight, arriving (packet id), tileArriving, gathering, answering (reply 4 8 0), linked (ready [])].all
      fun s => Memory.wf s.mem && !s.bundle.isOpen) = true := by decide +kernel
theorem test_witness_FabricSteps_packets :
    let s := arriving (packet id)
    let at3 : State := { s with move := { s.move with port := some 3 } }
    (s.move.port = none ∧ s.move.pkt ∈ s.fab.loop ∧ at3.pkg.ports.getLsbD 3 = true) ∧
    ((packet fun p => { p with version := 2 }).badHead = true ∧ (packet id).badHead = false) ∧
    (s.entryBad (packet id) 0 [0] = some 4 ∧ s.entryBad (packet id) 0 [] = none ∧ s.entryBad (packet id) 0x2100 [0] = none ∧
      s.entryBad (packet id) 0x0304 [] = none ∧ s.entryBad (packet id) 0x2400 [0] = none ∧ s.entryBad tilePacket 0x0500 [] = none ∧
      s.entryBad (part 2 5 []) 0x2202 [0] = none) ∧
    (s.regionById 6 = none ∧ s.regionById 5 = some region5 ∧ s.deliverBad region5 (packet id) = none ∧
      s.deliverBad region5 (packet fun p => { p with dst := 0x900000 }) = some 0x900000) ∧
    (s.deliverLines (packet id)).all (fun l => s.canUse (s.homeOf l) l true) = true ∧ (packet id).flagEn = false ∧
    ((packet id).dst.toNat % 4096 + 3 ≤ 4096 ∧ s.place (s.paOf none region5 0x400200 .write false) = .hbm) ∧
    (s.routeTo 0 none = some [0] ∧ (packet id).srcChip = 0) ∧
    (gathering.stageOf 8 0 = some stage8 ∧ mismatched (part 2 5 [0]) stage8.parts.head? = false ∧
      (gathering.windowOf 8 2).base = 0 ∧ (gathering.windowOf 8 2).bits.getLsbD 0 = false ∧
      (stage8.parts.all fun k => k.srcChip != 2) = true ∧ ¬stage8.parts.length + 1 < stage8.need ∧ gathering.portUp stage8.port = true ∧
      stage8.parts.length + 1 < 3) := by decide +kernel
theorem test_witness_FabricSteps_answers :
    let s := answering (reply 4 8 0)
    let k := s.c.queue.headD (s.bareCmd 0)
    let d := collecting (reply 4 4 8)
    let b := atBarrier release bar4
    (s.entryBad (reply 4 8 0) 0 [] = none ∧ s.txOwner 6 = some 0 ∧ k.isSend = true ∧ k.tx = [⟨0, 6, 0⟩] ∧ k.packets = 1 ∧ k.done = 0) ∧
    (d.stageOf 8 0 = none ∧ d.collOf 8 = some coll8 ∧ coll8.poisoned = false ∧ (coll8.chunks.all fun k => k.1.seq == 0) = true ∧
      coll8.chunks.find? (fun k => k.1.seq == 0 && k.2 != 0) = some (part 0 5 [0x2100, 0], 1) ∧ d.portUp (entPort 0x2100) = true) ∧
    ((bar4.chips ++ [arrival.srcChip]).length > bar4.nchip.toNat ∧ bar4.chips.length + 1 ≤ ({ bar4 with nchip := 1 } : Barrier).nchip.toNat) ∧
    (b.barrierOf 4 = bar4 ∧ release.seq = bar4.gen ∧ bar4.localN ≤ bar4.arrived ∧ bar4.arrived ≠ 0 ∧ b.time < release.flagV.toNat ∧
      ({ release with seq := 1 } : Packet).seq ≠ bar4.gen ∧ ({ release with flagV := 0 } : Packet).flagV.toNat ≤ b.time) ∧
    ({ bar4 with release := [(4600, 0)] } : Barrier).release[0]? = some (4600, 0) ∧ stage8.sent = false ∧
    (linked (ready [])).pkg.ports.getLsbD 3 = true ∧ (linked (ready [])).pkg.ports.getLsbD 5 = false ∧
    (coherentPkg (ready [])).pkg.stage = 4 := by decide +kernel

/-! ### Operands for the clauses about single pieces, retained commands and host programming -/

/-- One piece of a command of the copy engine; latent vector 3 is open. -/
def piece (f : Cmd → Cmd) : State :=
  let s := withC (commanded f) fun c => { c with regs := c.regs.lvset 3 { LatVec.fresh with isOpen := true, pend := 1 } }
  { s with move := { s.move with n := 1 } }
/-- R256 to R258: a piece of a COPY to memory; an addition in memory; one of a COPY into a latent vector, and one added there. -/
theorem test_pieces :
    leaves (exec .copyCommandExecute (piece id)) (fun t => memRead t.mem 0x400200 8 == 0x1122334455667788 && t.c.queue.map (·.done) == [8]) ∧
    leaves (exec .copyCommandExecute (piece fun q => { q with op := 0x12, flags := 32, len := 8 })) (fun t =>
      memRead t.mem 0x400200 8 == 0x55667788 && t.c.queue.map (·.done) == [4]) ∧
    leaves (exec .copyCommandExecute (piece fun q => { q with flags := 8, dstReg := 3, len := 256 })) (fun t =>
      (t.c.regs.lv.get 3).e.get 0 == 0x55667788 && t.c.queue.map (·.done) == [4]) ∧
    leaves (exec .copyCommandExecute (piece fun q => { q with op := 0x12, flags := 40, dstReg := 3, len := 256 })) (fun t =>
      (t.c.regs.lv.get 3).e.get 0 == 0x4EAACCEF && t.c.queue.map (·.done) == [4]) := by decide +kernel
/-- A piece of a COPYG: entry 0 of its table at 0x400 is 16, of scale 16, so that its row stands at 0x200. -/
def gathered : State :=
  let s := piece fun q => { q with
    op := 0x11
    table := memWrite [] 0x200000000400 4 16
    srcGen := { q.srcGen with ctrl := 0, pitch := 8, itab := 0x400, iscale := 16, count := q.srcGen.count.set 0 4 } }
  { s with mem := memWrite s.mem 0x200000000200 8 0x1020304050607080 }
theorem test_gathered : leaves (exec .copyCommandExecute gathered) (fun t => memRead t.mem 0x400200 8 == 0x1020304050607080) ∧
    (let q := gathered.c.queue.headD (gathered.bareCmd 0)
     ((gathered.tables 0 q).srcSide 0 q).rows = [0x8000000000000200]) := by decide +kernel
theorem test_witness_FabricSteps_piece :
    let s := piece id
    let q := s.c.queue.headD (s.bareCmd 0)
    let free := Config.freeWord s.fresh
    let A := (s.tables 0 q).srcSide free q
    let D := (s.tables 0 q).dstSide free q
    let l := piece fun q => { q with flags := 8, dstReg := 3, len := 256 }
    (q.op = 0x10 ∧ q.finished = false ∧ q.stop = none ∧ q.pages = [] ∧ s.exhausted s.c.region 0 = false ∧
      s.earlyBad 0 q free = none) ∧ (q.latent = false ∧ q.flag = false ∧ q.done = 0 ∧ q.len.toNat = 8 ∧ s.move.n = 1 ∧ s.tok.poison = []) ∧
    (A.len = 8 ∧ D.len = 8 ∧ A.local' = true ∧ D.local' = false) ∧
    ((List.range 8).all fun i => decide ((A.addr i - BitVec.twoPow 64 63).toNat = 0x100 + i) &&
      (s.translate (some 0) s.c.region ((D.addr 0).toNat % 2 ^ 48 + i) .write q.sup).toOption == some (0x400200 + i) &&
      plainPlace (s.place (0x400200 + i))) = true ∧ (D.addr 0).toNat % 4096 + 8 ≤ 4096 ∧
    ((s.newWalks 0 q (pieceVas q A D 0 8)).all fun k => s.canUse (.cd 0) k false) = true ∧
    s.canUse (.cd 0) (0x400200 / 128) true = true ∧ s.canUse (.cd 0) (scratchAddr 0 0x100 / 128) false = true ∧
    (let m := l.c.queue.headD (l.bareCmd 0)
     m.latent = true ∧ l.c.lvPending m = false ∧ l.earlyBad 0 m free = none) ∧
    ((A.addr 0).toNat % 4 = 0 ∧ 0 % A.len + 4 ≤ A.len ∧ (D.addr 0).toNat % 4 = 0) := by decide +kernel
/-- A barrier whose arrival has been released; a tree of a debug release that is derived, and a landing without one. -/
theorem test_witness_released :
    let s := withC event fun c => { c with barrier := some ⟨3, 0, true⟩ }
    let u := s.c.regs.tree
    (s.c.isSup = false ∧ s.c.barrier = some ⟨3, 0, true⟩) ∧ leaves (exec (.fbar 3) s) (fun t => t.c.barrier == none) = true ∧
    Tree.wellFormed u = true ∧ Tree.wellFormed (Tree.derive u) = true ∧
    (∀ w ∈ (⟨3, 1, 0, [.s 1 5], 0⟩ : Landing).writes, w ≠ Write.tree u) := by decide +kernel
/-- Queue 3 halted, its header at a home that lacks tokens. -/
def halting : State :=
  let s := coherentPkg halted3
  { s with tok := { s.tok with lines := [⟨0x400400 / 128, [⟨.cd 0, 1, false, true, false⟩, ⟨.md 0, 15, true, true, false⟩]⟩] } }
/-- R346, R355: QCTL of a queue whose header's home has still to gather tokens is kept, and its home asks for them. -/
theorem test_qctl_kept : leaves (exec .qctlSkip halting) (fun t => t.sched.cmds == [(3, true)] && !t.tok.needs.isEmpty &&
      (t.sched.queues.get 3).halted) ∧
    leaves (exec .qctlRetry halting) (fun t => t.sched.cmds == [(3, false)]) := by decide +kernel
theorem test_witness_SchedulerSteps_homes :
    let s := served launch2 [going true]
    let e := ended (served [7] [])
    let l := e.sched.launches.headD (going false)
    let b := bound fun c => { c with mode := .exiting 3 false }
    halting.canUse (halting.homeOf (0x400400 / 128)) (0x400400 / 128) true = false ∧ halting.sched.cmds = [] ∧
    s.canUse (s.homeOf (queue3.entry 0 / 128)) (queue3.entry 0 / 128) false = true ∧
    s.canUse (s.homeOf (0x400400 / 128)) (0x400400 / 128) true = true ∧
    ((e.completeLines l).all fun k => e.canUse (e.homeOf k) k true) = true ∧ b.canPublish 0 b.c.seq = true := by decide +kernel
/-- R441: the host programs HDMBASE, and then reads HBM there. A request whose need nothing but an access from outside asks
for. -/
theorem test_hdm_base : leaves (exec .hostWrite (hosted { Move.none with n := 0x100000000, flag := true })) (fun t =>
      t.pkg.hdmBase == 0x100000000 && t.mem == (hosted Move.none).mem) ∧
    (let s := hosted { Move.none with n := 0x100400100, x := 2 }
     leaves (exec .hostRead { s with pkg := { s.pkg with hdmBase := 0x100000000 } }) (fun t => t.pkg.hostData == [1, 0])) := by decide +kernel
theorem test_witness_TokenSteps_outside :
    let n : Need := { need true 1 with asked := [.outside] }
    let w := { tokens (.cd 0) (.md 0) fun t => { t with table := [request], lines := [holding 16 true], needs := [n] } with
      move := { (tokens (.cd 0) (.md 0) id).move with flag := true } }
    w.needOf (.cd 0) 0x8002 = some n ∧ n.met = false ∧ (w.move.flag = true ∧ ∀ a ∈ n.asked, a = .outside) ∧
    (w.holdOf (.cd 0) 0x8002).count = 16 := by decide +kernel

end Sys2Proof.Tests
end

section
/-! PROOFS. The SR format of the S slots (R58, R59), and MOVLI and DCHK (R104, R105). -/

namespace Sys2Proof

/-! ### Words of format SR -/

/-- A word of format SR by its fields, from the opcode down. -/
def srWord (op d a b : Nat) (g : Guard) (sub : Nat) : Nat := pack fmtSR [sub, g.n.toNat, g.p.val, b, a, d, op]

/-- The place of each field of format SR (R58). -/
theorem srWord_eq (op d a b : Nat) (g : Guard) (sub : Nat) :
    srWord op d a b g sub =
      op * 2 ^ 25 + d * 2 ^ 19 + a * 2 ^ 13 + b * 2 ^ 7 + g.p.val * 8 + g.n.toNat * 4 + sub := by
  simp only [srWord, pack, fmtSR]
  ring

/-- An SR word shows the decoder of the S slots its opcode. -/
theorem srWord_opcode {op d a b sub : Nat} {g : Guard} (h : Fits fmtSR [sub, g.n.toNat, g.p.val, b, a, d, op]) :
    srWord op d a b g sub / 2 ^ 25 % 128 = op := by
  obtain ⟨hsub, hn, hp, hb, ha, hd, hop, -⟩ := h
  rw [srWord_eq]
  omega

theorem unpack_srWord {op d a b sub : Nat} {g : Guard} (h : Fits fmtSR [sub, g.n.toNat, g.p.val, b, a, d, op]) :
    unpack fmtSR (srWord op d a b g sub) = [sub, g.n.toNat, g.p.val, b, a, d, op] := unpack_pack h

/-! ### The words of MOVLI and DCHK -/

theorem keep_movli (d : SReg) (lvl : BitVec 6) (g : Guard) :
    keep (.movli d lvl g) = if lvl.toNat ≤ 5 then .ok (.movli d lvl g) else .error .reserved := by
  simp only [keep, Instr.unreserved, decide_eq_true_eq, Nat.lt_succ_iff]

/-- Opcode 0x50: b and sub must be 0 and the level at most 5. -/
theorem decodeSlot_movli (d : SReg) (lvl : BitVec 6) (b : Fin 64) (g : Guard) (sub : Fin 4) :
    decodeSlot .s (srWord 0x50 d.val lvl.toNat b.val g sub.val) =
      if (sub = 0 ∧ b = 0) ∧ lvl.toNat ≤ 5 then .ok (.movli d lvl g) else .error .reserved := by
  have hfits : Fits fmtSR [sub.val, g.n.toNat, g.p.val, b.val, lvl.toNat, d.val, 0x50] :=
    ⟨sub.isLt, Bool.toNat_lt g.n, g.p.isLt, b.isLt, lvl.isLt, d.isLt, by decide, trivial⟩
  simp only [decodeSlot, decodeS, srWord_opcode hfits, unpack_srWord hfits, Bool.toNat_beq_one, Fin.ofNat_val_eq_self,
    BitVec.ofNat_toNat, BitVec.setWidth_eq, keep_movli, Fin.val_eq_zero_iff, ite_and]

/-- Opcode 0x51: d and sub must be 0. -/
theorem decodeSlot_dchk (d a b : SReg) (g : Guard) (sub : Fin 4) :
    decodeSlot .s (srWord 0x51 d.val a.val b.val g sub.val) =
      if sub = 0 ∧ d = 0 then .ok (.dchk a b g) else .error .reserved := by
  have hfits : Fits fmtSR [sub.val, g.n.toNat, g.p.val, b.val, a.val, d.val, 0x51] :=
    ⟨sub.isLt, Bool.toNat_lt g.n, g.p.isLt, b.isLt, a.isLt, d.isLt, by decide, trivial⟩
  have hkeep : keep (.dchk a b g) = .ok (.dchk a b g) := rfl
  simp only [decodeSlot, decodeS, srWord_opcode hfits, unpack_srWord hfits, Bool.toNat_beq_one, Fin.ofNat_val_eq_self, hkeep,
    Fin.val_eq_zero_iff]

end Sys2Proof

namespace Sys2Proof.Machine

open Sys2Proof

/-! ### What MOVLI and DCHK do where the guard is true -/

theorem State.guarded_of_true {s : State} {g : Guard} (go : State → State) (h : s.view.guard g = true) :
    s.guarded g go = .next (go s) := by
  simp only [State.guarded, h, if_true]

theorem exec_movli_active {s : State} {g : Guard} (d : SReg) {lvl : BitVec 6} {l : Loop} (hg : s.view.guard g = true)
    (hl : s.view.loops[lvl.toNat]? = some l) :
    exec (.movli d lvl g) s = .next (s.withResult 1 (sWrite d (BitVec.ofNat 64 l.index.toNat)) 0) :=
  calc exec (.movli d lvl g) s
      = execMovli d lvl g s := rfl
    _ = .next (s.emitS 1 d (l.index.setWidth 64)) := by simp only [execMovli, State.guarded_of_true _ hg, hl]
    _ = .next (s.withResult 1 (sWrite d (BitVec.ofNat 64 l.index.toNat)) 0) := by
      rw [State.emitS_eq, BitVec.ofNat_toNat]

theorem exec_movli_inactive {s : State} {g : Guard} (d : SReg) {lvl : BitVec 6} (hg : s.view.guard g = true)
    (hl : s.view.loops.length ≤ lvl.toNat) :
    exec (.movli d lvl g) s = .next (s.slotFault 0x11 (BitVec.ofNat 64 (256 * lvl.toNat + 3))) :=
  calc exec (.movli d lvl g) s
      = execMovli d lvl g s := rfl
    _ = .next (s.slotFault 0x11 (BitVec.ofNat 64 (lvl.toNat * 256 + 3))) := by
      simp only [execMovli, State.guarded_of_true _ hg, List.getElem?_eq_none hl]
    _ = .next (s.slotFault 0x11 (BitVec.ofNat 64 (256 * lvl.toNat + 3))) := by rw [Nat.mul_comm]

theorem exec_dchk {s : State} {g : Guard} (a b : SReg) (hg : s.view.guard g = true) :
    exec (.dchk a b g) s =
      .next (if s.view.sget a = s.view.sget b then s else s.slotFault 0x09 (s.view.sget a ^^^ s.view.sget b)) :=
  calc exec (.dchk a b g) s
      = execDchk a b g s := rfl
    _ = .next (if s.sv a = s.sv b then s else s.slotFault 0x09 (s.sv a ^^^ s.sv b)) := State.guarded_of_true _ hg

/-- Settles O6: a word decodes by the case of its opcode, MOVLI acts by whether its level is in the loop stack, and DCHK
by whether its two scalars are equal. -/
theorem movliAndDchk : Obligations.MovliAndDchk := by
  unfold Obligations.MovliAndDchk
  intro d a b lvl g sub s
  simp only [← srWord_eq]
  refine ⟨fun hl => ?_, fun h => ?_, ?_, fun h => ?_, fun hg => ⟨fun _ => ⟨fun l => ?_, ?_⟩, fun he => ?_, fun hne => ?_⟩⟩
  · exact (decodeSlot_movli d lvl 0 g 0).trans (if_pos ⟨⟨rfl, rfl⟩, hl⟩)
  · rw [decodeSlot_movli, if_neg]
    rintro ⟨⟨hsub, hb⟩, hl⟩
    rcases h with h | h | h
    · omega
    · exact h hb
    · exact h hsub
  · exact (decodeSlot_dchk 0 a b g 0).trans (if_pos ⟨rfl, rfl⟩)
  · rw [decodeSlot_dchk, if_neg]
    rintro ⟨hsub, hd⟩
    exact h.elim (absurd hd) (absurd hsub)
  · exact exec_movli_active d hg
  · exact exec_movli_inactive d hg
  · rw [exec_dchk a b hg, if_pos he]
  · rw [exec_dchk a b hg, if_neg hne]

end Sys2Proof.Machine
end

section
/-! PROOFS. The words that the spec writes out (R154, R200, R342, R382, R397, R421, R469), by the fields of their
instructions. Each lemma reads a word with the given fields, opcode last, to its instruction; `keep` is left to say whether
an operand is reserved. -/

namespace Sys2Proof

/-! ### The opcode of a word -/

theorem getLast?_unpack (k : Nat) (ks : List Nat) (w : Nat) :
    (unpack (k :: ks) w).getLast? = some (w / 2 ^ (k :: ks).dropLast.sum % 2 ^ (k :: ks).getLastD 0) := by
  induction ks generalizing k w with
  | nil => simp [unpack]
  | cons j ks ih =>
    have h := ih j (w / 2 ^ k)
    simp only [unpack] at h ⊢
    rw [List.getLast?_cons_cons, h]
    simp [Nat.div_div_eq_div_mul, pow_add]

/-- The decoder of a slot reads the opcode of a word where its format puts the last field. -/
theorem opcode_of_unpack {ks vs : List Nat} {w lo n op : Nat} (h : unpack ks w = vs) (hop : vs.getLast? = some op)
    (hlo : ks.dropLast.sum = lo) (hn : 2 ^ ks.getLastD 0 = n) : w / 2 ^ lo % n = op := by
  cases ks with
  | nil => simp [← h, unpack] at hop
  | cons k ks =>
    rw [← h, getLast?_unpack, hlo, hn] at hop
    exact Option.some.inj hop

section
variable {w : Nat}

/-! ### Syllables of the C slot (R57) -/

theorem decodeSlot_loopImm (count : BitVec 12) (len : BitVec 13) (h : unpack fmtCL0 w = [len.toNat, count.toNat, 0, 5]) :
    decodeSlot .c w = keep (.loopImm count len) := by
  have hop : w / 2 ^ 26 % 64 = 5 := opcode_of_unpack h rfl rfl rfl
  have hsrc : w / 2 ^ 25 % 2 = 0 := by
    simp only [fmtCL0, unpack, List.cons.injEq] at h
    omega
  simp only [decodeSlot, decodeC, hop, hsrc, h, BitVec.ofNat_toNat, BitVec.setWidth_eq, if_true]

theorem decodeSlot_marker (e : BitVec 26) (h : unpack fmtCN w = [e.toNat, 8]) :
    decodeSlot .c w = keep (.marker e) := by
  have hop : w / 2 ^ 26 % 64 = 8 := opcode_of_unpack h rfl rfl rfl
  simp only [decodeSlot, decodeC, hop, h, BitVec.ofNat_toNat, BitVec.setWidth_eq]

theorem decodeSlot_trap (code : BitVec 26) (h : unpack fmtCN w = [code.toNat, 11]) :
    decodeSlot .c w = keep (.trap code) := by
  have hop : w / 2 ^ 26 % 64 = 11 := opcode_of_unpack h rfl rfl rfl
  simp only [decodeSlot, decodeC, hop, h, BitVec.ofNat_toNat, BitVec.setWidth_eq]

theorem decodeSlot_bkpt (code : BitVec 26) (h : unpack fmtCN w = [code.toNat, 17]) :
    decodeSlot .c w = keep (.bkpt code) := by
  have hop : w / 2 ^ 26 % 64 = 17 := opcode_of_unpack h rfl rfl rfl
  simp only [decodeSlot, decodeC, hop, h, BitVec.ofNat_toNat, BitVec.setWidth_eq]

theorem decodeSlot_sysrd (s : SReg) (num : BitVec 12) (h : unpack fmtCS w = [0, num.toNat, s.val, 13]) :
    decodeSlot .c w = keep (.sysrd s num) := by
  have hop : w / 2 ^ 26 % 64 = 13 := opcode_of_unpack h rfl rfl rfl
  simp only [decodeSlot, decodeC, hop, h, BitVec.ofNat_toNat, BitVec.setWidth_eq, Fin.ofNat_val_eq_self, if_true]

theorem decodeSlot_syswr (s : SReg) (num : BitVec 12) (h : unpack fmtCS w = [0, num.toNat, s.val, 14]) :
    decodeSlot .c w = keep (.syswr s num) := by
  have hop : w / 2 ^ 26 % 64 = 14 := opcode_of_unpack h rfl rfl rfl
  simp only [decodeSlot, decodeC, hop, h, BitVec.ofNat_toNat, BitVec.setWidth_eq, Fin.ofNat_val_eq_self, if_true]

theorem decodeSlot_trace (s : SReg) (kind : BitVec 8) (h : unpack fmtCS w = [kind.toNat, 0, s.val, 18]) :
    decodeSlot .c w = keep (.trace s kind) := by
  have hop : w / 2 ^ 26 % 64 = 18 := opcode_of_unpack h rfl rfl rfl
  simp only [decodeSlot, decodeC, hop, h, BitVec.ofNat_toNat, BitVec.setWidth_eq, Fin.ofNat_val_eq_self, if_true]

/-! ### Syllables of the A slot (R60) -/

theorem decodeSlot_aidx (ad aa : AReg) (s : SReg) (g : Guard)
    (h : unpack fmtAA w = [0, g.n.toNat, g.p.val, s.val, aa.val, ad.val, 7]) :
    decodeSlot .a w = keep (.aidx ad aa s g) := by
  have hop : w / 2 ^ 26 % 64 = 7 := opcode_of_unpack h rfl rfl rfl
  simp only [decodeSlot, decodeA, hop, h, Bool.toNat_beq_one, Fin.ofNat_val_eq_self, if_true]

theorem decodeSlot_ld (s : SReg) (m : AMem) (sign : Bool)
    (h : unpack fmtAL w = [m.off.toNat, m.post.toNat, m.loc.toNat, sign.toNat, m.width.toNat, m.g.n.toNat, m.g.p.val, m.a.val,
      s.val, 16]) : decodeSlot .a w = keep (.ld s m sign) := by
  have hop : w / 2 ^ 26 % 64 = 16 := opcode_of_unpack h rfl rfl rfl
  simp only [decodeSlot, decodeA, hop, h, BitVec.ofNat_toNat, BitVec.setWidth_eq, Bool.toNat_beq_one, Fin.ofNat_val_eq_self]

/-! ### Syllables of the M slot (R61) -/

theorem decodeSlot_tld (t : TReg) (m : TMem)
    (h : unpack fmtMT w = [0, 0, m.g.n.toNat, m.g.p.val, m.post.toNat, 0, m.sel.toNat, m.a.val, t.val, 1]) :
    decodeSlot .m w = keep (.tld t m) := by
  have hop : w / 2 ^ 26 % 64 = 1 := opcode_of_unpack h rfl rfl rfl
  simp only [decodeSlot, decodeM, hop, h, BitVec.ofNat_toNat, BitVec.setWidth_eq, Bool.toNat_beq_one, Fin.ofNat_val_eq_self,
    and_self, if_true]

theorem decodeSlot_tst (t : TReg) (m : TMem) (port : Port)
    (h : unpack fmtMT w = [0, port.toNat, m.g.n.toNat, m.g.p.val, m.post.toNat, 0, m.sel.toNat, m.a.val, t.val, 2]) :
    decodeSlot .m w = keep (.tst t m port) := by
  have hop : w / 2 ^ 26 % 64 = 2 := opcode_of_unpack h rfl rfl rfl
  simp only [decodeSlot, decodeM, hop, h, BitVec.ofNat_toNat, BitVec.setWidth_eq, Bool.toNat_beq_one, Fin.ofNat_val_eq_self,
    and_self, if_true]

theorem decodeSlot_tldl (t : TReg) (m : TMem) (swz : Bool)
    (h : unpack fmtMT w = [0, 0, m.g.n.toNat, m.g.p.val, m.post.toNat, swz.toNat, m.sel.toNat, m.a.val, t.val, 3]) :
    decodeSlot .m w = keep (.tldl t m swz) := by
  have hop : w / 2 ^ 26 % 64 = 3 := opcode_of_unpack h rfl rfl rfl
  simp only [decodeSlot, decodeM, hop, h, BitVec.ofNat_toNat, BitVec.setWidth_eq, Bool.toNat_beq_one, Fin.ofNat_val_eq_self,
    and_self, if_true]

theorem decodeSlot_copyg (o : CopyOps) (flags : BitVec 6)
    (h : unpack fmtMC w = [flags.toNat, o.len.val, o.src.val, o.dst.val, o.tok.val, 17]) :
    decodeSlot .m w = keep (.copyg o flags) := by
  have hop : w / 2 ^ 26 % 64 = 17 := opcode_of_unpack h rfl rfl rfl
  simp only [decodeSlot, decodeM, hop, h, BitVec.ofNat_toNat, BitVec.setWidth_eq, Fin.ofNat_val_eq_self]

theorem decodeSlot_send (o : CopyOps) (flags : BitVec 6)
    (h : unpack fmtMC w = [flags.toNat, o.len.val, o.src.val, o.dst.val, o.tok.val, 56]) :
    decodeSlot .m w = keep (.send o flags) := by
  have hop : w / 2 ^ 26 % 64 = 56 := opcode_of_unpack h rfl rfl rfl
  simp only [decodeSlot, decodeM, hop, h, BitVec.ofNat_toNat, BitVec.setWidth_eq, Fin.ofNat_val_eq_self]

theorem decodeSlot_amo (d : SReg) (a : AReg) (s : SReg) (op : BitVec 4) (size order scope : BitVec 2)
    (h : unpack fmtMA w = [scope.toNat, order.toNat, size.toNat, op.toNat, s.val, a.val, d.val, 40]) :
    decodeSlot .m w = keep (.amo d a s op size order scope) := by
  have hop : w / 2 ^ 26 % 64 = 40 := opcode_of_unpack h rfl rfl rfl
  simp only [decodeSlot, decodeM, hop, h, BitVec.ofNat_toNat, BitVec.setWidth_eq, Fin.ofNat_val_eq_self]

/-- Bit 2 of an ENGRS word tells the resume from the cancel. -/
theorem decodeSlot_engrs (ctx : BitVec 2) (h : unpack fmtMP w = [ctx.toNat, 0, 0, 20]) :
    decodeSlot .m w = keep (.engrs ctx) := by
  have hop : w / 2 ^ 26 % 64 = 20 := opcode_of_unpack h rfl rfl rfl
  have hresume : w / 4 % 2 = 0 := by
    simp only [fmtMP, unpack, List.cons.injEq] at h
    omega
  simp only [decodeSlot, decodeM, hop, hresume, h, ctx.isLt, BitVec.ofNat_toNat, BitVec.setWidth_eq, and_self, if_true]

theorem decodeSlot_fbar (n : BitVec 8) (h : unpack fmtMP w = [n.toNat, 0, 0, 59]) :
    decodeSlot .m w = keep (.fbar n) := by
  have hop : w / 2 ^ 26 % 64 = 59 := opcode_of_unpack h rfl rfl rfl
  have hn : n.toNat < 256 := n.isLt
  simp only [decodeSlot, decodeM, hop, h, hn, BitVec.ofNat_toNat, BitVec.setWidth_eq, and_self, if_true]

theorem decodeSlot_rpost (s : SReg) (chip : BitVec 12) (rx : BitVec 6)
    (h : unpack fmtMP w = [chip.toNat * 64 + rx.toNat, s.val, 0, 60]) :
    decodeSlot .m w = keep (.rpost s chip rx) := by
  have hop : w / 2 ^ 26 % 64 = 60 := opcode_of_unpack h rfl rfl rfl
  have hchip : (chip.toNat * 64 + rx.toNat) / 64 = chip.toNat := by omega
  have hrx : (chip.toNat * 64 + rx.toNat) % 64 = rx.toNat := by omega
  simp only [decodeSlot, decodeM, hop, h, hchip, hrx, BitVec.ofNat_toNat, BitVec.setWidth_eq, Fin.ofNat_val_eq_self, if_true]

/-! ### Syllables of the V slots (R62 to R65) -/

theorem decodeSlot_rrot (td : TReg) (ta : TSrc) (s : SReg) (imm : BitVec 8) (v : VCtl)
    (h : unpack fmtVS w = [v.p.val, v.k.val, v.sel.toNat, 0, imm.toNat, s.val, ta.port.toNat, ta.t.val, td.val, 48]) :
    decodeSlot .v w = keep (.rrot td ta s imm v) := by
  have hop : w / 2 ^ 41 % 128 = 48 := opcode_of_unpack h rfl rfl rfl
  simp only [decodeSlot, decodeV, hop, h, BitVec.ofNat_toNat, BitVec.setWidth_eq, Fin.ofNat_val_eq_self, if_true]

theorem decodeSlot_treebias (td : TReg) (blk : Fin 4) (p : PReg)
    (h : unpack fmtVU w = [p.val, 0, 31, blk.val, 0, 0, 0, 0, td.val, 100]) :
    decodeSlot .v w = keep (.treebias td blk p) := by
  have hop : w / 2 ^ 41 % 128 = 100 := opcode_of_unpack h rfl rfl rfl
  simp only [decodeSlot, decodeV, hop, h, blk.isLt, Fin.ofNat_val_eq_self, and_self, if_true]

theorem decodeSlot_treeprune (td : TReg) (s : SReg) (row : Fin 16) (p : PReg)
    (h : unpack fmtVS w = [p.val, 0, 31, 0, row.val, s.val, 0, 0, td.val, 102]) :
    decodeSlot .v w = keep (.treeprune td s row p) := by
  have hop : w / 2 ^ 41 % 128 = 102 := opcode_of_unpack h rfl rfl rfl
  simp only [decodeSlot, decodeV, hop, h, row.isLt, Fin.ofNat_val_eq_self, and_self, if_true]

/-! ### Syllables of the F and Q slots (R66, R68) -/

theorem decodeSlot_fexp2 (td : TReg) (ta : TSrc) (v : VCtl)
    (h : unpack fmtF w = [0, v.p.val, v.k.val, v.sel.toNat, ta.port.toNat, ta.t.val, td.val, 1]) :
    decodeSlot .f w = keep (.fexp2 td ta v) := by
  have hop : w / 2 ^ 26 % 64 = 1 := opcode_of_unpack h rfl rfl rfl
  simp only [decodeSlot, decodeF, hop, h, BitVec.ofNat_toNat, BitVec.setWidth_eq, Fin.ofNat_val_eq_self, if_true]

theorem decodeSlot_frsqrt (td : TReg) (ta : TSrc) (v : VCtl)
    (h : unpack fmtF w = [0, v.p.val, v.k.val, v.sel.toNat, ta.port.toNat, ta.t.val, td.val, 4]) :
    decodeSlot .f w = keep (.frsqrt td ta v) := by
  have hop : w / 2 ^ 26 % 64 = 4 := opcode_of_unpack h rfl rfl rfl
  simp only [decodeSlot, decodeF, hop, h, BitVec.ofNat_toNat, BitVec.setWidth_eq, Fin.ofNat_val_eq_self, if_true]

theorem decodeSlot_mmact (cd : CReg) (ta : TSrc) (asel wsel : BitVec 5) (r : Rep) (p : PReg)
    (h : unpack fmtQ w = [0, p.val, r.inc.toNat, r.a.val, r.rep.toNat, wsel.toNat, asel.toNat, ta.port.toNat, ta.t.val, cd.val,
      8]) : decodeSlot .q w = keep (.mmact cd ta asel wsel r p) := by
  have hop : w / 2 ^ 42 % 64 = 8 := opcode_of_unpack h rfl rfl rfl
  simp only [decodeSlot, decodeQ, hop, h, BitVec.ofNat_toNat, BitVec.setWidth_eq, Fin.ofNat_val_eq_self, if_true]

end

/-! ### The words of the spec -/

/-- Settles O15: the fields of each word are the operands of its instruction, none of them reserved, under the instruction's
opcode. -/
theorem wordsOfTheSpec : Obligations.WordsOfTheSpec := by
  unfold Obligations.WordsOfTheSpec
  exact ⟨decodeSlot_tld 1 ⟨0, 31, false, ⟨0, false⟩⟩ rfl, decodeSlot_tst 2 ⟨1, 31, false, ⟨0, false⟩⟩ 0 rfl,
    decodeSlot_tldl 3 ⟨4, 2, true, ⟨0, false⟩⟩ true rfl, decodeSlot_fexp2 10 ⟨9, 0⟩ ⟨31, 0, 0⟩ rfl,
    decodeSlot_frsqrt 12 ⟨11, 2⟩ ⟨3, 1, 2⟩ rfl, decodeSlot_mmact 0 ⟨0, 2⟩ 31 31 ⟨0, 0, 0⟩ 0 rfl,
    decodeSlot_rrot 9 ⟨8, 0⟩ 0 7 ⟨31, 0, 0⟩ rfl, decodeSlot_treebias 8 0 0 rfl, decodeSlot_trap 5 rfl,
    decodeSlot_sysrd 5 0x001 rfl, decodeSlot_syswr 9 0x000 rfl, decodeSlot_sysrd 6 0x003 rfl, decodeSlot_syswr 7 0x002 rfl,
    decodeSlot_fexp2 24 ⟨21, 0⟩ ⟨31, 0, 0⟩ rfl, decodeSlot_loopImm 6 15 rfl, decodeSlot_treeprune 11 22 0 0 rfl,
    decodeSlot_marker 201 rfl, decodeSlot_syswr 3 0x080 rfl, decodeSlot_sysrd 4 0x088 rfl, decodeSlot_loopImm 4 20 rfl,
    decodeSlot_ld 26 ⟨1, ⟨0, false⟩, 3, false, true, 1⟩ false rfl, decodeSlot_aidx 4 11 16 ⟨0, false⟩ rfl,
    decodeSlot_amo 0 5 12 0 1 3 1 rfl, decodeSlot_copyg ⟨26, 13, 12, 25⟩ 0 rfl, decodeSlot_engrs 2 rfl,
    decodeSlot_send ⟨10, 2, 3, 11⟩ 0 rfl, decodeSlot_rpost 7 12 4 rfl, decodeSlot_fbar 3 rfl, decodeSlot_trace 5 7 rfl,
    decodeSlot_bkpt 3 rfl⟩

end Sys2Proof
end
